-- ==== Sys2Proof/Word.lean ====
section
/-!
DEFINITION. Sys2Proof/Word.lean: the widths of the data of the 386 DX (R7) and their plainest arithmetic.
-/
namespace Sys2Proof

/-- A byte, 8 bits (R7). -/
abbrev Byte := BitVec 8
/-- A word of the manual, 16 bits (R7). Also a segment selector (R120). -/
abbrev Half := BitVec 16
/-- A doubleword of the manual, 32 bits (R7): a general register, an offset, a linear address. -/
abbrev Word := BitVec 32

/-- The width of a data operand: byte, word, doubleword (R103). -/
inductive Width where
  | b | w | d
deriving DecidableEq, Repr

/-- How many bits an operand of this width has. -/
def Width.bits : Width → Nat
  | .b => 8
  | .w => 16
  | .d => 32

/-- How many bytes an operand of this width has. -/
def Width.bytes : Width → Nat
  | .b => 1
  | .w => 2
  | .d => 4

/-- A size attribute, 16 or 32 bits: operand size, address size, stack address size (R203, R204). -/
inductive Sz where
  | s16 | s32
deriving DecidableEq, Repr

/-- The width of an operand of this size attribute. -/
def Sz.width : Sz → Width
  | .s16 => .w
  | .s32 => .d

/-- The greatest offset of this address size (R104, D7). -/
def Sz.top : Sz → Nat
  | .s16 => 0xFFFF
  | .s32 => 0xFFFFFFFF

/-- The other size: what a 66H or 67H byte makes of the default (R203). -/
def Sz.other : Sz → Sz
  | .s16 => .s32
  | .s32 => .s16

end Sys2Proof
end

