-- ==== Sys2Proof/Syntax.lean ====
section
/-!
DEFINITION. Sys2Proof/Syntax.lean: the instructions of spec/opcode_table.json (R250 to R252) and their operands.

One constructor per mnemonic of the table; a mnemonic with several kinds of operands is split (MOV, PUSH, POP, IMUL,
CALL, JMP, RET). An operand-form type has one constructor per row of the table, so that (constructor, form) names the
row. The prefixes are rows of the table and constructors here: each is one step that records itself (log 6).

A size attribute an instruction depends on (R203) is an argument: `z` the operand size, `a` the address size. A memory
operand keeps the shape of its ModR/M and SIB bytes (R210 to R225), so that a term names its bytes.
-/
namespace Sys2Proof

/-- The general registers of a 16- or 32-bit operand (R12): AX/EAX, CX/ECX, ... in the order of their codes. -/
inductive Gpr where
  | ax | cx | dx | bx | sp | bp | si | di
deriving DecidableEq, Repr

/-- The 8-bit registers (R13), in the order of their codes. -/
inductive Gpr8 where
  | al | cl | dl | bl | ah | ch | dh | bh
deriving DecidableEq, Repr

/-- The segment registers (R20), in the order of their codes. -/
inductive Sreg where
  | es | cs | ss | ds | fs | gs
deriving DecidableEq, Repr

/-- The control registers MOV can name (R235). -/
inductive Creg where
  | cr0 | cr2 | cr3
deriving DecidableEq, Repr

/-- The debug registers MOV can name (R235). -/
inductive Dreg where
  | dr0 | dr1 | dr2 | dr3 | dr6 | dr7
deriving DecidableEq, Repr

/-- The test registers MOV can name (R235). -/
inductive Treg where
  | tr6 | tr7
deriving DecidableEq, Repr

/-- The condition codes, in the order of the tttn field (R260). -/
inductive Cond where
  | o | no | b | nb | e | ne | be | nbe | s | ns | p | np | l | nl | le | nle
deriving DecidableEq, Repr

/-- The register sums of a 16-bit address, in the order of the r/m field (R220). -/
inductive Base16 where
  | bxsi | bxdi | bpsi | bpdi | si | di | bp | bx
deriving DecidableEq, Repr

/-- The displacement of a 16-bit address: mod 00, 01, 10 (R220). -/
inductive Disp16 where
  | none
  | d8 (v : Byte)
  | d16 (v : Half)
deriving DecidableEq, Repr

/-- The displacement of a 32-bit address: mod 00, 01, 10 (R224, R225). -/
inductive Disp32 where
  | none
  | d8 (v : Byte)
  | d32 (v : Word)
deriving DecidableEq, Repr

/-- A memory operand named by ModR/M and SIB bytes. -/
inductive Mem where
  /-- Address size 16: a register sum and a displacement (R220). -/
  | m16 (base : Base16) (disp : Disp16)
  /-- Address size 16, mod = 00, r/m = 110: disp16 alone (R220). -/
  | abs16 (a : Half)
  /-- Address size 32 without SIB byte: a base register and a displacement (R224). -/
  | m32 (base : Gpr) (disp : Disp32)
  /-- Address size 32, mod = 00, r/m = 101: disp32 alone (R224). -/
  | abs32 (a : Word)
  /-- Address size 32 with an SIB byte: base (`none`: base = 101 with mod = 00), index (`none`: index = 100), ss (R225). -/
  | sib (base : Option Gpr) (index : Option Gpr) (scale : BitVec 2) (disp : Disp32)
deriving DecidableEq, Repr

/-- An 8-bit operand named by ModR/M (Eb). -/
inductive Rm8 where
  | reg (r : Gpr8)
  | mem (m : Mem)
deriving DecidableEq, Repr

/-- A 16- or 32-bit operand named by ModR/M (Ev, Ew). -/
inductive Rm where
  | reg (r : Gpr)
  | mem (m : Mem)
deriving DecidableEq, Repr

/-- The nine rows of ADD, OR, ADC, SBB, AND, SUB, XOR, CMP. -/
inductive AluForm where
  | mr8 (d : Rm8) (r : Gpr8)              -- 00: Eb,Gb
  | mr (z : Sz) (d : Rm) (r : Gpr)        -- 01: Ev,Gv
  | rm8 (r : Gpr8) (o : Rm8)              -- 02: Gb,Eb
  | rm (z : Sz) (r : Gpr) (o : Rm)        -- 03: Gv,Ev
  | ai8 (imm : Byte)                      -- 04: AL,Ib
  | ai (z : Sz) (imm : Word)              -- 05: eAX,Iv
  | mi8 (d : Rm8) (imm : Byte)            -- 80: Eb,Ib
  | mi (z : Sz) (d : Rm) (imm : Word)     -- 81: Ev,Iv
  | mib (z : Sz) (d : Rm) (imm : Byte)    -- 83: Ev,Ib sign-extended
deriving DecidableEq, Repr

/-- The six rows of TEST. -/
inductive TestForm where
  | mr8 (d : Rm8) (r : Gpr8)              -- 84
  | mr (z : Sz) (d : Rm) (r : Gpr)        -- 85
  | ai8 (imm : Byte)                      -- A8
  | ai (z : Sz) (imm : Word)              -- A9
  | mi8 (d : Rm8) (imm : Byte)            -- F6 /0
  | mi (z : Sz) (d : Rm) (imm : Word)     -- F7 /0
deriving DecidableEq, Repr

/-- The rows of MOV between general registers, memory and immediates (R303 to R306). -/
inductive MovForm where
  | mr8 (d : Rm8) (r : Gpr8)              -- 88
  | mr (z : Sz) (d : Rm) (r : Gpr)        -- 89
  | rm8 (r : Gpr8) (o : Rm8)              -- 8A
  | rm (z : Sz) (r : Gpr) (o : Rm)        -- 8B
  | loadA8 (a : Sz) (off : Word)          -- A0: AL,Ob
  | loadA (z a : Sz) (off : Word)         -- A1: eAX,Ov
  | storeA8 (a : Sz) (off : Word)         -- A2: Ob,AL
  | storeA (z a : Sz) (off : Word)        -- A3: Ov,eAX
  | ri8 (r : Gpr8) (imm : Byte)           -- B0+rb
  | ri (z : Sz) (r : Gpr) (imm : Word)    -- B8+rw|rd
  | mi8 (d : Rm8) (imm : Byte)            -- C6 /0
  | mi (z : Sz) (d : Rm) (imm : Word)     -- C7 /0
deriving DecidableEq, Repr

/-- The rows of PUSH of a general register, memory or an immediate (R310). -/
inductive PushForm where
  | r (z : Sz) (r : Gpr)                  -- 50+
  | immv (z : Sz) (imm : Word)            -- 68
  | immb (z : Sz) (imm : Byte)            -- 6A
  | rm (z : Sz) (o : Rm)                  -- FF /6
deriving DecidableEq, Repr

/-- The rows of POP to a general register or memory (R312). -/
inductive PopForm where
  | r (z : Sz) (r : Gpr)                  -- 58+
  | rm (z : Sz) (d : Rm)                  -- 8F /0
deriving DecidableEq, Repr

/-- The rows of INC and DEC. -/
inductive IncForm where
  | r (z : Sz) (r : Gpr)                  -- 40+, 48+
  | rm8 (d : Rm8)                         -- FE /0, /1
  | rm (z : Sz) (d : Rm)                  -- FF /0, /1
deriving DecidableEq, Repr

/-- One ModR/M operand, byte or full size: NOT, NEG, MUL, IMUL, DIV, IDIV. -/
inductive UnForm where
  | rm8 (d : Rm8)                         -- F6
  | rm (z : Sz) (d : Rm)                  -- F7
deriving DecidableEq, Repr

/-- The two rows of the three-operand IMUL. -/
inductive Imul3Form where
  | immv (z : Sz) (r : Gpr) (o : Rm) (imm : Word)   -- 69
  | immb (z : Sz) (r : Gpr) (o : Rm) (imm : Byte)   -- 6B
deriving DecidableEq, Repr

/-- The count of a shift or rotate (R405). -/
inductive Count where
  | imm (v : Byte)                        -- C0, C1
  | one                                   -- D0, D1
  | cl                                    -- D2, D3
deriving DecidableEq, Repr

/-- The six rows of a shift or rotate. -/
inductive ShiftForm where
  | rm8 (d : Rm8) (c : Count)
  | rm (z : Sz) (d : Rm) (c : Count)
deriving DecidableEq, Repr

/-- The count of SHLD and SHRD. -/
inductive DCount where
  | imm (v : Byte)
  | cl
deriving DecidableEq, Repr

/-- The rows of BT, BTS, BTR, BTC: a register or an immediate bit offset (R394). -/
inductive BtForm where
  | r (z : Sz) (o : Rm) (i : Gpr)
  | i (z : Sz) (o : Rm) (imm : Byte)
deriving DecidableEq, Repr

/-- The rows of XCHG. -/
inductive XchgForm where
  | rm8 (o : Rm8) (r : Gpr8)              -- 86
  | rm (z : Sz) (o : Rm) (r : Gpr)        -- 87
  | acc (z : Sz) (r : Gpr)                -- 91 to 97
deriving DecidableEq, Repr

/-- The rows of MOVZX and MOVSX. -/
inductive ExtForm where
  | b (z : Sz) (r : Gpr) (o : Rm8)        -- B6, BE
  | w (z : Sz) (r : Gpr) (o : Rm)         -- B7, BF
deriving DecidableEq, Repr

/-- A relative target: rel8, or rel16/rel32 by operand size (R231). -/
inductive Rel where
  | short (v : Byte)
  | near (v : Word)
deriving DecidableEq, Repr

/-- A near target of CALL and JMP: relative, or a register or memory operand. -/
inductive NearForm where
  | rel (z : Sz) (r : Rel)                -- E8; EB, E9
  | rm (z : Sz) (o : Rm)                  -- FF /2; FF /4
deriving DecidableEq, Repr

/-- A far target: in the instruction or in memory (R231). -/
inductive FarForm where
  | ptr (z : Sz) (sel : Half) (off : Word)  -- 9A; EA
  | mem (z : Sz) (m : Mem)                  -- FF /3; FF /5
deriving DecidableEq, Repr

/-- The port of IN and OUT: an immediate byte or DX (R170). -/
inductive Port where
  | imm (p : Byte)
  | dx
deriving DecidableEq, Repr

/-- The opcodes reserved by Intel (R256). -/
inductive Reserved where
  | o82 | oD6 | oF1 | o0F07 | o0F10 | o0F11 | o0F12 | o0F13
  | c0 (mod : BitVec 2) (rm : BitVec 3)
  | c1 (mod : BitVec 2) (rm : BitVec 3)
  | d0 (mod : BitVec 2) (rm : BitVec 3)
  | d1 (mod : BitVec 2) (rm : BitVec 3)
  | d2 (mod : BitVec 2) (rm : BitVec 3)
  | d3 (mod : BitVec 2) (rm : BitVec 3)
  | f6 (mod : BitVec 2) (rm : BitVec 3)
  | f7 (mod : BitVec 2) (rm : BitVec 3)
deriving DecidableEq, Repr

/-- The instructions. -/
inductive Instr where
  -- prefixes (R202)
  | segEs | segCs | segSs | segDs | segFs | segGs
  | opsize | adrsize | lock | repne | rep
  -- data movement (40)
  | mov (f : MovForm)
  | movFromSreg (z : Sz) (d : Rm) (s : Sreg)      -- 8C
  | movToSreg (s : Sreg) (o : Rm)                 -- 8E
  | push (f : PushForm)
  | pushSreg (z : Sz) (s : Sreg)                  -- 06 0E 16 1E 0FA0 0FA8
  | pop (f : PopForm)
  | popSreg (z : Sz) (s : Sreg)                   -- 07 17 1F 0FA1 0FA9
  | pusha (z : Sz) | popa (z : Sz)
  | xchg (f : XchgForm)
  | movsx (f : ExtForm) | movzx (f : ExtForm)
  | cbw (z : Sz) | cwd (z : Sz)
  -- binary arithmetic (41)
  | add (f : AluForm) | adc (f : AluForm) | sub (f : AluForm) | sbb (f : AluForm) | cmp (f : AluForm)
  | inc (f : IncForm) | dec (f : IncForm)
  | neg (f : UnForm)
  | mul (f : UnForm) | div (f : UnForm) | idiv (f : UnForm)
  | imul1 (f : UnForm) | imul2 (z : Sz) (r : Gpr) (o : Rm) | imul3 (f : Imul3Form)
  -- decimal arithmetic (42)
  | daa | das | aaa | aas | aam (imm : Byte) | aad (imm : Byte)
  -- logical, bit, shift, rotate (43)
  | and (f : AluForm) | or (f : AluForm) | xor (f : AluForm) | not (f : UnForm) | test (f : TestForm)
  | bt (f : BtForm) | bts (f : BtForm) | btr (f : BtForm) | btc (f : BtForm)
  | bsf (z : Sz) (r : Gpr) (o : Rm) | bsr (z : Sz) (r : Gpr) (o : Rm)
  | rol (f : ShiftForm) | ror (f : ShiftForm) | rcl (f : ShiftForm) | rcr (f : ShiftForm)
  | shl (f : ShiftForm) | shr (f : ShiftForm) | sar (f : ShiftForm)
  | shld (z : Sz) (o : Rm) (r : Gpr) (c : DCount) | shrd (z : Sz) (o : Rm) (r : Gpr) (c : DCount)
  | setcc (c : Cond) (d : Rm8)
  -- control transfer (44)
  | jcc (z : Sz) (c : Cond) (r : Rel)
  | jmpNear (f : NearForm) | jmpFar (f : FarForm)
  | callNear (f : NearForm) | callFar (f : FarForm)
  | retNear (z : Sz) (n : Option Half) | retFar (z : Sz) (n : Option Half)
  | loop (z a : Sz) (v : Byte) | loope (z a : Sz) (v : Byte) | loopne (z a : Sz) (v : Byte) | jcxz (z a : Sz) (v : Byte)
  -- software interrupts (45)
  | int3 | int (v : Byte) | into | iret (z : Sz) | bound (z : Sz) (r : Gpr) (m : Mem)
  -- strings (46)
  | movsb (a : Sz) | movsv (z a : Sz) | cmpsb (a : Sz) | cmpsv (z a : Sz) | scasb (a : Sz) | scasv (z a : Sz)
  | lodsb (a : Sz) | lodsv (z a : Sz) | stosb (a : Sz) | stosv (z a : Sz)
  | insb (a : Sz) | insv (z a : Sz) | outsb (a : Sz) | outsv (z a : Sz)
  -- block structure, flags, miscellaneous (47)
  | enter (z : Sz) (size : Half) (level : Byte) | leave (z : Sz)
  | clc | stc | cmc | cld | std | cli | sti
  | lahf | sahf | pushf (z : Sz) | popf (z : Sz)
  | lea (z : Sz) (r : Gpr) (m : Mem) | nop | xlat (a : Sz)
  | esc (opc : BitVec 3) (ext : BitVec 3) (o : Rm) | wait
  -- segment registers and I/O (48)
  | lds (z : Sz) (r : Gpr) (m : Mem) | les (z : Sz) (r : Gpr) (m : Mem) | lfs (z : Sz) (r : Gpr) (m : Mem)
  | lgs (z : Sz) (r : Gpr) (m : Mem) | lss (z : Sz) (r : Gpr) (m : Mem)
  | inp (n : Width) (p : Port) | outp (n : Width) (p : Port)
  -- system (49)
  | lgdt (z : Sz) (m : Mem) | lidt (z : Sz) (m : Mem) | sgdt (z : Sz) (m : Mem) | sidt (z : Sz) (m : Mem)
  | lldt (o : Rm) | sldt (d : Rm) | ltr (o : Rm) | str (d : Rm)
  | lmsw (o : Rm) | smsw (d : Rm) | clts | hlt
  | movFromCr (r : Gpr) (c : Creg) | movToCr (c : Creg) (r : Gpr)
  | movFromDr (r : Gpr) (d : Dreg) | movToDr (d : Dreg) (r : Gpr)
  | movFromTr (r : Gpr) (t : Treg) | movToTr (t : Treg) (r : Gpr)
  | lar (z : Sz) (r : Gpr) (o : Rm) | lsl (z : Sz) (r : Gpr) (o : Rm)
  | verr (o : Rm) | verw (o : Rm) | arpl (d : Rm) (r : Gpr)
  -- reserved by Intel (R256)
  | intelReserved (k : Reserved)
deriving DecidableEq, Repr

end Sys2Proof
end

