-- ==== Sys2Proof/WellFormed.lean ====
section
/-!
DEFINITION. Sys2Proof/WellFormed.lean: which terms of `Instr` are instructions, under the operand size `os` and the
address size `as` of the place they stand at (R203). A term that is not well-formed has no encoding there: an immediate
wider than its operand, a memory operand of the other address size, a register the encoding cannot name.
-/
namespace Sys2Proof

/-- The value fits the size (R230). -/
def Sz.fits (z : Sz) (v : Word) : Bool :=
  match z with
  | .s16 => v.toNat < 65536
  | .s32 => true

/-- A memory operand that ModR/M and SIB bytes of this address size can name (R220 to R225). -/
def Mem.wf (as : Sz) : Mem → Bool
  | .m16 base disp => as == .s16 && !(base == .bp && disp == .none)
  | .abs16 _ => as == .s16
  | .m32 base disp => as == .s32 && base != .sp && !(base == .bp && disp == .none)
  | .abs32 _ => as == .s32
  | .sib base index _ disp =>
    as == .s32 && index != some .sp &&
      (match base, disp with
       | none, .d32 _ => true
       | none, _ => false
       | some .bp, .none => false
       | some _, _ => true)

def Rm8.wf (as : Sz) : Rm8 → Bool
  | .reg _ => true
  | .mem m => m.wf as

def Rm.wf (as : Sz) : Rm → Bool
  | .reg _ => true
  | .mem m => m.wf as

def AluForm.wf (os as : Sz) : AluForm → Bool
  | .mr8 d _ => d.wf as
  | .mr z d _ => z == os && d.wf as
  | .rm8 _ o => o.wf as
  | .rm z _ o => z == os && o.wf as
  | .ai8 _ => true
  | .ai z imm => z == os && z.fits imm
  | .mi8 d _ => d.wf as
  | .mi z d imm => z == os && d.wf as && z.fits imm
  | .mib z d _ => z == os && d.wf as

def TestForm.wf (os as : Sz) : TestForm → Bool
  | .mr8 d _ => d.wf as
  | .mr z d _ => z == os && d.wf as
  | .ai8 _ => true
  | .ai z imm => z == os && z.fits imm
  | .mi8 d _ => d.wf as
  | .mi z d imm => z == os && d.wf as && z.fits imm

def MovForm.wf (os as : Sz) : MovForm → Bool
  | .mr8 d _ => d.wf as
  | .mr z d _ => z == os && d.wf as
  | .rm8 _ o => o.wf as
  | .rm z _ o => z == os && o.wf as
  | .loadA8 a off => a == as && a.fits off
  | .loadA z a off => z == os && a == as && a.fits off
  | .storeA8 a off => a == as && a.fits off
  | .storeA z a off => z == os && a == as && a.fits off
  | .ri8 _ _ => true
  | .ri z _ imm => z == os && z.fits imm
  | .mi8 d _ => d.wf as
  | .mi z d imm => z == os && d.wf as && z.fits imm

def PushForm.wf (os as : Sz) : PushForm → Bool
  | .r z _ => z == os
  | .immv z imm => z == os && z.fits imm
  | .immb z _ => z == os
  | .rm z o => z == os && o.wf as

def PopForm.wf (os as : Sz) : PopForm → Bool
  | .r z _ => z == os
  | .rm z d => z == os && d.wf as

def IncForm.wf (os as : Sz) : IncForm → Bool
  | .r z _ => z == os
  | .rm8 d => d.wf as
  | .rm z d => z == os && d.wf as

def UnForm.wf (os as : Sz) : UnForm → Bool
  | .rm8 d => d.wf as
  | .rm z d => z == os && d.wf as

def Imul3Form.wf (os as : Sz) : Imul3Form → Bool
  | .immv z _ o imm => z == os && o.wf as && z.fits imm
  | .immb z _ o _ => z == os && o.wf as

def ShiftForm.wf (os as : Sz) : ShiftForm → Bool
  | .rm8 d _ => d.wf as
  | .rm z d _ => z == os && d.wf as

def BtForm.wf (os as : Sz) : BtForm → Bool
  | .r z o _ => z == os && o.wf as
  | .i z o _ => z == os && o.wf as

/-- `XCHG eAX,eAX` is NOP's encoding (R536). -/
def XchgForm.wf (os as : Sz) : XchgForm → Bool
  | .rm8 o _ => o.wf as
  | .rm z o _ => z == os && o.wf as
  | .acc z r => z == os && r != .ax

def ExtForm.wf (os as : Sz) : ExtForm → Bool
  | .b z _ o => z == os && o.wf as
  | .w z _ o => z == os && o.wf as

def Rel.wf (z : Sz) : Rel → Bool
  | .short _ => true
  | .near v => z.fits v

def NearForm.wf (os as : Sz) : NearForm → Bool
  | .rel z r => z == os && r.wf z
  | .rm z o => z == os && o.wf as

def FarForm.wf (os as : Sz) : FarForm → Bool
  | .ptr z _ off => z == os && z.fits off
  | .mem z m => z == os && m.wf as

/-- Well-formed at a place whose operand size is `os` and whose address size is `as`. -/
def Instr.wf (os as : Sz) : Instr → Bool
  | .segEs | .segCs | .segSs | .segDs | .segFs | .segGs => true
  | .opsize | .adrsize | .lock | .repne | .rep => true
  | .mov f => f.wf os as
  | .movFromSreg z d _ => z == os && d.wf as
  | .movToSreg s o => s != .cs && o.wf as
  | .push f => f.wf os as
  | .pushSreg z _ => z == os
  | .pop f => f.wf os as
  | .popSreg z s => z == os && s != .cs
  | .pusha z | .popa z => z == os
  | .xchg f => f.wf os as
  | .movsx f | .movzx f => f.wf os as
  | .cbw z | .cwd z => z == os
  | .add f | .adc f | .sub f | .sbb f | .cmp f => f.wf os as
  | .inc f | .dec f => f.wf os as
  | .neg f | .mul f | .div f | .idiv f | .imul1 f => f.wf os as
  | .imul2 z _ o => z == os && o.wf as
  | .imul3 f => f.wf os as
  | .daa | .das | .aaa | .aas | .aam _ | .aad _ => true
  | .and f | .or f | .xor f => f.wf os as
  | .not f => f.wf os as
  | .test f => f.wf os as
  | .bt f => f.wf os as
  | .bts f | .btr f | .btc f => f.wf os as
  | .bsf z _ o | .bsr z _ o => z == os && o.wf as
  | .rol f | .ror f | .rcl f | .rcr f | .shl f | .shr f | .sar f => f.wf os as
  | .shld z o _ _ | .shrd z o _ _ => z == os && o.wf as
  | .setcc _ d => d.wf as
  | .jcc z _ r => z == os && r.wf z
  | .jmpNear f => f.wf os as
  | .callNear (.rel z r) => z == os && r.wf z && (match r with | .short _ => false | .near _ => true)
  | .callNear (.rm z o) => z == os && o.wf as
  | .jmpFar f | .callFar f => f.wf os as
  | .retNear z _ | .retFar z _ => z == os
  | .loop z a _ | .loope z a _ | .loopne z a _ | .jcxz z a _ => z == os && a == as
  | .int3 | .int _ | .into => true
  | .iret z => z == os
  | .bound z _ m => z == os && m.wf as
  | .movsb a | .cmpsb a | .scasb a | .lodsb a | .stosb a | .insb a | .outsb a => a == as
  | .movsv z a | .cmpsv z a | .scasv z a | .lodsv z a | .stosv z a | .insv z a | .outsv z a => z == os && a == as
  | .enter z _ _ | .leave z => z == os
  | .clc | .stc | .cmc | .cld | .std | .cli | .sti | .lahf | .sahf => true
  | .pushf z | .popf z => z == os
  | .lea z _ m => z == os && m.wf as
  | .nop => true
  | .xlat a => a == as
  | .esc _ _ o => o.wf as
  | .wait => true
  | .lds z _ m | .les z _ m | .lfs z _ m | .lgs z _ m | .lss z _ m => z == os && m.wf as
  | .inp n _ | .outp n _ => n == .b || n == os.width
  | .lgdt z m | .lidt z m | .sgdt z m | .sidt z m => z == os && m.wf as
  | .lldt o | .sldt o | .ltr o | .str o | .lmsw o | .smsw o => o.wf as
  | .clts | .hlt => true
  | .movFromCr _ _ | .movToCr _ _ | .movFromDr _ _ | .movToDr _ _ | .movFromTr _ _ | .movToTr _ _ => true
  | .lar z _ o | .lsl z _ o => z == os && o.wf as
  | .verr o | .verw o => o.wf as
  | .arpl d _ => d.wf as
  | .intelReserved _ => true

end Sys2Proof
end

