-- ==== Sys2Proof/Decode.lean ====
section
/-!
DEFINITION. Sys2Proof/Decode.lean: one unit of an instruction from its bytes (R200 to R252, R270): one prefix byte, or
the opcode with its ModR/M, SIB, displacement and immediate bytes. Total on any bytes: the answer is a unit with its
length, "more bytes are needed", or "undefined opcode" (R255). After it the encoder, written from the same tables.
-/
namespace Sys2Proof

/-- Why no unit was read. -/
inductive DecodeStop where
  /-- The bytes given end inside the unit. -/
  | more
  /-- An invalid opcode or an operand type invalid for the opcode (R255 a, b; D13). -/
  | ud
deriving DecidableEq, Repr

/-- A reader of bytes: takes bytes from the front of the list. -/
abbrev Reader := EStateM DecodeStop (List Byte)

/-- The next byte. -/
def Reader.byte : Reader Byte := fun bs =>
  match bs with
  | [] => .error .more []
  | b :: rest => .ok b rest

/-- An encoding that raises #UD. -/
def Reader.ud {α : Type} : Reader α := fun bs => .error .ud bs

/-- Two bytes, the low byte first (R101, R200). -/
def Reader.half : Reader Half := do
  let b0 ← Reader.byte
  let b1 ← Reader.byte
  return b1 ++ b0

/-- Four bytes, the low byte first. -/
def Reader.word : Reader Word := do
  let h0 ← Reader.half
  let h1 ← Reader.half
  return h1 ++ h0

/-- A value of 2 or 4 bytes, zero-extended (R230). -/
def Reader.sized : Sz → Reader Word
  | .s16 => do return (← Reader.half).zeroExtend 32
  | .s32 => Reader.word

/-! Register codes (R12, R13, R20, R235, R260). -/

def Gpr.ofCode (c : BitVec 3) : Gpr :=
  match c.toNat with
  | 0 => .ax | 1 => .cx | 2 => .dx | 3 => .bx | 4 => .sp | 5 => .bp | 6 => .si | _ => .di

def Gpr.code : Gpr → BitVec 3
  | .ax => 0 | .cx => 1 | .dx => 2 | .bx => 3 | .sp => 4 | .bp => 5 | .si => 6 | .di => 7

def Gpr8.ofCode (c : BitVec 3) : Gpr8 :=
  match c.toNat with
  | 0 => .al | 1 => .cl | 2 => .dl | 3 => .bl | 4 => .ah | 5 => .ch | 6 => .dh | _ => .bh

def Gpr8.code : Gpr8 → BitVec 3
  | .al => 0 | .cl => 1 | .dl => 2 | .bl => 3 | .ah => 4 | .ch => 5 | .dh => 6 | .bh => 7

/-- sreg3; 110 and 111 name nothing (R232). -/
def Sreg.ofCode (c : BitVec 3) : Option Sreg :=
  match c.toNat with
  | 0 => some .es | 1 => some .cs | 2 => some .ss | 3 => some .ds | 4 => some .fs | 5 => some .gs | _ => none

def Sreg.code : Sreg → BitVec 3
  | .es => 0 | .cs => 1 | .ss => 2 | .ds => 3 | .fs => 4 | .gs => 5

def Creg.ofCode (c : BitVec 3) : Option Creg :=
  match c.toNat with
  | 0 => some .cr0 | 2 => some .cr2 | 3 => some .cr3 | _ => none

def Creg.code : Creg → BitVec 3
  | .cr0 => 0 | .cr2 => 2 | .cr3 => 3

def Dreg.ofCode (c : BitVec 3) : Option Dreg :=
  match c.toNat with
  | 0 => some .dr0 | 1 => some .dr1 | 2 => some .dr2 | 3 => some .dr3 | 6 => some .dr6 | 7 => some .dr7 | _ => none

def Dreg.code : Dreg → BitVec 3
  | .dr0 => 0 | .dr1 => 1 | .dr2 => 2 | .dr3 => 3 | .dr6 => 6 | .dr7 => 7

def Treg.ofCode (c : BitVec 3) : Option Treg :=
  match c.toNat with
  | 6 => some .tr6 | 7 => some .tr7 | _ => none

def Treg.code : Treg → BitVec 3
  | .tr6 => 6 | .tr7 => 7

def Cond.ofCode (c : BitVec 4) : Cond :=
  match c.toNat with
  | 0 => .o | 1 => .no | 2 => .b | 3 => .nb | 4 => .e | 5 => .ne | 6 => .be | 7 => .nbe
  | 8 => .s | 9 => .ns | 10 => .p | 11 => .np | 12 => .l | 13 => .nl | 14 => .le | _ => .nle

def Cond.code : Cond → BitVec 4
  | .o => 0 | .no => 1 | .b => 2 | .nb => 3 | .e => 4 | .ne => 5 | .be => 6 | .nbe => 7
  | .s => 8 | .ns => 9 | .p => 10 | .np => 11 | .l => 12 | .nl => 13 | .le => 14 | .nle => 15

def Base16.ofCode (c : BitVec 3) : Base16 :=
  match c.toNat with
  | 0 => .bxsi | 1 => .bxdi | 2 => .bpsi | 3 => .bpdi | 4 => .si | 5 => .di | 6 => .bp | _ => .bx

def Base16.code : Base16 → BitVec 3
  | .bxsi => 0 | .bxdi => 1 | .bpsi => 2 | .bpdi => 3 | .si => 4 | .di => 5 | .bp => 6 | .bx => 7

/-! ModR/M and SIB (R210 to R225). -/

/-- The displacement that mod 00, 01 or 10 calls for, address size 16. -/
def Reader.disp16 (mod : BitVec 2) : Reader Disp16 :=
  match mod.toNat with
  | 0 => return .none
  | 1 => do return .d8 (← Reader.byte)
  | _ => do return .d16 (← Reader.half)

/-- The displacement that mod 00, 01 or 10 calls for, address size 32. -/
def Reader.disp32 (mod : BitVec 2) : Reader Disp32 :=
  match mod.toNat with
  | 0 => return .none
  | 1 => do return .d8 (← Reader.byte)
  | _ => do return .d32 (← Reader.word)

/-- The SIB byte and what follows it (R211, R225). -/
def Reader.sib (mod : BitVec 2) : Reader Mem := do
  let s ← Reader.byte
  let ss := s.extractLsb' 6 2
  let ix := s.extractLsb' 3 3
  let bs := s.extractLsb' 0 3
  let index := if ix == 4 then none else some (Gpr.ofCode ix)
  if bs == 5 && mod == 0 then
    return .sib none index ss (.d32 (← Reader.word))
  else
    return .sib (some (Gpr.ofCode bs)) index ss (← Reader.disp32 mod)

/-- The memory operand of mod (not 11) and r/m. -/
def Reader.mem (as : Sz) (mod : BitVec 2) (rm : BitVec 3) : Reader Mem :=
  match as with
  | .s16 =>
    if mod == 0 && rm == 6 then do return .abs16 (← Reader.half)
    else do return .m16 (Base16.ofCode rm) (← Reader.disp16 mod)
  | .s32 =>
    if rm == 4 then Reader.sib mod
    else if mod == 0 && rm == 5 then do return .abs32 (← Reader.word)
    else do return .m32 (Gpr.ofCode rm) (← Reader.disp32 mod)

/-- The fields of a ModR/M byte: mod, reg, r/m. -/
def modOf (b : Byte) : BitVec 2 := b.extractLsb' 6 2
def regOf (b : Byte) : BitVec 3 := b.extractLsb' 3 3
def rmOf (b : Byte) : BitVec 3 := b.extractLsb' 0 3

/-- The operand Eb of a ModR/M byte already read. -/
def Reader.rm8 (as : Sz) (m : Byte) : Reader Rm8 :=
  if modOf m == 3 then return .reg (Gpr8.ofCode (rmOf m))
  else do return .mem (← Reader.mem as (modOf m) (rmOf m))

/-- The operand Ev or Ew of a ModR/M byte already read. -/
def Reader.rm (as : Sz) (m : Byte) : Reader Rm :=
  if modOf m == 3 then return .reg (Gpr.ofCode (rmOf m))
  else do return .mem (← Reader.mem as (modOf m) (rmOf m))

/-- The operand M of a ModR/M byte already read; a register is an invalid operand type (R227). -/
def Reader.memOnly (as : Sz) (m : Byte) : Reader Mem :=
  if modOf m == 3 then Reader.ud else Reader.mem as (modOf m) (rmOf m)

/-! The opcode map (R250 to R252). -/

/-- Columns 0 to 5 of the arithmetic rows 00 to 3F. -/
def Reader.aluForm (os as : Sz) (col : Nat) : Reader AluForm :=
  match col with
  | 0 => do let m ← Reader.byte; return .mr8 (← Reader.rm8 as m) (Gpr8.ofCode (regOf m))
  | 1 => do let m ← Reader.byte; return .mr os (← Reader.rm as m) (Gpr.ofCode (regOf m))
  | 2 => do let m ← Reader.byte; return .rm8 (Gpr8.ofCode (regOf m)) (← Reader.rm8 as m)
  | 3 => do let m ← Reader.byte; return .rm os (Gpr.ofCode (regOf m)) (← Reader.rm as m)
  | 4 => do return .ai8 (← Reader.byte)
  | _ => do return .ai os (← Reader.sized os)

/-- The operation of an arithmetic row or a /digit of group 1. -/
def aluInstr (row : Nat) (f : AluForm) : Instr :=
  match row with
  | 0 => .add f | 1 => .or f | 2 => .adc f | 3 => .sbb f | 4 => .and f | 5 => .sub f | 6 => .xor f | _ => .cmp f

/-- Rows 00 to 3F. -/
def Reader.low (os as : Sz) (op : Nat) : Reader Instr :=
  if op % 8 < 6 then do return aluInstr (op / 8) (← Reader.aluForm os as (op % 8))
  else
    match op with
    | 0x06 => return .pushSreg os .es
    | 0x07 => return .popSreg os .es
    | 0x0E => return .pushSreg os .cs
    | 0x16 => return .pushSreg os .ss
    | 0x17 => return .popSreg os .ss
    | 0x1E => return .pushSreg os .ds
    | 0x1F => return .popSreg os .ds
    | 0x26 => return .segEs
    | 0x27 => return .daa
    | 0x2E => return .segCs
    | 0x2F => return .das
    | 0x36 => return .segSs
    | 0x37 => return .aaa
    | 0x3E => return .segDs
    | 0x3F => return .aas
    | _ => Reader.ud

/-- Rows 40 to 5F: the register in the low three bits. -/
def Reader.regRows (os : Sz) (op : Nat) : Reader Instr :=
  let r := Gpr.ofCode (BitVec.ofNat 3 op)
  match op / 8 with
  | 8 => return .inc (.r os r)
  | 9 => return .dec (.r os r)
  | 10 => return .push (.r os r)
  | _ => return .pop (.r os r)

/-- Row 60 to 6F. -/
def Reader.row6 (os as : Sz) (op : Nat) : Reader Instr :=
  match op with
  | 0x60 => return .pusha os
  | 0x61 => return .popa os
  | 0x62 => do let m ← Reader.byte; return .bound os (Gpr.ofCode (regOf m)) (← Reader.memOnly as m)
  | 0x63 => do let m ← Reader.byte; return .arpl (← Reader.rm as m) (Gpr.ofCode (regOf m))
  | 0x64 => return .segFs
  | 0x65 => return .segGs
  | 0x66 => return .opsize
  | 0x67 => return .adrsize
  | 0x68 => do return .push (.immv os (← Reader.sized os))
  | 0x69 => do
    let m ← Reader.byte
    let o ← Reader.rm as m
    return .imul3 (.immv os (Gpr.ofCode (regOf m)) o (← Reader.sized os))
  | 0x6A => do return .push (.immb os (← Reader.byte))
  | 0x6B => do
    let m ← Reader.byte
    let o ← Reader.rm as m
    return .imul3 (.immb os (Gpr.ofCode (regOf m)) o (← Reader.byte))
  | 0x6C => return .insb as
  | 0x6D => return .insv os as
  | 0x6E => return .outsb as
  | _ => return .outsv os as

/-- Row 80 to 8F. -/
def Reader.row8 (os as : Sz) (op : Nat) : Reader Instr :=
  match op with
  | 0x80 => do
    let m ← Reader.byte
    let d ← Reader.rm8 as m
    return aluInstr (regOf m).toNat (.mi8 d (← Reader.byte))
  | 0x81 => do
    let m ← Reader.byte
    let d ← Reader.rm as m
    return aluInstr (regOf m).toNat (.mi os d (← Reader.sized os))
  | 0x82 => return .intelReserved .o82
  | 0x83 => do
    let m ← Reader.byte
    let d ← Reader.rm as m
    return aluInstr (regOf m).toNat (.mib os d (← Reader.byte))
  | 0x84 => do let m ← Reader.byte; return .test (.mr8 (← Reader.rm8 as m) (Gpr8.ofCode (regOf m)))
  | 0x85 => do let m ← Reader.byte; return .test (.mr os (← Reader.rm as m) (Gpr.ofCode (regOf m)))
  | 0x86 => do let m ← Reader.byte; return .xchg (.rm8 (← Reader.rm8 as m) (Gpr8.ofCode (regOf m)))
  | 0x87 => do let m ← Reader.byte; return .xchg (.rm os (← Reader.rm as m) (Gpr.ofCode (regOf m)))
  | 0x88 => do let m ← Reader.byte; return .mov (.mr8 (← Reader.rm8 as m) (Gpr8.ofCode (regOf m)))
  | 0x89 => do let m ← Reader.byte; return .mov (.mr os (← Reader.rm as m) (Gpr.ofCode (regOf m)))
  | 0x8A => do let m ← Reader.byte; return .mov (.rm8 (Gpr8.ofCode (regOf m)) (← Reader.rm8 as m))
  | 0x8B => do let m ← Reader.byte; return .mov (.rm os (Gpr.ofCode (regOf m)) (← Reader.rm as m))
  | 0x8C => do
    let m ← Reader.byte
    match Sreg.ofCode (regOf m) with
    | some s => return .movFromSreg os (← Reader.rm as m) s
    | none => Reader.ud
  | 0x8D => do let m ← Reader.byte; return .lea os (Gpr.ofCode (regOf m)) (← Reader.memOnly as m)
  | 0x8E => do
    let m ← Reader.byte
    match Sreg.ofCode (regOf m) with
    | some .cs => Reader.ud
    | some s => return .movToSreg s (← Reader.rm as m)
    | none => Reader.ud
  | _ => do
    let m ← Reader.byte
    if regOf m == 0 then return .pop (.rm os (← Reader.rm as m)) else Reader.ud

/-- Row 90 to 9F. -/
def Reader.row9 (os : Sz) (op : Nat) : Reader Instr :=
  match op with
  | 0x90 => return .nop
  | 0x98 => return .cbw os
  | 0x99 => return .cwd os
  | 0x9A => do
    let off ← Reader.sized os
    return .callFar (.ptr os (← Reader.half) off)
  | 0x9B => return .wait
  | 0x9C => return .pushf os
  | 0x9D => return .popf os
  | 0x9E => return .sahf
  | 0x9F => return .lahf
  | _ => return .xchg (.acc os (Gpr.ofCode (BitVec.ofNat 3 op)))

/-- Row A0 to AF. -/
def Reader.rowA (os as : Sz) (op : Nat) : Reader Instr :=
  match op with
  | 0xA0 => do return .mov (.loadA8 as (← Reader.sized as))
  | 0xA1 => do return .mov (.loadA os as (← Reader.sized as))
  | 0xA2 => do return .mov (.storeA8 as (← Reader.sized as))
  | 0xA3 => do return .mov (.storeA os as (← Reader.sized as))
  | 0xA4 => return .movsb as
  | 0xA5 => return .movsv os as
  | 0xA6 => return .cmpsb as
  | 0xA7 => return .cmpsv os as
  | 0xA8 => do return .test (.ai8 (← Reader.byte))
  | 0xA9 => do return .test (.ai os (← Reader.sized os))
  | 0xAA => return .stosb as
  | 0xAB => return .stosv os as
  | 0xAC => return .lodsb as
  | 0xAD => return .lodsv os as
  | 0xAE => return .scasb as
  | _ => return .scasv os as

/-- Group 2 by its /digit; /6 is reserved by Intel (R252, R256). -/
def shiftInstr (digit : Nat) (f : ShiftForm) (reserved : Reserved) : Instr :=
  match digit with
  | 0 => .rol f | 1 => .ror f | 2 => .rcl f | 3 => .rcr f | 4 => .shl f | 5 => .shr f
  | 6 => .intelReserved reserved
  | _ => .sar f

/-- The operand and the immediate count of C0; nothing more is read for the reserved /6. -/
def Reader.shift8 (as : Sz) (count : Reader Count) (reserved : BitVec 2 → BitVec 3 → Reserved) : Reader Instr := do
  let m ← Reader.byte
  let k := reserved (modOf m) (rmOf m)
  if regOf m == 6 then return .intelReserved k
  else
    let d ← Reader.rm8 as m
    return shiftInstr (regOf m).toNat (.rm8 d (← count)) k

def Reader.shiftV (os as : Sz) (count : Reader Count) (reserved : BitVec 2 → BitVec 3 → Reserved) : Reader Instr := do
  let m ← Reader.byte
  let k := reserved (modOf m) (rmOf m)
  if regOf m == 6 then return .intelReserved k
  else
    let d ← Reader.rm as m
    return shiftInstr (regOf m).toNat (.rm os d (← count)) k

/-- An immediate shift count. -/
def Reader.countImm : Reader Count := do return .imm (← Reader.byte)

/-- Row C0 to CF. -/
def Reader.rowC (os as : Sz) (op : Nat) : Reader Instr :=
  match op with
  | 0xC0 => Reader.shift8 as Reader.countImm .c0
  | 0xC1 => Reader.shiftV os as Reader.countImm .c1
  | 0xC2 => do return .retNear os (some (← Reader.half))
  | 0xC3 => return .retNear os none
  | 0xC4 => do let m ← Reader.byte; return .les os (Gpr.ofCode (regOf m)) (← Reader.memOnly as m)
  | 0xC5 => do let m ← Reader.byte; return .lds os (Gpr.ofCode (regOf m)) (← Reader.memOnly as m)
  | 0xC6 => do
    let m ← Reader.byte
    if regOf m == 0 then
      let d ← Reader.rm8 as m
      return .mov (.mi8 d (← Reader.byte))
    else Reader.ud
  | 0xC7 => do
    let m ← Reader.byte
    if regOf m == 0 then
      let d ← Reader.rm as m
      return .mov (.mi os d (← Reader.sized os))
    else Reader.ud
  | 0xC8 => do
    let n ← Reader.half
    return .enter os n (← Reader.byte)
  | 0xC9 => return .leave os
  | 0xCA => do return .retFar os (some (← Reader.half))
  | 0xCB => return .retFar os none
  | 0xCC => return .int3
  | 0xCD => do return .int (← Reader.byte)
  | 0xCE => return .into
  | _ => return .iret os

/-- Row D0 to DF. -/
def Reader.rowD (os as : Sz) (op : Nat) : Reader Instr :=
  match op with
  | 0xD0 => Reader.shift8 as (return .one) .d0
  | 0xD1 => Reader.shiftV os as (return .one) .d1
  | 0xD2 => Reader.shift8 as (return .cl) .d2
  | 0xD3 => Reader.shiftV os as (return .cl) .d3
  | 0xD4 => do return .aam (← Reader.byte)
  | 0xD5 => do return .aad (← Reader.byte)
  | 0xD6 => return .intelReserved .oD6
  | 0xD7 => return .xlat as
  | _ => do
    let m ← Reader.byte
    return .esc (BitVec.ofNat 3 op) (regOf m) (← Reader.rm as m)

/-- Row E0 to EF. -/
def Reader.rowE (os as : Sz) (op : Nat) : Reader Instr :=
  match op with
  | 0xE0 => do return .loopne os as (← Reader.byte)
  | 0xE1 => do return .loope os as (← Reader.byte)
  | 0xE2 => do return .loop os as (← Reader.byte)
  | 0xE3 => do return .jcxz os as (← Reader.byte)
  | 0xE4 => do return .inp .b (.imm (← Reader.byte))
  | 0xE5 => do return .inp os.width (.imm (← Reader.byte))
  | 0xE6 => do return .outp .b (.imm (← Reader.byte))
  | 0xE7 => do return .outp os.width (.imm (← Reader.byte))
  | 0xE8 => do return .callNear (.rel os (.near (← Reader.sized os)))
  | 0xE9 => do return .jmpNear (.rel os (.near (← Reader.sized os)))
  | 0xEA => do
    let off ← Reader.sized os
    return .jmpFar (.ptr os (← Reader.half) off)
  | 0xEB => do return .jmpNear (.rel os (.short (← Reader.byte)))
  | 0xEC => return .inp .b .dx
  | 0xED => return .inp os.width .dx
  | 0xEE => return .outp .b .dx
  | _ => return .outp os.width .dx

/-- Group 3, byte operand; /1 is reserved by Intel (R252, R256). -/
def Reader.grp3b (as : Sz) : Reader Instr := do
  let m ← Reader.byte
  if regOf m == 1 then return .intelReserved (.f6 (modOf m) (rmOf m))
  else
    let d ← Reader.rm8 as m
    match (regOf m).toNat with
    | 0 => return .test (.mi8 d (← Reader.byte))
    | 2 => return .not (.rm8 d)
    | 3 => return .neg (.rm8 d)
    | 4 => return .mul (.rm8 d)
    | 5 => return .imul1 (.rm8 d)
    | 6 => return .div (.rm8 d)
    | _ => return .idiv (.rm8 d)

/-- Group 3, full-size operand. -/
def Reader.grp3v (os as : Sz) : Reader Instr := do
  let m ← Reader.byte
  if regOf m == 1 then return .intelReserved (.f7 (modOf m) (rmOf m))
  else
    let d ← Reader.rm as m
    match (regOf m).toNat with
    | 0 => return .test (.mi os d (← Reader.sized os))
    | 2 => return .not (.rm os d)
    | 3 => return .neg (.rm os d)
    | 4 => return .mul (.rm os d)
    | 5 => return .imul1 (.rm os d)
    | 6 => return .div (.rm os d)
    | _ => return .idiv (.rm os d)

/-- Group 4. -/
def Reader.grp4 (as : Sz) : Reader Instr := do
  let m ← Reader.byte
  match (regOf m).toNat with
  | 0 => return .inc (.rm8 (← Reader.rm8 as m))
  | 1 => return .dec (.rm8 (← Reader.rm8 as m))
  | _ => Reader.ud

/-- Group 5. -/
def Reader.grp5 (os as : Sz) : Reader Instr := do
  let m ← Reader.byte
  match (regOf m).toNat with
  | 0 => return .inc (.rm os (← Reader.rm as m))
  | 1 => return .dec (.rm os (← Reader.rm as m))
  | 2 => return .callNear (.rm os (← Reader.rm as m))
  | 3 => return .callFar (.mem os (← Reader.memOnly as m))
  | 4 => return .jmpNear (.rm os (← Reader.rm as m))
  | 5 => return .jmpFar (.mem os (← Reader.memOnly as m))
  | 6 => return .push (.rm os (← Reader.rm as m))
  | _ => Reader.ud

/-- Row F0 to FF. -/
def Reader.rowF (os as : Sz) (op : Nat) : Reader Instr :=
  match op with
  | 0xF0 => return .lock
  | 0xF1 => return .intelReserved .oF1
  | 0xF2 => return .repne
  | 0xF3 => return .rep
  | 0xF4 => return .hlt
  | 0xF5 => return .cmc
  | 0xF6 => Reader.grp3b as
  | 0xF7 => Reader.grp3v os as
  | 0xF8 => return .clc
  | 0xF9 => return .stc
  | 0xFA => return .cli
  | 0xFB => return .sti
  | 0xFC => return .cld
  | 0xFD => return .std
  | 0xFE => Reader.grp4 as
  | _ => Reader.grp5 os as

/-- Group 6. -/
def Reader.grp6 (as : Sz) : Reader Instr := do
  let m ← Reader.byte
  match (regOf m).toNat with
  | 0 => return .sldt (← Reader.rm as m)
  | 1 => return .str (← Reader.rm as m)
  | 2 => return .lldt (← Reader.rm as m)
  | 3 => return .ltr (← Reader.rm as m)
  | 4 => return .verr (← Reader.rm as m)
  | 5 => return .verw (← Reader.rm as m)
  | _ => Reader.ud

/-- Group 7. -/
def Reader.grp7 (os as : Sz) : Reader Instr := do
  let m ← Reader.byte
  match (regOf m).toNat with
  | 0 => return .sgdt os (← Reader.memOnly as m)
  | 1 => return .sidt os (← Reader.memOnly as m)
  | 2 => return .lgdt os (← Reader.memOnly as m)
  | 3 => return .lidt os (← Reader.memOnly as m)
  | 4 => return .smsw (← Reader.rm as m)
  | 6 => return .lmsw (← Reader.rm as m)
  | _ => Reader.ud

/-- Group 8. -/
def Reader.grp8 (os as : Sz) : Reader Instr := do
  let m ← Reader.byte
  if (regOf m).toNat < 4 then Reader.ud
  else
    let o ← Reader.rm as m
    let i ← Reader.byte
    match (regOf m).toNat with
    | 4 => return .bt (.i os o i)
    | 5 => return .bts (.i os o i)
    | 6 => return .btr (.i os o i)
    | _ => return .btc (.i os o i)

/-- 0F 00 to 0F 26: system instructions. The mod field of 20 to 26 is not examined (D12). -/
def Reader.sys0F (os as : Sz) (op : Nat) : Reader Instr :=
  match op with
  | 0x00 => Reader.grp6 as
  | 0x01 => Reader.grp7 os as
  | 0x02 => do let m ← Reader.byte; return .lar os (Gpr.ofCode (regOf m)) (← Reader.rm as m)
  | 0x03 => do let m ← Reader.byte; return .lsl os (Gpr.ofCode (regOf m)) (← Reader.rm as m)
  | 0x06 => return .clts
  | 0x07 => return .intelReserved .o0F07
  | 0x10 => return .intelReserved .o0F10
  | 0x11 => return .intelReserved .o0F11
  | 0x12 => return .intelReserved .o0F12
  | 0x13 => return .intelReserved .o0F13
  | 0x20 => do
    let m ← Reader.byte
    match Creg.ofCode (regOf m) with
    | some c => return .movFromCr (Gpr.ofCode (rmOf m)) c
    | none => Reader.ud
  | 0x21 => do
    let m ← Reader.byte
    match Dreg.ofCode (regOf m) with
    | some d => return .movFromDr (Gpr.ofCode (rmOf m)) d
    | none => Reader.ud
  | 0x22 => do
    let m ← Reader.byte
    match Creg.ofCode (regOf m) with
    | some c => return .movToCr c (Gpr.ofCode (rmOf m))
    | none => Reader.ud
  | 0x23 => do
    let m ← Reader.byte
    match Dreg.ofCode (regOf m) with
    | some d => return .movToDr d (Gpr.ofCode (rmOf m))
    | none => Reader.ud
  | 0x24 => do
    let m ← Reader.byte
    match Treg.ofCode (regOf m) with
    | some t => return .movFromTr (Gpr.ofCode (rmOf m)) t
    | none => Reader.ud
  | 0x26 => do
    let m ← Reader.byte
    match Treg.ofCode (regOf m) with
    | some t => return .movToTr t (Gpr.ofCode (rmOf m))
    | none => Reader.ud
  | _ => Reader.ud

/-- 0F A0 to 0F BF. -/
def Reader.bits0F (os as : Sz) (op : Nat) : Reader Instr :=
  match op with
  | 0xA0 => return .pushSreg os .fs
  | 0xA1 => return .popSreg os .fs
  | 0xA3 => do let m ← Reader.byte; return .bt (.r os (← Reader.rm as m) (Gpr.ofCode (regOf m)))
  | 0xA4 => do
    let m ← Reader.byte
    let o ← Reader.rm as m
    return .shld os o (Gpr.ofCode (regOf m)) (.imm (← Reader.byte))
  | 0xA5 => do let m ← Reader.byte; return .shld os (← Reader.rm as m) (Gpr.ofCode (regOf m)) .cl
  | 0xA8 => return .pushSreg os .gs
  | 0xA9 => return .popSreg os .gs
  | 0xAB => do let m ← Reader.byte; return .bts (.r os (← Reader.rm as m) (Gpr.ofCode (regOf m)))
  | 0xAC => do
    let m ← Reader.byte
    let o ← Reader.rm as m
    return .shrd os o (Gpr.ofCode (regOf m)) (.imm (← Reader.byte))
  | 0xAD => do let m ← Reader.byte; return .shrd os (← Reader.rm as m) (Gpr.ofCode (regOf m)) .cl
  | 0xAF => do let m ← Reader.byte; return .imul2 os (Gpr.ofCode (regOf m)) (← Reader.rm as m)
  | 0xB2 => do let m ← Reader.byte; return .lss os (Gpr.ofCode (regOf m)) (← Reader.memOnly as m)
  | 0xB3 => do let m ← Reader.byte; return .btr (.r os (← Reader.rm as m) (Gpr.ofCode (regOf m)))
  | 0xB4 => do let m ← Reader.byte; return .lfs os (Gpr.ofCode (regOf m)) (← Reader.memOnly as m)
  | 0xB5 => do let m ← Reader.byte; return .lgs os (Gpr.ofCode (regOf m)) (← Reader.memOnly as m)
  | 0xB6 => do let m ← Reader.byte; return .movzx (.b os (Gpr.ofCode (regOf m)) (← Reader.rm8 as m))
  | 0xB7 => do let m ← Reader.byte; return .movzx (.w os (Gpr.ofCode (regOf m)) (← Reader.rm as m))
  | 0xBA => Reader.grp8 os as
  | 0xBB => do let m ← Reader.byte; return .btc (.r os (← Reader.rm as m) (Gpr.ofCode (regOf m)))
  | 0xBC => do let m ← Reader.byte; return .bsf os (Gpr.ofCode (regOf m)) (← Reader.rm as m)
  | 0xBD => do let m ← Reader.byte; return .bsr os (Gpr.ofCode (regOf m)) (← Reader.rm as m)
  | 0xBE => do let m ← Reader.byte; return .movsx (.b os (Gpr.ofCode (regOf m)) (← Reader.rm8 as m))
  | 0xBF => do let m ← Reader.byte; return .movsx (.w os (Gpr.ofCode (regOf m)) (← Reader.rm as m))
  | _ => Reader.ud

/-- The two-byte map (R251). -/
def Reader.op0F (os as : Sz) : Reader Instr := do
  let b ← Reader.byte
  match b.toNat / 16 with
  | 0x8 => return .jcc os (Cond.ofCode (b.extractLsb' 0 4)) (.near (← Reader.sized os))
  | 0x9 => do let m ← Reader.byte; return .setcc (Cond.ofCode (b.extractLsb' 0 4)) (← Reader.rm8 as m)
  | 0xA => Reader.bits0F os as b.toNat
  | 0xB => Reader.bits0F os as b.toNat
  | _ => Reader.sys0F os as b.toNat

/-- The one-byte map (R250), by the high half of the opcode byte. -/
def Reader.op (os as : Sz) (b : Byte) : Reader Instr :=
  if b == 0x0F then Reader.op0F os as
  else
    match b.toNat / 16 with
    | 0x0 => Reader.low os as b.toNat
    | 0x1 => Reader.low os as b.toNat
    | 0x2 => Reader.low os as b.toNat
    | 0x3 => Reader.low os as b.toNat
    | 0x4 => Reader.regRows os b.toNat
    | 0x5 => Reader.regRows os b.toNat
    | 0x6 => Reader.row6 os as b.toNat
    | 0x7 => do return .jcc os (Cond.ofCode (b.extractLsb' 0 4)) (.short (← Reader.byte))
    | 0x8 => Reader.row8 os as b.toNat
    | 0x9 => Reader.row9 os b.toNat
    | 0xA => Reader.rowA os as b.toNat
    | 0xB =>
      if b.toNat < 0xB8 then do return .mov (.ri8 (Gpr8.ofCode (b.extractLsb' 0 3)) (← Reader.byte))
      else do return .mov (.ri os (Gpr.ofCode (b.extractLsb' 0 3)) (← Reader.sized os))
    | 0xC => Reader.rowC os as b.toNat
    | 0xD => Reader.rowD os as b.toNat
    | 0xE => Reader.rowE os as b.toNat
    | _ => Reader.rowF os as b.toNat

/-- One unit: a prefix byte, or an instruction without its prefixes. -/
def Reader.unit (os as : Sz) : Reader Instr := do
  let b ← Reader.byte
  Reader.op os as b

/-- What bytes decode to. -/
inductive Decoded where
  /-- A unit and how many bytes it has. -/
  | unit (i : Instr) (len : Nat)
  /-- The bytes end before the unit does. -/
  | more
  /-- An undefined opcode: #UD when it is executed (R255). -/
  | undefined
deriving DecidableEq, Repr

/-- Decode under operand size `os` and address size `as` (R203, R270). -/
def decode (os as : Sz) (bs : List Byte) : Decoded :=
  match Reader.unit os as bs with
  | .ok i rest => .unit i (bs.length - rest.length)
  | .error .more _ => .more
  | .error .ud _ => .undefined

/-- `n` bytes of a number, the lowest byte first. -/
def bytesOfNat : Nat → Nat → List Byte
  | 0, _ => []
  | n + 1, w => BitVec.ofNat 8 w :: bytesOfNat n (w / 256)

/-- The instruction of a table word: its bytes at rising addresses, zeros above, at a place whose sizes are 16
(the reset state's). Sixteen bytes, one more than the longest instruction (R201). -/
def decodeTableWord (nbits w : Nat) : Option Instr :=
  match decode .s16 .s16 (bytesOfNat 16 (w % 2 ^ nbits)) with
  | .unit i _ => some i
  | .more => none
  | .undefined => none

/-! The encoder. -/

def Half.bytes (h : Half) : List Byte := [h.extractLsb' 0 8, h.extractLsb' 8 8]
def Word.bytes (w : Word) : List Byte := [w.extractLsb' 0 8, w.extractLsb' 8 8, w.extractLsb' 16 8, w.extractLsb' 24 8]

/-- A value of the size, low byte first. -/
def Sz.bytesOf (z : Sz) (v : Word) : List Byte :=
  match z with
  | .s16 => Half.bytes (v.extractLsb' 0 16)
  | .s32 => Word.bytes v

/-- A ModR/M or SIB byte from its three fields (R210, R211). -/
def fields233 (hi : BitVec 2) (mid lo : BitVec 3) : Byte := hi ++ mid ++ lo

def Disp16.mod : Disp16 → BitVec 2
  | .none => 0
  | .d8 _ => 1
  | .d16 _ => 2

def Disp16.bytes : Disp16 → List Byte
  | .none => []
  | .d8 v => [v]
  | .d16 v => Half.bytes v

def Disp32.mod : Disp32 → BitVec 2
  | .none => 0
  | .d8 _ => 1
  | .d32 _ => 2

def Disp32.bytes : Disp32 → List Byte
  | .none => []
  | .d8 v => [v]
  | .d32 v => Word.bytes v

/-- ModR/M, SIB and displacement of a memory operand, with the reg field given. -/
def Mem.encode (reg : BitVec 3) : Mem → List Byte
  | .m16 base disp => fields233 disp.mod reg base.code :: disp.bytes
  | .abs16 a => fields233 0 reg 6 :: Half.bytes a
  | .m32 base disp => fields233 disp.mod reg base.code :: disp.bytes
  | .abs32 a => fields233 0 reg 5 :: Word.bytes a
  | .sib base index scale disp =>
    let ix := match index with | none => (4 : BitVec 3) | some r => r.code
    match base with
    | none => fields233 0 reg 4 :: fields233 scale ix 5 :: disp.bytes
    | some b => fields233 disp.mod reg 4 :: fields233 scale ix b.code :: disp.bytes

def Rm8.encode (reg : BitVec 3) : Rm8 → List Byte
  | .reg r => [fields233 3 reg r.code]
  | .mem m => m.encode reg

def Rm.encode (reg : BitVec 3) : Rm → List Byte
  | .reg r => [fields233 3 reg r.code]
  | .mem m => m.encode reg

/-- An opcode byte whose low three bits name a register (`+rb`, `+rw`, `+rd`, R208). -/
def plusReg (op : Nat) (r : BitVec 3) : Byte := BitVec.ofNat 8 (op + r.toNat)

/-- An arithmetic instruction: row 0 to 7 of the map, /digit of group 1. -/
def AluForm.encode (row : Nat) : AluForm → List Byte
  | .mr8 d r => BitVec.ofNat 8 (8 * row) :: d.encode r.code
  | .mr _ d r => BitVec.ofNat 8 (8 * row + 1) :: d.encode r.code
  | .rm8 r o => BitVec.ofNat 8 (8 * row + 2) :: o.encode r.code
  | .rm _ r o => BitVec.ofNat 8 (8 * row + 3) :: o.encode r.code
  | .ai8 imm => [BitVec.ofNat 8 (8 * row + 4), imm]
  | .ai z imm => BitVec.ofNat 8 (8 * row + 5) :: z.bytesOf imm
  | .mi8 d imm => 0x80 :: (d.encode (BitVec.ofNat 3 row) ++ [imm])
  | .mi z d imm => 0x81 :: (d.encode (BitVec.ofNat 3 row) ++ z.bytesOf imm)
  | .mib _ d imm => 0x83 :: (d.encode (BitVec.ofNat 3 row) ++ [imm])

def TestForm.encode : TestForm → List Byte
  | .mr8 d r => 0x84 :: d.encode r.code
  | .mr _ d r => 0x85 :: d.encode r.code
  | .ai8 imm => [0xA8, imm]
  | .ai z imm => 0xA9 :: z.bytesOf imm
  | .mi8 d imm => 0xF6 :: (d.encode 0 ++ [imm])
  | .mi z d imm => 0xF7 :: (d.encode 0 ++ z.bytesOf imm)

def MovForm.encode : MovForm → List Byte
  | .mr8 d r => 0x88 :: d.encode r.code
  | .mr _ d r => 0x89 :: d.encode r.code
  | .rm8 r o => 0x8A :: o.encode r.code
  | .rm _ r o => 0x8B :: o.encode r.code
  | .loadA8 a off => 0xA0 :: a.bytesOf off
  | .loadA _ a off => 0xA1 :: a.bytesOf off
  | .storeA8 a off => 0xA2 :: a.bytesOf off
  | .storeA _ a off => 0xA3 :: a.bytesOf off
  | .ri8 r imm => [plusReg 0xB0 r.code, imm]
  | .ri z r imm => plusReg 0xB8 r.code :: z.bytesOf imm
  | .mi8 d imm => 0xC6 :: (d.encode 0 ++ [imm])
  | .mi z d imm => 0xC7 :: (d.encode 0 ++ z.bytesOf imm)

/-- PUSH and POP of a segment register: one-byte opcodes for ES, CS, SS, DS, 0F-opcodes for FS, GS. -/
def sregStackOp (s : Sreg) (popBit : Nat) : List Byte :=
  match s with
  | .es => [BitVec.ofNat 8 (0x06 + popBit)]
  | .cs => [BitVec.ofNat 8 (0x0E + popBit)]
  | .ss => [BitVec.ofNat 8 (0x16 + popBit)]
  | .ds => [BitVec.ofNat 8 (0x1E + popBit)]
  | .fs => [0x0F, BitVec.ofNat 8 (0xA0 + popBit)]
  | .gs => [0x0F, BitVec.ofNat 8 (0xA8 + popBit)]

def UnForm.encode (digit : BitVec 3) : UnForm → List Byte
  | .rm8 d => 0xF6 :: d.encode digit
  | .rm _ d => 0xF7 :: d.encode digit

def IncForm.encode (row : Nat) (digit : BitVec 3) : IncForm → List Byte
  | .r _ g => [plusReg row g.code]
  | .rm8 d => 0xFE :: d.encode digit
  | .rm _ d => 0xFF :: d.encode digit

def ShiftForm.encode (digit : BitVec 3) : ShiftForm → List Byte
  | .rm8 d (.imm v) => 0xC0 :: (d.encode digit ++ [v])
  | .rm8 d .one => 0xD0 :: d.encode digit
  | .rm8 d .cl => 0xD2 :: d.encode digit
  | .rm _ d (.imm v) => 0xC1 :: (d.encode digit ++ [v])
  | .rm _ d .one => 0xD1 :: d.encode digit
  | .rm _ d .cl => 0xD3 :: d.encode digit

def BtForm.encode (op : Byte) (digit : BitVec 3) : BtForm → List Byte
  | .r _ o g => 0x0F :: op :: o.encode g.code
  | .i _ o imm => 0x0F :: 0xBA :: (o.encode digit ++ [imm])

def ExtForm.encode (op8 op16 : Byte) : ExtForm → List Byte
  | .b _ r o => 0x0F :: op8 :: o.encode r.code
  | .w _ r o => 0x0F :: op16 :: o.encode r.code

def Reserved.encode : Reserved → List Byte
  | .o82 => [0x82]
  | .oD6 => [0xD6]
  | .oF1 => [0xF1]
  | .o0F07 => [0x0F, 0x07]
  | .o0F10 => [0x0F, 0x10]
  | .o0F11 => [0x0F, 0x11]
  | .o0F12 => [0x0F, 0x12]
  | .o0F13 => [0x0F, 0x13]
  | .c0 m r => [0xC0, fields233 m 6 r]
  | .c1 m r => [0xC1, fields233 m 6 r]
  | .d0 m r => [0xD0, fields233 m 6 r]
  | .d1 m r => [0xD1, fields233 m 6 r]
  | .d2 m r => [0xD2, fields233 m 6 r]
  | .d3 m r => [0xD3, fields233 m 6 r]
  | .f6 m r => [0xF6, fields233 m 1 r]
  | .f7 m r => [0xF7, fields233 m 1 r]

/-- The bytes of one unit, without prefixes (R250 to R252). -/
def encode : Instr → List Byte
  | .segEs => [0x26]
  | .segCs => [0x2E]
  | .segSs => [0x36]
  | .segDs => [0x3E]
  | .segFs => [0x64]
  | .segGs => [0x65]
  | .opsize => [0x66]
  | .adrsize => [0x67]
  | .lock => [0xF0]
  | .repne => [0xF2]
  | .rep => [0xF3]
  | .mov f => f.encode
  | .movFromSreg _ d s => 0x8C :: d.encode s.code
  | .movToSreg s o => 0x8E :: o.encode s.code
  | .push (.r _ r) => [plusReg 0x50 r.code]
  | .push (.immv z imm) => 0x68 :: z.bytesOf imm
  | .push (.immb _ imm) => [0x6A, imm]
  | .push (.rm _ o) => 0xFF :: o.encode 6
  | .pushSreg _ s => sregStackOp s 0
  | .pop (.r _ r) => [plusReg 0x58 r.code]
  | .pop (.rm _ d) => 0x8F :: d.encode 0
  | .popSreg _ s => sregStackOp s 1
  | .pusha _ => [0x60]
  | .popa _ => [0x61]
  | .xchg (.rm8 o r) => 0x86 :: o.encode r.code
  | .xchg (.rm _ o r) => 0x87 :: o.encode r.code
  | .xchg (.acc _ r) => [plusReg 0x90 r.code]
  | .movsx f => f.encode 0xBE 0xBF
  | .movzx f => f.encode 0xB6 0xB7
  | .cbw _ => [0x98]
  | .cwd _ => [0x99]
  | .add f => f.encode 0
  | .or f => f.encode 1
  | .adc f => f.encode 2
  | .sbb f => f.encode 3
  | .and f => f.encode 4
  | .sub f => f.encode 5
  | .xor f => f.encode 6
  | .cmp f => f.encode 7
  | .inc f => f.encode 0x40 0
  | .dec f => f.encode 0x48 1
  | .not f => f.encode 2
  | .neg f => f.encode 3
  | .mul f => f.encode 4
  | .imul1 f => f.encode 5
  | .div f => f.encode 6
  | .idiv f => f.encode 7
  | .imul2 _ r o => 0x0F :: 0xAF :: o.encode r.code
  | .imul3 (.immv z r o imm) => 0x69 :: (o.encode r.code ++ z.bytesOf imm)
  | .imul3 (.immb _ r o imm) => 0x6B :: (o.encode r.code ++ [imm])
  | .daa => [0x27]
  | .das => [0x2F]
  | .aaa => [0x37]
  | .aas => [0x3F]
  | .aam imm => [0xD4, imm]
  | .aad imm => [0xD5, imm]
  | .test f => f.encode
  | .bt f => f.encode 0xA3 4
  | .bts f => f.encode 0xAB 5
  | .btr f => f.encode 0xB3 6
  | .btc f => f.encode 0xBB 7
  | .bsf _ r o => 0x0F :: 0xBC :: o.encode r.code
  | .bsr _ r o => 0x0F :: 0xBD :: o.encode r.code
  | .rol f => f.encode 0
  | .ror f => f.encode 1
  | .rcl f => f.encode 2
  | .rcr f => f.encode 3
  | .shl f => f.encode 4
  | .shr f => f.encode 5
  | .sar f => f.encode 7
  | .shld _ o r (.imm v) => 0x0F :: 0xA4 :: (o.encode r.code ++ [v])
  | .shld _ o r .cl => 0x0F :: 0xA5 :: o.encode r.code
  | .shrd _ o r (.imm v) => 0x0F :: 0xAC :: (o.encode r.code ++ [v])
  | .shrd _ o r .cl => 0x0F :: 0xAD :: o.encode r.code
  | .setcc c d => 0x0F :: BitVec.ofNat 8 (0x90 + c.code.toNat) :: d.encode 0
  | .jcc _ c (.short v) => [BitVec.ofNat 8 (0x70 + c.code.toNat), v]
  | .jcc z c (.near v) => 0x0F :: BitVec.ofNat 8 (0x80 + c.code.toNat) :: z.bytesOf v
  | .jmpNear (.rel _ (.short v)) => [0xEB, v]
  | .jmpNear (.rel z (.near v)) => 0xE9 :: z.bytesOf v
  | .jmpNear (.rm _ o) => 0xFF :: o.encode 4
  | .jmpFar (.ptr z sel off) => 0xEA :: (z.bytesOf off ++ Half.bytes sel)
  | .jmpFar (.mem _ m) => 0xFF :: m.encode 5
  | .callNear (.rel _ (.short _)) => []
  | .callNear (.rel z (.near v)) => 0xE8 :: z.bytesOf v
  | .callNear (.rm _ o) => 0xFF :: o.encode 2
  | .callFar (.ptr z sel off) => 0x9A :: (z.bytesOf off ++ Half.bytes sel)
  | .callFar (.mem _ m) => 0xFF :: m.encode 3
  | .retNear _ none => [0xC3]
  | .retNear _ (some n) => 0xC2 :: Half.bytes n
  | .retFar _ none => [0xCB]
  | .retFar _ (some n) => 0xCA :: Half.bytes n
  | .loopne _ _ v => [0xE0, v]
  | .loope _ _ v => [0xE1, v]
  | .loop _ _ v => [0xE2, v]
  | .jcxz _ _ v => [0xE3, v]
  | .int3 => [0xCC]
  | .int v => [0xCD, v]
  | .into => [0xCE]
  | .iret _ => [0xCF]
  | .bound _ r m => 0x62 :: m.encode r.code
  | .movsb _ => [0xA4]
  | .movsv _ _ => [0xA5]
  | .cmpsb _ => [0xA6]
  | .cmpsv _ _ => [0xA7]
  | .stosb _ => [0xAA]
  | .stosv _ _ => [0xAB]
  | .lodsb _ => [0xAC]
  | .lodsv _ _ => [0xAD]
  | .scasb _ => [0xAE]
  | .scasv _ _ => [0xAF]
  | .insb _ => [0x6C]
  | .insv _ _ => [0x6D]
  | .outsb _ => [0x6E]
  | .outsv _ _ => [0x6F]
  | .enter _ n l => 0xC8 :: (Half.bytes n ++ [l])
  | .leave _ => [0xC9]
  | .cmc => [0xF5]
  | .clc => [0xF8]
  | .stc => [0xF9]
  | .cli => [0xFA]
  | .sti => [0xFB]
  | .cld => [0xFC]
  | .std => [0xFD]
  | .pushf _ => [0x9C]
  | .popf _ => [0x9D]
  | .sahf => [0x9E]
  | .lahf => [0x9F]
  | .lea _ r m => 0x8D :: m.encode r.code
  | .nop => [0x90]
  | .xlat _ => [0xD7]
  | .esc opc ext o => BitVec.ofNat 8 (0xD8 + opc.toNat) :: o.encode ext
  | .wait => [0x9B]
  | .les _ r m => 0xC4 :: m.encode r.code
  | .lds _ r m => 0xC5 :: m.encode r.code
  | .lss _ r m => 0x0F :: 0xB2 :: m.encode r.code
  | .lfs _ r m => 0x0F :: 0xB4 :: m.encode r.code
  | .lgs _ r m => 0x0F :: 0xB5 :: m.encode r.code
  | .inp .b (.imm p) => [0xE4, p]
  | .inp _ (.imm p) => [0xE5, p]
  | .inp .b .dx => [0xEC]
  | .inp _ .dx => [0xED]
  | .outp .b (.imm p) => [0xE6, p]
  | .outp _ (.imm p) => [0xE7, p]
  | .outp .b .dx => [0xEE]
  | .outp _ .dx => [0xEF]
  | .sgdt _ m => 0x0F :: 0x01 :: m.encode 0
  | .sidt _ m => 0x0F :: 0x01 :: m.encode 1
  | .lgdt _ m => 0x0F :: 0x01 :: m.encode 2
  | .lidt _ m => 0x0F :: 0x01 :: m.encode 3
  | .smsw d => 0x0F :: 0x01 :: d.encode 4
  | .lmsw o => 0x0F :: 0x01 :: o.encode 6
  | .sldt d => 0x0F :: 0x00 :: d.encode 0
  | .str d => 0x0F :: 0x00 :: d.encode 1
  | .lldt o => 0x0F :: 0x00 :: o.encode 2
  | .ltr o => 0x0F :: 0x00 :: o.encode 3
  | .verr o => 0x0F :: 0x00 :: o.encode 4
  | .verw o => 0x0F :: 0x00 :: o.encode 5
  | .clts => [0x0F, 0x06]
  | .hlt => [0xF4]
  | .movFromCr r c => [0x0F, 0x20, fields233 3 c.code r.code]
  | .movFromDr r d => [0x0F, 0x21, fields233 3 d.code r.code]
  | .movToCr c r => [0x0F, 0x22, fields233 3 c.code r.code]
  | .movToDr d r => [0x0F, 0x23, fields233 3 d.code r.code]
  | .movFromTr r t => [0x0F, 0x24, fields233 3 t.code r.code]
  | .movToTr t r => [0x0F, 0x26, fields233 3 t.code r.code]
  | .lar _ r o => 0x0F :: 0x02 :: o.encode r.code
  | .lsl _ r o => 0x0F :: 0x03 :: o.encode r.code
  | .arpl d r => 0x63 :: d.encode r.code
  | .intelReserved k => k.encode

end Sys2Proof
end

