-- ==== Sys2Proof/Config.lean ====
section
/-!
DEFINITION. Sys2Proof/Config.lean: what the spec leaves to the chip or the platform (R6, 93_implementation_defined.md
section 2), and the free values: constants without a body, of which nothing can be proved.

A free value is one of the functions below applied to `State.draws`, a counter that the step advances at each use, so
that two occurrences need not agree (93_implementation_defined.md, treatment `any value`). Log 11.
-/
namespace Sys2Proof.Config

/-- Free 32-bit values: undefined flags (I11, I16), results (I12), padding and reserved bits (I13, I14, I17, I18, I19). -/
opaque freeWord : Nat → Word

/-- What a read of the I/O space returns (R170, D21: the devices behind ports are not in the spec). Log 15. -/
opaque portIn : Nat → Word

/-- What a read of a memory-mapped device returns (R171, D20: the devices are the platform's). Log 15. -/
opaque deviceData : Nat → Word

/-- Which of the eight entries of a block a linear page uses (R56, R855: "which address bits select" is not stated). Log 20. -/
opaque tlbSet : BitVec 20 → BitVec 3

/-- Which block a new translation replaces ("a random replacement algorithm", R56). Log 20. -/
opaque tlbVictim : Nat → BitVec 2

/-- Which of the 32 TLB entries have been replaced meanwhile: the contents are any subset of the translations loaded
since the last flush (R56, R148). Log 20. -/
opaque tlbDrop : Nat → BitVec 32

/-- `REVISION_ID`, DL after reset (R833): no value in the spec. DESIGN CHOICE 0, log 3. -/
def revisionId : Byte := 0

/-- `CR0_ET_RESET`, bit 4 of CR0 after reset (R41): no value in the spec. DESIGN CHOICE 0, log 3. -/
def cr0EtReset : Bool := false

/-- `RF_ON_DEBUG_FAULT` (R786): the default of 93_implementation_defined.md section 2. Log 30. -/
def rfOnDebugFault : Bool := false

/-- `ESC_TESTS_ERROR(opcode, modrm)` (D43), by TTT, LLL and mod = 11: the default, every ESC. Log 30. -/
def escTestsError (_opc _ext : BitVec 3) (_isReg : Bool) : Bool := true

/-- `SGDT16_BYTE5` (I15): the default `zero`; `true` would store bits 31:24 of the base. Log 30. -/
def sgdt16StoresTop : Bool := false

end Sys2Proof.Config
end

