-- ==== Sys2Proof/Machine/State.lean ====
section
/-!
DEFINITION. Sys2Proof/Machine/State.lean: everything the spec gives the machine, as plain data (10_state.md), the
reasons a step can stop, and the state after reset (R70, R830). INVENTORY.md lists each field with its rule.
-/
namespace Sys2Proof.Machine

/-- Why the machine stops with a fault of the MODEL. The processor's own faults are exceptions: they are taken (R730). -/
inductive Fault where
  /-- An access to a physical address where the platform's memory map has nothing (R100, D20: the bus cycle does not
  terminate). Raised by the physical-memory operations. Safe: the chip makes no progress there either. -/
  | absentMemory
deriving DecidableEq, Repr

/-- Why the model gives no meaning. -/
inductive Refusal where
  /-- An arm of `exec` without a meaning, by mnemonic. Safe. -/
  | notModelled (mnemonic : String)
  /-- An opcode reserved by Intel (R256, I1): raised by the meaning of `intelReserved`. Safe. -/
  | reservedOpcode
  /-- AAM or AAD whose second byte is not 0AH (R250, I2). Raised by their meanings. Safe. -/
  | decimalBase
  /-- An ESC that did not trap: what it does is the coprocessor's, a chip outside the spec (R5 a, D43). Raised by the
  meaning of `esc`. Safe. -/
  | coprocessor
  /-- A TLB test write of a tag that a valid entry has already: its results are undefined (R855, I25). Raised by MOV to TR6.
  Safe. -/
  | tlbTest
deriving DecidableEq, Repr

/-- The general registers (R10). -/
structure Gprs where
  eax : Word
  ecx : Word
  edx : Word
  ebx : Word
  esp : Word
  ebp : Word
  esi : Word
  edi : Word
deriving DecidableEq, Repr

/-- A segment register: the visible selector and the hidden part (R20, R21, R22). -/
structure SegReg where
  sel : Half
  base : Word
  /-- The limit in bytes, scaled (R123). -/
  limit : Word
  /-- The access-rights byte of the descriptor: P, DPL, DT, Type (R121). -/
  ar : Byte
  /-- The D bit of a code segment, the B bit of a data segment. -/
  db : Bool
  g : Bool
  avl : Bool
  /-- The descriptor valid bit (R22). -/
  valid : Bool
deriving DecidableEq, Repr

/-- The six segment registers (R20). -/
structure SegRegs where
  es : SegReg
  cs : SegReg
  ss : SegReg
  ds : SegReg
  fs : SegReg
  gs : SegReg
deriving DecidableEq, Repr

/-- GDTR or IDTR: linear base and limit in bytes (R32, R33). -/
structure TableReg where
  base : Word
  limit : Half
deriving DecidableEq, Repr

/-- LDTR: selector, and base, scaled limit and valid bit of the LDT (R34, D5). -/
structure LdtReg where
  sel : Half
  base : Word
  limit : Word
  valid : Bool
deriving DecidableEq, Repr

/-- TR: selector, and base, scaled limit and kind of the current TSS (R35, D5). -/
structure TaskReg where
  sel : Half
  base : Word
  limit : Word
  /-- A 386 DX TSS; `false` is an 80286 TSS. -/
  is386 : Bool
deriving DecidableEq, Repr

/-- The control registers that hold anything (R36 to R46). -/
structure Cregs where
  cr0 : Word
  cr2 : Word
  cr3 : Word
deriving DecidableEq, Repr

/-- The debug registers (R48 to R51). -/
structure Dregs where
  dr0 : Word
  dr1 : Word
  dr2 : Word
  dr3 : Word
  dr6 : Word
  dr7 : Word
deriving DecidableEq, Repr

/-- The test registers (R53, R54). -/
structure Tregs where
  tr6 : Word
  tr7 : Word
deriving DecidableEq, Repr

/-- An entry of the translation lookaside buffer (R56): tag (linear page, V, D, U, W) and page frame. -/
structure TlbEntry where
  valid : Bool
  page : BitVec 20
  dirty : Bool
  user : Bool
  writable : Bool
  frame : BitVec 20
  /-- Loaded or written since reset; the model's own bit: a lookup with V clear is unpredictable otherwise (R855). -/
  written : Bool
deriving DecidableEq, Repr

/-- What the processor is doing (R59). -/
inductive Activity where
  | running
  | halted
  | shutdown
deriving DecidableEq, Repr

/-- What stands at a range of physical addresses (`MEMORY_MAP`, D20). -/
inductive RegionKind where
  | ram
  | rom
  | device
  | absent
deriving DecidableEq, Repr

/-- A range of physical addresses of one kind. -/
structure Region where
  base : Nat
  size : Nat
  kind : RegionKind
deriving DecidableEq, Repr

/-- What the processor tells the host (D21, D22). -/
inductive Event where
  /-- A read of `width` bytes at a port, and the value that came back (R170). -/
  | portRead (port : Nat) (width : Width) (value : Word)
  /-- A write of `width` bytes to a port. -/
  | portWrite (port : Nat) (width : Width) (value : Word)
  /-- A transfer of `width` bytes, aligned, from a memory-mapped device, and the value that came back (R102, R171). -/
  | deviceRead (addr : Nat) (width : Width) (value : Word)
  /-- A transfer of `width` bytes, aligned, to a memory-mapped device. -/
  | deviceWrite (addr : Nat) (width : Width) (value : Word)
  /-- The halt bus cycle (R632). -/
  | halted
  /-- The shutdown bus cycle (R760). -/
  | shutdown
deriving DecidableEq, Repr

/-- A repeat prefix (R202). -/
inductive RepKind where
  | rep     -- F3
  | repne   -- F2
deriving DecidableEq, Repr

/-- The prefixes of the instruction being read (R202, D11), the model's own field: log 6. -/
structure Latch where
  /-- How many prefix bytes have been read. -/
  count : Nat
  seg : Option Sreg
  opsize : Bool
  adrsize : Bool
  lock : Bool
  rep : Option RepKind
deriving DecidableEq, Repr

/-- The latch with no prefix read. -/
def Latch.empty : Latch := { count := 0, seg := none, opsize := false, adrsize := false, lock := false, rep := none }

/-- How an exception or interrupt is reported (R700, R702, R786). -/
inductive EventKind where
  /-- A processor-detected fault other than an instruction breakpoint. -/
  | fault
  /-- The instruction-breakpoint fault (R787). -/
  | debugFault
  /-- A debug trap (R782, R783, R785). -/
  | trap
  /-- The double fault (R749). -/
  | abort
  /-- INT n, INT 3, INTO. -/
  | software
  /-- INTR, NMI. -/
  | external
deriving DecidableEq, Repr

/-- An exception or interrupt to be delivered: vector, kind, error code (R705). -/
structure Exc where
  vec : Byte
  kind : EventKind
  code : Option Half
  /-- Raised after the commit point of a task switch: it belongs to the new task (R774). -/
  committed : Bool
deriving DecidableEq, Repr

/-- The debug traps of the instruction just completed, reported at the next boundary (R716 d, R782, R783, R785). -/
structure Traps where
  /-- Single step. -/
  bs : Bool
  /-- The T bit of the new task. -/
  bt : Bool
  /-- Breakpoints whose condition matched in the instruction: by an access of it, or by its address (R780). -/
  hits : BitVec 4
  /-- Those of them that matched an access and are enabled: they cause the trap. -/
  enabled : BitVec 4
deriving DecidableEq, Repr

def Traps.none : Traps := { bs := false, bt := false, hits := 0, enabled := 0 }

/-- The machine. -/
structure State where
  gpr : Gprs
  eip : Word
  eflags : Word
  cpl : BitVec 2
  seg : SegRegs
  gdtr : TableReg
  idtr : TableReg
  ldtr : LdtReg
  tr : TaskReg
  cr : Cregs
  dr : Dregs
  tregs : Tregs
  /-- The 4 x 8 entries of the TLB, block after block (R56). -/
  tlb : List TlbEntry
  activity : Activity
  /-- `inhibit_one` (R58 a, R713). -/
  inhibit : Bool
  /-- The delay after STI (R58 d, R525). -/
  stiDelay : Bool
  /-- `NMI_in_service` (R58 b, R711). -/
  nmiInService : Bool
  /-- A requested NMI (R58 c, R710). -/
  nmiPending : Bool
  /-- INTR asserted, and the vector its acknowledge cycle returns (R58 c, R722). -/
  intr : Option Byte
  /-- Inexact matches of enabled data breakpoints, held for a late report (R58 e, R782). -/
  lateHits : BitVec 4
  /-- RESET# asserted, with the self-test request (R61, R830). -/
  pinReset : Option Bool
  /-- BUSY# and ERROR# of the coprocessor (R61). -/
  busy : Bool
  error : Bool
  /-- An in-circuit emulator owns the debug registers (R784). -/
  iceActive : Bool
  /-- Physical memory (R100): the bytes that differ from what an unlisted address reads as, addresses rising. -/
  mem : List Host.Cell
  /-- The platform's memory map (D20); an address in no region is RAM. -/
  memMap : List Region
  -- the model's own fields
  /-- Prefixes of the instruction being read: log 6. -/
  pfx : Latch
  /-- Length of the instruction being executed, prefixes included: log 6. -/
  ilen : Nat
  /-- Between two iterations of a repeated string instruction (D74): log 6. -/
  midRep : Bool
  /-- How many free values have been drawn: log 11. -/
  draws : Nat
  /-- Debug traps to report at the next boundary: log 23. -/
  traps : Traps
  /-- A fault of a new task, delivered at the next boundary: log 24. -/
  pendingExc : Option Exc
  /-- What the host has been told, newest first: log 15. -/
  events : List Event
deriving DecidableEq, Repr

/-- What an unlisted physical address reads as: DESIGN CHOICE 00H, log 1. -/
def unlistedByte : Byte := 0

/-- The access rights of a present, readable, writable, accessed, expand-up segment of DPL 0: those of all six segment
registers at reset (D4), of CS too, which a fetch executes from whatever its type (R160). -/
def resetRights : Byte := 0x93

/-- A data segment register at reset: selector 0, base 0, limit FFFFH (R70, D4). -/
def SegReg.resetData : SegReg :=
  { sel := 0, base := 0, limit := 0xFFFF, ar := resetRights, db := false, g := false, avl := false, valid := true }

/-- CS at reset (R70): selector F000H, base FFFF0000H; the rest as the others (D4). -/
def SegReg.resetCode : SegReg := { SegReg.resetData with sel := 0xF000, base := 0xFFFF0000 }

def TlbEntry.invalid : TlbEntry :=
  { valid := false, page := 0, dirty := false, user := false, writable := false, frame := 0, written := false }

/-- The TLB at reset: every V bit clear; its contents are not stated (R834): DESIGN CHOICE, log 2. -/
def emptyTlb : List TlbEntry := List.replicate 32 TlbEntry.invalid

/-- The general registers at reset: DH = 03H, DL = `REVISION_ID` (R833); the others are not stated: DESIGN CHOICE 0, log 2. -/
def Gprs.reset : Gprs :=
  { eax := 0, ecx := 0, edx := (0x03 : BitVec 24) ++ Config.revisionId, ebx := 0, esp := 0, ebp := 0, esi := 0, edi := 0 }

/-- CR0 at reset: bits 15:0 clear but for `CR0_ET_RESET` (R36, R41). -/
def cr0Reset : Word := if Config.cr0EtReset then 0x10 else 0

/-- The machine right after power-up reset without a self-test request (R70, R830). -/
def State.reset : State :=
  { gpr := Gprs.reset
    eip := 0x0000FFF0
    eflags := 0x00000002
    cpl := 0
    seg := { es := .resetData, cs := .resetCode, ss := .resetData, ds := .resetData, fs := .resetData, gs := .resetData }
    gdtr := { base := 0, limit := 0 }
    idtr := { base := 0, limit := 0x03FF }
    ldtr := { sel := 0, base := 0, limit := 0, valid := false }
    tr := { sel := 0, base := 0, limit := 0, is386 := true }
    cr := { cr0 := cr0Reset, cr2 := 0, cr3 := 0 }
    dr := { dr0 := 0, dr1 := 0, dr2 := 0, dr3 := 0, dr6 := 0, dr7 := 0 }
    tregs := { tr6 := 0, tr7 := 0 }
    tlb := emptyTlb
    activity := .running
    inhibit := false
    stiDelay := false
    nmiInService := false
    nmiPending := false
    intr := none
    lateHits := 0
    pinReset := none
    busy := false
    error := false
    iceActive := false
    mem := []
    memMap := []
    pfx := .empty
    ilen := 0
    midRep := false
    draws := 0
    traps := .none
    pendingExc := none
    events := [] }

end Sys2Proof.Machine
end

