-- ==== Sys2Proof/Machine/Bits.lean ====
section
/-!
DEFINITION. Sys2Proof/Machine/Bits.lean: bits, fields, truncation and extension (R7, R8), the machine's monad of one
step, and raising an exception.
-/
namespace Sys2Proof.Machine

/-! Bits and widths. -/

/-- Bit `i` of a doubleword. -/
def bit (v : Word) (i : Nat) : Bool := v.getLsbD i

/-- A doubleword with bit `i` set to `b`. -/
def putBit (v : Word) (i : Nat) (b : Bool) : Word :=
  if b then v ||| (1 <<< i : Word) else v &&& ~~~(1 <<< i : Word)

/-- 0 or 1. -/
def ofBool (b : Bool) : Word := if b then 1 else 0

/-- The bits of `v` selected by `mask` replaced by those of `u`. -/
def mergeBits (mask u v : Word) : Word := (u &&& mask) ||| (v &&& ~~~mask)

/-- The low 16 bits. -/
def lowHalf (v : Word) : Half := v.setWidth 16

/-- `zext_32` of 16 bits. -/
def zext16 (h : Half) : Word := h.setWidth 32

/-- `zext_32` of 8 bits. -/
def zext8 (b : Byte) : Word := b.setWidth 32

/-- The low 16 bits replaced (R11: the upper half is left unchanged). -/
def withLow (v : Word) (h : Half) : Word := (v.extractLsb' 16 16) ++ h

/-- `trunc_N`, zero-extended back to 32 bits. -/
def truncW (n : Width) (v : Word) : Word :=
  match n with
  | .b => zext8 (v.setWidth 8)
  | .w => zext16 (v.setWidth 16)
  | .d => v

/-- `sext_32` of the low N bits. -/
def sextW (n : Width) (v : Word) : Word :=
  match n with
  | .b => (v.setWidth 8).signExtend 32
  | .w => (v.setWidth 16).signExtend 32
  | .d => v

/-- The low 16 or 32 bits, zero-extended: `EIP AND 0000FFFFH` of a 16-bit transfer (R430), a 16-bit address. -/
def truncZ (z : Sz) (v : Word) : Word := truncW z.width v

/-- `signed(v)` of the low N bits (R8). -/
def signedW (n : Width) (v : Word) : Int := (sextW n v).toInt

/-- Bit N-1. -/
def signBit (n : Width) (v : Word) : Bool := bit v (n.bits - 1)

/-! The monad: a step of an instruction, which may stop. -/

/-- Why an instruction does not complete. -/
inductive Stop where
  | exc (e : Exc)
  | fault (f : Fault)
  | refusal (r : Refusal)
deriving DecidableEq, Repr

/-- A computation on the machine; the state at the stop is kept. -/
abbrev M := EStateM Stop State

/-- Reads a function of the state. -/
def look {α : Type} (f : State → α) : M α := fun s => .ok (f s) s

/-- Changes the state. -/
def upd (f : State → State) : M Unit := fun s => .ok () (f s)

/-- Stops. -/
def stop {α : Type} (x : Stop) : M α := fun s => .error x s

/-- Raises a fault with a vector and an error code (R703, R705). -/
def raise {α : Type} (vec : Byte) (code : Option Half) : M α :=
  stop (.exc { vec := vec, kind := .fault, code := code, committed := false })

/-- Raises the fault unless the condition holds. -/
def require (c : Bool) (vec : Byte) (code : Option Half) : M Unit :=
  if c then pure () else raise vec code

/-- The error code of a selector, with EXT (R740). -/
def selCode (sel : Half) (ext : Bool) : Half :=
  (sel &&& 0xFFFC) ||| (if ext then 1 else 0)

/-- The error code 0, with EXT. -/
def zeroCode (ext : Bool) : Half := if ext then 1 else 0

/-- The error code of an IDT entry (R740). -/
def idtCode (vec : Byte) (ext : Bool) : Half :=
  BitVec.ofNat 16 (8 * vec.toNat + 2) ||| (if ext then 1 else 0)

/-- #UD (R747). -/
def raiseUD {α : Type} : M α := raise 6 none
/-- #GP(0) (R753). -/
def raiseGP0 {α : Type} : M α := raise 13 (some 0)

/-- A free value: the constant of Config applied to the counter, which advances (log 11). -/
def drawWord : M Word := fun s => .ok (Config.freeWord s.draws) { s with draws := s.draws + 1 }

/-- Runs `m` as part of the new task: a fault is the new task's and undoes nothing (R774). -/
def asNewTask {α : Type} (m : M α) : M α := fun s =>
  match m s with
  | .ok a t => .ok a t
  | .error (.exc e) t => .error (.exc { e with committed := true }) t
  | .error x t => .error x t

end Sys2Proof.Machine
end

