-- ==== Sys2Proof/Machine/Regs.lean ====
section
/-!
DEFINITION. Sys2Proof/Machine/Regs.lean: reading and writing the registers (R11 to R62). Every register has one home
in State; the narrower names are views of it.
-/
namespace Sys2Proof.Machine

/-! General registers (R10 to R13). -/

def Gprs.get (g : Gprs) : Gpr → Word
  | .ax => g.eax
  | .cx => g.ecx
  | .dx => g.edx
  | .bx => g.ebx
  | .sp => g.esp
  | .bp => g.ebp
  | .si => g.esi
  | .di => g.edi

def Gprs.set (g : Gprs) (r : Gpr) (v : Word) : Gprs :=
  match r with
  | .ax => { g with eax := v }
  | .cx => { g with ecx := v }
  | .dx => { g with edx := v }
  | .bx => { g with ebx := v }
  | .sp => { g with esp := v }
  | .bp => { g with ebp := v }
  | .si => { g with esi := v }
  | .di => { g with edi := v }

/-- The 32-bit register an 8-bit register is part of (R11). -/
def Gpr8.home : Gpr8 → Gpr
  | .al | .ah => .ax
  | .cl | .ch => .cx
  | .dl | .dh => .dx
  | .bl | .bh => .bx

/-- AH, CH, DH, BH: bits 15:8 (R11). -/
def Gpr8.high : Gpr8 → Bool
  | .al | .cl | .dl | .bl => false
  | .ah | .ch | .dh | .bh => true

def State.reg (s : State) (r : Gpr) : Word := s.gpr.get r
def State.setReg (s : State) (r : Gpr) (v : Word) : State := { s with gpr := s.gpr.set r v }

/-- An 8-bit register. -/
def State.reg8 (s : State) (r : Gpr8) : Byte :=
  if Gpr8.high r then (s.reg (Gpr8.home r)).extractLsb' 8 8 else (s.reg (Gpr8.home r)).extractLsb' 0 8

/-- Writes an 8-bit register; the other 24 bits are unchanged (R11). -/
def State.setReg8 (s : State) (r : Gpr8) (v : Byte) : State :=
  let w := s.reg (Gpr8.home r)
  s.setReg (Gpr8.home r)
    (if Gpr8.high r then w.extractLsb' 16 16 ++ v ++ w.extractLsb' 0 8 else w.extractLsb' 8 24 ++ v)

/-- A 16- or 32-bit register, zero-extended (R12). -/
def State.regZ (s : State) (z : Sz) (r : Gpr) : Word :=
  match z with
  | .s16 => zext16 (lowHalf (s.reg r))
  | .s32 => s.reg r

/-- Writes a 16- or 32-bit register; a 16-bit write leaves the upper half (R11). -/
def State.setRegZ (s : State) (z : Sz) (r : Gpr) (v : Word) : State :=
  match z with
  | .s16 => s.setReg r (withLow (s.reg r) (lowHalf v))
  | .s32 => s.setReg r v

/-! Segment registers (R20). -/

def SegRegs.get (g : SegRegs) : Sreg → SegReg
  | .es => g.es
  | .cs => g.cs
  | .ss => g.ss
  | .ds => g.ds
  | .fs => g.fs
  | .gs => g.gs

def SegRegs.set (g : SegRegs) (r : Sreg) (v : SegReg) : SegRegs :=
  match r with
  | .es => { g with es := v }
  | .cs => { g with cs := v }
  | .ss => { g with ss := v }
  | .ds => { g with ds := v }
  | .fs => { g with fs := v }
  | .gs => { g with gs := v }

def State.sreg (s : State) (r : Sreg) : SegReg := s.seg.get r
def State.setSreg (s : State) (r : Sreg) (v : SegReg) : State := { s with seg := s.seg.set r v }

/-! Access rights of a hidden part or descriptor: the byte P, DPL, DT, Type (R121, R122). -/

def arP (ar : Byte) : Bool := ar.getLsbD 7
def arDpl (ar : Byte) : BitVec 2 := ar.extractLsb' 5 2
def arDt (ar : Byte) : Bool := ar.getLsbD 4
def arType (ar : Byte) : Nat := (ar.extractLsb' 0 4).toNat
/-- A code segment: DT = 1, Type bit 3 = 1. -/
def arIsCode (ar : Byte) : Bool := arDt ar && ar.getLsbD 3
/-- A data segment: DT = 1, Type bit 3 = 0. -/
def arIsData (ar : Byte) : Bool := arDt ar && !ar.getLsbD 3
/-- C of a code segment. -/
def arConforming (ar : Byte) : Bool := arIsCode ar && ar.getLsbD 2
/-- A data segment, or a code segment with R = 1. -/
def arReadable (ar : Byte) : Bool := arIsData ar || (arIsCode ar && ar.getLsbD 1)
/-- A data segment with W = 1. -/
def arWritable (ar : Byte) : Bool := arIsData ar && ar.getLsbD 1
/-- A data segment with E = 1. -/
def arExpandDown (ar : Byte) : Bool := arIsData ar && ar.getLsbD 2

/-! EFLAGS (R16). -/

def State.cf (s : State) : Bool := bit s.eflags 0
def State.pf (s : State) : Bool := bit s.eflags 2
def State.af (s : State) : Bool := bit s.eflags 4
def State.zf (s : State) : Bool := bit s.eflags 6
def State.sf (s : State) : Bool := bit s.eflags 7
def State.tf (s : State) : Bool := bit s.eflags 8
def State.ifl (s : State) : Bool := bit s.eflags 9
def State.df (s : State) : Bool := bit s.eflags 10
def State.ofl (s : State) : Bool := bit s.eflags 11
def State.iopl (s : State) : Nat := (s.eflags.extractLsb' 12 2).toNat
def State.nt (s : State) : Bool := bit s.eflags 14
def State.rf (s : State) : Bool := bit s.eflags 16
def State.vm (s : State) : Bool := bit s.eflags 17

def State.setFlag (s : State) (i : Nat) (b : Bool) : State := { s with eflags := putBit s.eflags i b }

/-- The reserved positions 1, 3, 5, 15 as every image has them (R19, D3). -/
def fixReserved (v : Word) : Word := (v ||| 0x2) &&& ~~~(0x8028 : Word)

/-- The EFLAGS bits a load of flags may change at this level: status flags, TF, DF, NT always; IF if CPL <= IOPL;
IOPL if CPL = 0 (R31). -/
def State.flagMask (s : State) : Word :=
  0x4DD5 ||| (if s.cpl.toNat ≤ s.iopl then 0x200 else 0) ||| (if s.cpl == 0 then 0x3000 else 0)

/-- Loads flags from an image under a mask (R31). -/
def State.loadFlags (s : State) (mask image : Word) : State :=
  { s with eflags := mergeBits mask image s.eflags }

/-! Control registers (R36 to R42). -/

def State.pe (s : State) : Bool := bit s.cr.cr0 0
def State.mp (s : State) : Bool := bit s.cr.cr0 1
def State.em (s : State) : Bool := bit s.cr.cr0 2
def State.ts (s : State) : Bool := bit s.cr.cr0 3
def State.pg (s : State) : Bool := bit s.cr.cr0 31

/-- The operating mode (R62). -/
inductive Mode where
  | real
  | prot
  | v86
deriving DecidableEq, Repr

def State.mode (s : State) : Mode :=
  if s.pe then (if s.vm then .v86 else .prot) else .real

/-- The default operand and address size D: the D bit cached in CS (R203). A CS loaded in real-address or V86 mode has
D = 0; in real-address mode the D bit of protected mode stays in force until CS is loaded (R850, I24, log 28). -/
def State.defaultSz (s : State) : Sz :=
  match s.mode with
  | .prot | .real => if s.seg.cs.db then .s32 else .s16
  | .v86 => .s16

/-- The operand size attribute of the instruction being read (R203, D11). -/
def State.opSz (s : State) : Sz := if s.pfx.opsize then s.defaultSz.other else s.defaultSz

/-- The address size attribute of the instruction being read. -/
def State.adSz (s : State) : Sz := if s.pfx.adrsize then s.defaultSz.other else s.defaultSz

/-- An access at user level (R147). -/
def State.user (s : State) : Bool := s.cpl == 3

/-! Debug and test registers. -/

def Cregs.get (c : Cregs) : Creg → Word
  | .cr0 => c.cr0
  | .cr2 => c.cr2
  | .cr3 => c.cr3

def Dregs.get (d : Dregs) : Dreg → Word
  | .dr0 => d.dr0
  | .dr1 => d.dr1
  | .dr2 => d.dr2
  | .dr3 => d.dr3
  | .dr6 => d.dr6
  | .dr7 => d.dr7

def Dregs.set (d : Dregs) (r : Dreg) (v : Word) : Dregs :=
  match r with
  | .dr0 => { d with dr0 := v }
  | .dr1 => { d with dr1 := v }
  | .dr2 => { d with dr2 := v }
  | .dr3 => { d with dr3 := v }
  | .dr6 => { d with dr6 := v }
  | .dr7 => { d with dr7 := v }

def Tregs.get (t : Tregs) : Treg → Word
  | .tr6 => t.tr6
  | .tr7 => t.tr7

/-- Breakpoint address register n (R48). -/
def Dregs.addr (d : Dregs) (n : Nat) : Word :=
  match n with
  | 0 => d.dr0
  | 1 => d.dr1
  | 2 => d.dr2
  | _ => d.dr3

/-- R/Wn and LENn of DR7 (R51). -/
def dr7Rw (dr7 : Word) (n : Nat) : Nat := ((dr7 >>> (16 + 4 * n)).extractLsb' 0 2).toNat
def dr7Len (dr7 : Word) (n : Nat) : Nat := ((dr7 >>> (18 + 4 * n)).extractLsb' 0 2).toNat
/-- Ln or Gn (R781). -/
def dr7Enabled (dr7 : Word) (n : Nat) : Bool := bit dr7 (2 * n) || bit dr7 (2 * n + 1)
/-- LE or GE (R782). -/
def dr7Exact (dr7 : Word) : Bool := bit dr7 8 || bit dr7 9

/-! The same in the monad. -/

def getReg (r : Gpr) : M Word := look (·.reg r)
def putReg (r : Gpr) (v : Word) : M Unit := upd (·.setReg r v)
def getRegZ (z : Sz) (r : Gpr) : M Word := look (·.regZ z r)
def putRegZ (z : Sz) (r : Gpr) (v : Word) : M Unit := upd (·.setRegZ z r v)
def getReg8 (r : Gpr8) : M Byte := look (·.reg8 r)
def putReg8 (r : Gpr8) (v : Byte) : M Unit := upd (·.setReg8 r v)
def putFlag (i : Nat) (b : Bool) : M Unit := upd (·.setFlag i b)

/-- A general register by width: byte operands use the codes of R13. -/
def accW (n : Width) : M Word :=
  match n with
  | .b => do return zext8 (← getReg8 .al)
  | .w => getRegZ .s16 .ax
  | .d => getRegZ .s32 .ax

/-- Writes AL, AX or EAX. -/
def putAccW (n : Width) (v : Word) : M Unit :=
  match n with
  | .b => putReg8 .al (v.setWidth 8)
  | .w => putRegZ .s16 .ax v
  | .d => putRegZ .s32 .ax v

end Sys2Proof.Machine
end

