-- ==== Sys2Proof/Machine/Flags.lean ====
section
/-!
DEFINITION. Sys2Proof/Machine/Flags.lean: the results and status flags of the arithmetic, logical, shift, rotate and
bit instructions (R340, R360 to R366, R370 to R375, R380, R394 to R415) and the condition codes (R260).

A value of width N is a doubleword below 2^N.
-/
namespace Sys2Proof.Machine

/-! What an instruction does to the status flags. -/

/-- What becomes of one flag; `free`: the spec leaves it undefined (I11, log 12). -/
inductive FlagVal where
  | keep
  | put (b : Bool)
  | free
deriving DecidableEq, Repr

/-- The flag's new value, from its old one and a free bit. -/
def FlagVal.resolve (f : FlagVal) (old free : Bool) : Bool :=
  match f with
  | .keep => old
  | .put b => b
  | .free => free

/-- What becomes of the six status flags (R17). -/
structure FlagsOut where
  cf : FlagVal
  pf : FlagVal
  af : FlagVal
  zf : FlagVal
  sf : FlagVal
  ofl : FlagVal
deriving DecidableEq, Repr

/-- No flag changes. -/
def FlagsOut.same : FlagsOut := { cf := .keep, pf := .keep, af := .keep, zf := .keep, sf := .keep, ofl := .keep }
/-- Every status flag is undefined. -/
def FlagsOut.undefined : FlagsOut := { cf := .free, pf := .free, af := .free, zf := .free, sf := .free, ofl := .free }

/-- Some flag is undefined. -/
def FlagsOut.isOpen (f : FlagsOut) : Bool :=
  f.cf == .free || f.pf == .free || f.af == .free || f.zf == .free || f.sf == .free || f.ofl == .free

/-- EFLAGS with the six flags resolved. -/
def FlagsOut.image (f : FlagsOut) (old free : Word) : Word :=
  let at_ (i : Nat) (x : FlagVal) (v : Word) : Word := putBit v i (x.resolve (bit old i) (bit free i))
  at_ 0 f.cf (at_ 2 f.pf (at_ 4 f.af (at_ 6 f.zf (at_ 7 f.sf (at_ 11 f.ofl old)))))

/-- Sets the flags; one free value is drawn if any flag is undefined. -/
def State.putFlags (s : State) (f : FlagsOut) : State :=
  { s with eflags := f.image s.eflags (Config.freeWord s.draws)
           draws := if f.isOpen then s.draws + 1 else s.draws }

def putFlags (f : FlagsOut) : M Unit := upd (·.putFlags f)

/-- A result and its flags. -/
structure Res where
  val : Word
  flags : FlagsOut
deriving DecidableEq, Repr

/-- PF: an even number of 1 bits in bits 7:0 (R17). -/
def parity (v : Word) : Bool :=
  !(bit v 0 ^^ bit v 1 ^^ bit v 2 ^^ bit v 3 ^^ bit v 4 ^^ bit v 5 ^^ bit v 6 ^^ bit v 7)

/-! Addition and subtraction (R340). -/

/-- `AddFlags(a, b, c, N)`. -/
def addRes (n : Width) (a b : Word) (c : Bool) : Res :=
  let s := a.toNat + b.toNat + c.toNat
  let r := BitVec.ofNat 32 (s % 2 ^ n.bits)
  { val := r
    flags :=
      { cf := .put (2 ^ n.bits ≤ s)
        pf := .put (parity r)
        af := .put (16 ≤ a.toNat % 16 + b.toNat % 16 + c.toNat)
        zf := .put (r == 0)
        sf := .put (signBit n r)
        ofl := .put (signBit n a == signBit n b && signBit n r != signBit n a) } }

/-- `SubFlags(a, b, c, N)`. -/
def subRes (n : Width) (a b : Word) (c : Bool) : Res :=
  let r := BitVec.ofNat 32 ((2 ^ (n.bits + 1) + a.toNat - b.toNat - c.toNat) % 2 ^ n.bits)
  { val := r
    flags :=
      { cf := .put (a.toNat < b.toNat + c.toNat)
        pf := .put (parity r)
        af := .put (a.toNat % 16 < b.toNat % 16 + c.toNat)
        zf := .put (r == 0)
        sf := .put (signBit n r)
        ofl := .put (signBit n a != signBit n b && signBit n r != signBit n a) } }

/-- The same with CF unchanged: INC and DEC (R347, R348). -/
def Res.keepCf (x : Res) : Res := { x with flags := { x.flags with cf := .keep } }

/-! Logical instructions (R380). -/

/-- `LogicFlags(r, N)`. -/
def logicRes (n : Width) (r : Word) : Res :=
  { val := r
    flags := { cf := .put false, pf := .put (parity r), af := .free, zf := .put (r == 0), sf := .put (signBit n r), ofl := .put false } }

/-! Multiplication (R360 to R363): the double-width product, and its flags. -/

/-- CF and OF say whether the upper half is significant; the others are undefined. -/
def mulFlags (big : Bool) : FlagsOut :=
  { cf := .put big, pf := .free, af := .free, zf := .free, sf := .free, ofl := .put big }

/-- The unsigned product. -/
def mulNat (a b : Word) : Nat := a.toNat * b.toNat

/-- The signed product, as 2N bits in two's complement. -/
def imulNat (n : Width) (a b : Word) : Nat :=
  ((signedW n a * signedW n b) % (2 ^ (2 * n.bits) : Int)).toNat

/-- The lower and upper halves of 2N bits. -/
def lowPart (n : Width) (p : Nat) : Word := BitVec.ofNat 32 (p % 2 ^ n.bits)
def highPart (n : Width) (p : Nat) : Word := BitVec.ofNat 32 (p / 2 ^ n.bits % 2 ^ n.bits)

/-- The product does not fit N signed bits: it differs from the sign extension of its lower half. -/
def imulBig (n : Width) (a b : Word) : Bool :=
  signedW n a * signedW n b != signedW n (lowPart n (imulNat n a b))

/-! Division (R365, R366): quotient and remainder, none where #DE is raised. -/

/-- Unsigned: `hi ++ lo` divided by `d`. -/
def divRes (n : Width) (hi lo d : Word) : Option (Word × Word) :=
  let x := hi.toNat * 2 ^ n.bits + lo.toNat
  if d.toNat = 0 then none
  else if 2 ^ n.bits ≤ x / d.toNat then none
  else some (BitVec.ofNat 32 (x / d.toNat), BitVec.ofNat 32 (x % d.toNat))

/-- `hi ++ lo` as a signed number of 2N bits. -/
def signedPair (n : Width) (hi lo : Word) : Int := signedW n hi * (2 ^ n.bits : Int) + (lo.toNat : Int)

/-- Signed, truncated toward 0; the remainder has the dividend's sign. -/
def idivRes (n : Width) (hi lo d : Word) : Option (Word × Word) :=
  let x := signedPair n hi lo
  let y := signedW n d
  let q := x.tdiv y
  if y = 0 then none
  else if (2 ^ (n.bits - 1) : Int) ≤ q || q < -(2 ^ (n.bits - 1) : Int) then none
  else some (truncW n (BitVec.ofInt 32 q), truncW n (BitVec.ofInt 32 (x.tmod y)))

/-! Decimal adjustment (R370 to R375). -/

/-- SF, ZF, PF from AL (D31). -/
def decimalFlags (al : Byte) (cf af : FlagVal) : FlagsOut :=
  let r := zext8 al
  { cf := cf, pf := .put (parity r), af := af, zf := .put (r == 0), sf := .put (signBit .b r), ofl := .free }

/-- The first test of the adjustments: `(AL AND 0FH) > 9 or AF`. -/
def adjustsLow (al : Byte) (af : Bool) : Bool := decide (9 < al.toNat % 16) || af

/-- DAA: the new AL and the flags (R370). -/
def daaRes (al : Byte) (af cf : Bool) : Byte × FlagsOut :=
  let low := adjustsLow al af
  let t := if low then al + 0x06 else al
  let high := decide (0x9F < t.toNat) || cf
  let u := if high then t + 0x60 else t
  (u, decimalFlags u (.put high) (.put low))

/-- DAS (R371). -/
def dasRes (al : Byte) (af cf : Bool) : Byte × FlagsOut :=
  let low := adjustsLow al af
  let t := if low then al - 0x06 else al
  let high := decide (0x9F < t.toNat) || cf
  let u := if high then t - 0x60 else t
  (u, decimalFlags u (.put high) (.put low))

/-- AF and CF of AAA and AAS; the others are undefined. -/
def asciiFlags (carry : Bool) : FlagsOut :=
  { cf := .put carry, pf := .free, af := .put carry, zf := .free, sf := .free, ofl := .free }

/-! Shifts and rotates (R405 to R415). -/

/-- `f` applied `k` times. -/
def iterate {α : Type} (f : α → α) : Nat → α → α
  | 0, x => x
  | k + 1, x => iterate f k (f x)

/-- The bit N-1 alone. -/
def topBit (n : Width) (b : Bool) : Word := if b then (1 : Word) <<< (n.bits - 1) else 0

/-- An operand and CF, rotated or shifted together. -/
structure Ring where
  x : Word
  cf : Bool
deriving DecidableEq, Repr

def shlStep (n : Width) (g : Ring) : Ring := { x := truncW n (g.x <<< 1), cf := signBit n g.x }
def shrStep (g : Ring) : Ring := { x := g.x >>> 1, cf := bit g.x 0 }
def sarStep (n : Width) (g : Ring) : Ring := { x := (g.x >>> 1) ||| topBit n (signBit n g.x), cf := bit g.x 0 }
def rolStep (n : Width) (g : Ring) : Ring :=
  { x := truncW n (g.x <<< 1) ||| ofBool (signBit n g.x), cf := signBit n g.x }
def rorStep (n : Width) (g : Ring) : Ring := { x := (g.x >>> 1) ||| topBit n (bit g.x 0), cf := bit g.x 0 }
def rclStep (n : Width) (g : Ring) : Ring := { x := truncW n (g.x <<< 1) ||| ofBool g.cf, cf := signBit n g.x }
def rcrStep (n : Width) (g : Ring) : Ring := { x := (g.x >>> 1) ||| topBit n g.cf, cf := bit g.x 0 }

/-- OF after `c` single steps: defined for one step only. -/
def ofOnce (c : Nat) (b : Bool) : FlagVal := if c = 1 then .put b else .free

/-- The flags of a shift by `c`: none changes when `c` is 0 (R406 to R408). -/
def shiftFlags (n : Width) (c : Nat) (g : Ring) (ofl : Bool) : FlagsOut :=
  if c = 0 then .same
  else { cf := .put g.cf, pf := .put (parity g.x), af := .free, zf := .put (g.x == 0), sf := .put (signBit n g.x), ofl := ofOnce c ofl }

/-- The flags of a rotate: CF and OF only; OF is undefined but after one step, also after none (R411 to R415, D32). -/
def rotateFlags (c : Nat) (g : Ring) (ofl : Bool) : FlagsOut :=
  { FlagsOut.same with cf := .put g.cf, ofl := ofOnce c ofl }

/-- The bits N-1 and N-2 differ. -/
def topTwoDiffer (n : Width) (x : Word) : Bool := signBit n x != bit x (n.bits - 2)

def shlRes (n : Width) (c : Nat) (x : Word) (cf : Bool) : Res :=
  let g := iterate (shlStep n) c { x := x, cf := cf }
  { val := g.x, flags := shiftFlags n c g (signBit n g.x != g.cf) }

def shrRes (n : Width) (c : Nat) (x : Word) (cf : Bool) : Res :=
  let g := iterate shrStep c { x := x, cf := cf }
  { val := g.x, flags := shiftFlags n c g (signBit n x) }

def sarRes (n : Width) (c : Nat) (x : Word) (cf : Bool) : Res :=
  let g := iterate (sarStep n) c { x := x, cf := cf }
  { val := g.x, flags := shiftFlags n c g false }

def rolRes (n : Width) (c : Nat) (x : Word) (cf : Bool) : Res :=
  let g := iterate (rolStep n) c { x := x, cf := cf }
  { val := g.x, flags := rotateFlags c g (signBit n g.x != g.cf) }

def rorRes (n : Width) (c : Nat) (x : Word) (cf : Bool) : Res :=
  let g := iterate (rorStep n) c { x := x, cf := cf }
  { val := g.x, flags := rotateFlags c g (topTwoDiffer n g.x) }

def rclRes (n : Width) (c : Nat) (x : Word) (cf : Bool) : Res :=
  let g := iterate (rclStep n) c { x := x, cf := cf }
  { val := g.x, flags := rotateFlags c g (signBit n g.x != g.cf) }

def rcrRes (n : Width) (c : Nat) (x : Word) (cf : Bool) : Res :=
  let g := iterate (rcrStep n) c { x := x, cf := cf }
  { val := g.x, flags := rotateFlags c g (topTwoDiffer n g.x) }

/-- The flags of a double shift by `k` (R409, R410). -/
def doubleFlags (n : Width) (k : Nat) (cf : Bool) (d r : Word) : FlagsOut :=
  { cf := .put cf, pf := .put (parity r), af := .free, zf := .put (r == 0), sf := .put (signBit n r),
    ofl := ofOnce k (signBit n r != signBit n d) }

/-- SHLD: `free` is the undefined result for `k >= N` (R409, I12). -/
def shldRes (n : Width) (k : Nat) (d s free : Word) : Res :=
  if k = 0 then { val := d, flags := .same }
  else if n.bits ≤ k then { val := truncW n free, flags := .undefined }
  else
    let r := truncW n (d <<< k) ||| (s >>> (n.bits - k))
    { val := r, flags := doubleFlags n k (bit d (n.bits - k)) d r }

/-- SHRD (R410). -/
def shrdRes (n : Width) (k : Nat) (d s free : Word) : Res :=
  if k = 0 then { val := d, flags := .same }
  else if n.bits ≤ k then { val := truncW n free, flags := .undefined }
  else
    let r := (d >>> k) ||| truncW n (s <<< (n.bits - k))
    { val := r, flags := doubleFlags n k (bit d (k - 1)) d r }

/-! Bits (R394 to R402). -/

/-- CF is the bit; the other five are undefined (R396 to R399). -/
def bitFlags (b : Bool) : FlagsOut := { FlagsOut.undefined with cf := .put b }

/-- ZF is defined, the other five are not (R401, R402). -/
def scanFlags (zero : Bool) : FlagsOut := { FlagsOut.undefined with zf := .put zero }

/-- The least set bit from `i` on, looking at `k` bits. -/
def scanUp (v : Word) : Nat → Nat → Nat
  | _, 0 => 0
  | i, k + 1 => if bit v i then i else scanUp v (i + 1) k

/-- The greatest set bit below `k`. -/
def scanDown (v : Word) : Nat → Nat
  | 0 => 0
  | k + 1 => if bit v k then k else scanDown v k

/-! Conditions (R260). -/

/-- `Cond(tttn)`. -/
def State.cond (s : State) (c : Cond) : Bool :=
  match c with
  | .o => s.ofl
  | .no => !s.ofl
  | .b => s.cf
  | .nb => !s.cf
  | .e => s.zf
  | .ne => !s.zf
  | .be => s.cf || s.zf
  | .nbe => !(s.cf || s.zf)
  | .s => s.sf
  | .ns => !s.sf
  | .p => s.pf
  | .np => !s.pf
  | .l => s.sf != s.ofl
  | .nl => !(s.sf != s.ofl)
  | .le => (s.sf != s.ofl) || s.zf
  | .nle => !((s.sf != s.ofl) || s.zf)

end Sys2Proof.Machine
end

