-- ==== Sys2Proof/Machine/Memory.lean ====
section
/-!
DEFINITION. Sys2Proof/Machine/Memory.lean: physical memory, translation, and the access procedures (R100 to R162).
-/
namespace Sys2Proof.Machine

/-! Physical memory as a list of the bytes that differ from `unlistedByte`, addresses strictly rising (R100, log 1). -/

/-- The byte at a physical address. -/
def memGet : List Host.Cell → Nat → Byte
  | [], _ => unlistedByte
  | (a, b) :: rest, k => if k = a then b else memGet rest k

/-- A byte put at its place among rising addresses. -/
def memInsert (k : Nat) (b : Byte) : List Host.Cell → List Host.Cell
  | [] => [(k, b)]
  | (a, c) :: rest =>
    if k < a then (k, b) :: (a, c) :: rest
    else if k = a then (k, b) :: rest
    else (a, c) :: memInsert k b rest

/-- The memory without an entry at `k`. -/
def memErase (k : Nat) : List Host.Cell → List Host.Cell
  | [] => []
  | (a, c) :: rest => if k = a then memErase k rest else (a, c) :: memErase k rest

/-- Writes one byte, keeping the canonical form. -/
def memSet (m : List Host.Cell) (k : Nat) (b : Byte) : List Host.Cell :=
  if b = unlistedByte then memErase k m else memInsert k b m

/-- Every address of the list is above `k`. -/
def memAbove (k : Nat) : List Host.Cell → Bool
  | [] => true
  | (a, _) :: rest => k < a && memAbove k rest

/-- The canonical form: addresses strictly rising, no entry equal to what an unlisted address reads as. -/
def memWf : List Host.Cell → Bool
  | [] => true
  | (a, b) :: rest => b != unlistedByte && memAbove a rest && memWf rest

/-- What stands at a physical address: the first region that holds it, RAM if none does (D20, log 1). -/
def kindAt : List Region → Nat → RegionKind
  | [], _ => .ram
  | r :: rest, a => if r.base ≤ a && a < r.base + r.size then r.kind else kindAt rest a

/-- A transfer from a device: what it answers is a free value, and the host is told (R171, log 15). -/
def deviceRead (a : Nat) (n : Width) : M Word := fun s =>
  let v := truncW n (Config.deviceData s.draws)
  .ok v { s with draws := s.draws + 1, events := Event.deviceRead a n v :: s.events }

/-- A transfer to a device: the host is told (R171). -/
def deviceWrite (a : Nat) (n : Width) (v : Word) : M Unit := fun s =>
  .ok () { s with events := Event.deviceWrite a n (truncW n v) :: s.events }

/-- Reads a byte of physical memory (R100, D20). -/
def physRead (a : Nat) : M Byte := fun s =>
  match kindAt s.memMap a with
  | .ram => .ok (memGet s.mem a) s
  | .rom => .ok (memGet s.mem a) s
  | .device => (do return (← deviceRead a .b).setWidth 8) s
  | .absent => .error (.fault .absentMemory) s

/-- Writes a byte of physical memory; ROM ignores it (D20). -/
def physWrite (a : Nat) (b : Byte) : M Unit := fun s =>
  match kindAt s.memMap a with
  | .ram => .ok () { s with mem := memSet s.mem a b }
  | .rom => .ok () s
  | .device => deviceWrite a .b (zext8 b) s
  | .absent => .error (.fault .absentMemory) s

/-- Reads bytes one by one, the low byte first (R101). -/
def readBytes : List Nat → M Word
  | [] => pure 0
  | a :: rest => do
    let b ← physRead a
    let v ← readBytes rest
    return zext8 b ||| (v <<< 8)

/-- Writes bytes one by one, the low byte first (R101). -/
def writeBytes : List Nat → Word → M Unit
  | [], _ => pure ()
  | a :: rest, v => do
    physWrite a (v.setWidth 8)
    writeBytes rest (v >>> 8)

/-- `n` addresses from `a` on. -/
def addrsFrom (a : Nat) : Nat → List Nat
  | 0 => []
  | n + 1 => a :: addrsFrom (a + 1) n

/-! Bus transfers (R102). In RAM and ROM the bytes say it all; a device sees the transfers an access is made of: one for an
aligned byte, word or doubleword, else the aligned parts, from the lowest address up (log 15). -/

/-- Some byte of an access is a device's. -/
def State.onDevice (s : State) (as : List Nat) : Bool := as.any fun a => kindAt s.memMap a == .device

/-- Every byte of a transfer is a device's. -/
def State.allDevice (s : State) (as : List Nat) : Bool := as.all fun a => kindAt s.memMap a == .device

/-- The widest aligned part that begins at the first of these addresses. -/
def partWidth (as : List Nat) : Width :=
  let a := as.headD 0
  if a % 4 == 0 && as.take 4 == addrsFrom a 4 then .d
  else if a % 2 == 0 && as.take 2 == addrsFrom a 2 then .w
  else .b

/-- Reads one part: one transfer where it is a device's as a whole, else its bytes. -/
def readPart (n : Width) (as : List Nat) : M Word := do
  if ← look (·.allDevice as) then deviceRead (as.headD 0) n else readBytes as

/-- Writes one part. -/
def writePart (n : Width) (as : List Nat) (v : Word) : M Unit := do
  if ← look (·.allDevice as) then deviceWrite (as.headD 0) n v else writeBytes as v

/-- Reads at most so many parts, the lowest first. -/
def readParts : Nat → List Nat → M Word
  | 0, _ => pure 0
  | k + 1, as =>
    if as.isEmpty then pure 0
    else do
      let n := partWidth as
      let low ← readPart n (as.take n.bytes)
      let high ← readParts k (as.drop n.bytes)
      return low ||| (high <<< n.bits)

/-- Writes at most so many parts, the lowest first. -/
def writeParts : Nat → List Nat → Word → M Unit
  | 0, _, _ => pure ()
  | k + 1, as, v =>
    if as.isEmpty then pure ()
    else do
      let n := partWidth as
      writePart n (as.take n.bytes) v
      writeParts k (as.drop n.bytes) (v >>> n.bits)

/-- Reads the bytes at the addresses given, low byte first (R101). -/
def readAddrs (as : List Nat) : M Word := do
  if ← look (·.onDevice as) then readParts as.length as else readBytes as

/-- Writes to the addresses given, low byte first (R101). -/
def writeAddrs (as : List Nat) (v : Word) : M Unit := do
  if ← look (·.onDevice as) then writeParts as.length as v else writeBytes as v

/-! Paging (R146 to R149, R754, R755). -/

/-- What an access does: a read-modify-write is checked for writing but reports a read (R150 step 5, D71). -/
inductive Acc where
  | read
  | write
  | rmw
deriving DecidableEq, Repr

def Acc.writes : Acc → Bool
  | .read => false
  | .write => true
  | .rmw => true

/-- #PF at a linear address: CR2 is loaded (R754); the error code is P, W/R, U/S (R755). -/
def pageFault {α : Type} (lin : Word) (present user : Bool) (wr : Bool) : M α := do
  upd fun s => { s with cr := { s.cr with cr2 := lin } }
  raise 14 (some ((if present then 1 else 0) ||| (if wr then 2 else 0) ||| (if user then 4 else 0)))

/-- The linear page of a linear address. -/
def pageOf (lin : Word) : BitVec 20 := lin.extractLsb' 12 20
/-- The offset in the page. -/
def pageOffset (lin : Word) : Nat := (lin.extractLsb' 0 12).toNat

/-- The TLB without the entries a mask names, entry 0 first. -/
def tlbMask : List TlbEntry → Word → List TlbEntry
  | [], _ => []
  | e :: rest, m => { e with valid := e.valid && !bit m 0 } :: tlbMask rest (m >>> 1)

/-- The cached translation of a linear page. -/
def tlbFind : List TlbEntry → BitVec 20 → Option TlbEntry
  | [], _ => none
  | e :: rest, p => if e.valid && e.page == p then some e else tlbFind rest p

/-- The TLB without translations of a page. -/
def tlbForget : List TlbEntry → BitVec 20 → List TlbEntry
  | [], _ => []
  | e :: rest, p => (if e.valid && e.page == p then { e with valid := false } else e) :: tlbForget rest p

/-- The TLB with the D bit of the translations of a page set. -/
def tlbDirty : List TlbEntry → BitVec 20 → List TlbEntry
  | [], _ => []
  | e :: rest, p => (if e.valid && e.page == p then { e with dirty := true } else e) :: tlbDirty rest p

/-- The TLB with entry `i` replaced. -/
def tlbPut : List TlbEntry → Nat → TlbEntry → List TlbEntry
  | [], _, _ => []
  | _ :: rest, 0, n => n :: rest
  | e :: rest, i + 1, n => e :: tlbPut rest i n

/-- The place of a page in a block (R56; which address bits select it is not stated, log 20). -/
def tlbIndex (block : BitVec 2) (page : BitVec 20) : Nat := 8 * block.toNat + (Config.tlbSet page).toNat

/-- The TLB with every V bit clear (R56, R148). -/
def tlbClear : List TlbEntry → List TlbEntry
  | [] => []
  | e :: rest => { e with valid := false } :: tlbClear rest

/-- Empties the TLB (R148). -/
def flushTlb : M Unit := upd fun s => { s with tlb := tlbClear s.tlb }

/-- Some cached translations may have been replaced since they were loaded (R56, R148). -/
def tlbAge : M Unit :=
  upd fun s => { s with tlb := tlbMask s.tlb (Config.tlbDrop s.draws), draws := s.draws + 1 }

/-- Caches a translation in a block chosen at random (R56). -/
def tlbLoad (e : TlbEntry) : M Unit :=
  upd fun s =>
    { s with tlb := tlbPut (tlbForget s.tlb e.page) (tlbIndex (Config.tlbVictim s.draws) e.page) e, draws := s.draws + 1 }

/-- The protection check of a present translation (R147); `rw` is its combined R/W, `us` its combined U/S. -/
def pageAllows (lin : Word) (user : Bool) (acc : Acc) (us rw : Bool) : M Unit :=
  if user && !us then pageFault lin true user (acc == .write)
  else if user && acc.writes && !rw then pageFault lin true user true
  else pure ()

/-- Writes a page-table entry if it changed: one whose Accessed and Dirty bits are set already is not written again, the
model's choice (R149, log 48). -/
def putEntry (addr : Nat) (old new : Word) : M Unit :=
  if new == old then pure () else writeAddrs (addrsFrom addr 4) new

/-- The walk through the page tables (R146), with the Accessed and Dirty bits (R149): the page frame. -/
def walk (lin : Word) (user : Bool) (acc : Acc) : M (BitVec 20) := do
  let cr3 ← look (·.cr.cr3)
  let pdeAddr := (cr3.extractLsb' 12 20).toNat * 4096 + (lin.extractLsb' 22 10).toNat * 4
  let pde ← readAddrs (addrsFrom pdeAddr 4)
  if !bit pde 0 then pageFault lin false user (acc == .write)
  else
    let pteAddr := (pde.extractLsb' 12 20).toNat * 4096 + (lin.extractLsb' 12 10).toNat * 4
    let pte ← readAddrs (addrsFrom pteAddr 4)
    if !bit pte 0 then pageFault lin false user (acc == .write)
    else
      let us := bit pde 2 && bit pte 2
      let rw := bit pde 1 && bit pte 1
      pageAllows lin user acc us rw
      putEntry pdeAddr pde (putBit pde 5 true)
      let pteA := putBit pte 5 true
      let pte' := if acc.writes then putBit pteA 6 true else pteA
      putEntry pteAddr pte pte'
      tlbLoad { valid := true, page := pageOf lin, dirty := bit pte' 6, user := us, writable := rw,
                frame := pte.extractLsb' 12 20, written := true }
      return pte.extractLsb' 12 20

/-- Sets the Dirty bit in the page table, where the tables still have an entry for the page (R148, R149). -/
def putDirty (lin : Word) : M Unit := do
  let cr3 ← look (·.cr.cr3)
  let pde ← readAddrs (addrsFrom ((cr3.extractLsb' 12 20).toNat * 4096 + (lin.extractLsb' 22 10).toNat * 4) 4)
  if bit pde 0 then do
    let pteAddr := (pde.extractLsb' 12 20).toNat * 4096 + (lin.extractLsb' 12 10).toNat * 4
    let pte ← readAddrs (addrsFrom pteAddr 4)
    if bit pte 0 then putEntry pteAddr pte (putBit pte 6 true) else pure ()
  else pure ()

/-- Sets the Dirty bit in the page table and in the cached translation. -/
def setDirty (lin : Word) : M Unit := do
  putDirty lin
  upd fun s => { s with tlb := tlbDirty s.tlb (pageOf lin) }

/-- The page frame of a linear address with paging on. A cached translation is used as it was loaded (R148). A write
through one whose D bit is clear sets D in memory; whether it then uses the cached translation or the tables' is free:
until a flush either may be used (R148, log 20). -/
def pageFrame (lin : Word) (user : Bool) (acc : Acc) : M (BitVec 20) := do
  tlbAge
  let hit ← look fun s => tlbFind s.tlb (pageOf lin)
  match hit with
  | some e =>
    if acc.writes && !e.dirty then do
      let free ← drawWord
      if bit free 0 then walk lin user acc
      else do
        pageAllows lin user acc e.user e.writable
        setDirty lin
        return e.frame
    else do
      pageAllows lin user acc e.user e.writable
      return e.frame
  | none => walk lin user acc

/-- The physical address of a linear address (R110 step 5). -/
def translate (lin : Word) (user : Bool) (acc : Acc) : M Nat := do
  if ← look (·.pg) then
    let f ← pageFrame lin user acc
    return f.toNat * 4096 + pageOffset lin
  else return lin.toNat

/-- The physical addresses of the `n` bytes from a linear address on: one page, or two (R150 step 4). -/
def linAddrs (lin : Word) (n : Nat) (user : Bool) (acc : Acc) : M (List Nat) := do
  let k := 4096 - pageOffset lin
  let p ← translate lin user acc
  if n ≤ k then return addrsFrom p n
  else
    let q ← translate (lin + BitVec.ofNat 32 k) user acc
    return addrsFrom p k ++ addrsFrom q (n - k)

/-! Accesses the processor makes for itself (R151). -/

/-- `LinRead(lin, n)`, supervisor. -/
def linRead (lin : Word) (n : Width) : M Word := do
  readAddrs (← linAddrs lin n.bytes false .read)

/-- `LinWrite(lin, n, v)`, supervisor. -/
def linWrite (lin : Word) (n : Width) (v : Word) : M Unit := do
  writeAddrs (← linAddrs lin n.bytes false .write) v

/-- Where and what to write. -/
structure LinStore where
  lin : Word
  width : Width
  value : Word
deriving DecidableEq, Repr

/-- The addresses of several stores: every translation is checked. -/
def storeAddrs : List LinStore → M (List (List Nat × Word))
  | [] => pure []
  | w :: rest => do
    let a ← linAddrs w.lin w.width.bytes false .write
    let more ← storeAddrs rest
    return (a, w.value) :: more

/-- Performs stores already translated. -/
def performStores : List (List Nat × Word) → M Unit
  | [] => pure ()
  | (a, v) :: rest => do
    writeAddrs a v
    performStores rest

/-- Several stores of the processor itself, all checked before any is performed (D8). -/
def linWriteAll (ws : List LinStore) : M Unit := do
  performStores (← storeAddrs ws)

/-! Segment checks (R140 to R145). -/

/-- The limit check, expand-up (R142) and expand-down (R143). -/
def SegReg.inLimit (g : SegReg) (off : Word) (n : Nat) : Bool :=
  if arExpandDown g.ar then
    g.limit.toNat < off.toNat && off.toNat + n - 1 ≤ (if g.db then 0xFFFFFFFF else 0xFFFF)
  else off.toNat + n - 1 ≤ g.limit.toNat

/-- The type check (R140). -/
def SegReg.typeAllows (g : SegReg) (acc : Acc) : Bool :=
  match acc with
  | .read => arReadable g.ar
  | .write => arWritable g.ar
  | .rmw => arReadable g.ar && arWritable g.ar

/-- Every segment-level check of an access of `n` bytes made with address size `a` (R150 steps 1 and 2): the offset of
the last byte, not wrapped, lies within the address size (R104, R142, D7) and within the limit. -/
def SegReg.allows (g : SegReg) (mode : Mode) (a : Sz) (off : Word) (n : Nat) (acc : Acc) : Bool :=
  off.toNat + n - 1 ≤ a.top &&
    match mode with
    | .prot => g.valid && g.typeAllows acc && g.inLimit off n
    | .real => off.toNat + n - 1 ≤ g.limit.toNat
    | .v86 => off.toNat + n - 1 ≤ g.limit.toNat

/-- The vector of a segment-level violation: #SS through SS, else #GP (R144). -/
def Sreg.violation : Sreg → Byte
  | .ss => 12
  | _ => 13

/-! Data breakpoints (R781). -/

/-- Whether breakpoint `n` matches a data access of `k` bytes at `lin`: some byte of it, the addresses taken modulo 2^32
(D7), is in its range; `free` decides the undefined settings (I20). -/
def dataMatch (dr : Dregs) (lin : Word) (k : Nat) (acc : Acc) (free : Word) (n : Nat) : Bool :=
  let rw := dr7Rw dr.dr7 n
  let len := dr7Len dr.dr7 n
  if rw == 0 then false
  else if rw == 2 || len == 2 then bit free n
  else if rw == 1 && !acc.writes then false
  else
    let start := (dr.addr n).toNat / (len + 1) * (len + 1)
    (List.range k).any fun j => start ≤ (lin + BitVec.ofNat 32 j).toNat && (lin + BitVec.ofNat 32 j).toNat ≤ start + len

/-- Whether a setting of DR7 leaves a data match undefined (I20). -/
def dataUndefined (dr7 : Word) (n : Nat) : Bool :=
  dr7Rw dr7 n == 2 || (dr7Rw dr7 n != 0 && dr7Len dr7 n == 2)

/-- Four Booleans as bits 3:0. -/
def bits4 (f : Nat → Bool) : BitVec 4 :=
  (if f 0 then 1 else 0) ||| (if f 1 then 2 else 0) ||| (if f 2 then 4 else 0) ||| (if f 3 then 8 else 0)

/-- The enabled breakpoints. -/
def enabledMask (dr7 : Word) : BitVec 4 := bits4 (dr7Enabled dr7)

/-- Records the breakpoints an access matches (R782). -/
def noteAccess (lin : Word) (k : Nat) (acc : Acc) : M Unit := do
  let dr ← look (·.dr)
  let free ← if bits4 (dataUndefined dr.dr7) == 0 then pure 0 else drawWord
  let hits := bits4 (dataMatch dr lin k acc free)
  upd fun s => { s with traps := { s.traps with hits := s.traps.hits ||| hits,
                                                enabled := s.traps.enabled ||| (hits &&& enabledMask dr.dr7) } }

/-! Accesses of an instruction through a segment register (R150). -/

/-- Every check of an access with address size `a`, and the physical addresses of its bytes. -/
def memAddrs (a : Sz) (r : Sreg) (off : Word) (n : Nat) (acc : Acc) : M (List Nat) := do
  let g ← look (·.sreg r)
  let mode ← look (·.mode)
  require (g.allows mode a off n acc) (Sreg.violation r) (some 0)
  noteAccess (g.base + off) n acc
  linAddrs (g.base + off) n (← look (·.user)) acc

/-- `MemRead(s:off, n)`. -/
def memRead (a : Sz) (r : Sreg) (off : Word) (n : Width) : M Word := do
  readAddrs (← memAddrs a r off n.bytes .read)

/-- `MemWrite(s:off, n, v)`. -/
def memWrite (a : Sz) (r : Sreg) (off : Word) (n : Width) (v : Word) : M Unit := do
  writeAddrs (← memAddrs a r off n.bytes .write) v

/-! The stack (R152, R300, R301). -/

/-- A stack: segment, segment register contents and pointer, and the page level of its accesses. -/
structure Stack where
  seg : SegReg
  esp : Word
  user : Bool
deriving DecidableEq, Repr

/-- The current stack. -/
def State.stack (s : State) : Stack := { seg := s.seg.ss, esp := s.gpr.esp, user := s.user }

/-- SS_B, the address size of the stack (R204). -/
def Stack.size (k : Stack) : Sz := if k.seg.db then .s32 else .s16

/-- The stack segment allows an access (R152). -/
def Stack.allows (k : Stack) (mode : Mode) (off : Word) (n : Nat) (acc : Acc) : Bool := k.seg.allows mode k.size off n acc

/-- The offset `d` bytes below the stack pointer, in SP or ESP (R204). -/
def Stack.below (k : Stack) (d : Nat) : Word :=
  if k.seg.db then k.esp - BitVec.ofNat 32 d else zext16 (lowHalf k.esp - BitVec.ofNat 16 d)

/-- The offset `d` bytes above the stack pointer. -/
def Stack.above (k : Stack) (d : Nat) : Word :=
  if k.seg.db then k.esp + BitVec.ofNat 32 d else zext16 (lowHalf k.esp + BitVec.ofNat 16 d)

/-- ESP with the stack pointer set to an offset: with a 16-bit stack the upper half is unchanged (R204). -/
def Stack.pointer (k : Stack) (off : Word) : Word :=
  if k.seg.db then off else withLow k.esp (lowHalf off)

/-- Room for `count` items of `n` bytes below the stack pointer. -/
def Stack.room (k : Stack) (mode : Mode) (n : Nat) : Nat → Bool
  | 0 => true
  | c + 1 => k.room mode n c && k.allows mode (k.below ((c + 1) * n)) n .write

/-- The addresses of the items pushed, each checked; `note` records data breakpoints (R781: an instruction's own
pushes are candidates, those of a delivery are not). `d` is how far below the stack pointer the last item lies. -/
def pushAddrs (k : Stack) (n : Width) (note : Bool) (code : Half) : Nat → List Word → M (List (List Nat × Word))
  | _, [] => pure []
  | d, v :: rest => do
    let off := k.below (d + n.bytes)
    let mode ← look (·.mode)
    require (k.allows mode off n.bytes .write) 12 (some code)
    if note then noteAccess (k.seg.base + off) n.bytes .write
    let a ← linAddrs (k.seg.base + off) n.bytes k.user .write
    let more ← pushAddrs k n note code (d + n.bytes) rest
    return (a, v) :: more

/-- Stores items below a stack pointer in push order, then makes the stores of the processor's own that the same step
groups with them; all are checked before any is made (D8). -/
def pushItems (k : Stack) (n : Width) (note : Bool) (code : Half) (vs : List Word) (own : List LinStore) : M Unit := do
  let items ← pushAddrs k n note code 0 vs
  let more ← storeAddrs own
  performStores (items ++ more)

/-- Pushes items of an instruction on the current stack (R300), with stores of the processor's own. -/
def pushWith (n : Width) (vs : List Word) (own : List LinStore) : M Unit := do
  let k ← look (·.stack)
  pushItems k n true 0 vs own
  putReg .sp (k.pointer (k.below (n.bytes * vs.length)))

/-- Pushes items of an instruction on the current stack (R300). -/
def pushAll (n : Width) (vs : List Word) : M Unit := pushWith n vs []

/-- `Push(v, n)` (R300). -/
def push (n : Width) (v : Word) : M Unit := pushAll n [v]

/-- Reads the item `d` bytes above the stack pointer, without moving it. -/
def peek (n : Width) (d : Nat) : M Word := do
  let k ← look (·.stack)
  memRead k.size .ss (k.above d) n

/-- Moves the stack pointer up by `d` bytes. -/
def popBytes (d : Nat) : M Unit := do
  let k ← look (·.stack)
  putReg .sp (k.pointer (k.above d))

/-- `Pop(n)` (R301). -/
def pop (n : Width) : M Word := do
  let v ← peek n 0
  popBytes n.bytes
  return v

/-- The top `count` bytes of the stack lie within its limits (R449, R477, R480). -/
def Stack.holds (k : Stack) (mode : Mode) (count : Nat) : Bool := k.allows mode (k.above 0) count .read

end Sys2Proof.Machine
end

