-- ==== Sys2Proof/Machine/Descriptors.lean ====
section
/-!
DEFINITION. Sys2Proof/Machine/Descriptors.lean: selectors, descriptors, gates, and segment-register loads (R120 to R134).
-/
namespace Sys2Proof.Machine

/-! Selectors (R120). -/

/-- A null selector: 0000H to 0003H (R22). -/
def selNull (sel : Half) : Bool := (sel &&& 0xFFFC) == 0
/-- TI: the LDT. -/
def selLdt (sel : Half) : Bool := sel.getLsbD 2
def selRpl (sel : Half) : BitVec 2 := sel.extractLsb' 0 2
/-- Index times 8: the offset in the table. -/
def selOffset (sel : Half) : Nat := (sel &&& 0xFFF8).toNat
/-- `(sel AND FFFCH) OR level`. -/
def selWithRpl (sel : Half) (level : BitVec 2) : Half := (sel &&& 0xFFFC) ||| level.setWidth 16

/-- An 8-byte descriptor: the doublewords at +0 and +4 (R121), and where it stands. -/
structure Desc where
  at_ : Word
  lo : Word
  hi : Word
deriving DecidableEq, Repr

def Desc.ar (d : Desc) : Byte := d.hi.extractLsb' 8 8
def Desc.type (d : Desc) : Nat := arType d.ar
def Desc.dt (d : Desc) : Bool := arDt d.ar
def Desc.dpl (d : Desc) : BitVec 2 := arDpl d.ar
def Desc.present (d : Desc) : Bool := arP d.ar
def Desc.avl (d : Desc) : Bool := bit d.hi 20
def Desc.db (d : Desc) : Bool := bit d.hi 22
def Desc.g (d : Desc) : Bool := bit d.hi 23
def Desc.base (d : Desc) : Word := d.hi.extractLsb' 24 8 ++ d.hi.extractLsb' 0 8 ++ d.lo.extractLsb' 16 16
def Desc.rawLimit (d : Desc) : BitVec 20 := d.hi.extractLsb' 16 4 ++ d.lo.extractLsb' 0 16
/-- The effective limit in bytes (R123). -/
def Desc.limit (d : Desc) : Word :=
  if d.g then d.rawLimit ++ (0xFFF : BitVec 12) else d.rawLimit.setWidth 32

/-- A system descriptor of this type (R124). -/
def Desc.isSystem (d : Desc) (t : Nat) : Bool := !d.dt && d.type == t
/-- An available TSS, 80286 or 386 DX. -/
def Desc.isAvailTss (d : Desc) : Bool := d.isSystem 1 || d.isSystem 9
/-- A busy TSS. -/
def Desc.isBusyTss (d : Desc) : Bool := d.isSystem 3 || d.isSystem 11

/-- Gate fields (R126, R127). -/
def Desc.gateSel (d : Desc) : Half := d.lo.extractLsb' 16 16
def Desc.gateOffset32 (d : Desc) : Word := d.hi.extractLsb' 16 16 ++ d.lo.extractLsb' 0 16
def Desc.gateOffset16 (d : Desc) : Word := zext16 (d.lo.extractLsb' 0 16)
def Desc.gateCount (d : Desc) : Nat := (d.hi.extractLsb' 0 5).toNat

/-- Reads the descriptor at a linear address (R151). -/
def readDesc (at_ : Word) : M Desc := do
  let lo ← linRead at_ .d
  let hi ← linRead (at_ + 4) .d
  return { at_ := at_, lo := lo, hi := hi }

/-- `FetchDescriptor(sel)` (R128): none outside the table, or in an LDT that is not there. -/
def fetchDesc (sel : Half) : M (Option Desc) := do
  if selLdt sel then
    let t ← look (·.ldtr)
    if t.valid && selOffset sel + 7 ≤ t.limit.toNat then
      return some (← readDesc (t.base + BitVec.ofNat 32 (selOffset sel)))
    else return none
  else
    let t ← look (·.gdtr)
    if selOffset sel + 7 ≤ t.limit.toNat then
      return some (← readDesc (t.base + BitVec.ofNat 32 (selOffset sel)))
    else return none

/-- The descriptor of a selector, or the exception of its being out of the table's limit. -/
def needDesc (sel : Half) (vec : Byte) (ext : Bool) : M Desc := do
  match ← fetchDesc sel with
  | some d => return d
  | none => raise vec (some (selCode sel ext))

/-- Sets bit `i` of the access-rights byte in the descriptor in memory. -/
def writeRights (d : Desc) (ar : Byte) : M Unit := linWrite (d.at_ + 5) .b (zext8 ar)

/-- Sets the Accessed bit in memory (R122; written whether or not it was set, log 31). -/
def setAccessed (d : Desc) : M Unit := writeRights d (d.ar ||| 1)

/-- The store that sets the Accessed bit, where it is checked together with other stores (D8). -/
def Desc.mark (d : Desc) : LinStore := { lin := d.at_ + 5, width := .b, value := zext8 (d.ar ||| 1) }

/-- The hidden part a descriptor gives (R21). -/
def Desc.toSeg (d : Desc) (sel : Half) : SegReg :=
  { sel := sel, base := d.base, limit := d.limit, ar := d.ar ||| 1, db := d.db, g := d.g, avl := d.avl, valid := true }

/-- A null selector in a data segment register (R22). -/
def SegReg.null (g : SegReg) (sel : Half) : SegReg := { g with sel := sel, valid := false }

/-- Loads a segment register from a descriptor already checked. -/
def loadSeg (r : Sreg) (sel : Half) (d : Desc) : M Unit := do
  setAccessed d
  upd (·.setSreg r (d.toSeg sel))

/-- A writable data segment. -/
def Desc.isStack (d : Desc) : Bool := arWritable d.ar

/-- `LoadSS(sel)` (R131). -/
def loadSS (sel : Half) : M Unit := do
  let cpl ← look (·.cpl)
  require (!selNull sel) 13 (some 0)
  let d ← needDesc sel 13 false
  require (selRpl sel == cpl) 13 (some (selCode sel false))
  require d.isStack 13 (some (selCode sel false))
  require (d.dpl == cpl) 13 (some (selCode sel false))
  require d.present 12 (some (selCode sel false))
  loadSeg .ss sel d

/-- `LoadDataSeg(r, sel)` (R132). -/
def loadDataSeg (r : Sreg) (sel : Half) : M Unit := do
  let cpl ← look (·.cpl)
  if selNull sel then upd fun s => s.setSreg r ((s.sreg r).null sel)
  else do
    let d ← needDesc sel 13 false
    require (arReadable d.ar) 13 (some (selCode sel false))
    require (arConforming d.ar || (selRpl sel ≤ d.dpl && cpl ≤ d.dpl)) 13 (some (selCode sel false))
    require d.present 11 (some (selCode sel false))
    loadSeg r sel d

/-- A load in real-address mode: selector and base only (R133, R160, R162). -/
def SegReg.loadReal (g : SegReg) (sel : Half) : SegReg := { g with sel := sel, base := zext16 sel <<< 4 }

/-- The same for SS, whose B is 0 once it is loaded in this mode (R204, log 28). -/
def SegReg.loadRealSS (g : SegReg) (sel : Half) : SegReg := { g.loadReal sel with db := false }

/-- The same for CS, whose access rights become those of real-address mode, D = 0 with them (R850 step 6, R203,
log 28). -/
def SegReg.loadRealCS (g : SegReg) (sel : Half) : SegReg := { g.loadReal sel with ar := resetRights, db := false }

/-- A load in real-address mode, by register. -/
def SegReg.loadRealAt (g : SegReg) (r : Sreg) (sel : Half) : SegReg :=
  match r with
  | .cs => g.loadRealCS sel
  | .ss => g.loadRealSS sel
  | .es | .ds | .fs | .gs => g.loadReal sel

/-- A load in V86 mode: base, limit FFFFH, a writable expand-up data segment of DPL 3 (R162, R777, D9). -/
def SegReg.loadV86 (sel : Half) : SegReg :=
  { sel := sel, base := zext16 sel <<< 4, limit := 0xFFFF, ar := 0xF3, db := false, g := false, avl := false, valid := true }

/-- A load without descriptors. -/
def State.loadFlat (s : State) (r : Sreg) (sel : Half) : State :=
  match s.mode with
  | .v86 => s.setSreg r (.loadV86 sel)
  | .real => s.setSreg r ((s.sreg r).loadRealAt r sel)
  | .prot => s.setSreg r ((s.sreg r).loadReal sel)

/-- A load of SS, DS, ES, FS or GS by an instruction (R131, R132, R133). -/
def loadSreg (r : Sreg) (sel : Half) : M Unit := do
  match ← look (·.mode) with
  | .prot => if r == .ss then loadSS sel else loadDataSeg r sel
  | .real => upd (·.loadFlat r sel)
  | .v86 => upd (·.loadFlat r sel)

end Sys2Proof.Machine
end

