-- ==== Sys2Proof/Machine/Task.lean ====
section
/-!
DEFINITION. Sys2Proof/Machine/Task.lean: the task state segment and the task switch (R129, R770 to R778).
-/
namespace Sys2Proof.Machine

/-- Who switches tasks (R770). -/
inductive SwitchKind where
  | jmp
  | call
  | int
  | iret
deriving DecidableEq, Repr

/-- JMP and IRET do not nest (R775). -/
def SwitchKind.nests : SwitchKind → Bool
  | .jmp => false
  | .iret => false
  | .call => true
  | .int => true

/-- EFLAGS as an image that is stored has it: reserved positions fixed, bits 31:18 without a value (R19, D3, I13). -/
def flagImage (rf : Bool) : M Word := do
  let fl ← look (·.eflags)
  let free ← drawWord
  return mergeBits 0xFFFC0000 free (putBit (fixReserved fl) 16 rf)

/-- One store into the old TSS. -/
def tssStore (base : Word) (off : Nat) (n : Width) (v : Word) : LinStore :=
  { lin := base + BitVec.ofNat 32 off, width := n, value := v }

/-- The stores that save the old task (R770 step 2), for a 386 DX or an 80286 TSS. -/
def saveStores (s : State) (eip image : Word) : List LinStore :=
  let b := s.tr.base
  if s.tr.is386 then
    [ tssStore b 0x20 .d eip, tssStore b 0x24 .d image,
      tssStore b 0x28 .d s.gpr.eax, tssStore b 0x2C .d s.gpr.ecx, tssStore b 0x30 .d s.gpr.edx, tssStore b 0x34 .d s.gpr.ebx,
      tssStore b 0x38 .d s.gpr.esp, tssStore b 0x3C .d s.gpr.ebp, tssStore b 0x40 .d s.gpr.esi, tssStore b 0x44 .d s.gpr.edi,
      tssStore b 0x48 .w (zext16 s.seg.es.sel), tssStore b 0x4C .w (zext16 s.seg.cs.sel),
      tssStore b 0x50 .w (zext16 s.seg.ss.sel), tssStore b 0x54 .w (zext16 s.seg.ds.sel),
      tssStore b 0x58 .w (zext16 s.seg.fs.sel), tssStore b 0x5C .w (zext16 s.seg.gs.sel) ]
  else
    [ tssStore b 0x0E .w eip, tssStore b 0x10 .w image,
      tssStore b 0x12 .w s.gpr.eax, tssStore b 0x14 .w s.gpr.ecx, tssStore b 0x16 .w s.gpr.edx, tssStore b 0x18 .w s.gpr.ebx,
      tssStore b 0x1A .w s.gpr.esp, tssStore b 0x1C .w s.gpr.ebp, tssStore b 0x1E .w s.gpr.esi, tssStore b 0x20 .w s.gpr.edi,
      tssStore b 0x22 .w (zext16 s.seg.es.sel), tssStore b 0x24 .w (zext16 s.seg.cs.sel),
      tssStore b 0x26 .w (zext16 s.seg.ss.sel), tssStore b 0x28 .w (zext16 s.seg.ds.sel) ]

/-- The linear address of the descriptor of a GDT selector. -/
def gdtAddr (s : State) (sel : Half) : Word := s.gdtr.base + BitVec.ofNat 32 (selOffset sel)

/-- What the new TSS holds (R770 step 6). -/
structure TaskImage where
  cr3 : Word
  eip : Word
  eflags : Word
  gpr : Gprs
  es : Half
  cs : Half
  ss : Half
  ds : Half
  fs : Half
  gs : Half
  ldt : Half
  trap : Bool
deriving DecidableEq, Repr

/-- Reads a field of a TSS. -/
def tssRead (base : Word) (off : Nat) (n : Width) : M Word := linRead (base + BitVec.ofNat 32 off) n

/-- Reads a selector of a TSS. -/
def tssSel (base : Word) (off : Nat) : M Half := do return lowHalf (← tssRead base off .w)

/-- A needed field of the current TSS lies within the limit of TR, `last` being its last byte; else #TS (R145, R750, D37). -/
def needTss (last : Nat) (ext : Bool) : M Unit := do
  let t ← look (·.tr)
  require (last ≤ t.limit.toNat) 10 (some (selCode t.sel ext))

/-- The last byte of the old TSS that `saveStores` writes. -/
def savedTop (is386 : Bool) : Nat := if is386 then 0x5D else 0x29

/-- Reads a 386 DX TSS. -/
def readTss386 (b : Word) : M TaskImage := do
  let cr3 ← tssRead b 0x1C .d
  let eip ← tssRead b 0x20 .d
  let fl ← tssRead b 0x24 .d
  let eax ← tssRead b 0x28 .d
  let ecx ← tssRead b 0x2C .d
  let edx ← tssRead b 0x30 .d
  let ebx ← tssRead b 0x34 .d
  let esp ← tssRead b 0x38 .d
  let ebp ← tssRead b 0x3C .d
  let esi ← tssRead b 0x40 .d
  let edi ← tssRead b 0x44 .d
  let es ← tssSel b 0x48
  let cs ← tssSel b 0x4C
  let ss ← tssSel b 0x50
  let ds ← tssSel b 0x54
  let fs ← tssSel b 0x58
  let gs ← tssSel b 0x5C
  let ldt ← tssSel b 0x60
  let t ← tssRead b 0x64 .w
  return { cr3 := cr3, eip := eip, eflags := fl,
           gpr := { eax := eax, ecx := ecx, edx := edx, ebx := ebx, esp := esp, ebp := ebp, esi := esi, edi := edi },
           es := es, cs := cs, ss := ss, ds := ds, fs := fs, gs := gs, ldt := ldt, trap := bit t 0 }

/-- A 16-bit register of an 80286 TSS; the upper half has no value (R776, I19). -/
def tss286Reg (b : Word) (off : Nat) : M Word := do
  let lo ← tssRead b off .w
  let free ← drawWord
  return withLow free (lowHalf lo)

/-- Reads an 80286 TSS (R776): no CR3, FS, GS, T bit; EFLAGS 31:16 = 0 (D68). -/
def readTss286 (b : Word) : M TaskImage := do
  let cr3 ← look (·.cr.cr3)
  let eip ← tssRead b 0x0E .w
  let fl ← tssRead b 0x10 .w
  let eax ← tss286Reg b 0x12
  let ecx ← tss286Reg b 0x14
  let edx ← tss286Reg b 0x16
  let ebx ← tss286Reg b 0x18
  let esp ← tss286Reg b 0x1A
  let ebp ← tss286Reg b 0x1C
  let esi ← tss286Reg b 0x1E
  let edi ← tss286Reg b 0x20
  let es ← tssSel b 0x22
  let cs ← tssSel b 0x24
  let ss ← tssSel b 0x26
  let ds ← tssSel b 0x28
  let ldt ← tssSel b 0x2A
  return { cr3 := cr3, eip := eip, eflags := fl,
           gpr := { eax := eax, ecx := ecx, edx := edx, ebx := ebx, esp := esp, ebp := ebp, esi := esi, edi := edi },
           es := es, cs := cs, ss := ss, ds := ds, fs := 0, gs := 0, ldt := ldt, trap := false }

/-- Every hidden part invalid, the selectors as read (R774, D66). -/
def TaskImage.selectors (t : TaskImage) (g : SegRegs) : SegRegs :=
  { es := g.es.null t.es, cs := g.cs.null t.cs, ss := g.ss.null t.ss,
    ds := g.ds.null t.ds, fs := g.fs.null t.fs, gs := g.gs.null t.gs }

/-- The state with the registers of the new task loaded (R770 step 7). -/
def TaskImage.load (t : TaskImage) (kind : SwitchKind) (s : State) : State :=
  let fl := fixReserved t.eflags
  { s with
    gpr := t.gpr
    eip := t.eip
    eflags := if kind == .jmp then putBit fl 14 false else if kind.nests then putBit fl 14 true else fl
    cr := { s.cr with cr3 := t.cr3 }
    tlb := if t.cr3 == s.cr.cr3 then s.tlb else tlbClear s.tlb
    dr := { s.dr with dr7 := s.dr.dr7 &&& ~~~(0x155 : Word) }
    ldtr := { s.ldtr with sel := t.ldt, valid := false }
    seg := t.selectors s.seg
    cpl := selRpl t.cs }

/-- The LDT of the new task (R770 step 9). -/
def loadTaskLdt (sel : Half) (ext : Bool) : M Unit := do
  if selNull sel then pure ()
  else do
    require (!selLdt sel) 10 (some (selCode sel ext))
    let d ← needDesc sel 10 ext
    require (d.isSystem 2) 10 (some (selCode sel ext))
    require d.present 10 (some (selCode sel ext))
    upd fun s => { s with ldtr := { sel := sel, base := d.base, limit := d.limit, valid := true } }

/-- CS of the new task (R773). -/
def loadTaskCS (sel : Half) (ext : Bool) : M Unit := do
  require (!selNull sel) 10 (some (zeroCode ext))
  let d ← needDesc sel 10 ext
  require (arIsCode d.ar) 10 (some (selCode sel ext))
  require (if arConforming d.ar then d.dpl ≤ selRpl sel else d.dpl == selRpl sel) 10 (some (selCode sel ext))
  require d.present 11 (some (selCode sel ext))
  loadSeg .cs sel d

/-- SS of the new task (R773). -/
def loadTaskSS (sel : Half) (ext : Bool) : M Unit := do
  let cpl ← look (·.cpl)
  require (!selNull sel) 10 (some (zeroCode ext))
  let d ← needDesc sel 10 ext
  require d.isStack 10 (some (selCode sel ext))
  require (d.dpl == cpl) 10 (some (selCode sel ext))
  require (selRpl sel == cpl) 10 (some (selCode sel ext))
  require d.present 12 (some (selCode sel ext))
  loadSeg .ss sel d

/-- DS, ES, FS or GS of the new task (R773). -/
def loadTaskData (r : Sreg) (sel : Half) (ext : Bool) : M Unit := do
  if selNull sel then pure ()
  else do
    let cpl ← look (·.cpl)
    let d ← needDesc sel 10 ext
    require (arReadable d.ar) 10 (some (selCode sel ext))
    require (arConforming d.ar || (cpl ≤ d.dpl && selRpl sel ≤ d.dpl)) 10 (some (selCode sel ext))
    require d.present 11 (some (selCode sel ext))
    loadSeg r sel d

/-- The segment registers of a V86 task (R777). -/
def TaskImage.loadV86 (t : TaskImage) (s : State) : State :=
  { s with cpl := 3,
           seg := { es := .loadV86 t.es, cs := .loadV86 t.cs, ss := .loadV86 t.ss,
                    ds := .loadV86 t.ds, fs := .loadV86 t.fs, gs := .loadV86 t.gs } }

/-- Segment loads and checks of the new task (R770 steps 8 to 10). -/
def loadTaskSegs (t : TaskImage) (ext : Bool) : M Unit := do
  if ← look (·.vm) then
    upd t.loadV86
    loadTaskLdt t.ldt ext
  else
    loadTaskLdt t.ldt ext
    loadTaskCS t.cs ext
    loadTaskSS t.ss ext
    loadTaskData .ds t.ds ext
    loadTaskData .es t.es ext
    loadTaskData .fs t.fs ext
    loadTaskData .gs t.gs ext

/-- Pushes an error code on the stack of the new task: a doubleword for a 386 DX TSS, a word for an 80286 one (R737). -/
def pushTaskCode (is386 ext : Bool) (code : Option Word) : M Unit := do
  match code with
  | none => pure ()
  | some c =>
    let n := if is386 then Width.d else Width.w
    let k ← look (·.stack)
    pushItems k n false (zeroCode ext) [c] []
    putReg .sp (k.pointer (k.below n.bytes))

/-- EIP within the limit of the new CS (R772). -/
def checkTaskEip (ext : Bool) : M Unit := do
  let ok ← look fun s => decide (s.eip.toNat ≤ s.seg.cs.limit.toNat)
  require ok 13 (some (zeroCode ext))

/-- A field of the new TSS if it can be read, else a free value; a page fault of this reading leaves no trace. -/
def tssReadOr (base : Word) (off : Nat) (n : Width) : M Word := fun s =>
  match tssRead base off n s with
  | .ok v t => .ok v t
  | .error (.exc _) t =>
    .ok (truncW n (Config.freeWord t.draws)) { t with cr := { t.cr with cr2 := s.cr.cr2 }, draws := t.draws + 1 }
  | .error x t => .error x t

/-- CS' and EIP' of the new task, where a page fault on its TSS is reported (R774, log 24): the hidden part of CS is
invalid, and CPL is CS'.RPL but for a task that is still in V86 mode. -/
def placeInTask (is386 : Bool) (base : Word) : M Unit := do
  let eip ← tssReadOr base (if is386 then 0x20 else 0x0E) (if is386 then .d else .w)
  let cs ← tssReadOr base (if is386 then 0x4C else 0x24) .w
  upd fun s => { s.setSreg .cs (s.seg.cs.null (lowHalf cs)) with
    eip := eip
    cpl := if s.vm then s.cpl else selRpl (lowHalf cs) }

/-- Reads the new TSS (R770 step 6); a page fault here is the new task's (R774). -/
def readTss (is386 : Bool) (base : Word) : M TaskImage := fun s =>
  match (if is386 then readTss386 base else readTss286 base) s with
  | .ok t u => .ok t u
  | .error (.exc e) u => (do placeInTask is386 base; stop (.exc e)) u
  | .error x u => .error x u

/-- What the new task does before its first instruction (R770 steps 6 to 11, R737, R785). -/
def enterTask (is386 : Bool) (base : Word) (kind : SwitchKind) (ext : Bool) (code : Option Word) : M Unit := do
  let t ← readTss is386 base
  upd (t.load kind)
  loadTaskSegs t ext
  pushTaskCode is386 ext code
  checkTaskEip ext
  if t.trap then upd fun s => { s with traps := { s.traps with bt := true } }

/-- Sets or clears the Busy bit of a TSS descriptor whose rights byte stands at these addresses (R770 steps 3 and 5). -/
def putBusy (as : List Nat) (b : Bool) : M Unit := do
  let ar ← readAddrs as
  writeAddrs as (putBit ar 1 b)

/-- `TaskSwitch` (R770). `rf` is RF of the image saved; `code` an error code to push in the new task. Steps 2 to 5 are
checked, in their order, before any is performed; after them the switch goes forward (R774, D8, D65). That what is saved must
lie within the limit of TR, R145 says and R770 does not: log 42. -/
def taskSwitch (tsel : Half) (d : Desc) (kind : SwitchKind) (savedEip : Word) (rf ext : Bool) (code : Option Word) : M Unit := do
  let is386 := d.type == 9 || d.type == 11
  require ((if is386 then 0x67 else 0x2B) ≤ d.limit.toNat) 10 (some (selCode tsel ext))
  let s ← look id
  needTss (savedTop s.tr.is386) ext
  let image ← flagImage rf
  let image := if kind == .iret then putBit image 14 false else image
  let save ← storeAddrs (saveStores s savedEip image)
  let old ← if kind.nests then pure [] else linAddrs (gdtAddr s s.tr.sel + 5) 1 false .rmw
  let link ← storeAddrs (if kind.nests then [tssStore d.base 0 .w (zext16 s.tr.sel)] else [])
  let new ← if kind == .iret then pure [] else linAddrs (d.at_ + 5) 1 false .rmw
  performStores save
  if kind.nests then pure () else putBusy old false
  performStores link
  if kind == .iret then pure () else putBusy new true
  upd fun s => { s with
    tr := { sel := tsel, base := d.base, limit := d.limit, is386 := is386 }
    cr := { s.cr with cr0 := putBit s.cr.cr0 3 true } }
  asNewTask (enterTask is386 d.base kind ext code)

end Sys2Proof.Machine
end

