-- ==== Sys2Proof/Machine/Ops.lean ====
section
/-!
DEFINITION. Sys2Proof/Machine/Ops.lean: the operations every meaning shares: control transfers within a segment, far
transfers, taking an exception or interrupt (R730 to R737), what follows when taking it fails (R735, R749, R760),
returning from one (R475 to R480), and running one instruction to its completion (R703, R716).
-/
namespace Sys2Proof.Machine

/-! EIP (R15, R430, R431). -/

/-- Whether EIP advances within 16 bits: protected mode with CS.D = 0 (R8). In real-address and V86 mode it is not
truncated: running past FFFFH is a fetch beyond the limit (R15, R270, R758, log 8). -/
def State.eip16 (s : State) : Bool := s.mode == .prot && !s.seg.cs.db

/-- `EIP_next` passes FFFFFFFFH, where the spec gives it no value (N20, log 9). -/
def State.eipOpen (s : State) : Bool := !s.eip16 && 2 ^ 32 ≤ s.eip.toNat + s.ilen

/-- `EIP_next` (R15), a free value where it is open. Read after an instruction has had its effect, so that the mode it looks
at is the one an LMSW or MOV CR0 has just set: log 43. -/
def State.eipNext (s : State) : Word :=
  if s.eipOpen then Config.freeWord s.draws
  else if s.eip16 then zext16 (BitVec.ofNat 16 (s.eip.toNat + s.ilen))
  else BitVec.ofNat 32 (s.eip.toNat + s.ilen)

/-- `EIP_next`, drawing the free value it may be. -/
def nextEip : M Word := fun s =>
  .ok s.eipNext (if s.eipOpen then { s with draws := s.draws + 1 } else s)

/-- The target limit check (R431). -/
def checkTarget (t : Word) : M Unit := do
  let ok ← look fun s => decide (t.toNat ≤ s.seg.cs.limit.toNat)
  require ok 13 (some 0)

/-- A near transfer to an offset in the current code segment. -/
def jumpNear (t : Word) : M Unit := do
  checkTarget t
  upd fun s => { s with eip := t }

/-- The target of a relative transfer (R430): the displacement is sign-extended, the sum masked by the operand size. -/
def relTarget (eipNext : Word) (z : Sz) (r : Rel) : Word :=
  match r with
  | .short v => truncZ z (eipNext + v.signExtend 32)
  | .near v => truncZ z (eipNext + sextW z.width v)

/-- A selector pushed as an item of width `n`: in a doubleword the upper word has no value (I14, D44). -/
def selItem (n : Width) (sel : Half) : M Word := do
  if n == .d then
    let free ← drawWord
    return withLow free sel
  else return zext16 sel

/-! Taking an exception or interrupt. -/

/-- EXT of the codes raised during the delivery (R740, D61). -/
def EventKind.ext : EventKind → Bool
  | .software => false
  | .fault => true
  | .debugFault => true
  | .trap => true
  | .abort => true
  | .external => true

/-- RF of the image pushed (R786 (3), D74). -/
def imageRf (s : State) (kind : EventKind) : Bool :=
  match kind with
  | .fault => true
  | .debugFault => Config.rfOnDebugFault || s.rf
  | .trap => s.rf || s.midRep
  | .external => s.rf || s.midRep
  | .abort => s.rf
  | .software => s.rf

/-- The error code as it is pushed (R730, R755, I18): bits 15:0 are the code; a page fault defines only bits 2:0. -/
def codeItem (e : Exc) : M (Option Word) := do
  match e.code with
  | none => return none
  | some c =>
    let free ← drawWord
    return some (if e.vec == 14 then mergeBits 0x7 (zext16 c) free else withLow free c)

/-- Flags on entry through a gate (R734). -/
def gateFlags (isInt : Bool) (s : State) : State :=
  let s := (s.setFlag 8 false).setFlag 14 false
  if isInt then s.setFlag 9 false else s

/-- A stack pointer of the current TSS for level `n` (R454 step 1): selector and pointer. -/
def innerStack (n : BitVec 2) (ext : Bool) : M (Half × Word) := do
  let t ← look (·.tr)
  let k := n.toNat
  if t.is386 then
    needTss (9 + 8 * k) ext
    let esp ← tssRead t.base (4 + 8 * k) .d
    let ss ← tssSel t.base (8 + 8 * k)
    return (ss, esp)
  else
    needTss (5 + 4 * k) ext
    let sp ← tssRead t.base (2 + 4 * k) .w
    let ss ← tssSel t.base (4 + 4 * k)
    return (ss, sp)

/-- The checks on the stack segment of an inner level (R454 step 2). -/
def checkInnerSS (sel : Half) (n : BitVec 2) (ext : Bool) : M Desc := do
  require (!selNull sel) 10 (some (zeroCode ext))
  let d ← needDesc sel 10 ext
  require (selRpl sel == n) 10 (some (selCode sel ext))
  require (d.dpl == n) 10 (some (selCode sel ext))
  require d.isStack 10 (some (selCode sel ext))
  require d.present 12 (some (selCode sel ext))
  return d

/-- A stack of an inner level: its pages are accessed at supervisor level (R151). -/
def levelStack (d : Desc) (sel : Half) (esp : Word) : Stack := { seg := d.toSeg sel, esp := esp, user := false }

/-- The new stack of a call or an interrupt to an inner level: a 16-bit one takes SP only (R454 step 5). -/
def newStack (d : Desc) (sel : Half) (old esp : Word) : Stack :=
  levelStack d sel (if d.db then esp else withLow old (lowHalf esp))

/-- The state with CS loaded from a descriptor already checked and marked, at a level. -/
def State.enterCS (s : State) (sel : Half) (d : Desc) (level : BitVec 2) : State :=
  s.setSreg .cs (d.toSeg (selWithRpl sel level))

/-- Marks a data segment register null (R22, R449). -/
def nullSreg (r : Sreg) : M Unit := upd fun s => s.setSreg r ((s.sreg r).null 0)

/-- What a gate asks for. -/
structure GateCall where
  /-- Width of the items pushed. -/
  width : Width
  isInt : Bool
  sel : Half
  off : Word
  code : Desc
  ext : Bool
deriving DecidableEq, Repr

/-- SAME: the handler runs at the current level (R730). -/
def deliverSame (g : GateCall) (rf : Bool) (ret : Word) (err : Option Word) : M Unit := do
  let s ← look id
  let n := g.width.bytes
  let count := if err.isSome then 4 else 3
  require (s.stack.room s.mode n count) 12 (some (zeroCode g.ext))
  require (g.off.toNat ≤ g.code.limit.toNat) 13 (some (zeroCode g.ext))
  let image ← flagImage rf
  let cs ← selItem g.width s.seg.cs.sel
  let items := [image, cs, ret] ++ err.toList
  pushItems s.stack g.width false (zeroCode g.ext) items [g.code.mark]
  putReg .sp (s.stack.pointer (s.stack.below (n * items.length)))
  upd fun t => gateFlags g.isInt { t.enterCS g.sel g.code s.cpl with eip := g.off }

/-- INNER: the handler runs at a more privileged level, on the stack of the TSS (R730). -/
def deliverInner (g : GateCall) (rf : Bool) (ret : Word) (err : Option Word) : M Unit := do
  let s ← look id
  let n := g.width.bytes
  let level := g.code.dpl
  let (ss, esp) ← innerStack level g.ext
  let d ← checkInnerSS ss level g.ext
  let k := newStack d ss s.gpr.esp esp
  let count := if err.isSome then 6 else 5
  require (k.room s.mode n count) 12 (some (zeroCode g.ext))
  require (g.off.toNat ≤ g.code.limit.toNat) 13 (some (zeroCode g.ext))
  let image ← flagImage rf
  let oldSS ← selItem g.width s.seg.ss.sel
  let cs ← selItem g.width s.seg.cs.sel
  let items := [oldSS, s.gpr.esp, image, cs, ret] ++ err.toList
  pushItems k g.width false (zeroCode g.ext) items [d.mark, g.code.mark]
  upd fun t => t.setSreg .ss (d.toSeg ss)
  putReg .sp (k.pointer (k.below (n * items.length)))
  upd fun t => gateFlags g.isInt { t.enterCS g.sel g.code level with eip := g.off, cpl := level }

/-- FROM-V86: the handler runs at level 0 in protected mode (R730, D60). All of ESP is loaded, whatever the size of the new
stack. -/
def deliverFromV86 (g : GateCall) (rf : Bool) (ret : Word) (err : Option Word) : M Unit := do
  let s ← look id
  let n := g.width.bytes
  let (ss, esp) ← innerStack 0 g.ext
  let d ← checkInnerSS ss 0 g.ext
  let k := levelStack d ss esp
  let count := if err.isSome then 10 else 9
  require (k.room .prot n count) 12 (some (zeroCode g.ext))
  require (g.off.toNat ≤ g.code.limit.toNat) 13 (some (zeroCode g.ext))
  let image ← flagImage rf
  let gs ← selItem g.width s.seg.gs.sel
  let fs ← selItem g.width s.seg.fs.sel
  let ds ← selItem g.width s.seg.ds.sel
  let es ← selItem g.width s.seg.es.sel
  let oldSS ← selItem g.width s.seg.ss.sel
  let cs ← selItem g.width s.seg.cs.sel
  let items := [gs, fs, ds, es, oldSS, s.gpr.esp, image, cs, ret] ++ err.toList
  upd fun s => { s.setFlag 17 false with cpl := 0 }
  pushItems k g.width false (zeroCode g.ext) items [d.mark, g.code.mark]
  upd fun t => t.setSreg .ss (d.toSeg ss)
  putReg .sp (k.pointer (k.below (n * items.length)))
  nullSreg .gs
  nullSreg .fs
  nullSreg .ds
  nullSreg .es
  upd fun t => gateFlags g.isInt { t.enterCS g.sel g.code 0 with eip := g.off }

/-- TASK-GATE (R737). A null TSS selector is not refused as such: log 46. -/
def deliverTask (gate : Desc) (rf ext : Bool) (ret : Word) (err : Option Word) : M Unit := do
  let tsel := gate.gateSel
  require (!selLdt tsel) 13 (some (selCode tsel ext))
  let d ← needDesc tsel 13 ext
  require d.isAvailTss 13 (some (selCode tsel ext))
  require d.present 11 (some (selCode tsel ext))
  taskSwitch tsel d .int ret rf ext err

/-- An IDT entry may be a task gate or an interrupt or trap gate, 80286 or 386 DX (R725). -/
def Desc.isIdtGate (d : Desc) : Bool :=
  d.isSystem 5 || d.isSystem 6 || d.isSystem 7 || d.isSystem 14 || d.isSystem 15

/-- Delivery through an interrupt or trap gate (R730 steps 2 and 3). -/
def deliverGate (gate : Desc) (rf ext : Bool) (ret : Word) (err : Option Word) : M Unit := do
  let gate32 := gate.type == 14 || gate.type == 15
  let isInt := gate.type == 6 || gate.type == 14
  let csel := gate.gateSel
  require (!selNull csel) 13 (some (zeroCode ext))
  let c ← needDesc csel 13 ext
  require (arIsCode c.ar) 13 (some (selCode csel ext))
  require c.present 11 (some (selCode csel ext))
  let g : GateCall :=
    { width := if gate32 then .d else .w, isInt := isInt, sel := csel,
      off := if gate32 then gate.gateOffset32 else gate.gateOffset16, code := c, ext := ext }
  let s ← look id
  if s.vm then do
    require (!(arConforming c.ar || c.dpl != 0)) 13 (some (selCode csel ext))
    deliverFromV86 g rf ret err
  else if !arConforming c.ar && c.dpl < s.cpl then deliverInner g rf ret err
  else if arConforming c.ar || c.dpl == s.cpl then deliverSame g rf ret err
  else raise 13 (some (selCode csel ext))

/-- `Deliver` in protected and V86 mode (R730). Answers whether it switched tasks. -/
def deliverProtected (e : Exc) (ret : Word) : M Bool := do
  let s ← look id
  let ext := e.kind.ext
  let code := some (idtCode e.vec ext)
  require (8 * e.vec.toNat + 7 ≤ s.idtr.limit.toNat) 13 code
  let gate ← readDesc (s.idtr.base + BitVec.ofNat 32 (8 * e.vec.toNat))
  require gate.isIdtGate 13 code
  require (!(e.kind == .software && gate.dpl < s.cpl)) 13 code
  require gate.present 11 code
  let rf := imageRf s e.kind
  let err ← codeItem e
  if gate.type == 5 then do
    deliverTask gate rf ext ret err
    return true
  else do
    deliverGate gate rf ext ret err
    return false

/-- The double fault (R749). -/
def doubleFault : Exc := { vec := 8, kind := .abort, code := some 0, committed := false }

/-- `Deliver` in real-address mode (R732). The double fault of a vector beyond the table saves the return address of the event
it replaces when that came at a boundary or was a fault, but the address of the instruction when it was INT n, INT 3 or INTO
(R749, D67 and R704 leave this open): log 44. -/
def deliverReal (e : Exc) (ret : Word) : M Unit := do
  let s ← look id
  if s.idtr.limit.toNat < 4 * e.vec.toNat + 3 then stop (.exc doubleFault)
  else do
    let k := s.stack
    let flags := fixReserved s.eflags
    pushItems k .w false 0 [flags, zext16 s.seg.cs.sel, ret] []
    putReg .sp (k.pointer (k.below 6))
    upd fun s => (s.setFlag 9 false).setFlag 8 false
    let at_ := s.idtr.base + BitVec.ofNat 32 (4 * e.vec.toNat)
    let off ← linRead at_ .w
    let seg ← linRead (at_ + 2) .w
    upd fun s => { s.setSreg .cs ((s.sreg .cs).loadRealCS (lowHalf seg)) with eip := off }

/-- `Deliver(v, kind, err, ret)` (R730, R732). Answers whether it switched tasks. -/
def deliver (e : Exc) (ret : Word) : M Bool := do
  if ← look (·.pe) then deliverProtected e ret
  else do
    deliverReal e ret
    return false

/-! What follows when it fails. -/

/-- The registers of `s` with what a fault leaves of `t`: memory, the TLB, CR2, DR6, the draws, what the host has
been told (R703). -/
def rollback (s t : State) : State :=
  { s with
    mem := t.mem
    tlb := t.tlb
    cr := { s.cr with cr2 := t.cr.cr2 }
    dr := { s.dr with dr6 := t.dr.dr6 }
    draws := t.draws
    events := t.events }

/-- The classes of Table 9-3 (R735): by the event, not the vector alone (D64). -/
inductive ExcClass where
  | benign
  | contributory
  | page
deriving DecidableEq, Repr

def Exc.cls (e : Exc) : ExcClass :=
  match e.kind with
  | .software => .benign
  | .external => .benign
  | .fault => if e.vec == 14 then .page
      else if e.vec == 0 || e.vec == 9 || e.vec == 10 || e.vec == 11 || e.vec == 12 || e.vec == 13 then .contributory
      else .benign
  | .debugFault => .benign
  | .trap => .benign
  | .abort => .benign

/-- Whether `f`, raised while delivering `e`, makes a double fault (R735). -/
def doubles (e f : Exc) : Bool :=
  match e.cls with
  | .benign => false
  | .contributory => f.cls == .contributory
  | .page => f.cls == .contributory || f.cls == .page

/-- The state at the boundary after a delivery or an abandoned instruction. An event does not end the inhibitions of MOV SS
and STI: they are set and cleared when an instruction completes (R716 e). -/
def atBoundary (s : State) : State := { s with pfx := .empty, midRep := false, activity := .running }

/-- Shutdown (R760): nothing but NMI and RESET# ends it, so that no debug trap is left to report and NMI is not inhibited
(log 32). It no longer stands between two iterations of a repeated string instruction, so that an NMI that ends it pushes RF as
it is in EFLAGS (R786 (3) and D74 leave this open): log 45. -/
def enterShutdown (s : State) : State :=
  { atBoundary s with activity := .shutdown, inhibit := false, traps := .none, events := Event.shutdown :: s.events }

/-- `Event` (R735): deliver; where that fails, deliver what its failure makes of it. At most a benign event, a
contributory fault, a page fault and a double fault follow one another, then the machine shuts down. -/
def deliverEvent : Nat → Exc → Word → State → Host.Outcome State Fault Refusal
  | 0, _, _, s => .next (enterShutdown s)
  | fuel + 1, e, ret, s =>
    match deliver e ret s with
    | .ok _ t => .next (atBoundary t)
    | .error (.fault x) _ => .fault x
    | .error (.refusal x) _ => .refused x
    | .error (.exc f) t =>
      if f.committed then .next { atBoundary t with pendingExc := some { f with committed := false } }
      else if e.kind == .abort then .next (enterShutdown (rollback s t))
      else if doubles e f then deliverEvent fuel doubleFault ret (rollback s t)
      else deliverEvent fuel f ret (rollback s t)

/-- Takes an exception or interrupt at a boundary or out of an instruction. The breakpoints noted are those of an instruction
that has been reported or abandoned: a later debug exception does not report them (R780). -/
def takeEvent (e : Exc) (ret : Word) (s : State) : Host.Outcome State Fault Refusal :=
  deliverEvent 6 e ret { s with traps := .none }

/-! One instruction (R703, R716 c to e). -/

/-- How an instruction that completed ends. -/
inductive Ending where
  /-- The next sequential instruction. -/
  | next
  /-- EIP has been set. -/
  | jump
  /-- EIP has been set and RF comes from a saved image (R786 (2)): IRET, a task switch. -/
  | jumpKeepRf
  /-- The next sequential instruction, RF kept: POPF (R786 (2)). -/
  | nextKeepRf
  /-- A repeated string instruction has iterations left: EIP stays (R490). -/
  | again
  /-- MOV SS, POP SS: `inhibit_one` (R713). -/
  | inhibit
  /-- STI that set IF: INTR waits one instruction (R525). -/
  | sti
  /-- WAIT with BUSY# active: nothing has happened and EIP stays (R541). -/
  | hold
deriving DecidableEq, Repr

def Ending.advances : Ending → Bool
  | .next => true
  | .nextKeepRf => true
  | .inhibit => true
  | .sti => true
  | .jump => false
  | .jumpKeepRf => false
  | .again => false
  | .hold => false

def Ending.clearsRf : Ending → Bool
  | .next => true
  | .jump => true
  | .inhibit => true
  | .sti => true
  | .nextKeepRf => false
  | .jumpKeepRf => false
  | .again => false
  | .hold => false

/-- EIP set to `EIP_next`. -/
def State.advance (s : State) : State :=
  if s.eipOpen then { s with eip := s.eipNext, draws := s.draws + 1 } else { s with eip := s.eipNext }

/-- EIP and RF at the end. EIP_next of an LMSW or MOV CR0 that changes PE is truncated, or not, as the mode after the write
asks (R590, R600 leave it open): log 43. -/
def Ending.place (e : Ending) (s : State) : State :=
  let s := if e.advances then s.advance else s
  if e.clearsRf then s.setFlag 16 false else s

/-- The matches of enabled data breakpoints reported now and those held back: all of them now when LE or GE is set;
otherwise the choice is free (R782, I21). Answers (now, late). -/
def splitHits (exact : Bool) (free : Word) (hits : BitVec 4) : BitVec 4 × BitVec 4 :=
  if exact then (hits, 0)
  else (hits &&& free.extractLsb' 0 4, hits &&& ~~~(free.extractLsb' 0 4) &&& free.extractLsb' 4 4)

/-- Some debug trap is due (R716 d). -/
def Traps.due (t : Traps) : Bool := t.bs || t.bt || t.enabled != 0

/-- The debug traps of the instruction (R716 d): `tf` is TF before it, `exact` LE or GE before it. The matches that cause no
trap, of its disabled breakpoints and of its own address, are reported with another trap or not at all (R780). -/
def Ending.debug (e : Ending) (tf exact : Bool) (s : State) : State :=
  let inexact := s.traps.enabled != 0 && !exact
  let now := splitHits (!inexact) (Config.freeWord s.draws) s.traps.enabled
  let silent := s.traps.hits &&& ~~~s.traps.enabled
  let s := if inexact then { s with draws := s.draws + 1 } else s
  if e == .inhibit then { s with traps := .none }
  else
    let due := now.1 ||| s.lateHits
    let traps : Traps := { bs := tf, bt := s.traps.bt, hits := due ||| silent, enabled := due }
    { s with traps := if traps.due then traps else .none, lateHits := now.2 }

/-- The boundary after an instruction that completed (R716 c to e). One iteration of a repeated string instruction ends the
inhibitions of MOV SS and STI as an instruction does: log 36. -/
def finish (e : Ending) (before after : State) : State :=
  if e == .hold then { before with pfx := .empty }
  else
  let s := e.debug before.tf (dr7Exact before.dr.dr7) (e.place after)
  { s with pfx := .empty, inhibit := e == .inhibit, stiDelay := e == .sti, midRep := e == .again }

/-- Runs an instruction's body to the boundary. LOCK before an instruction, or a form of it, that may not be locked is
#UD (R258); a fault restores the registers and is taken (R703); a fault of a new task waits for the boundary (R774), and the debug
traps of the instruction that switched to it are lost with it: log 40. The double fault of an INT n, INT 3 or INTO in real-address
mode whose vector is beyond the table comes here as a fault does, and saves the address of the INT: log 44. -/
def runInstr (lockable : Bool) (body : M Ending) (s : State) : Host.Outcome State Fault Refusal :=
  match (if s.pfx.lock && !lockable then raiseUD s else body s) with
  | .ok e t => .next (finish e s t)
  | .error (.fault x) _ => .fault x
  | .error (.refusal x) _ => .refused x
  | .error (.exc f) t =>
    if f.committed then .next { atBoundary t with traps := .none, pendingExc := some { f with committed := false } }
    else takeEvent f s.eip (rollback s t)

/-- A body that ends at the next sequential instruction. -/
def thenNext (m : M Unit) : M Ending := do
  m
  return .next

/-- A body that sets EIP. -/
def thenJump (m : M Unit) : M Ending := do
  m
  return .jump

/-- A software interrupt, as part of INT n, INT 3, INTO (R470 to R472). -/
def softwareInterrupt (v : Byte) : M Ending := do
  let ret ← nextEip
  let switched ← deliver { vec := v, kind := .software, code := none, committed := false } ret
  return if switched then .jumpKeepRf else .jump

/-! Privilege (R584). -/

/-- #GP(0) unless CPL is 0. -/
def requireCpl0 : M Unit := do
  let cpl ← look (·.cpl)
  require (cpl == 0) 13 (some 0)

/-- #UD in real-address and V86 mode (R257). -/
def requireProtected : M Unit := do
  let m ← look (·.mode)
  if m == .prot then pure () else raiseUD

/-! Far transfers (R434, R443, R450 to R455). -/

/-- Whether a far JMP or CALL. -/
inductive FarKind where
  | jmp
  | call
deriving DecidableEq, Repr

/-- Far JMP and CALL in real-address and V86 mode (R434, R443). -/
def farFlat (kind : FarKind) (z : Sz) (sel : Half) (off : Word) : M Unit := do
  let s ← look id
  if kind == .call then do
    require (s.stack.room s.mode z.width.bytes 2) 12 (some 0)
    checkTarget off
    let cs ← selItem z.width s.seg.cs.sel
    let ret ← nextEip
    pushAll z.width [cs, ret]
  else checkTarget off
  upd fun s => { s.loadFlat .cs sel with eip := off }

/-- The commit of a far transfer to a code segment at the current level (R451, R453): the return address is pushed
with items of `n` for a CALL, and the descriptor marked accessed, both checked before either is stored (R450, D8). -/
def farCommit (kind : FarKind) (n : Width) (sel : Half) (d : Desc) (off : Word) : M Unit := do
  let s ← look id
  if kind == .call then require (s.stack.room s.mode n.bytes 2) 12 (some 0)
  require (off.toNat ≤ d.limit.toNat) 13 (some 0)
  if kind == .call then do
    let cs ← selItem n s.seg.cs.sel
    let ret ← nextEip
    pushWith n [cs, ret] [d.mark]
  else setAccessed d
  upd fun t => { t.enterCS sel d s.cpl with eip := off }

/-- Directly to a code segment (R451). -/
def farCode (kind : FarKind) (z : Sz) (sel : Half) (d : Desc) (off : Word) : M Unit := do
  let cpl ← look (·.cpl)
  let code := some (selCode sel false)
  if arConforming d.ar then require (d.dpl ≤ cpl) 13 code
  else do
    require (selRpl sel ≤ cpl) 13 code
    require (d.dpl == cpl) 13 code
  require d.present 11 code
  farCommit kind z.width sel d off

/-- `count` parameters from the top of the caller's stack, item 0 (lowest address) first (R454 step 6): checked against
the old stack segment, their pages at supervisor level. -/
def readParams (k : Stack) (mode : Mode) (n : Width) : Nat → M (List Word)
  | 0 => pure []
  | c + 1 => do
    let rest ← readParams k mode n c
    let o := k.above (c * n.bytes)
    require (k.allows mode o n.bytes .read) 12 (some 0)
    noteAccess (k.seg.base + o) n.bytes .read
    let v ← readAddrs (← linAddrs (k.seg.base + o) n.bytes k.user .read)
    return rest ++ [v]

/-- CALL through a gate to a more privileged level (R454): the pushes and the two marks are checked before any is stored
(R450, D8). -/
def callInner (gate : Desc) (csel : Half) (c : Desc) (n : Width) (off : Word) : M Unit := do
  let s ← look id
  let level := c.dpl
  let (ss, esp) ← innerStack level false
  let d ← checkInnerSS ss level false
  let k := newStack d ss s.gpr.esp esp
  let count := gate.gateCount
  let code := selCode ss false
  require (k.room s.mode n.bytes (4 + count)) 12 (some code)
  require (off.toNat ≤ c.limit.toNat) 13 (some 0)
  let params ← readParams { s.stack with user := false } s.mode n count
  let oldSS := zext16 s.seg.ss.sel
  let cs ← selItem n s.seg.cs.sel
  let ret ← nextEip
  let items := [oldSS, s.gpr.esp] ++ params.reverse ++ [cs, ret]
  pushItems k n true code items [d.mark, c.mark]
  upd fun t => t.setSreg .ss (d.toSeg ss)
  putReg .sp (k.pointer (k.below (n.bytes * items.length)))
  upd fun t => { t.enterCS csel c level with eip := off, cpl := level }

/-- Through a call gate (R452 to R454). -/
def farGate (kind : FarKind) (gsel : Half) (gate : Desc) : M Unit := do
  let cpl ← look (·.cpl)
  let gcode := some (selCode gsel false)
  require (cpl ≤ gate.dpl) 13 gcode
  require (selRpl gsel ≤ gate.dpl) 13 gcode
  require gate.present 11 gcode
  let csel := gate.gateSel
  let ccode := some (selCode csel false)
  require (!selNull csel) 13 (some 0)
  let c ← needDesc csel 13 false
  require (arIsCode c.ar) 13 ccode
  let g32 := gate.type == 12
  let n := if g32 then Width.d else Width.w
  let off := if g32 then gate.gateOffset32 else gate.gateOffset16
  if kind == .jmp && !arConforming c.ar then require (c.dpl == cpl) 13 ccode
  else require (c.dpl ≤ cpl) 13 ccode
  require c.present 11 ccode
  if kind == .call && !arConforming c.ar && c.dpl < cpl then callInner gate csel c n off
  else farCommit kind n csel c off

/-- The TSS a task gate or a TSS selector names, and the switch (R455). -/
def farTss (kind : FarKind) (tsel : Half) (d : Desc) : M Unit := do
  let rf ← look (·.rf)
  let ret ← nextEip
  taskSwitch tsel d (if kind == .call then .call else .jmp) ret rf false none

/-- Through a task gate (R455). A null TSS selector in it is not refused as such: log 46. -/
def farTaskGate (kind : FarKind) (gsel : Half) (gate : Desc) : M Unit := do
  let cpl ← look (·.cpl)
  let gcode := some (selCode gsel false)
  require (cpl ≤ gate.dpl) 13 gcode
  require (selRpl gsel ≤ gate.dpl) 13 gcode
  require gate.present 11 gcode
  let tsel := gate.gateSel
  let tcode := some (selCode tsel false)
  require (!selLdt tsel) 13 tcode
  let d ← needDesc tsel 13 false
  require d.isAvailTss 13 tcode
  require d.present 11 tcode
  farTss kind tsel d

/-- To a TSS named directly (R455). -/
def farTssDirect (kind : FarKind) (tsel : Half) (d : Desc) : M Unit := do
  let cpl ← look (·.cpl)
  let tcode := some (selCode tsel false)
  require (!selLdt tsel) 13 tcode
  require (cpl ≤ d.dpl) 13 tcode
  require (selRpl tsel ≤ d.dpl) 13 tcode
  require d.present 11 tcode
  farTss kind tsel d

/-- Far JMP and CALL in protected mode: dispatch on the descriptor (R450). -/
def farProtected (kind : FarKind) (z : Sz) (sel : Half) (off : Word) : M Ending := do
  require (!selNull sel) 13 (some 0)
  let d ← needDesc sel 13 false
  if arIsCode d.ar then do
    farCode kind z sel d off
    return .jump
  else if d.isSystem 4 || d.isSystem 12 then do
    farGate kind sel d
    return .jump
  else if d.isSystem 5 then do
    farTaskGate kind sel d
    return .jumpKeepRf
  else if d.isAvailTss then do
    farTssDirect kind sel d
    return .jumpKeepRf
  else raise 13 (some (selCode sel false))

/-- Far JMP and CALL in every mode. -/
def farTransfer (kind : FarKind) (z : Sz) (sel : Half) (off : Word) : M Ending := do
  match ← look (·.mode) with
  | .prot => farProtected kind z sel off
  | .real => thenJump (farFlat kind z sel off)
  | .v86 => thenJump (farFlat kind z sel off)

/-! Far returns (R448, R449, R475 to R480). -/

/-- A data segment register that an outer level may not keep becomes null (R449 step 10, D38). -/
def dropInner (level : BitVec 2) (r : Sreg) : M Unit :=
  upd fun s =>
    let g := s.sreg r
    if g.valid && !arConforming g.ar && arDpl g.ar < level then s.setSreg r (g.null 0) else s

/-- The return CS (R449 steps 3 and 6): the level returned to is the selector's RPL. -/
def checkReturnCS (sel : Half) : M Desc := do
  let code := some (selCode sel false)
  require (!selNull sel) 13 (some 0)
  let d ← needDesc sel 13 false
  require (arIsCode d.ar) 13 code
  require (if arConforming d.ar then d.dpl ≤ selRpl sel else d.dpl == selRpl sel) 13 code
  require d.present 11 code
  return d

/-- The return SS (R449 step 7). -/
def checkReturnSS (sel : Half) (level : BitVec 2) : M Desc := do
  let code := some (selCode sel false)
  require (!selNull sel) 13 (some 0)
  let d ← needDesc sel 13 false
  require (selRpl sel == level) 13 code
  require d.isStack 13 code
  require (d.dpl == level) 13 code
  require d.present 12 code
  return d

/-- ESP after a return to an outer level (R449 step 9): with a 16-bit operand and a 32-bit stack the upper half is
not reliable (I12). -/
def outerEsp (z : Sz) (ss : Desc) (old popped imm : Word) : M Word := do
  if !ss.db then return withLow old (lowHalf (popped + imm))
  else
    match z with
    | .s32 => return popped + imm
    | .s16 =>
      let free ← drawWord
      return withLow free (lowHalf popped) + imm

/-- The flags a return may load, with the rights of the level it leaves (R31, R477): RF with a 32-bit image only. -/
def returnMask (s : State) (z : Sz) : Word :=
  match z with
  | .s16 => s.flagMask
  | .s32 => s.flagMask ||| 0x10000

/-- Far return in protected mode, shared by RET (`flags` none) and IRET (the flags image is the third item): the top
items are the offset, CS, the flags, then after `imm` bytes ESP and SS (R449, R477). Of the doubleword that holds CS only the
lower word is read, so that the upper one is no access for data breakpoints or paging: log 41. -/
def farReturn (z : Sz) (withFlags : Bool) (imm : Nat) : M Unit := do
  let s ← look id
  let n := z.width.bytes
  let items := if withFlags then 3 else 2
  require (s.stack.allows s.mode (s.stack.above n) 2 .read) 12 (some 0)
  let rsel := lowHalf (← peek .w n)
  require (s.cpl ≤ selRpl rsel) 13 (some (selCode rsel false))
  let level := selRpl rsel
  if level == s.cpl then do
    if withFlags then require (s.stack.holds s.mode (3 * n)) 12 (some 0)
    let d ← checkReturnCS rsel
    require (s.stack.holds s.mode n) 12 (some 0)
    let off ← peek z.width 0
    require (off.toNat ≤ d.limit.toNat) 13 (some 0)
    let image ← if withFlags then peek z.width (2 * n) else pure 0
    setAccessed d
    upd fun t => { t.setSreg .cs (d.toSeg rsel) with eip := off }
    if withFlags then upd fun t => t.loadFlags (returnMask s z) image
    popBytes (items * n + imm)
  else do
    require (s.stack.holds s.mode ((items + 2) * n + imm)) 12 (some 0)
    let d ← checkReturnCS rsel
    let esp ← peek z.width (items * n + imm)
    let ssel := lowHalf (← peek z.width ((items + 1) * n + imm))
    let ss ← checkReturnSS ssel level
    let off ← peek z.width 0
    require (off.toNat ≤ d.limit.toNat) 13 (some 0)
    let image ← if withFlags then peek z.width (2 * n) else pure 0
    let sp ← outerEsp z ss s.gpr.esp esp (BitVec.ofNat 32 imm)
    linWriteAll [d.mark, ss.mark]
    upd fun t => { t.setSreg .cs (d.toSeg rsel) with eip := off, cpl := level }
    if withFlags then upd fun t => t.loadFlags (returnMask s z) image
    upd fun t => t.setSreg .ss (ss.toSeg ssel)
    putReg .sp sp
    dropInner level .es
    dropInner level .fs
    dropInner level .gs
    dropInner level .ds

/-- IRET in real-address mode, and in V86 mode with IOPL 3 (R475, R476). -/
def iretFlat (z : Sz) : M Unit := do
  let s ← look id
  let n := z.width.bytes
  let off ← peek z.width 0
  let sel := lowHalf (← peek z.width n)
  let image ← peek z.width (2 * n)
  require (off.toNat ≤ s.seg.cs.limit.toNat) 13 (some 0)
  upd fun t => { t.loadFlat .cs sel with eip := off }
  upd fun t => t.loadFlags (returnMask s z) image
  popBytes (3 * n)

/-- IRET that returns to the task of the back link (R478), a field of the TSS that must lie within the limit of TR (R145,
R750). A null one is not refused as such: log 46. -/
def iretTask : M Unit := do
  let s ← look id
  needTss 1 false
  let bsel ← tssSel s.tr.base 0
  let code := some (selCode bsel false)
  require (!selLdt bsel) 10 code
  let d ← needDesc bsel 10 false
  require d.isBusyTss 10 code
  require d.present 11 code
  let ret ← nextEip
  taskSwitch bsel d .iret ret s.rf false none

/-- IRET that returns to V86 mode (R480): nine doublewords. -/
def iretToV86 : M Unit := do
  let s ← look id
  require (s.stack.holds s.mode 36) 12 (some 0)
  let off ← peek .d 0
  require (off.toNat ≤ 0xFFFF) 13 (some 0)
  let cs ← peek .d 4
  let image ← peek .d 8
  let esp ← peek .d 12
  let ss ← peek .d 16
  let es ← peek .d 20
  let ds ← peek .d 24
  let fs ← peek .d 28
  let gs ← peek .d 32
  upd fun t => { t.loadFlags (t.flagMask ||| 0x30000) image with
    cpl := 3
    eip := off
    seg := { es := .loadV86 (lowHalf es), cs := .loadV86 (lowHalf cs), ss := .loadV86 (lowHalf ss),
             ds := .loadV86 (lowHalf ds), fs := .loadV86 (lowHalf fs), gs := .loadV86 (lowHalf gs) } }
  putReg .sp esp

/-- The dispatch of IRET in protected mode (R476). -/
def iretProtected (z : Sz) : M Unit := do
  let s ← look id
  if s.nt then iretTask
  else if z == .s32 && s.cpl == 0 then do
    require (s.stack.holds s.mode 12) 12 (some 0)
    let image ← peek .d 8
    if bit image 17 then iretToV86 else farReturn z true 0
  else farReturn z true 0

/-- Returning from an exception or interrupt (R475 to R480); it ends the service of an NMI (R711). An IRET whose task switch
ends in a fault of the new task does not: log 40. -/
def returnFromEvent (z : Sz) : M Unit := do
  match ← look (·.mode) with
  | .real => iretFlat z
  | .prot => iretProtected z
  | .v86 =>
    let s ← look id
    require (s.iopl == 3) 13 (some 0)
    iretFlat z
  upd fun s => { s with nmiInService := false }

end Sys2Proof.Machine
end

