-- ==== Sys2Proof/Machine/Operands.lean ====
section
/-!
DEFINITION. Sys2Proof/Machine/Operands.lean: effective addresses (R212, R220 to R226), operands and the places they
are written to, and the operand forms of Syntax.lean as width, destination and source.
-/
namespace Sys2Proof.Machine

/-! Places and operands. -/

/-- Where an operand stands. -/
inductive Place where
  | reg8 (r : Gpr8)
  | reg (z : Sz) (r : Gpr)
  | mem (n : Width) (m : Mem)
deriving DecidableEq, Repr

/-- A memory operand: the only destination LOCK may precede (R258). -/
def Place.isMem : Place → Bool
  | .mem _ _ => true
  | .reg8 _ => false
  | .reg _ _ => false

/-- An operand that is only read. -/
inductive Operand where
  | at_ (p : Place)
  | imm (v : Word)
deriving DecidableEq, Repr

/-- Width, destination and source of an instruction with two operands. -/
structure Pair where
  width : Width
  dst : Place
  src : Operand
deriving DecidableEq, Repr

/-- The width and operand of an instruction with one ModR/M operand. -/
structure Single where
  width : Width
  dst : Place
deriving DecidableEq, Repr

/-- A full-size immediate (R230). -/
def Operand.ofImm (z : Sz) (v : Word) : Operand := .imm (truncZ z v)

/-- A sign-extended byte immediate (R230). -/
def Operand.ofImm8 (z : Sz) (v : Byte) : Operand := .imm (truncZ z (v.signExtend 32))

end Sys2Proof.Machine

namespace Sys2Proof
open Sys2Proof.Machine

/-! Effective addresses. -/

def Disp16.val : Disp16 → Half
  | .none => 0
  | .d8 v => v.signExtend 16
  | .d16 v => v

def Disp32.val : Disp32 → Word
  | .none => 0
  | .d8 v => v.signExtend 32
  | .d32 v => v

/-- The register sum of a 16-bit address (R220). -/
def Base16.sum (b : Base16) (g : Gprs) : Half :=
  match b with
  | .bxsi => lowHalf g.ebx + lowHalf g.esi
  | .bxdi => lowHalf g.ebx + lowHalf g.edi
  | .bpsi => lowHalf g.ebp + lowHalf g.esi
  | .bpdi => lowHalf g.ebp + lowHalf g.edi
  | .si => lowHalf g.esi
  | .di => lowHalf g.edi
  | .bp => lowHalf g.ebp
  | .bx => lowHalf g.ebx

/-- The address form uses BP. -/
def Base16.usesBp : Base16 → Bool
  | .bpsi => true
  | .bpdi => true
  | .bp => true
  | .bxsi => false
  | .bxdi => false
  | .si => false
  | .di => false
  | .bx => false

/-- A base or index register that may be absent. -/
def optReg (g : Gprs) : Option Gpr → Word
  | none => 0
  | some r => g.get r

/-- The effective address is undefined: no index register and a scale other than 1 (R226, I3). -/
def Mem.isOpen : Mem → Bool
  | .sib _ none scale _ => scale != 0
  | .sib _ (some _) _ _ => false
  | .m16 _ _ => false
  | .abs16 _ => false
  | .m32 _ _ => false
  | .abs32 _ => false

/-- The effective address, zero-extended (R220, R224, R225). -/
def Mem.sum (m : Mem) (g : Gprs) : Word :=
  match m with
  | .m16 b d => zext16 (b.sum g + d.val)
  | .abs16 a => zext16 a
  | .m32 b d => g.get b + d.val
  | .abs32 a => a
  | .sib b i s d => optReg g b + (optReg g i <<< s.toNat) + d.val

/-- The address size of the form. -/
def Mem.size : Mem → Sz
  | .m16 _ _ => .s16
  | .abs16 _ => .s16
  | .m32 _ _ => .s32
  | .abs32 _ => .s32
  | .sib _ _ _ _ => .s32

/-- The default segment of a memory operand (R212). -/
def Mem.defaultSeg : Mem → Sreg
  | .m16 b _ => if b.usesBp then .ss else .ds
  | .abs16 _ => .ds
  | .m32 b _ => if b == .bp || b == .sp then .ss else .ds
  | .abs32 _ => .ds
  | .sib b _ _ _ => if b == some .bp || b == some .sp then .ss else .ds

/-! The operands of an instruction. -/

def Rm8.place : Rm8 → Place
  | .reg r => .reg8 r
  | .mem m => .mem .b m

/-- A 16- or 32-bit operand. -/
def Rm.place (z : Sz) : Rm → Place
  | .reg r => .reg z r
  | .mem m => .mem z.width m

/-- A 16-bit operand (Ew). -/
def Rm.place16 (o : Rm) : Place := o.place .s16

/-- The operands of ADD, OR, ADC, SBB, AND, SUB, XOR, CMP (R341). -/
def AluForm.operands : AluForm → Pair
  | .mr8 d r => { width := .b, dst := d.place, src := .at_ (.reg8 r) }
  | .mr z d r => { width := z.width, dst := d.place z, src := .at_ (.reg z r) }
  | .rm8 r o => { width := .b, dst := .reg8 r, src := .at_ o.place }
  | .rm z r o => { width := z.width, dst := .reg z r, src := .at_ (o.place z) }
  | .ai8 imm => { width := .b, dst := .reg8 .al, src := .imm (zext8 imm) }
  | .ai z imm => { width := z.width, dst := .reg z .ax, src := .ofImm z imm }
  | .mi8 d imm => { width := .b, dst := d.place, src := .imm (zext8 imm) }
  | .mi z d imm => { width := z.width, dst := d.place z, src := .ofImm z imm }
  | .mib z d imm => { width := z.width, dst := d.place z, src := .ofImm8 z imm }

/-- The operands of TEST (R385). -/
def TestForm.operands : TestForm → Pair
  | .mr8 d r => { width := .b, dst := d.place, src := .at_ (.reg8 r) }
  | .mr z d r => { width := z.width, dst := d.place z, src := .at_ (.reg z r) }
  | .ai8 imm => { width := .b, dst := .reg8 .al, src := .imm (zext8 imm) }
  | .ai z imm => { width := z.width, dst := .reg z .ax, src := .ofImm z imm }
  | .mi8 d imm => { width := .b, dst := d.place, src := .imm (zext8 imm) }
  | .mi z d imm => { width := z.width, dst := d.place z, src := .ofImm z imm }

def UnForm.operand : UnForm → Single
  | .rm8 d => { width := .b, dst := d.place }
  | .rm z d => { width := z.width, dst := d.place z }

def IncForm.operand : IncForm → Single
  | .r z g => { width := z.width, dst := .reg z g }
  | .rm8 d => { width := .b, dst := d.place }
  | .rm z d => { width := z.width, dst := d.place z }

def ShiftForm.operand : ShiftForm → Single
  | .rm8 d _ => { width := .b, dst := d.place }
  | .rm z d _ => { width := z.width, dst := d.place z }

/-- Size and bit base of BT, BTS, BTR, BTC (R394). -/
def BtForm.size : BtForm → Sz
  | .r z _ _ => z
  | .i z _ _ => z
def BtForm.base : BtForm → Rm
  | .r _ o _ => o
  | .i _ o _ => o

/-- COUNT: the count masked to five bits (R405). -/
def Count.masked (c : Count) (s : State) : Nat :=
  match c with
  | .imm v => v.toNat % 32
  | .one => 1
  | .cl => (s.reg8 .cl).toNat % 32

def ShiftForm.count (f : ShiftForm) (s : State) : Nat :=
  match f with
  | .rm8 _ c => c.masked s
  | .rm _ _ c => c.masked s

def DCount.masked (c : DCount) (s : State) : Nat :=
  match c with
  | .imm v => v.toNat % 32
  | .cl => (s.reg8 .cl).toNat % 32

end Sys2Proof

namespace Sys2Proof.Machine

/-! Addresses in a state. -/

/-- The effective address in a state: the sum, or a free value where it is undefined (log 10). -/
def State.offsetOf (s : State) (m : Mem) : Word :=
  if m.isOpen then Config.freeWord s.draws else m.sum s.gpr

/-- The effective address, drawing the free value it may be. -/
def effAddr (m : Mem) : M Word := fun s =>
  .ok (s.offsetOf m) (if m.isOpen then { s with draws := s.draws + 1 } else s)

/-- The segment of an overridable operand whose default is `d` (R212). -/
def State.segOr (s : State) (d : Sreg) : Sreg := s.pfx.seg.getD d

/-- The segment of a memory operand. -/
def State.segOf (s : State) (m : Mem) : Sreg := s.segOr m.defaultSeg

/-- The offset `k` bytes into a memory operand, within its address size (R104, R556). -/
def Mem.at_ (m : Mem) (ea : Word) (k : Nat) : Word := truncZ m.size (ea + BitVec.ofNat 32 k)

/-- A far pointer in memory: the offset first, the selector after it (R231, R556). -/
def readPointer (z : Sz) (m : Mem) : M (Word × Half) := do
  let ea ← effAddr m
  let seg ← look (·.segOf m)
  let off ← memRead m.size seg ea z.width
  let sel ← memRead m.size seg (Mem.at_ m ea z.width.bytes) .w
  return (off, lowHalf sel)

/-! Access to places. -/

/-- A place whose access has been checked: a register, or the physical addresses of its bytes. -/
inductive Loc where
  | reg8 (r : Gpr8)
  | reg (z : Sz) (r : Gpr)
  | bytes (as : List Nat)
deriving DecidableEq, Repr

/-- Checks the access to a place (R150); a register needs no check. -/
def Place.loc (p : Place) (acc : Acc) : M Loc := do
  match p with
  | .reg8 r => return .reg8 r
  | .reg z r => return .reg z r
  | .mem n m =>
    let off ← effAddr m
    let seg ← look (·.segOf m)
    return .bytes (← memAddrs m.size seg off n.bytes acc)

/-- The value at a checked place, zero-extended. -/
def Loc.get (l : Loc) : M Word :=
  match l with
  | .reg8 r => do return zext8 (← getReg8 r)
  | .reg z r => getRegZ z r
  | .bytes as => readAddrs as

/-- Writes a checked place. -/
def Loc.put (l : Loc) (v : Word) : M Unit :=
  match l with
  | .reg8 r => putReg8 r (v.setWidth 8)
  | .reg z r => putRegZ z r v
  | .bytes as => writeAddrs as v

/-- Reads a place. -/
def Place.read (p : Place) : M Word := do
  let l ← p.loc .read
  l.get

/-- Writes a place. -/
def Place.write (p : Place) (v : Word) : M Unit := do
  let l ← p.loc .write
  l.put v

def Operand.get : Operand → M Word
  | .at_ p => p.read
  | .imm v => pure v

/-! Shapes of instructions over these operands. -/

/-- A destination that is read, combined with a source, and written (R150 step 5): the source is read first. -/
def combine (op : Width → Word → Word → Bool → Res) (p : Pair) : M Unit := do
  let b ← p.src.get
  let l ← p.dst.loc .rmw
  let a ← l.get
  let c ← look (·.cf)
  let x := op p.width a b c
  l.put x.val
  putFlags x.flags

/-- The same without the write: CMP, TEST. -/
def compare (op : Width → Word → Word → Bool → Res) (p : Pair) : M Unit := do
  let b ← p.src.get
  let a ← p.dst.read
  let c ← look (·.cf)
  putFlags (op p.width a b c).flags

/-- A destination that is read, changed, and written. -/
def modify (op : Width → Word → Bool → Res) (p : Single) : M Unit := do
  let l ← p.dst.loc .rmw
  let a ← l.get
  let c ← look (·.cf)
  let x := op p.width a c
  l.put x.val
  putFlags x.flags

/-- A move of a source to a destination. -/
def move (p : Pair) : M Unit := do
  let v ← p.src.get
  p.dst.write v

end Sys2Proof.Machine
end

