-- ==== Sys2Proof/Machine/Boundary.lean ====
section
/-!
DEFINITION. Sys2Proof/Machine/Boundary.lean: what happens at an instruction boundary (R716 a, b, d), reset (R830), and
reading one unit of an instruction through CS (R141, R201, R270).
-/
namespace Sys2Proof.Machine

/-! Reset. -/

/-- `Reset(selftest)` (R830, R831): every register as after power-up; memory, the platform's inputs, and what the model
keeps of the run are untouched (D78, log 5). -/
def State.resetEvent (s : State) (selftest : Bool) : State :=
  let r := State.reset
  { r with
    gpr := if selftest then { r.gpr with eax := 0 } else r.gpr
    intr := s.intr
    busy := s.busy
    error := s.error
    iceActive := s.iceActive
    mem := s.mem
    memMap := s.memMap
    draws := s.draws
    events := s.events }

/-! Debug exceptions reported at a boundary. -/

/-- DR6 with the bits of the traps: B0 to B3, BS, BT (R780). -/
def Traps.dr6 (t : Traps) (old : Word) : Word :=
  old ||| t.hits.setWidth 32 ||| (if t.bs then 0x4000 else 0) ||| (if t.bt then 0x8000 else 0)

/-- An event without error code. -/
def plainEvent (vec : Byte) (kind : EventKind) : Exc := { vec := vec, kind := kind, code := none, committed := false }

/-- Reports the traps (R782, R783, R785). -/
def reportTraps (s : State) : Host.Outcome State Fault Refusal :=
  takeEvent (plainEvent 1 .trap) s.eip
    { s with dr := { s.dr with dr6 := s.traps.dr6 s.dr.dr6 }, traps := .none }

/-- Whether breakpoint `n` matches an instruction at `lin`; `free` decides the undefined settings (R781, I20, log 25). -/
def instrMatch (dr : Dregs) (lin : Word) (free : Word) (n : Nat) : Bool :=
  let rw := dr7Rw dr.dr7 n
  if rw == 2 || (rw == 0 && dr7Len dr.dr7 n != 0) then bit free n
  else rw == 0 && dr.addr n == lin

/-- Whether a setting of DR7 leaves an instruction match undefined. -/
def instrUndefined (dr7 : Word) (n : Nat) : Bool :=
  dr7Rw dr7 n == 2 || (dr7Rw dr7 n == 0 && dr7Len dr7 n != 0)

/-- The breakpoints that match the instruction at CS:EIP. -/
def instrHits (s : State) : BitVec 4 :=
  bits4 (instrMatch s.dr (s.seg.cs.base + s.eip) (Config.freeWord s.draws))

/-- The match draws a free value. -/
def instrOpen (s : State) : Bool := bits4 (instrUndefined s.dr.dr7) != 0

/-- An instruction breakpoint is reported here (R716 a, R787): not while it is inhibited, with RF = 1, or between the
iterations of a string instruction. -/
def breaksHere (s : State) : Bool :=
  !s.inhibit && !s.rf && !s.midRep && (instrHits s &&& enabledMask s.dr.dr7) != 0

/-- The state in which the instruction is read: the free value of the match drawn, and the breakpoints its address matches
noted, enabled or not, whatever RF, and also while `inhibit_one` suppresses their fault (R713): a debug exception of this
instruction reports them too (R780). That it does so of a fault suppressed or masked is the model's choice: log 25. -/
def afterMatch (s : State) : State :=
  { s with
    draws := if instrOpen s then s.draws + 1 else s.draws
    traps := { Traps.none with hits := instrHits s } }

/-- Reports the instruction breakpoint. -/
def reportBreak (s : State) : Host.Outcome State Fault Refusal :=
  let t := afterMatch s
  takeEvent (plainEvent 1 .debugFault) s.eip
    { t with dr := { t.dr with dr6 := t.dr.dr6 ||| (instrHits s).setWidth 32 } }

/-! Interrupts (R710 to R713). -/

/-- NMI is taken. -/
def nmiTaken (s : State) : Bool := s.nmiPending && !s.nmiInService && !s.inhibit

/-- INTR is taken, and the vector the acknowledge cycle returns. -/
def intrTaken (s : State) : Option Byte := if s.ifl && !s.inhibit && !s.stiDelay then s.intr else none

def takeNmi (s : State) : Host.Outcome State Fault Refusal :=
  takeEvent (plainEvent 2 .external) s.eip { s with nmiPending := false, nmiInService := true }

def takeIntr (v : Byte) (s : State) : Host.Outcome State Fault Refusal :=
  takeEvent (plainEvent v .external) s.eip s

/-! Fetching. -/

/-- The offset of byte `k` of the instruction, not wrapped: past FFFFFFFFH, and past FFFFH where that is the limit of CS,
the limit check refuses it (R141, R270, log 8). -/
def State.fetchOffset (s : State) (k : Nat) : Nat := s.eip.toNat + k

/-- The physical address of byte `k` of the instruction (R141, R142). -/
def fetchAddr (k : Nat) : M Nat := do
  let s ← look id
  let off := s.fetchOffset k
  require (off ≤ s.seg.cs.limit.toNat) 13 (some 0)
  translate (s.seg.cs.base + BitVec.ofNat 32 off) s.user .read

/-- Byte `k` of the instruction. -/
def fetchByte (k : Nat) : M Byte := do
  physRead (← fetchAddr k)

/-- Reads a unit: the prefix byte, or the opcode and what follows it. `start` bytes of the instruction have been read;
at most `room` more may be (R201). An encoding that is undefined whatever follows is #UD at once, the bytes that would
follow not being fetched: log 38. Answers the unit and its length. -/
def fetchUnit (os as : Sz) (start : Nat) : Nat → List Byte → M (Instr × Nat)
  | room, bytes =>
    match decode os as bytes with
    | .unit i len => pure (i, len)
    | .undefined => raiseUD
    | .more =>
      match room with
      | 0 => raiseGP0
      | room + 1 => do
        let b ← fetchByte (start + bytes.length)
        fetchUnit os as start room (bytes ++ [b])
termination_by structural room => room

/-- The unit at CS:EIP after the prefixes already read. -/
def fetch : M (Instr × Nat) := do
  let s ← look id
  fetchUnit s.opSz s.adSz s.pfx.count (15 - s.pfx.count) []

/-- The state in which the unit executes: `EIP_next` is after it. -/
def State.fetched (s : State) (len : Nat) : State := { s with ilen := s.pfx.count + len }

/-- Stores a byte where byte `k` of the instruction is fetched. -/
def State.putFetchByte (s : State) (k : Nat) (b : Byte) : State :=
  let a := match fetchAddr k s with
    | .ok a _ => a
    | .error _ _ => (s.seg.cs.base + s.eip).toNat + k
  { s with mem := memSet s.mem a b }

/-- Stores bytes where the instruction is fetched, from its byte `k` on. -/
def State.putFetchBytes (s : State) (k : Nat) : List Byte → State
  | [] => s
  | b :: rest => State.putFetchBytes (s.putFetchByte k b) (k + 1) rest

end Sys2Proof.Machine
end

