-- ==== Sys2Proof/Machine/Arith.lean ====
section
/-! DEFINITION. Sys2Proof/Machine/Arith.lean: binary arithmetic (R340 to R366). -/
namespace Sys2Proof.Machine

/-! Addition and subtraction. -/

/-- ADD (R342). -/
def execAdd (f : AluForm) (s : State) : Host.Outcome State Fault Refusal :=
  runInstr f.operands.dst.isMem (thenNext (combine (fun n a b _ => addRes n a b false) f.operands)) s

/-- ADC (R343). -/
def execAdc (f : AluForm) (s : State) : Host.Outcome State Fault Refusal :=
  runInstr f.operands.dst.isMem (thenNext (combine addRes f.operands)) s

/-- SUB (R344). -/
def execSub (f : AluForm) (s : State) : Host.Outcome State Fault Refusal :=
  runInstr f.operands.dst.isMem (thenNext (combine (fun n a b _ => subRes n a b false) f.operands)) s

/-- SBB (R345). -/
def execSbb (f : AluForm) (s : State) : Host.Outcome State Fault Refusal :=
  runInstr f.operands.dst.isMem (thenNext (combine subRes f.operands)) s

/-- CMP (R346): nothing is written, and LOCK is #UD. -/
def execCmp (f : AluForm) (s : State) : Host.Outcome State Fault Refusal :=
  runInstr false (thenNext (compare (fun n a b _ => subRes n a b false) f.operands)) s

/-- INC (R347): CF is unchanged. -/
def execInc (f : IncForm) (s : State) : Host.Outcome State Fault Refusal :=
  runInstr f.operand.dst.isMem (thenNext (modify (fun n a _ => (addRes n a 1 false).keepCf) f.operand)) s

/-- DEC (R348): CF is unchanged. -/
def execDec (f : IncForm) (s : State) : Host.Outcome State Fault Refusal :=
  runInstr f.operand.dst.isMem (thenNext (modify (fun n a _ => (subRes n a 1 false).keepCf) f.operand)) s

/-- NEG (R349): subtraction from zero. -/
def execNeg (f : UnForm) (s : State) : Host.Outcome State Fault Refusal :=
  runInstr f.operand.dst.isMem (thenNext (modify (fun n a _ => subRes n 0 a false) f.operand)) s

/-! Multiplication and division: the pair AH:AL, DX:AX or EDX:EAX. -/

/-- The upper half of the pair. -/
def getHigh (n : Width) : M Word :=
  match n with
  | .b => do return zext8 (← getReg8 .ah)
  | .w => getRegZ .s16 .dx
  | .d => getRegZ .s32 .dx

def putHigh (n : Width) (v : Word) : M Unit :=
  match n with
  | .b => putReg8 .ah (v.setWidth 8)
  | .w => putRegZ .s16 .dx v
  | .d => putRegZ .s32 .dx v

/-- A product into the pair (R360, R361). -/
def putProduct (n : Width) (p : Nat) : M Unit := do
  putHigh n (highPart n p)
  putAccW n (lowPart n p)

/-- MUL (R360). -/
def execMul (f : UnForm) (s : State) : Host.Outcome State Fault Refusal :=
  runInstr false (thenNext do
    let n := f.operand.width
    let b ← f.operand.dst.read
    let a ← accW n
    putProduct n (mulNat a b)
    putFlags (mulFlags (highPart n (mulNat a b) != 0))) s

/-- IMUL with one operand (R361). -/
def execImul1 (f : UnForm) (s : State) : Host.Outcome State Fault Refusal :=
  runInstr false (thenNext do
    let n := f.operand.width
    let b ← f.operand.dst.read
    let a ← accW n
    putProduct n (imulNat n a b)
    putFlags (mulFlags (imulBig n a b))) s

/-- A truncated product into a register (R362, R363). -/
def putTruncated (z : Sz) (r : Gpr) (a b : Word) : M Unit := do
  putRegZ z r (lowPart z.width (imulNat z.width a b))
  putFlags (mulFlags (imulBig z.width a b))

/-- IMUL with two operands (R362). -/
def execImul2 (z : Sz) (r : Gpr) (o : Rm) (s : State) : Host.Outcome State Fault Refusal :=
  runInstr false (thenNext do
    let b ← (o.place z).read
    let a ← getRegZ z r
    putTruncated z r a b) s

/-- IMUL with an immediate (R363). -/
def execImul3 (f : Imul3Form) (s : State) : Host.Outcome State Fault Refusal :=
  runInstr false (thenNext do
    match f with
    | .immv z r o imm => do
      let a ← (o.place z).read
      putTruncated z r a (truncZ z imm)
    | .immb z r o imm => do
      let a ← (o.place z).read
      putTruncated z r a (truncZ z (imm.signExtend 32))) s

/-- Quotient and remainder into the pair, or #DE (R365, R366): the operand is read first. -/
def divide (op : Width → Word → Word → Word → Option (Word × Word)) (p : Single) : M Unit := do
  let d ← p.dst.read
  let hi ← getHigh p.width
  let lo ← accW p.width
  match op p.width hi lo d with
  | none => raise 0 none
  | some (q, r) => do
    putAccW p.width q
    putHigh p.width r
    putFlags .undefined

/-- DIV (R365). -/
def execDiv (f : UnForm) (s : State) : Host.Outcome State Fault Refusal :=
  runInstr false (thenNext (divide divRes f.operand)) s

/-- IDIV (R366). -/
def execIdiv (f : UnForm) (s : State) : Host.Outcome State Fault Refusal :=
  runInstr false (thenNext (divide idivRes f.operand)) s

end Sys2Proof.Machine
end

