-- ==== Sys2Proof/Machine/Control.lean ====
section
/-! DEFINITION. Sys2Proof/Machine/Control.lean: control transfers and software interrupts (R430 to R480). -/
namespace Sys2Proof.Machine

/-! Relative transfers. -/

/-- The relative transfer (R430, R431). -/
def jumpRel (z : Sz) (r : Rel) : M Unit := do
  let n ← nextEip
  jumpNear (relTarget n z r)

/-- The transfer if the condition holds. -/
def jumpIf (c : Bool) (z : Sz) (r : Rel) : M Ending := do
  if c then do
    jumpRel z r
    return .jump
  else return .next

/-- Jcc (R435). -/
def execJcc (z : Sz) (c : Cond) (r : Rel) (s : State) : Host.Outcome State Fault Refusal :=
  runInstr false (do
    let taken ← look (·.cond c)
    jumpIf taken z r) s

/-- Counts (E)CX down and jumps if it is not zero and ZF agrees; no flag changes (R437). -/
def countAndJump (agrees : Bool → Bool) (z a : Sz) (v : Byte) : M Ending := do
  let c ← getRegZ a .cx
  let left := truncZ a (c - 1)
  putRegZ a .cx left
  let zf ← look (·.zf)
  jumpIf (left != 0 && agrees zf) z (.short v)

/-- LOOP (R437). -/
def execLoop (z a : Sz) (v : Byte) (s : State) : Host.Outcome State Fault Refusal :=
  runInstr false (countAndJump (fun _ => true) z a v) s
/-- LOOPE, LOOPZ (R438). -/
def execLoope (z a : Sz) (v : Byte) (s : State) : Host.Outcome State Fault Refusal :=
  runInstr false (countAndJump (fun zf => zf) z a v) s
/-- LOOPNE, LOOPNZ (R439). -/
def execLoopne (z a : Sz) (v : Byte) (s : State) : Host.Outcome State Fault Refusal :=
  runInstr false (countAndJump (fun zf => !zf) z a v) s

/-- JCXZ, JECXZ (R436). -/
def execJcxz (z a : Sz) (v : Byte) (s : State) : Host.Outcome State Fault Refusal :=
  runInstr false (do
    let c ← getRegZ a .cx
    jumpIf (c == 0) z (.short v)) s

/-! Near jumps, calls and returns. -/

/-- The target of a near transfer (R432, R433, R441, R442): `next` is `EIP_next`. -/
def nearTarget (next : Word) (f : NearForm) : M Word :=
  match f with
  | .rel z r => pure (relTarget next z r)
  | .rm z o => (o.place z).read

/-- JMP within the segment (R432, R433). -/
def execJmpNear (f : NearForm) (s : State) : Host.Outcome State Fault Refusal :=
  runInstr false (thenJump do
    let n ← match f with
      | .rel _ _ => nextEip
      | .rm _ _ => pure 0
    let t ← nearTarget n f
    jumpNear t) s

/-- The operand size of a near transfer. -/
def nearSize : NearForm → Sz
  | .rel z _ => z
  | .rm z _ => z

/-- CALL within the segment: room on the stack, then the target, then the push (R441, R442, D36). -/
def execCallNear (f : NearForm) (s : State) : Host.Outcome State Fault Refusal :=
  runInstr false (thenJump do
    let n ← nextEip
    let t ← nearTarget n f
    let u ← look id
    let size := (nearSize f).width
    require (u.stack.room u.mode size.bytes 1) 12 (some 0)
    checkTarget t
    push size n
    upd fun u => { u with eip := t }) s

/-- RET within the segment; the immediate counts bytes (R447). -/
def execRetNear (z : Sz) (n : Option Half) (s : State) : Host.Outcome State Fault Refusal :=
  runInstr false (thenJump do
    let t ← pop z.width
    jumpNear t
    popBytes (n.getD 0).toNat) s

/-! Far jumps, calls and returns. -/

/-- The pointer of a far transfer, and its operand size (R434). -/
def farPointer (f : FarForm) : M (Sz × Word × Half) :=
  match f with
  | .ptr z sel off => pure (z, truncZ z off, sel)
  | .mem z m => do
    let p ← readPointer z m
    return (z, p.1, p.2)

/-- JMP to another segment (R434, R450). -/
def execJmpFar (f : FarForm) (s : State) : Host.Outcome State Fault Refusal :=
  runInstr false (do
    let p ← farPointer f
    farTransfer .jmp p.1 p.2.2 p.2.1) s

/-- CALL to another segment (R443, R450). -/
def execCallFar (f : FarForm) (s : State) : Host.Outcome State Fault Refusal :=
  runInstr false (do
    let p ← farPointer f
    farTransfer .call p.1 p.2.2 p.2.1) s

/-- RET from another segment in real-address and V86 mode (R448). -/
def retFarFlat (z : Sz) (imm : Nat) : M Unit := do
  let n := z.width.bytes
  let off ← peek z.width 0
  let sel ← peek z.width n
  checkTarget off
  upd fun s => { s.loadFlat .cs (lowHalf sel) with eip := off }
  popBytes (2 * n + imm)

/-- RET from another segment (R448, R449). -/
def execRetFar (z : Sz) (n : Option Half) (s : State) : Host.Outcome State Fault Refusal :=
  runInstr false (thenJump do
    let imm := (n.getD 0).toNat
    match ← look (·.mode) with
    | .prot => farReturn z false imm
    | .real => retFarFlat z imm
    | .v86 => retFarFlat z imm) s

/-! Software interrupts. -/

/-- INT 3: not sensitive to IOPL (R471). -/
def execInt3 (s : State) : Host.Outcome State Fault Refusal := runInstr false (softwareInterrupt 3) s

/-- INT n: in V86 mode it needs IOPL 3 (R470). -/
def execInt (v : Byte) (s : State) : Host.Outcome State Fault Refusal :=
  runInstr false (do
    let t ← look id
    require (t.mode != .v86 || t.iopl == 3) 13 (some 0)
    softwareInterrupt v) s

/-- INTO (R472). -/
def execInto (s : State) : Host.Outcome State Fault Refusal :=
  runInstr false (do
    if ← look (·.ofl) then softwareInterrupt 4
    else return .next) s

/-- IRET, IRETD (R475 to R480). -/
def execIret (z : Sz) (s : State) : Host.Outcome State Fault Refusal :=
  runInstr false (do
    returnFromEvent z
    return .jumpKeepRf) s

/-- BOUND: a signed index within inclusive bounds, the lower one first in memory (R473). An operand that passes the
greatest offset of its address size is refused, not wrapped (R104, D7). -/
def execBound (z : Sz) (r : Gpr) (m : Mem) (s : State) : Host.Outcome State Fault Refusal :=
  runInstr false (thenNext do
    let ea ← effAddr m
    let seg ← look (·.segOf m)
    let lower ← memRead m.size seg ea z.width
    require (ea.toNat + z.width.bytes ≤ m.size.top) (Sreg.violation seg) (some 0)
    let upper ← memRead m.size seg (Mem.at_ m ea z.width.bytes) z.width
    let i ← getRegZ z r
    let n := z.width
    require (decide (signedW n lower ≤ signedW n i) && decide (signedW n i ≤ signedW n upper)) 5 none) s

end Sys2Proof.Machine
end

