-- ==== Sys2Proof/Machine/Data.lean ====
section
/-! DEFINITION. Sys2Proof/Machine/Data.lean: data movement (R300 to R331, R550 to R553). -/
namespace Sys2Proof.Machine

/-! MOV (R303 to R306). -/

/-- AL, AX or EAX. -/
def accPlace (n : Width) : Place :=
  match n with
  | .b => .reg8 .al
  | .w => .reg .s16 .ax
  | .d => .reg .s32 .ax

/-- The memory operand of A0 to A3: an offset in the instruction, DS by default (R304). -/
def moffsRead (n : Width) (a : Sz) (off : Word) : M Word := do
  let seg ← look (·.segOr .ds)
  memRead a seg (truncZ a off) n

def moffsWrite (n : Width) (a : Sz) (off v : Word) : M Unit := do
  let seg ← look (·.segOr .ds)
  memWrite a seg (truncZ a off) n v

/-- MOV between general registers, memory and immediates. -/
def movBody (f : MovForm) : M Unit :=
  match f with
  | .mr8 d r => move { width := .b, dst := d.place, src := .at_ (.reg8 r) }
  | .mr z d r => move { width := z.width, dst := d.place z, src := .at_ (.reg z r) }
  | .rm8 r o => move { width := .b, dst := .reg8 r, src := .at_ o.place }
  | .rm z r o => move { width := z.width, dst := .reg z r, src := .at_ (o.place z) }
  | .loadA8 a off => do (accPlace .b).write (← moffsRead .b a off)
  | .loadA z a off => do (accPlace z.width).write (← moffsRead z.width a off)
  | .storeA8 a off => do moffsWrite .b a off (← (accPlace .b).read)
  | .storeA z a off => do moffsWrite z.width a off (← (accPlace z.width).read)
  | .ri8 r imm => move { width := .b, dst := .reg8 r, src := .imm (zext8 imm) }
  | .ri z r imm => move { width := z.width, dst := .reg z r, src := .ofImm z imm }
  | .mi8 d imm => move { width := .b, dst := d.place, src := .imm (zext8 imm) }
  | .mi z d imm => move { width := z.width, dst := d.place z, src := .ofImm z imm }

/-- MOV (R303 to R306). -/
def execMov (f : MovForm) (s : State) : Host.Outcome State Fault Refusal :=
  runInstr false (thenNext (movBody f)) s

/-! XCHG (R315). -/

/-- Exchanges a place with a register; write permission is checked before either changes. -/
def exchange (p : Place) (r : Loc) : M Unit := do
  let v ← r.get
  let l ← p.loc .rmw
  let t ← l.get
  l.put v
  r.put t

/-- XCHG (R315); its bus lock is not visible to one processor (log 26). -/
def execXchg (f : XchgForm) (s : State) : Host.Outcome State Fault Refusal :=
  match f with
  | .rm8 o r => runInstr o.place.isMem (thenNext (exchange o.place (.reg8 r))) s
  | .rm z o r => runInstr (o.place z).isMem (thenNext (exchange (o.place z) (.reg z r))) s
  | .acc z r => runInstr false (thenNext (exchange (.reg z r) (.reg z .ax))) s

/-! PUSH and POP (R310 to R313). -/

/-- PUSH of a general register, memory or an immediate: the operand is read before the pointer changes (R310). -/
def execPush (f : PushForm) (s : State) : Host.Outcome State Fault Refusal :=
  runInstr false (thenNext do
    match f with
    | .r z g => do push z.width (← getRegZ z g)
    | .immv z imm => push z.width (truncZ z imm)
    | .immb z imm => push z.width (truncZ z (imm.signExtend 32))
    | .rm z o => do push z.width (← (o.place z).read)) s

/-- POP to a general register or memory: the destination is addressed and written after the pointer has moved (R312, D30). -/
def execPop (f : PopForm) (s : State) : Host.Outcome State Fault Refusal :=
  runInstr false (thenNext do
    match f with
    | .r z g => do
      let v ← pop z.width
      putRegZ z g v
    | .rm z d => do
      let v ← pop z.width
      (d.place z).write v) s

/-- PUSHA, PUSHAD: the stack pointer pushed is the one before (R320). -/
def execPusha (z : Sz) (s : State) : Host.Outcome State Fault Refusal :=
  runInstr false (thenNext do
    let t ← look id
    pushAll z.width ([Gpr.ax, .cx, .dx, .bx, .sp, .bp, .si, .di].map (t.regZ z))) s

/-- Where the items POPA reads go, from the top of the stack: the fourth is ignored (R321). -/
def popaOrder : List (Option Gpr) := [some .di, some .si, some .bp, none, some .bx, some .dx, some .cx, some .ax]

/-- Reads items from `d` bytes above the stack pointer on, with the registers they are for. -/
def peekItems (n : Width) : Nat → List (Option Gpr) → M (List (Option Gpr × Word))
  | _, [] => pure []
  | d, r :: rest => do
    let v ← peek n d
    let more ← peekItems n (d + n.bytes) rest
    return (r, v) :: more

/-- Loads registers. -/
def putItems (z : Sz) : List (Option Gpr × Word) → M Unit
  | [] => pure ()
  | (none, _) :: rest => putItems z rest
  | (some r, v) :: rest => do
    putRegZ z r v
    putItems z rest

/-- POPA, POPAD: every item is checked and read before any register changes (R321). -/
def execPopa (z : Sz) (s : State) : Host.Outcome State Fault Refusal :=
  runInstr false (thenNext do
    let vs ← peekItems z.width 0 popaOrder
    putItems z vs
    popBytes (8 * z.width.bytes)) s

/-! Conversions (R325 to R331). -/

/-- CBW, CWDE (R325). -/
def execCbw (z : Sz) (s : State) : Host.Outcome State Fault Refusal :=
  runInstr false (thenNext do
    let v ← getReg .ax
    match z with
    | .s16 => putRegZ .s16 .ax (sextW .b v)
    | .s32 => putRegZ .s32 .ax (sextW .w v)) s

/-- CWD, CDQ (R326). -/
def execCwd (z : Sz) (s : State) : Host.Outcome State Fault Refusal :=
  runInstr false (thenNext do
    let v ← getRegZ z .ax
    putRegZ z .dx (if signBit z.width v then 0xFFFFFFFF else 0)) s

/-- MOVSX (R330). -/
def execMovsx (f : ExtForm) (s : State) : Host.Outcome State Fault Refusal :=
  runInstr false (thenNext do
    match f with
    | .b z r o => do putRegZ z r (sextW .b (← o.place.read))
    | .w z r o => do putRegZ z r (sextW .w (← o.place16.read))) s

/-- MOVZX (R331). -/
def execMovzx (f : ExtForm) (s : State) : Host.Outcome State Fault Refusal :=
  runInstr false (thenNext do
    match f with
    | .b z r o => do putRegZ z r (← o.place.read)
    | .w z r o => do putRegZ z r (← o.place16.read)) s

end Sys2Proof.Machine
end

