-- ==== Sys2Proof/Machine/Decimal.lean ====
section
/-! DEFINITION. Sys2Proof/Machine/Decimal.lean: decimal adjustments of AL and AH (R370 to R375). -/
namespace Sys2Proof.Machine

/-- DAA (R370). -/
def execDaa (s : State) : Host.Outcome State Fault Refusal :=
  runInstr false (thenNext do
    let al ← getReg8 .al
    let t ← look id
    let x := daaRes al t.af t.cf
    putReg8 .al x.1
    putFlags x.2) s

/-- DAS (R371). -/
def execDas (s : State) : Host.Outcome State Fault Refusal :=
  runInstr false (thenNext do
    let al ← getReg8 .al
    let t ← look id
    let x := dasRes al t.af t.cf
    putReg8 .al x.1
    putFlags x.2) s

/-- AAA and AAS: AL by six, AH by one, AL's upper four bits cleared in every case (R372, R373, C30). -/
def asciiAdjust (six one : Byte) : M Unit := do
  let al ← getReg8 .al
  let ah ← getReg8 .ah
  let af ← look (·.af)
  let carry := adjustsLow al af
  putReg8 .al ((if carry then al + six else al) &&& 0x0F)
  putReg8 .ah (if carry then ah + one else ah)
  putFlags (asciiFlags carry)

/-- AAA (R372). -/
def execAaa (s : State) : Host.Outcome State Fault Refusal := runInstr false (thenNext (asciiAdjust 6 1)) s

/-- AAS (R373). -/
def execAas (s : State) : Host.Outcome State Fault Refusal := runInstr false (thenNext (asciiAdjust (-6) (-1))) s

/-- The second byte of AAM and AAD must be 0AH; nothing is said of others (R250, I2, log 18). -/
def requireTen (imm : Byte) : M Unit := if imm == 0x0A then pure () else stop (.refusal .decimalBase)

/-- AAM (R374): SF, ZF, PF from the new AL (D31). -/
def execAam (imm : Byte) (s : State) : Host.Outcome State Fault Refusal :=
  runInstr false (thenNext do
    requireTen imm
    let al ← getReg8 .al
    putReg8 .ah (al / 10)
    putReg8 .al (al % 10)
    putFlags (decimalFlags (al % 10) .free .free)) s

/-- AAD (R375). -/
def execAad (imm : Byte) (s : State) : Host.Outcome State Fault Refusal :=
  runInstr false (thenNext do
    requireTen imm
    let al ← getReg8 .al
    let ah ← getReg8 .ah
    let v := ah * 10 + al
    putReg8 .al v
    putReg8 .ah 0
    putFlags (decimalFlags v .free .free)) s

end Sys2Proof.Machine
end

