-- ==== Sys2Proof/Machine/Io.lean ====
section
/-! DEFINITION. Sys2Proof/Machine/Io.lean: the I/O space, IN and OUT (R170 to R173, R564 to R566). -/
namespace Sys2Proof.Machine

/-- `IOPermission(port, n)`: the bits of the ports in the map of the current TSS are 0 (R173); denied where the map base
lies beyond the limit of the TSS (R145). The offset into the TSS is not wrapped: log 37. -/
def ioPermission (port n : Nat) : M Bool := do
  let t ← look (·.tr)
  if !t.is386 || t.limit.toNat < 0x67 then return false
  else
    let map ← linRead (t.base + 0x66) .w
    let at_ := port / 8 + map.toNat
    if t.limit.toNat < at_ + 1 then return false
    else
      let bits ← linRead (t.base + BitVec.ofNat 32 at_) .w
      return bits &&& (BitVec.ofNat 32 (2 ^ n - 1) <<< (port % 8)) == 0

/-- The check before any port access (R564). -/
def checkIo (port n : Nat) : M Unit := do
  let s ← look id
  if s.pe && (s.vm || s.iopl < s.cpl.toNat) then do
    let ok ← ioPermission port n
    require ok 13 (some 0)
  else pure ()

/-- `PortRead`: the value is the device's, a free value here (R170, D21, log 15). -/
def portRead (port : Nat) (n : Width) : M Word := fun s =>
  let v := truncW n (Config.portIn s.draws)
  .ok v { s with draws := s.draws + 1, events := Event.portRead port n v :: s.events }

/-- `PortWrite` (R170). -/
def portWrite (port : Nat) (n : Width) (v : Word) : M Unit :=
  upd fun s => { s with events := Event.portWrite port n v :: s.events }

/-- DX. -/
def portDx : M Nat := do return (← getRegZ .s16 .dx).toNat

/-- The port of IN and OUT. -/
def portOf (p : Port) : M Nat :=
  match p with
  | .imm b => pure b.toNat
  | .dx => portDx

/-- IN (R565). -/
def execInp (n : Width) (p : Port) (s : State) : Host.Outcome State Fault Refusal :=
  runInstr false (thenNext do
    let port ← portOf p
    checkIo port n.bytes
    let v ← portRead port n
    putAccW n v) s

/-- OUT (R566). -/
def execOutp (n : Width) (p : Port) (s : State) : Host.Outcome State Fault Refusal :=
  runInstr false (thenNext do
    let port ← portOf p
    checkIo port n.bytes
    let v ← accW n
    portWrite port n v) s

end Sys2Proof.Machine
end

