-- ==== Sys2Proof/Machine/Logic.lean ====
section
/-!
DEFINITION. Sys2Proof/Machine/Logic.lean: logical, bit, shift, rotate and byte-set instructions (R380 to R420).
-/
namespace Sys2Proof.Machine

/-! Boolean instructions (R381 to R385). -/

/-- AND (R381). -/
def execAnd (f : AluForm) (s : State) : Host.Outcome State Fault Refusal :=
  runInstr f.operands.dst.isMem (thenNext (combine (fun n a b _ => logicRes n (a &&& b)) f.operands)) s

/-- OR (R382). -/
def execOr (f : AluForm) (s : State) : Host.Outcome State Fault Refusal :=
  runInstr f.operands.dst.isMem (thenNext (combine (fun n a b _ => logicRes n (a ||| b)) f.operands)) s

/-- XOR (R383). -/
def execXor (f : AluForm) (s : State) : Host.Outcome State Fault Refusal :=
  runInstr f.operands.dst.isMem (thenNext (combine (fun n a b _ => logicRes n (a ^^^ b)) f.operands)) s

/-- NOT (R384): no flag changes. -/
def execNot (f : UnForm) (s : State) : Host.Outcome State Fault Refusal :=
  runInstr f.operand.dst.isMem
    (thenNext (modify (fun n a _ => { val := truncW n (~~~a), flags := .same }) f.operand)) s

/-- TEST (R385): nothing is written, and LOCK is #UD. -/
def execTest (f : TestForm) (s : State) : Host.Outcome State Fault Refusal :=
  runInstr false (thenNext (compare (fun n a b _ => logicRes n (a &&& b)) f.operands)) s

/-! Bit test (R394 to R399). -/

/-- The operand that holds the selected bit: a register, or the unit of memory `U * floor(offset / OS)` bytes from the
operand's address, within the address size (R394, D33). -/
def bitLoc (z : Sz) (o : Rm) (offset : Int) (acc : Acc) : M Loc := do
  match o with
  | .reg r => return .reg z r
  | .mem m =>
    let ea ← effAddr m
    let seg ← look (·.segOf m)
    let off := truncZ m.size (ea + BitVec.ofInt 32 ((z.width.bytes : Int) * (offset.fdiv (z.width.bits : Int))))
    return .bytes (← memAddrs m.size seg off z.width.bytes acc)

/-- The bit offset of a form: a signed register, or an immediate, which stays within the operand (R394, D35). -/
def bitOffset (f : BtForm) (s : State) : Int :=
  match f with
  | .r z _ g => signedW z.width (s.regZ z g)
  | .i z _ imm => ((imm.toNat % z.width.bits : Nat) : Int)

/-- The number of the bit within its unit. -/
def bitNumber (z : Sz) (offset : Int) : Nat := (offset % (z.width.bits : Int)).toNat

/-- BTS, BTR, BTC: `op` gives the bit's new value from its old one; the whole unit is written (D33). -/
def bitModify (op : Bool → Bool) (f : BtForm) : M Unit := do
  let s ← look id
  let offset := bitOffset f s
  let k := bitNumber f.size offset
  let l ← bitLoc f.size f.base offset .rmw
  let v ← l.get
  l.put (putBit v k (op (bit v k)))
  putFlags (bitFlags (bit v k))

/-- BT (R396). -/
def execBt (f : BtForm) (s : State) : Host.Outcome State Fault Refusal :=
  runInstr false (thenNext do
    let t ← look id
    let offset := bitOffset f t
    let l ← bitLoc f.size f.base offset .read
    let v ← l.get
    putFlags (bitFlags (bit v (bitNumber f.size offset)))) s

/-- BTS (R397). -/
def execBts (f : BtForm) (s : State) : Host.Outcome State Fault Refusal :=
  runInstr (f.base.place f.size).isMem (thenNext (bitModify (fun _ => true) f)) s

/-- BTR (R398). -/
def execBtr (f : BtForm) (s : State) : Host.Outcome State Fault Refusal :=
  runInstr (f.base.place f.size).isMem (thenNext (bitModify (fun _ => false) f)) s

/-- BTC (R399): CF is the bit before it is complemented (C31). -/
def execBtc (f : BtForm) (s : State) : Host.Outcome State Fault Refusal :=
  runInstr (f.base.place f.size).isMem (thenNext (bitModify (fun b => !b) f)) s

/-! Bit scan (R401, R402). -/

/-- The destination gets the index, or a free value when no bit is set (I12). -/
def scan (find : Word → Nat) (z : Sz) (r : Gpr) (o : Rm) : M Unit := do
  let v ← (o.place z).read
  if v == 0 then do
    let free ← drawWord
    putRegZ z r free
    putFlags (scanFlags true)
  else do
    putRegZ z r (BitVec.ofNat 32 (find v))
    putFlags (scanFlags false)

/-- BSF (R401). -/
def execBsf (z : Sz) (r : Gpr) (o : Rm) (s : State) : Host.Outcome State Fault Refusal :=
  runInstr false (thenNext (scan (fun v => scanUp v 0 z.width.bits) z r o)) s

/-- BSR (R402). -/
def execBsr (z : Sz) (r : Gpr) (o : Rm) (s : State) : Host.Outcome State Fault Refusal :=
  runInstr false (thenNext (scan (fun v => scanDown v z.width.bits) z r o)) s

/-! Shifts and rotates (R405 to R415). -/

/-- The operand is read and written, also by a count of 0 (R405); LOCK is #UD. -/
def shiftBy (op : Width → Nat → Word → Bool → Res) (f : ShiftForm) : M Unit := do
  let c ← look f.count
  modify (fun n a cf => op n c a cf) f.operand

/-- ROL (R411). -/
def execRol (f : ShiftForm) (s : State) : Host.Outcome State Fault Refusal := runInstr false (thenNext (shiftBy rolRes f)) s
/-- ROR (R412). -/
def execRor (f : ShiftForm) (s : State) : Host.Outcome State Fault Refusal := runInstr false (thenNext (shiftBy rorRes f)) s
/-- RCL (R413). -/
def execRcl (f : ShiftForm) (s : State) : Host.Outcome State Fault Refusal := runInstr false (thenNext (shiftBy rclRes f)) s
/-- RCR (R414). -/
def execRcr (f : ShiftForm) (s : State) : Host.Outcome State Fault Refusal := runInstr false (thenNext (shiftBy rcrRes f)) s
/-- SHL, SAL (R406). -/
def execShl (f : ShiftForm) (s : State) : Host.Outcome State Fault Refusal := runInstr false (thenNext (shiftBy shlRes f)) s
/-- SHR (R407). -/
def execShr (f : ShiftForm) (s : State) : Host.Outcome State Fault Refusal := runInstr false (thenNext (shiftBy shrRes f)) s
/-- SAR (R408). -/
def execSar (f : ShiftForm) (s : State) : Host.Outcome State Fault Refusal := runInstr false (thenNext (shiftBy sarRes f)) s

/-- A double shift: the register is read before the operand is written (R409). A count of 0 changes nothing, but an operand
in memory is written back: log 39. A count from the operand's width on gives a free value (I12). -/
def shiftPair (op : Width → Nat → Word → Word → Word → Res) (z : Sz) (o : Rm) (r : Gpr) (c : DCount) : M Unit := do
  let k ← look c.masked
  let src ← getRegZ z r
  let free ← if z.width.bits ≤ k then drawWord else pure 0
  modify (fun n a _ => op n k a src free) { width := z.width, dst := o.place z }

/-- SHLD (R409). -/
def execShld (z : Sz) (o : Rm) (r : Gpr) (c : DCount) (s : State) : Host.Outcome State Fault Refusal :=
  runInstr false (thenNext (shiftPair shldRes z o r c)) s

/-- SHRD (R410). -/
def execShrd (z : Sz) (o : Rm) (r : Gpr) (c : DCount) (s : State) : Host.Outcome State Fault Refusal :=
  runInstr false (thenNext (shiftPair shrdRes z o r c)) s

/-! SETcc (R420). -/

/-- A byte 1 or 0, written in both cases. -/
def execSetcc (c : Cond) (d : Rm8) (s : State) : Host.Outcome State Fault Refusal :=
  runInstr false (thenNext do
    let b ← look (·.cond c)
    d.place.write (ofBool b)) s

end Sys2Proof.Machine
end

