-- ==== Sys2Proof/Machine/Misc.lean ====
section
/-!
DEFINITION. Sys2Proof/Machine/Misc.lean: block structure, flag control, address calculation, the coprocessor interface,
and what Intel reserves (R510 to R541, R256).
-/
namespace Sys2Proof.Machine

/-! ENTER and LEAVE (R510 to R512). -/

/-- Copies `k` frame pointers of the enclosing display. With a 16-bit operand size the offset is BP, and the limit check of the
read is that of a 16-bit address, on a 32-bit stack too: an item that passes FFFFH is #SS(0) (R511 leaves this open): log 47. -/
def copyDisplay (z : Sz) : Nat → M Unit
  | 0 => pure ()
  | k + 1 => do
    let bp ← getRegZ z .bp
    let at_ := truncZ z (bp - BitVec.ofNat 32 z.width.bytes)
    putRegZ z .bp at_
    let v ← memRead z .ss at_ z.width
    push z.width v
    copyDisplay z k

/-- The display of a nesting level (R510). -/
def pushDisplay (z : Sz) (level : Nat) (frame : Word) : M Unit :=
  match level with
  | 0 => pure ()
  | k + 1 => do
    copyDisplay z k
    push z.width (truncZ z frame)

/-- ENTER: the level is taken modulo 32; the widths are D41's (R510, R511). -/
def execEnter (z : Sz) (size : Half) (level : Byte) (s : State) : Host.Outcome State Fault Refusal :=
  runInstr false (thenNext do
    let bp ← getRegZ z .bp
    push z.width bp
    let frame ← getReg .sp
    pushDisplay z (level.toNat % 32) frame
    putRegZ z .bp frame
    let k ← look (·.stack)
    putReg .sp (k.pointer (k.below size.toNat))) s

/-- LEAVE (R512). -/
def execLeave (z : Sz) (s : State) : Host.Outcome State Fault Refusal :=
  runInstr false (thenNext do
    let t ← look id
    putReg .sp (t.stack.pointer t.gpr.ebp)
    let v ← pop z.width
    putRegZ z .bp v) s

/-! Flag control (R515 to R525). -/

/-- CLC (R516). -/
def execClc (s : State) : Host.Outcome State Fault Refusal := runInstr false (thenNext (putFlag 0 false)) s
/-- STC (R515). -/
def execStc (s : State) : Host.Outcome State Fault Refusal := runInstr false (thenNext (putFlag 0 true)) s
/-- CMC (R517). -/
def execCmc (s : State) : Host.Outcome State Fault Refusal :=
  runInstr false (thenNext (upd fun t => t.setFlag 0 (!t.cf))) s
/-- CLD (R518). -/
def execCld (s : State) : Host.Outcome State Fault Refusal := runInstr false (thenNext (putFlag 10 false)) s
/-- STD (R519). -/
def execStd (s : State) : Host.Outcome State Fault Refusal := runInstr false (thenNext (putFlag 10 true)) s

/-- CPL within IOPL, in protected and V86 mode (R524). -/
def requireIopl : M Unit := do
  let s ← look id
  require (!(s.pe && s.iopl < s.cpl.toNat)) 13 (some 0)

/-- CLI (R524). -/
def execCli (s : State) : Host.Outcome State Fault Refusal :=
  runInstr false (thenNext do
    requireIopl
    putFlag 9 false) s

/-- STI: INTR waits one instruction if IF was clear (R525, D42). -/
def execSti (s : State) : Host.Outcome State Fault Refusal :=
  runInstr false (do
    requireIopl
    let was ← look (·.ifl)
    putFlag 9 true
    return if was then .next else .sti) s

/-! Flag transfer (R526 to R531). -/

/-- LAHF: bits 5, 3 and 1 have no value (R526, I13). -/
def execLahf (s : State) : Host.Outcome State Fault Refusal :=
  runInstr false (thenNext do
    let fl ← look (·.eflags)
    let free ← drawWord
    putReg8 .ah ((mergeBits 0xD5 fl free).setWidth 8)) s

/-- SAHF (R527). -/
def execSahf (s : State) : Host.Outcome State Fault Refusal :=
  runInstr false (thenNext do
    let ah ← getReg8 .ah
    upd fun t => t.loadFlags 0xD5 (zext8 ah)) s

/-- In V86 mode the instruction needs IOPL 3 (R530, R531). -/
def requireV86Iopl : M Unit := do
  let s ← look id
  require (!(s.vm && s.iopl < 3)) 13 (some 0)

/-- PUSHF, PUSHFD: RF reads as 0 in a doubleword (R530). -/
def execPushf (z : Sz) (s : State) : Host.Outcome State Fault Refusal :=
  runInstr false (thenNext do
    requireV86Iopl
    match z with
    | .s16 => do
      let fl ← look (·.eflags)
      push .w (truncW .w (fixReserved fl))
    | .s32 => do
      let image ← flagImage false
      push .d image) s

/-- POPF, POPFD: RF and VM keep their values (R531). -/
def execPopf (z : Sz) (s : State) : Host.Outcome State Fault Refusal :=
  runInstr false (do
    requireV86Iopl
    let v ← pop z.width
    upd fun t => t.loadFlags t.flagMask v
    return .nextKeepRf) s

/-! Addresses (R534 to R537). -/

/-- LEA: the offset alone, no access (R534). -/
def execLea (z : Sz) (r : Gpr) (m : Mem) (s : State) : Host.Outcome State Fault Refusal :=
  runInstr false (thenNext do
    let ea ← effAddr m
    putRegZ z r ea) s

/-- NOP (R536). -/
def execNop (s : State) : Host.Outcome State Fault Refusal := runInstr false (thenNext (pure ())) s

/-- XLAT (R537). -/
def execXlat (a : Sz) (s : State) : Host.Outcome State Fault Refusal :=
  runInstr false (thenNext do
    let seg ← look (·.segOr .ds)
    let bx ← getRegZ a .bx
    let al ← getReg8 .al
    let v ← memRead a seg (truncZ a (bx + zext8 al)) .b
    putReg8 .al (v.setWidth 8)) s

/-! The coprocessor interface (R540, R541). -/

/-- The first byte of a coprocessor operand is accessible for reading; its length and its direction are the
coprocessor's (R540, log 16). -/
def checkEscOperand (o : Rm) : M Unit :=
  match o with
  | .reg _ => pure ()
  | .mem m => do
    let _ ← (Place.mem .b m).loc .read
    pure ()

/-- ESC: #NM, #MF, the operand's faults; past these the coprocessor acts, which the spec leaves out (R540, D43). -/
def execEsc (opc : BitVec 3) (ext : BitVec 3) (o : Rm) (s : State) : Host.Outcome State Fault Refusal :=
  runInstr false (thenNext do
    let t ← look id
    require (!(t.em || t.ts)) 7 none
    let isReg := match o with
      | .reg _ => true
      | .mem _ => false
    require (!(t.error && Config.escTestsError opc ext isReg)) 16 none
    checkEscOperand o
    stop (.refusal .coprocessor)) s

/-- WAIT: while BUSY# is active nothing happens and EIP stays (R541). -/
def execWait (s : State) : Host.Outcome State Fault Refusal :=
  runInstr false (do
    let t ← look id
    require (!(t.mp && t.ts)) 7 none
    if t.busy then return .hold
    else do
      require (!t.error) 16 none
      return .next) s

/-! Reserved by Intel. -/

/-- An opcode reserved by Intel: it does not generate interrupt 6, and nothing is said of what it does (R256, I1). LOCK may
not stand before it (R258, R636). -/
def execIntelReserved (_k : Reserved) (s : State) : Host.Outcome State Fault Refusal :=
  runInstr false (stop (.refusal .reservedOpcode)) s

end Sys2Proof.Machine
end

