-- ==== Sys2Proof/Machine/Prefix.lean ====
section
/-!
DEFINITION. Sys2Proof/Machine/Prefix.lean: the prefixes (R202, R203, R212, D11). A prefix byte is one step: it is
recorded and EIP stays at the first byte of the instruction (log 6).
-/
namespace Sys2Proof.Machine

/-- The state with one more prefix byte read. -/
def latch (f : Latch → Latch) (s : State) : Host.Outcome State Fault Refusal :=
  .next { s with pfx := { f s.pfx with count := s.pfx.count + 1 } }

/-- A segment override: of two, the one nearest the opcode is used (D11). -/
def latchSeg (r : Sreg) (s : State) : Host.Outcome State Fault Refusal := latch (fun p => { p with seg := some r }) s

/-- 26: ES. -/
def execSegEs (s : State) : Host.Outcome State Fault Refusal := latchSeg .es s
/-- 2E: CS. -/
def execSegCs (s : State) : Host.Outcome State Fault Refusal := latchSeg .cs s
/-- 36: SS. -/
def execSegSs (s : State) : Host.Outcome State Fault Refusal := latchSeg .ss s
/-- 3E: DS. -/
def execSegDs (s : State) : Host.Outcome State Fault Refusal := latchSeg .ds s
/-- 64: FS. -/
def execSegFs (s : State) : Host.Outcome State Fault Refusal := latchSeg .fs s
/-- 65: GS. -/
def execSegGs (s : State) : Host.Outcome State Fault Refusal := latchSeg .gs s

/-- 66: the operand size is the one that is not the default, however often it is written (R203, D11). -/
def execOpsize (s : State) : Host.Outcome State Fault Refusal := latch (fun p => { p with opsize := true }) s
/-- 67: the same for the address size. -/
def execAdrsize (s : State) : Host.Outcome State Fault Refusal := latch (fun p => { p with adrsize := true }) s
/-- F0: LOCK (R258). -/
def execLock (s : State) : Host.Outcome State Fault Refusal := latch (fun p => { p with lock := true }) s
/-- F2: REPNE, REPNZ (R259). -/
def execRepne (s : State) : Host.Outcome State Fault Refusal := latch (fun p => { p with rep := some .repne }) s
/-- F3: REP, REPE, REPZ. -/
def execRep (s : State) : Host.Outcome State Fault Refusal := latch (fun p => { p with rep := some .rep }) s

end Sys2Proof.Machine
end

