-- ==== Sys2Proof/Machine/Segment.lean ====
section
/-!
DEFINITION. Sys2Proof/Machine/Segment.lean: segment-register transfers and far data pointers (R550 to R561).
-/
namespace Sys2Proof.Machine

/-- MOV r/m16,Sreg: a word; in a 32-bit register bits 31:16 have no value (R550, D45). -/
def execMovFromSreg (z : Sz) (d : Rm) (r : Sreg) (s : State) : Host.Outcome State Fault Refusal :=
  runInstr false (thenNext do
    let sel ← look fun t => (t.sreg r).sel
    match d with
    | .reg g =>
      match z with
      | .s16 => putRegZ .s16 g (zext16 sel)
      | .s32 => do
        let free ← drawWord
        putReg g (withLow free sel)
    | .mem m => (Place.mem .w m).write (zext16 sel)) s

/-- A load of SS by MOV or POP holds interrupts off for one instruction (R713); of CS it is #UD (R551). -/
def endOfLoad (r : Sreg) : Ending := if r == .ss then .inhibit else .next

/-- MOV Sreg,r/m16 (R551). -/
def execMovToSreg (r : Sreg) (o : Rm) (s : State) : Host.Outcome State Fault Refusal :=
  runInstr false (do
    if r == .cs then raiseUD
    let v ← o.place16.read
    loadSreg r (lowHalf v)
    return endOfLoad r) s

/-- PUSH Sreg: in a doubleword the upper half has no value (R552, D44). -/
def execPushSreg (z : Sz) (r : Sreg) (s : State) : Host.Outcome State Fault Refusal :=
  runInstr false (thenNext do
    let sel ← look fun t => (t.sreg r).sel
    let v ← selItem z.width sel
    push z.width v) s

/-- POP Sreg: through the old SS (R553). -/
def execPopSreg (z : Sz) (r : Sreg) (s : State) : Host.Outcome State Fault Refusal :=
  runInstr false (do
    if r == .cs then raiseUD
    let v ← pop z.width
    loadSreg r (lowHalf v)
    return endOfLoad r) s

/-- LDS, LES, LFS, LGS, LSS: the segment load is checked before any register is written (R556). -/
def loadPointer (r : Sreg) (z : Sz) (g : Gpr) (m : Mem) : M Unit := do
  let p ← readPointer z m
  loadSreg r p.2
  putRegZ z g p.1

/-- LDS (R557). -/
def execLds (z : Sz) (r : Gpr) (m : Mem) (s : State) : Host.Outcome State Fault Refusal :=
  runInstr false (thenNext (loadPointer .ds z r m)) s
/-- LES (R558). -/
def execLes (z : Sz) (r : Gpr) (m : Mem) (s : State) : Host.Outcome State Fault Refusal :=
  runInstr false (thenNext (loadPointer .es z r m)) s
/-- LFS (R559). -/
def execLfs (z : Sz) (r : Gpr) (m : Mem) (s : State) : Host.Outcome State Fault Refusal :=
  runInstr false (thenNext (loadPointer .fs z r m)) s
/-- LGS (R560). -/
def execLgs (z : Sz) (r : Gpr) (m : Mem) (s : State) : Host.Outcome State Fault Refusal :=
  runInstr false (thenNext (loadPointer .gs z r m)) s
/-- LSS: interrupts are not held off (R561). -/
def execLss (z : Sz) (r : Gpr) (m : Mem) (s : State) : Host.Outcome State Fault Refusal :=
  runInstr false (thenNext (loadPointer .ss z r m)) s

end Sys2Proof.Machine
end

