-- ==== Sys2Proof/Machine/Strings.lean ====
section
/-!
DEFINITION. Sys2Proof/Machine/Strings.lean: string instructions and their repetition (R490 to R496, R567, R568). One
step is one iteration.
-/
namespace Sys2Proof.Machine

/-- One iteration under the repeat prefix, if there is one: the count is CX or ECX; CMPS and SCAS also end on ZF
(R490). F2 before the others is taken as F3 (D14). -/
def repeated (a : Sz) (testsZf : Bool) (once : M Unit) : M Ending := do
  match ← look (·.pfx.rep) with
  | none => do
    once
    return .next
  | some k => do
    let c ← getRegZ a .cx
    if c == 0 then return .next
    else do
      once
      let left := truncZ a (c - 1)
      putRegZ a .cx left
      let zf ← look (·.zf)
      let ends := match k with
        | .rep => testsZf && !zf
        | .repne => testsZf && zf
      return if left == 0 || ends then .next else .again

/-- Advances an index register by the element's bytes, down if DF is 1 (R491). -/
def stepIndex (a : Sz) (r : Gpr) (n : Width) : M Unit := do
  let i ← getRegZ a r
  let down ← look (·.df)
  let w := BitVec.ofNat 32 n.bytes
  putRegZ a r (if down then i - w else i + w)

/-- The source element: DS:(E)SI, the segment may be overridden (R491). -/
def readSource (a : Sz) (n : Width) : M Word := do
  let seg ← look (·.segOr .ds)
  let i ← getRegZ a .si
  memRead a seg i n

/-- The destination element, ES:(E)DI. -/
def readDest (a : Sz) (n : Width) : M Word := do
  let i ← getRegZ a .di
  memRead a .es i n

def writeDest (a : Sz) (n : Width) (v : Word) : M Unit := do
  let i ← getRegZ a .di
  memWrite a .es i n v

/-- MOVS (R492). -/
def movsOnce (a : Sz) (n : Width) : M Unit := do
  let v ← readSource a n
  writeDest a n v
  stepIndex a .si n
  stepIndex a .di n

/-- CMPS: the source less the destination (R493); the source is read first (D40). -/
def cmpsOnce (a : Sz) (n : Width) : M Unit := do
  let x ← readSource a n
  let y ← readDest a n
  putFlags (subRes n x y false).flags
  stepIndex a .si n
  stepIndex a .di n

/-- SCAS: the accumulator less the destination (R494). -/
def scasOnce (a : Sz) (n : Width) : M Unit := do
  let y ← readDest a n
  let x ← accW n
  putFlags (subRes n x y false).flags
  stepIndex a .di n

/-- LODS (R495). -/
def lodsOnce (a : Sz) (n : Width) : M Unit := do
  let v ← readSource a n
  putAccW n v
  stepIndex a .si n

/-- STOS (R496). -/
def stosOnce (a : Sz) (n : Width) : M Unit := do
  let v ← accW n
  writeDest a n v
  stepIndex a .di n

/-- INS: the port is read before the destination is checked (R567, D46). -/
def insOnce (a : Sz) (n : Width) : M Unit := do
  let port ← portDx
  checkIo port n.bytes
  let v ← portRead port n
  writeDest a n v
  stepIndex a .di n

/-- OUTS (R568). -/
def outsOnce (a : Sz) (n : Width) : M Unit := do
  let port ← portDx
  checkIo port n.bytes
  let v ← readSource a n
  portWrite port n v
  stepIndex a .si n

/-- A4: MOVSB (R492). -/
def execMovsb (a : Sz) (s : State) : Host.Outcome State Fault Refusal := runInstr false (repeated a false (movsOnce a .b)) s
/-- A5: MOVSW, MOVSD. -/
def execMovsv (z a : Sz) (s : State) : Host.Outcome State Fault Refusal := runInstr false (repeated a false (movsOnce a z.width)) s
/-- A6: CMPSB (R493). -/
def execCmpsb (a : Sz) (s : State) : Host.Outcome State Fault Refusal := runInstr false (repeated a true (cmpsOnce a .b)) s
/-- A7: CMPSW, CMPSD. -/
def execCmpsv (z a : Sz) (s : State) : Host.Outcome State Fault Refusal := runInstr false (repeated a true (cmpsOnce a z.width)) s
/-- AE: SCASB (R494). -/
def execScasb (a : Sz) (s : State) : Host.Outcome State Fault Refusal := runInstr false (repeated a true (scasOnce a .b)) s
/-- AF: SCASW, SCASD. -/
def execScasv (z a : Sz) (s : State) : Host.Outcome State Fault Refusal := runInstr false (repeated a true (scasOnce a z.width)) s
/-- AC: LODSB (R495). -/
def execLodsb (a : Sz) (s : State) : Host.Outcome State Fault Refusal := runInstr false (repeated a false (lodsOnce a .b)) s
/-- AD: LODSW, LODSD. -/
def execLodsv (z a : Sz) (s : State) : Host.Outcome State Fault Refusal := runInstr false (repeated a false (lodsOnce a z.width)) s
/-- AA: STOSB (R496). -/
def execStosb (a : Sz) (s : State) : Host.Outcome State Fault Refusal := runInstr false (repeated a false (stosOnce a .b)) s
/-- AB: STOSW, STOSD. -/
def execStosv (z a : Sz) (s : State) : Host.Outcome State Fault Refusal := runInstr false (repeated a false (stosOnce a z.width)) s
/-- 6C: INSB (R567). -/
def execInsb (a : Sz) (s : State) : Host.Outcome State Fault Refusal := runInstr false (repeated a false (insOnce a .b)) s
/-- 6D: INSW, INSD. -/
def execInsv (z a : Sz) (s : State) : Host.Outcome State Fault Refusal := runInstr false (repeated a false (insOnce a z.width)) s
/-- 6E: OUTSB (R568). -/
def execOutsb (a : Sz) (s : State) : Host.Outcome State Fault Refusal := runInstr false (repeated a false (outsOnce a .b)) s
/-- 6F: OUTSW, OUTSD. -/
def execOutsv (z a : Sz) (s : State) : Host.Outcome State Fault Refusal := runInstr false (repeated a false (outsOnce a z.width)) s

end Sys2Proof.Machine
end

