-- ==== Sys2Proof/Machine/System.lean ====
section
/-! DEFINITION. Sys2Proof/Machine/System.lean: system instructions (R580 to R632). -/
namespace Sys2Proof.Machine

/-! Descriptor-table registers (R580 to R583). -/

/-- The six bytes of LGDT and LIDT, all read (D48): with a 16-bit operand size 24 bits of the base are loaded (R580). -/
def readTable (z : Sz) (m : Mem) : M TableReg := do
  let ea ← effAddr m
  let seg ← look (·.segOf m)
  let limit ← memRead m.size seg ea .w
  let base ← memRead m.size seg (Mem.at_ m ea 2) .d
  return { base := match z with
             | .s16 => base &&& 0x00FFFFFF
             | .s32 => base
           limit := lowHalf limit }

/-- The base as SGDT and SIDT store it (R582, I15, C70). -/
def storedBase (z : Sz) (base : Word) : Word :=
  match z with
  | .s16 => if Config.sgdt16StoresTop then base else base &&& 0x00FFFFFF
  | .s32 => base

/-- Stores a table register: both writes are checked before either is made (R582, D8). -/
def writeTable (z : Sz) (m : Mem) (t : TableReg) : M Unit := do
  let ea ← effAddr m
  let seg ← look (·.segOf m)
  let a ← memAddrs m.size seg ea 2 .write
  let b ← memAddrs m.size seg (Mem.at_ m ea 2) 4 .write
  writeAddrs a (zext16 t.limit)
  writeAddrs b (storedBase z t.base)

/-- LGDT (R580). -/
def execLgdt (z : Sz) (m : Mem) (s : State) : Host.Outcome State Fault Refusal :=
  runInstr false (thenNext do
    requireCpl0
    let t ← readTable z m
    upd fun s => { s with gdtr := t }) s

/-- LIDT (R581). -/
def execLidt (z : Sz) (m : Mem) (s : State) : Host.Outcome State Fault Refusal :=
  runInstr false (thenNext do
    requireCpl0
    let t ← readTable z m
    upd fun s => { s with idtr := t }) s

/-- SGDT (R582). -/
def execSgdt (z : Sz) (m : Mem) (s : State) : Host.Outcome State Fault Refusal :=
  runInstr false (thenNext do
    let t ← look (·.gdtr)
    writeTable z m t) s

/-- SIDT (R583). -/
def execSidt (z : Sz) (m : Mem) (s : State) : Host.Outcome State Fault Refusal :=
  runInstr false (thenNext do
    let t ← look (·.idtr)
    writeTable z m t) s

/-! LDTR and TR (R585 to R588): undefined outside protected mode. -/

/-- A descriptor of the GDT (R585, R587). -/
def needGdt (sel : Half) : M Desc := do
  require (!selLdt sel) 13 (some (selCode sel false))
  needDesc sel 13 false

/-- LLDT (R585). -/
def execLldt (o : Rm) (s : State) : Host.Outcome State Fault Refusal :=
  runInstr false (thenNext do
    requireProtected
    requireCpl0
    let sel := lowHalf (← o.place16.read)
    if selNull sel then upd fun s => { s with ldtr := { s.ldtr with sel := sel, valid := false } }
    else do
      let d ← needGdt sel
      require (d.isSystem 2) 13 (some (selCode sel false))
      require d.present 11 (some (selCode sel false))
      upd fun s => { s with ldtr := { sel := sel, base := d.base, limit := d.limit, valid := true } }) s

/-- SLDT (R586): 16 bits, whatever the operand size (D49). -/
def execSldt (d : Rm) (s : State) : Host.Outcome State Fault Refusal :=
  runInstr false (thenNext do
    requireProtected
    let sel ← look (·.ldtr.sel)
    d.place16.write (zext16 sel)) s

/-- LTR: the TSS is marked busy; nothing of it is read (R587). -/
def execLtr (o : Rm) (s : State) : Host.Outcome State Fault Refusal :=
  runInstr false (thenNext do
    requireProtected
    requireCpl0
    let sel := lowHalf (← o.place16.read)
    require (!selNull sel) 13 (some 0)
    let d ← needGdt sel
    require d.isAvailTss 13 (some (selCode sel false))
    require d.present 11 (some (selCode sel false))
    writeRights d (d.ar ||| 2)
    upd fun s => { s with tr := { sel := sel, base := d.base, limit := d.limit, is386 := d.type == 9 } }) s

/-- STR (R588). -/
def execStr (d : Rm) (s : State) : Host.Outcome State Fault Refusal :=
  runInstr false (thenNext do
    requireProtected
    let sel ← look (·.tr.sel)
    d.place16.write (zext16 sel)) s

/-! The machine status word (R590 to R592). -/

/-- CR0 replaced. -/
def putCr0 (v : Word) : M Unit := upd fun s => { s with cr := { s.cr with cr0 := v } }

/-- LMSW: PE can be set, not cleared; MP, EM, TS are loaded (R590). -/
def execLmsw (o : Rm) (s : State) : Host.Outcome State Fault Refusal :=
  runInstr false (thenNext do
    requireCpl0
    let v ← o.place16.read
    let cr0 ← look (·.cr.cr0)
    putCr0 (mergeBits 0xE v cr0 ||| (v &&& 1))) s

/-- SMSW (R591). -/
def execSmsw (d : Rm) (s : State) : Host.Outcome State Fault Refusal :=
  runInstr false (thenNext do
    let cr0 ← look (·.cr.cr0)
    d.place16.write (truncW .w cr0)) s

/-- CLTS (R592). -/
def execClts (s : State) : Host.Outcome State Fault Refusal :=
  runInstr false (thenNext do
    requireCpl0
    let cr0 ← look (·.cr.cr0)
    putCr0 (putBit cr0 3 false)) s

/-! MOV to and from special registers (R600 to R602): the six status flags are undefined. -/

/-- MOV r32,CRn (R600). -/
def execMovFromCr (r : Gpr) (c : Creg) (s : State) : Host.Outcome State Fault Refusal :=
  runInstr false (thenNext do
    requireCpl0
    let v ← look fun t => t.cr.get c
    putReg r v
    putFlags .undefined) s

/-- A write to a control register (R600): PG without PE is #GP(0); CR3 empties the TLB. -/
def putCreg (c : Creg) (v : Word) : M Unit :=
  match c with
  | .cr0 => do
    require (!(bit v 31 && !bit v 0)) 13 (some 0)
    putCr0 v
  | .cr2 => upd fun s => { s with cr := { s.cr with cr2 := v } }
  | .cr3 => do
    upd fun s => { s with cr := { s.cr with cr3 := v } }
    flushTlb

/-- MOV CRn,r32 (R600). -/
def execMovToCr (c : Creg) (r : Gpr) (s : State) : Host.Outcome State Fault Refusal :=
  runInstr false (thenNext do
    requireCpl0
    let v ← getReg r
    putCreg c v
    putFlags .undefined) s

/-- The general-detect fault: an in-circuit emulator uses the debug registers (R784, D73). DR6 has BD, and Bn of the
breakpoints that the instruction matched (R780). -/
def requireDebugFree : M Unit := do
  if ← look (·.iceActive) then do
    upd fun s => { s with dr := { s.dr with dr6 := putBit s.dr.dr6 13 true ||| s.traps.hits.setWidth 32 } }
    raise 1 none
  else pure ()

/-- MOV r32,DRn (R601). -/
def execMovFromDr (r : Gpr) (d : Dreg) (s : State) : Host.Outcome State Fault Refusal :=
  runInstr false (thenNext do
    requireCpl0
    requireDebugFree
    let v ← look fun t => t.dr.get d
    putReg r v
    putFlags .undefined) s

/-- MOV DRn,r32 (R601). -/
def execMovToDr (d : Dreg) (r : Gpr) (s : State) : Host.Outcome State Fault Refusal :=
  runInstr false (thenNext do
    requireCpl0
    requireDebugFree
    let v ← getReg r
    upd fun s => { s with dr := s.dr.set d v }
    putFlags .undefined) s

/-- MOV r32,TRn (R602). -/
def execMovFromTr (r : Gpr) (t : Treg) (s : State) : Host.Outcome State Fault Refusal :=
  runInstr false (thenNext do
    requireCpl0
    let v ← look fun u => u.tregs.get t
    putReg r v
    putFlags .undefined) s

/-! TLB testing (R855). Fields of TR6 and TR7: R53, R54. -/

/-- A bit pair of TR6 as a TLB write stores it: (0,0) and (1,1) leave the bit undefined. -/
def pairBit (v : Word) (i : Nat) (free : Bool) : Bool :=
  if bit v i == bit v (i - 1) then free else bit v i

/-- A bit pair of TR6 against a bit of an entry, in a lookup: (0,0) misses all, (1,1) matches all. -/
def pairMatch (v : Word) (i : Nat) (b : Bool) : Bool := if b then bit v i else bit v (i - 1)

/-- The entry a TLB write stores; `free` gives the undefined bits. -/
def testEntry (tr6 tr7 free : Word) : TlbEntry :=
  { valid := bit tr6 11, page := tr6.extractLsb' 12 20,
    dirty := pairBit tr6 10 (bit free 10), user := pairBit tr6 8 (bit free 8), writable := pairBit tr6 6 (bit free 6),
    frame := tr7.extractLsb' 12 20, written := true }

/-- Two entries have one tag. -/
def TlbEntry.sameTag (e f : TlbEntry) : Bool :=
  e.valid == f.valid && e.page == f.page && e.dirty == f.dirty && e.user == f.user && e.writable == f.writable

/-- A valid entry at another place than `i` has the tag. -/
def tagElsewhere (n : TlbEntry) (i : Nat) : Nat → List TlbEntry → Bool
  | _, [] => false
  | k, e :: rest => (k != i && e.valid && e.sameTag n) || tagElsewhere n i (k + 1) rest

/-- The TLB write: a duplicate tag has no defined result (I25). -/
def tlbTestWrite (tr6 : Word) : M Unit := do
  let free ← drawWord
  let s ← look id
  let block : BitVec 2 := if bit s.tregs.tr7 4 then s.tregs.tr7.extractLsb' 2 2 else Config.tlbVictim s.draws
  let n := testEntry tr6 s.tregs.tr7 free
  let i := tlbIndex block n.page
  if n.valid && tagElsewhere n i 0 s.tlb then stop (.refusal .tlbTest)
  else upd fun s => { s with tlb := tlbPut s.tlb i n }

/-- The entries a lookup matches, with their places. -/
def tlbMatches (tr6 : Word) : Nat → List TlbEntry → List (Nat × TlbEntry)
  | _, [] => []
  | k, e :: rest =>
    let more := tlbMatches tr6 (k + 1) rest
    if e.page == tr6.extractLsb' 12 20 && e.valid == bit tr6 11 && pairMatch tr6 10 e.dirty
        && pairMatch tr6 8 e.user && pairMatch tr6 6 e.writable
    then (k, e) :: more else more

/-- A pair of TR6 set from a bit of an entry. -/
def setPair (v : Word) (i : Nat) (b : Bool) : Word := putBit (putBit v i b) (i - 1) (!b)

/-- TR6 and TR7 after a hit. -/
def lookupHit (t : Tregs) (k : Nat) (e : TlbEntry) : Tregs :=
  { tr6 := setPair (setPair (setPair (putBit t.tr6 11 e.valid) 10 e.dirty) 8 e.user) 6 e.writable
    tr7 := mergeBits 0xFFFFF01C (e.frame ++ BitVec.ofNat 12 (16 + 4 * (k / 8))) t.tr7 }

/-- TR6 and TR7 after a miss: PL is 0, the other fields of TR7 have no value. -/
def lookupMiss (t : Tregs) (free : Word) : Tregs :=
  { t with tr7 := putBit (mergeBits 0xFFFFF00C free t.tr7) 4 false }

/-- TR6 and TR7 after a lookup that is unpredictable: V clear while a tag is uninitialized, or several matches. -/
def lookupOpen (t : Tregs) (free6 free7 : Word) : Tregs :=
  { tr6 := mergeBits 0x00000FE0 free6 t.tr6, tr7 := mergeBits 0xFFFFF01C free7 t.tr7 }

/-- An unpredictable lookup: the fields it sets have any value. -/
def lookupAny : M Unit := do
  let free6 ← drawWord
  let free7 ← drawWord
  upd fun s => { s with tregs := lookupOpen s.tregs free6 free7 }

/-- The TLB lookup; what several matches give is not defined (I25, log 21). -/
def tlbTestLookup (tr6 : Word) : M Unit := do
  let s ← look id
  if !bit tr6 11 && s.tlb.any (fun e => !e.written) then lookupAny
  else
    match tlbMatches tr6 0 s.tlb with
    | [] => do
      let free ← drawWord
      upd fun s => { s with tregs := lookupMiss s.tregs free }
    | [(k, e)] => upd fun s => { s with tregs := lookupHit s.tregs k e }
    | _ :: _ :: _ => lookupAny

/-- A write to a test register: TR6 performs its command (R602, R855). -/
def putTreg (t : Treg) (v : Word) : M Unit :=
  match t with
  | .tr7 => upd fun s => { s with tregs := { s.tregs with tr7 := v } }
  | .tr6 => do
    upd fun s => { s with tregs := { s.tregs with tr6 := v } }
    if bit v 0 then tlbTestLookup v else tlbTestWrite v

/-- MOV TRn,r32 (R602). -/
def execMovToTr (t : Treg) (r : Gpr) (s : State) : Host.Outcome State Fault Refusal :=
  runInstr false (thenNext do
    requireCpl0
    let v ← getReg r
    putTreg t v
    putFlags .undefined) s

/-! Pointer validation (R610 to R628). -/

/-- `Lookup(sel)` (R610). -/
def lookupDesc (sel : Half) : M (Option Desc) :=
  if selNull sel then pure none else fetchDesc sel

/-- `PrivOK(d, sel)` (R610). -/
def Desc.visible (d : Desc) (cpl : BitVec 2) (sel : Half) : Bool :=
  arConforming d.ar || (cpl ≤ d.dpl && selRpl sel ≤ d.dpl)

/-- A type LAR accepts (R620). -/
def Desc.larType (d : Desc) : Bool :=
  d.dt || !(d.type == 0 || d.type == 8 || d.type == 10 || d.type == 13)

/-- A type LSL accepts (R622). -/
def Desc.lslType (d : Desc) : Bool :=
  d.dt || d.type == 1 || d.type == 2 || d.type == 3 || d.type == 9 || d.type == 11

/-- The descriptor a selector names, if it is visible and of an accepted type. -/
def visibleDesc (accepts : Desc → Bool) (sel : Half) : M (Option Desc) := do
  let cpl ← look (·.cpl)
  match ← lookupDesc sel with
  | none => return none
  | some d => return if accepts d && d.visible cpl sel then some d else none

/-- The rights LAR answers: in 32 bits, bits 19:16 have no value (R620, I17). -/
def rightsOf (z : Sz) (d : Desc) : M Word := do
  match z with
  | .s16 => return d.hi &&& 0xFF00
  | .s32 => do
    let free ← drawWord
    return (d.hi &&& 0x00F0FF00) ||| (free &&& 0x000F0000)

/-- LAR (R620). -/
def execLar (z : Sz) (r : Gpr) (o : Rm) (s : State) : Host.Outcome State Fault Refusal :=
  runInstr false (thenNext do
    requireProtected
    let sel := lowHalf (← (o.place z).read)
    match ← visibleDesc Desc.larType sel with
    | none => putFlag 6 false
    | some d => do
      let v ← rightsOf z d
      putRegZ z r v
      putFlag 6 true) s

/-- LSL: the limit in bytes (R622). -/
def execLsl (z : Sz) (r : Gpr) (o : Rm) (s : State) : Host.Outcome State Fault Refusal :=
  runInstr false (thenNext do
    requireProtected
    let sel := lowHalf (← (o.place z).read)
    match ← visibleDesc Desc.lslType sel with
    | none => putFlag 6 false
    | some d => do
      putRegZ z r d.limit
      putFlag 6 true) s

/-- ZF tells whether the selector names a descriptor that passes the test (R624, R625). -/
def verify (test : Desc → BitVec 2 → Half → Bool) (o : Rm) : M Unit := do
  requireProtected
  let sel := lowHalf (← o.place16.read)
  let cpl ← look (·.cpl)
  match ← lookupDesc sel with
  | none => putFlag 6 false
  | some d => putFlag 6 (test d cpl sel)

/-- VERR (R624). -/
def execVerr (o : Rm) (s : State) : Host.Outcome State Fault Refusal :=
  runInstr false (thenNext (verify (fun d cpl sel => arReadable d.ar && d.visible cpl sel) o)) s

/-- VERW (R625). -/
def execVerw (o : Rm) (s : State) : Host.Outcome State Fault Refusal :=
  runInstr false (thenNext (verify (fun d cpl sel => arWritable d.ar && d.visible cpl sel) o)) s

/-- ARPL: write access is checked first (R628, D56). A word in memory that needs no change is accessed for writing all the
same (Dirty bit, data breakpoint): log 39. -/
def execArpl (d : Rm) (r : Gpr) (s : State) : Host.Outcome State Fault Refusal :=
  runInstr false (thenNext do
    requireProtected
    let src ← getRegZ .s16 r
    let l ← d.place16.loc .rmw
    let v ← l.get
    if v &&& 3 < src &&& 3 then do
      l.put ((v &&& 0xFFFC) ||| (src &&& 3))
      putFlag 6 true
    else putFlag 6 false) s

/-! HLT (R632). -/

/-- HLT. -/
def execHlt (s : State) : Host.Outcome State Fault Refusal :=
  runInstr false (thenNext do
    requireCpl0
    upd fun s => { s with activity := .halted, events := Event.halted :: s.events }) s

end Sys2Proof.Machine
end

