-- ==== Sys2Proof/Machine/Dispatch.lean ====
section
/-! DEFINITION. Sys2Proof/Machine/Dispatch.lean: one instruction, one meaning. -/
namespace Sys2Proof.Machine

def exec (i : Instr) (s : State) : Host.Outcome State Fault Refusal :=
  match i with
  | .segEs => Sys2Proof.Machine.execSegEs s
  | .segCs => Sys2Proof.Machine.execSegCs s
  | .segSs => Sys2Proof.Machine.execSegSs s
  | .segDs => Sys2Proof.Machine.execSegDs s
  | .segFs => Sys2Proof.Machine.execSegFs s
  | .segGs => Sys2Proof.Machine.execSegGs s
  | .opsize => Sys2Proof.Machine.execOpsize s
  | .adrsize => Sys2Proof.Machine.execAdrsize s
  | .lock => Sys2Proof.Machine.execLock s
  | .repne => Sys2Proof.Machine.execRepne s
  | .rep => Sys2Proof.Machine.execRep s
  | .mov f => Sys2Proof.Machine.execMov f s
  | .movFromSreg z d r => Sys2Proof.Machine.execMovFromSreg z d r s
  | .movToSreg r o => Sys2Proof.Machine.execMovToSreg r o s
  | .push f => Sys2Proof.Machine.execPush f s
  | .pushSreg z r => Sys2Proof.Machine.execPushSreg z r s
  | .pop f => Sys2Proof.Machine.execPop f s
  | .popSreg z r => Sys2Proof.Machine.execPopSreg z r s
  | .pusha z => Sys2Proof.Machine.execPusha z s
  | .popa z => Sys2Proof.Machine.execPopa z s
  | .xchg f => Sys2Proof.Machine.execXchg f s
  | .movsx f => Sys2Proof.Machine.execMovsx f s
  | .movzx f => Sys2Proof.Machine.execMovzx f s
  | .cbw z => Sys2Proof.Machine.execCbw z s
  | .cwd z => Sys2Proof.Machine.execCwd z s
  | .add f => Sys2Proof.Machine.execAdd f s
  | .adc f => Sys2Proof.Machine.execAdc f s
  | .sub f => Sys2Proof.Machine.execSub f s
  | .sbb f => Sys2Proof.Machine.execSbb f s
  | .cmp f => Sys2Proof.Machine.execCmp f s
  | .inc f => Sys2Proof.Machine.execInc f s
  | .dec f => Sys2Proof.Machine.execDec f s
  | .neg f => Sys2Proof.Machine.execNeg f s
  | .mul f => Sys2Proof.Machine.execMul f s
  | .div f => Sys2Proof.Machine.execDiv f s
  | .idiv f => Sys2Proof.Machine.execIdiv f s
  | .imul1 f => Sys2Proof.Machine.execImul1 f s
  | .imul2 z r o => Sys2Proof.Machine.execImul2 z r o s
  | .imul3 f => Sys2Proof.Machine.execImul3 f s
  | .daa => Sys2Proof.Machine.execDaa s
  | .das => Sys2Proof.Machine.execDas s
  | .aaa => Sys2Proof.Machine.execAaa s
  | .aas => Sys2Proof.Machine.execAas s
  | .aam imm => Sys2Proof.Machine.execAam imm s
  | .aad imm => Sys2Proof.Machine.execAad imm s
  | .and f => Sys2Proof.Machine.execAnd f s
  | .or f => Sys2Proof.Machine.execOr f s
  | .xor f => Sys2Proof.Machine.execXor f s
  | .not f => Sys2Proof.Machine.execNot f s
  | .test f => Sys2Proof.Machine.execTest f s
  | .bt f => Sys2Proof.Machine.execBt f s
  | .bts f => Sys2Proof.Machine.execBts f s
  | .btr f => Sys2Proof.Machine.execBtr f s
  | .btc f => Sys2Proof.Machine.execBtc f s
  | .bsf z r o => Sys2Proof.Machine.execBsf z r o s
  | .bsr z r o => Sys2Proof.Machine.execBsr z r o s
  | .rol f => Sys2Proof.Machine.execRol f s
  | .ror f => Sys2Proof.Machine.execRor f s
  | .rcl f => Sys2Proof.Machine.execRcl f s
  | .rcr f => Sys2Proof.Machine.execRcr f s
  | .shl f => Sys2Proof.Machine.execShl f s
  | .shr f => Sys2Proof.Machine.execShr f s
  | .sar f => Sys2Proof.Machine.execSar f s
  | .shld z o r c => Sys2Proof.Machine.execShld z o r c s
  | .shrd z o r c => Sys2Proof.Machine.execShrd z o r c s
  | .setcc c d => Sys2Proof.Machine.execSetcc c d s
  | .jcc z c r => Sys2Proof.Machine.execJcc z c r s
  | .jmpNear f => Sys2Proof.Machine.execJmpNear f s
  | .jmpFar f => Sys2Proof.Machine.execJmpFar f s
  | .callNear f => Sys2Proof.Machine.execCallNear f s
  | .callFar f => Sys2Proof.Machine.execCallFar f s
  | .retNear z n => Sys2Proof.Machine.execRetNear z n s
  | .retFar z n => Sys2Proof.Machine.execRetFar z n s
  | .loop z a v => Sys2Proof.Machine.execLoop z a v s
  | .loope z a v => Sys2Proof.Machine.execLoope z a v s
  | .loopne z a v => Sys2Proof.Machine.execLoopne z a v s
  | .jcxz z a v => Sys2Proof.Machine.execJcxz z a v s
  | .int3 => Sys2Proof.Machine.execInt3 s
  | .int v => Sys2Proof.Machine.execInt v s
  | .into => Sys2Proof.Machine.execInto s
  | .iret z => Sys2Proof.Machine.execIret z s
  | .bound z r m => Sys2Proof.Machine.execBound z r m s
  | .movsb a => Sys2Proof.Machine.execMovsb a s
  | .movsv z a => Sys2Proof.Machine.execMovsv z a s
  | .cmpsb a => Sys2Proof.Machine.execCmpsb a s
  | .cmpsv z a => Sys2Proof.Machine.execCmpsv z a s
  | .scasb a => Sys2Proof.Machine.execScasb a s
  | .scasv z a => Sys2Proof.Machine.execScasv z a s
  | .lodsb a => Sys2Proof.Machine.execLodsb a s
  | .lodsv z a => Sys2Proof.Machine.execLodsv z a s
  | .stosb a => Sys2Proof.Machine.execStosb a s
  | .stosv z a => Sys2Proof.Machine.execStosv z a s
  | .insb a => Sys2Proof.Machine.execInsb a s
  | .insv z a => Sys2Proof.Machine.execInsv z a s
  | .outsb a => Sys2Proof.Machine.execOutsb a s
  | .outsv z a => Sys2Proof.Machine.execOutsv z a s
  | .enter z size level => Sys2Proof.Machine.execEnter z size level s
  | .leave z => Sys2Proof.Machine.execLeave z s
  | .clc => Sys2Proof.Machine.execClc s
  | .stc => Sys2Proof.Machine.execStc s
  | .cmc => Sys2Proof.Machine.execCmc s
  | .cld => Sys2Proof.Machine.execCld s
  | .std => Sys2Proof.Machine.execStd s
  | .cli => Sys2Proof.Machine.execCli s
  | .sti => Sys2Proof.Machine.execSti s
  | .lahf => Sys2Proof.Machine.execLahf s
  | .sahf => Sys2Proof.Machine.execSahf s
  | .pushf z => Sys2Proof.Machine.execPushf z s
  | .popf z => Sys2Proof.Machine.execPopf z s
  | .lea z r m => Sys2Proof.Machine.execLea z r m s
  | .nop => Sys2Proof.Machine.execNop s
  | .xlat a => Sys2Proof.Machine.execXlat a s
  | .esc opc ext o => Sys2Proof.Machine.execEsc opc ext o s
  | .wait => Sys2Proof.Machine.execWait s
  | .lds z r m => Sys2Proof.Machine.execLds z r m s
  | .les z r m => Sys2Proof.Machine.execLes z r m s
  | .lfs z r m => Sys2Proof.Machine.execLfs z r m s
  | .lgs z r m => Sys2Proof.Machine.execLgs z r m s
  | .lss z r m => Sys2Proof.Machine.execLss z r m s
  | .inp n p => Sys2Proof.Machine.execInp n p s
  | .outp n p => Sys2Proof.Machine.execOutp n p s
  | .lgdt z m => Sys2Proof.Machine.execLgdt z m s
  | .lidt z m => Sys2Proof.Machine.execLidt z m s
  | .sgdt z m => Sys2Proof.Machine.execSgdt z m s
  | .sidt z m => Sys2Proof.Machine.execSidt z m s
  | .lldt o => Sys2Proof.Machine.execLldt o s
  | .sldt d => Sys2Proof.Machine.execSldt d s
  | .ltr o => Sys2Proof.Machine.execLtr o s
  | .str d => Sys2Proof.Machine.execStr d s
  | .lmsw o => Sys2Proof.Machine.execLmsw o s
  | .smsw d => Sys2Proof.Machine.execSmsw d s
  | .clts => Sys2Proof.Machine.execClts s
  | .hlt => Sys2Proof.Machine.execHlt s
  | .movFromCr r c => Sys2Proof.Machine.execMovFromCr r c s
  | .movToCr c r => Sys2Proof.Machine.execMovToCr c r s
  | .movFromDr r d => Sys2Proof.Machine.execMovFromDr r d s
  | .movToDr d r => Sys2Proof.Machine.execMovToDr d r s
  | .movFromTr r t => Sys2Proof.Machine.execMovFromTr r t s
  | .movToTr t r => Sys2Proof.Machine.execMovToTr t r s
  | .lar z r o => Sys2Proof.Machine.execLar z r o s
  | .lsl z r o => Sys2Proof.Machine.execLsl z r o s
  | .verr o => Sys2Proof.Machine.execVerr o s
  | .verw o => Sys2Proof.Machine.execVerw o s
  | .arpl d r => Sys2Proof.Machine.execArpl d r s
  | .intelReserved k => Sys2Proof.Machine.execIntelReserved k s

end Sys2Proof.Machine
end

