-- ==== Sys2Proof/Machine/Cycle.lean ====
section
/-! DEFINITION. Sys2Proof/Machine/Cycle.lean: the boundary and the instruction that follows it (R716). -/
namespace Sys2Proof.Machine

/-- Fetches and executes one unit at CS:EIP (R716 c): a prefix byte, or the instruction. A fault of the fetch is a fault
of the instruction (R270). -/
def runUnit (s : State) : Host.Outcome State Fault Refusal :=
  match fetch s with
  | .ok (i, len) t => exec i (t.fetched len)
  | .error (.exc e) t => takeEvent e s.eip (rollback s t)
  | .error (.fault x) _ => .fault x
  | .error (.refusal x) _ => .refused x

/-- The boundary while running: instruction breakpoint, interrupts, the instruction (R716 a to c). -/
def runBoundary (s : State) : Host.Outcome State Fault Refusal :=
  if breaksHere s then reportBreak s
  else if nmiTaken s then takeNmi s
  else
    match intrTaken s with
    | some v => takeIntr v s
    | none => runUnit (afterMatch s)

/-- Halted: an enabled interrupt ends it (R632, R710). -/
def haltedBoundary (s : State) : Host.Outcome State Fault Refusal :=
  if nmiTaken s then takeNmi s
  else
    match intrTaken s with
    | some v => takeIntr v s
    | none => .next s

/-- Shutdown: only NMI ends it, and reset (R760). -/
def shutdownBoundary (s : State) : Host.Outcome State Fault Refusal :=
  if nmiTaken s then takeNmi s else .next s

/-- The boundary, after what the last instruction left to report. -/
def activeBoundary (s : State) : Host.Outcome State Fault Refusal :=
  match s.activity with
  | .running => runBoundary s
  | .halted => haltedBoundary s
  | .shutdown => shutdownBoundary s

/-- An instruction boundary: reset (R830), a fault of the task entered (R774), debug traps (R716 d), the rest. -/
def boundary (s : State) : Host.Outcome State Fault Refusal :=
  match s.pinReset with
  | some selftest => .next (s.resetEvent selftest)
  | none =>
    match s.pendingExc with
    | some e => takeEvent e s.eip { s with pendingExc := none }
    | none => if s.traps.due then reportTraps s else activeBoundary s

/-- A boundary and what follows it, or, after a prefix, the rest of the instruction (log 6). -/
def cycle (s : State) : Host.Outcome State Fault Refusal :=
  if s.pfx.count = 0 then boundary s else runUnit s

end Sys2Proof.Machine
end

