-- ==== Sys2Proof/Machine/Step.lean ====
section
/-! DEFINITION. Sys2Proof/Machine/Step.lean: one step of the processor, and an instruction placed where it fetches. -/
namespace Sys2Proof.Machine

/-- One step (R716): an instruction boundary and the unit that follows it (log 6). -/
def step (s : State) : Host.Outcome State Fault Refusal := cycle s

/-- The state with an instruction stored where it is fetched: its bytes from the lowest on, zeros above `nbits`. -/
def State.withFetchWord (s : State) (nbits w : Nat) : State :=
  s.putFetchBytes 0 (bytesOfNat 16 (w % 2 ^ nbits))

end Sys2Proof.Machine
end

