-- ==== Sys2Proof/Safety.lean ====
section
/-!
DEFINITION. Sys2Proof/Safety.lean: the terms the statements are written in. When an instruction may be claimed to
complete: its operands are where they can be accessed (`ok`), with paging off. What it leaves: `Like`, `Done`. The
values and places here are plain functions of a state, written beside the machine's own operations, not with them.
-/
namespace Sys2Proof.Machine

/-! Memory as values. -/

/-- The little-endian value of `n` bytes from a physical address on (R101). -/
def readLE (m : List Host.Cell) : Nat → Nat → Word
  | _, 0 => 0
  | a, n + 1 => zext8 (memGet m a) ||| (readLE m (a + 1) n <<< 8)

/-- `n` bytes from a physical address on replaced by those of a value, the low byte first. -/
def writeLE : List Host.Cell → Nat → Nat → Word → List Host.Cell
  | m, _, 0, _ => m
  | m, a, n + 1, v => writeLE (memSet m a (v.setWidth 8)) (a + 1) n (v >>> 8)

/-- `n` bytes from a physical address on are RAM. -/
def State.isRam (s : State) (a n : Nat) : Bool := (List.range n).all fun k => kindAt s.memMap (a + k) == .ram

/-- `n` bytes from a linear address on are RAM at the same physical addresses: paging is off, and they do not pass 2^32. -/
def State.flat (s : State) (lin : Word) (n : Nat) : Bool :=
  !s.pg && decide (lin.toNat + n ≤ 2 ^ 32) && s.isRam lin.toNat n

/-! Spots: where an operand is, in a state. -/

/-- A register, or a width, an address size, a segment and an offset. -/
inductive Spot where
  | reg8 (r : Gpr8)
  | reg (z : Sz) (r : Gpr)
  | mem (n : Width) (a : Sz) (r : Sreg) (off : Word)
deriving DecidableEq, Repr

/-- The physical address of a segment's offset, with paging off (R110). -/
def State.physAt (s : State) (r : Sreg) (off : Word) : Nat := ((s.sreg r).base + off).toNat

/-- The access passes the checks of its segment (R140 to R144) and reaches RAM. -/
def Spot.ok (k : Spot) (s : State) (acc : Acc) : Bool :=
  match k with
  | .reg8 _ => true
  | .reg _ _ => true
  | .mem n a r off => (s.sreg r).allows s.mode a off n.bytes acc && s.flat ((s.sreg r).base + off) n.bytes

/-- The value there, zero-extended. -/
def Spot.value (k : Spot) (s : State) : Word :=
  match k with
  | .reg8 r => zext8 (s.reg8 r)
  | .reg z r => s.regZ z r
  | .mem n _ r off => readLE s.mem (s.physAt r off) n.bytes

/-- The state with a value put there. -/
def Spot.store (k : Spot) (s : State) (v : Word) : State :=
  match k with
  | .reg8 r => s.setReg8 r (v.setWidth 8)
  | .reg z r => s.setRegZ z r v
  | .mem n _ r off => { s with mem := writeLE s.mem (s.physAt r off) n.bytes v }

/-- The physical addresses of its bytes. -/
def Spot.covers (k : Spot) (s : State) (a : Nat) : Bool :=
  match k with
  | .reg8 _ => false
  | .reg _ _ => false
  | .mem n _ r off => s.physAt r off ≤ a && a < s.physAt r off + n.bytes

/-- The general register it is in or part of. -/
def Spot.regs (k : Spot) : List Gpr :=
  match k with
  | .reg8 r => [Gpr8.home r]
  | .reg _ r => [r]
  | .mem _ _ _ _ => []

/-- The place of an operand; its effective address is the one the meanings use. -/
def Place.spot (p : Place) (s : State) : Spot :=
  match p with
  | .reg8 r => .reg8 r
  | .reg z r => .reg z r
  | .mem n m => .mem n m.size (s.segOf m) (s.offsetOf m)

/-- The operand's address is defined (R226), and it can be accessed. -/
def Place.ok (p : Place) (s : State) (acc : Acc) : Bool :=
  match p with
  | .reg8 _ => true
  | .reg _ _ => true
  | .mem n m => !m.isOpen && (Spot.mem n m.size (s.segOf m) (s.offsetOf m)).ok s acc

def Operand.ok (o : Operand) (s : State) : Bool :=
  match o with
  | .at_ p => p.ok s .read
  | .imm _ => true

def Operand.value (o : Operand) (s : State) : Word :=
  match o with
  | .at_ p => (p.spot s).value s
  | .imm v => v

/-- Some byte of an access with address size `a` is outside the limit of its segment, or past the greatest offset of the
address size (R142, R143, D7). Real-address and V86 mode know no expand-down segment. -/
def State.outside (s : State) (a : Sz) (r : Sreg) (off : Word) (n : Nat) : Prop :=
  let g := s.sreg r
  ∃ k, k < n ∧ (a.top < off.toNat + k ∨
    if s.mode = .prot ∧ arExpandDown g.ar = true
    then off.toNat + k ≤ g.limit.toNat ∨ (if g.db then 0xFFFFFFFF else 0xFFFF) < off.toNat + k
    else g.limit.toNat < off.toNat + k)

/-- In protected mode a segment register that is null, or whose rights do not have what the access needs, refuses it (R22,
R140). -/
def State.forbids (s : State) (r : Sreg) (need : Byte → Bool) : Prop :=
  s.mode = .prot ∧ ((s.sreg r).valid = false ∨ need (s.sreg r).ar = false)

/-! The stack. -/

/-- The item whose lowest byte is `d` bytes below the stack pointer. -/
def State.below (s : State) (n : Width) (d : Nat) : Spot := .mem n s.stack.size .ss (s.stack.below d)

/-- The item `d` bytes above the stack pointer. -/
def State.above (s : State) (n : Width) (d : Nat) : Spot := .mem n s.stack.size .ss (s.stack.above d)

/-- `count` items can be pushed. -/
def State.canPush (s : State) (n : Width) (count : Nat) : Bool :=
  (List.range count).all fun j => (s.below n ((j + 1) * n.bytes)).ok s .write

/-- The memory with items stored below the stack pointer, in push order, from `d` bytes below it on. -/
def State.stacked (s : State) (n : Width) : Nat → List Word → List Host.Cell → List Host.Cell
  | _, [], m => m
  | d, v :: rest, m =>
    s.stacked n (d + n.bytes) rest (writeLE m (s.physAt .ss (s.stack.below (d + n.bytes))) n.bytes v)

/-- The state with items pushed (R300). -/
def State.pushed (s : State) (n : Width) (vs : List Word) : State :=
  { s with mem := s.stacked n 0 vs s.mem }.setReg .sp (s.stack.pointer (s.stack.below (n.bytes * vs.length)))

/-- The state with the stack pointer `d` bytes higher (R301). -/
def State.popped (s : State) (d : Nat) : State := s.setReg .sp (s.stack.pointer (s.stack.above d))

/-- A byte that pushing `count` items writes. -/
def State.pushCovers (s : State) (n : Width) (count : Nat) (a : Nat) : Bool :=
  (List.range count).any fun j => (s.below n ((j + 1) * n.bytes)).covers s a

/-! What an instruction leaves. -/

/-- `t` is `u` in every register but EIP and EFLAGS, in memory, and in what the host sees. Left aside are the notes
the model keeps for the next boundary and its counters (logs 6, 11, 23). -/
structure Like (t u : State) : Prop where
  regs : ∀ r, t.reg r = u.reg r
  mem : ∀ a, memGet t.mem a = memGet u.mem a
  seg : t.seg = u.seg
  cpl : t.cpl = u.cpl
  gdtr : t.gdtr = u.gdtr
  idtr : t.idtr = u.idtr
  ldtr : t.ldtr = u.ldtr
  tr : t.tr = u.tr
  cr : t.cr = u.cr
  dr : t.dr = u.dr
  tregs : t.tregs = u.tregs
  tlb : t.tlb = u.tlb
  activity : t.activity = u.activity
  nmi : t.nmiInService = u.nmiInService ∧ t.nmiPending = u.nmiPending
  pins : t.intr = u.intr ∧ t.pinReset = u.pinReset ∧ t.busy = u.busy ∧ t.error = u.error ∧ t.iceActive = u.iceActive
  memMap : t.memMap = u.memMap
  pendingExc : t.pendingExc = u.pendingExc
  events : t.events = u.events

/-- What an instruction may leave in a flag. -/
def FlagVal.allows (f : FlagVal) (old new : Bool) : Prop :=
  match f with
  | .keep => new = old
  | .put b => new = b
  | .free => True

/-- What an instruction may leave in EFLAGS: the six status flags as said, RF clear (R786), every other bit as before. -/
structure FlagsOut.Allows (f : FlagsOut) (old new : Word) : Prop where
  cf : f.cf.allows (bit old 0) (bit new 0)
  pf : f.pf.allows (bit old 2) (bit new 2)
  af : f.af.allows (bit old 4) (bit new 4)
  zf : f.zf.allows (bit old 6) (bit new 6)
  sf : f.sf.allows (bit old 7) (bit new 7)
  ofl : f.ofl.allows (bit old 11) (bit new 11)
  rf : bit new 16 = false
  rest : new &&& 0xFFFEF72A = old &&& 0xFFFEF72A

/-- Nothing else changed: general registers outside `regs`, bytes of memory outside `stored`. -/
structure Frame (s t : State) (regs : List Gpr) (stored : Nat → Bool) : Prop where
  regs : ∀ r, r ∉ regs → t.reg r = s.reg r
  mem : ∀ a, stored a = false → memGet t.mem a = memGet s.mem a

/-- No byte of memory. -/
def noByte (_ : Nat) : Bool := false

/-- The instruction completes in a state like `u`, at `EIP_next`, with these flags; the frame says what else it keeps. -/
def Done (i : Instr) (s u : State) (f : FlagsOut) (regs : List Gpr) (stored : Nat → Bool) : Prop :=
  ∃ t, exec i s = .next t ∧ Like t u ∧ t.eip = s.eipNext ∧ f.Allows s.eflags t.eflags ∧ Frame s t regs stored

/-- The same for a transfer to `eip`. -/
def Goes (i : Instr) (s u : State) (eip : Word) (regs : List Gpr) (stored : Nat → Bool) : Prop :=
  ∃ t, exec i s = .next t ∧ Like t u ∧ t.eip = eip ∧ FlagsOut.same.Allows s.eflags t.eflags ∧ Frame s t regs stored

/-- The same where EFLAGS becomes a value. -/
def DoneFlags (i : Instr) (s u : State) (eip eflags : Word) (regs : List Gpr) (stored : Nat → Bool) : Prop :=
  ∃ t, exec i s = .next t ∧ Like t u ∧ t.eip = eip ∧ t.eflags = eflags ∧ Frame s t regs stored

/-- No LOCK prefix, and `EIP_next` has a value (N20). -/
def State.plain (s : State) : Bool := !s.pfx.lock && !s.eipOpen

/-- LOCK only where it may stand (R258). -/
def State.lockOk (s : State) (mem : Bool) : Bool := (!s.pfx.lock || mem) && !s.eipOpen

/-! Two operands. -/

/-- Source and destination can be accessed. -/
def Pair.ok (p : Pair) (s : State) (acc : Acc) : Bool := p.src.ok s && p.dst.ok s acc

/-- The operands of the forms of MOV: destination and source (R303 to R306). -/
def movSpots (f : MovForm) (s : State) : Spot × Word :=
  match f with
  | .mr8 d r => (d.place.spot s, zext8 (s.reg8 r))
  | .mr z d r => ((d.place z).spot s, s.regZ z r)
  | .rm8 r o => (.reg8 r, (o.place.spot s).value s)
  | .rm z r o => (.reg z r, ((o.place z).spot s).value s)
  | .loadA8 a off => (.reg8 .al, (Spot.mem .b a (s.segOr .ds) (truncZ a off)).value s)
  | .loadA z a off => (.reg z .ax, (Spot.mem z.width a (s.segOr .ds) (truncZ a off)).value s)
  | .storeA8 a off => (.mem .b a (s.segOr .ds) (truncZ a off), zext8 (s.reg8 .al))
  | .storeA z a off => (.mem z.width a (s.segOr .ds) (truncZ a off), s.regZ z .ax)
  | .ri8 r imm => (.reg8 r, zext8 imm)
  | .ri z r imm => (.reg z r, truncZ z imm)
  | .mi8 d imm => (d.place.spot s, zext8 imm)
  | .mi z d imm => ((d.place z).spot s, truncZ z imm)

def movOk (f : MovForm) (s : State) : Bool :=
  match f with
  | .mr8 d _ => d.place.ok s .write
  | .mr z d _ => (d.place z).ok s .write
  | .rm8 _ o => o.place.ok s .read
  | .rm z _ o => (o.place z).ok s .read
  | .loadA8 a off => (Spot.mem .b a (s.segOr .ds) (truncZ a off)).ok s .read
  | .loadA z a off => (Spot.mem z.width a (s.segOr .ds) (truncZ a off)).ok s .read
  | .storeA8 a off => (Spot.mem .b a (s.segOr .ds) (truncZ a off)).ok s .write
  | .storeA z a off => (Spot.mem z.width a (s.segOr .ds) (truncZ a off)).ok s .write
  | .ri8 _ _ => true
  | .ri _ _ _ => true
  | .mi8 d _ => d.place.ok s .write
  | .mi z d _ => (d.place z).ok s .write

/-- A destination combined with a source: what the instructions of this shape leave. -/
def Combines (ins : AluForm → Instr) (op : Width → Word → Word → Bool → Res) : Prop :=
  ∀ (f : AluForm) (s : State), s.lockOk f.operands.dst.isMem = true → f.operands.ok s .rmw = true →
    let p := f.operands
    let d := p.dst.spot s
    let x := op p.width (d.value s) (p.src.value s) s.cf
    Done (ins f) s (d.store s x.val) x.flags d.regs (d.covers s)

/-- One operand that is read and written. -/
def Modifies {F : Type} (ins : F → Instr) (operand : F → Single) (op : F → State → Width → Word → Bool → Res)
    (lockable : Bool) : Prop :=
  ∀ (f : F) (s : State), s.lockOk (lockable && (operand f).dst.isMem) = true → (operand f).dst.ok s .rmw = true →
    let p := operand f
    let d := p.dst.spot s
    let x := op f s p.width (d.value s) s.cf
    Done (ins f) s (d.store s x.val) x.flags d.regs (d.covers s)

/-- The upper and lower half of the accumulator pair: AH:AL, DX:AX, EDX:EAX. -/
def State.pairHigh (s : State) (n : Width) : Word :=
  match n with
  | .b => zext8 (s.reg8 .ah)
  | .w => s.regZ .s16 .dx
  | .d => s.regZ .s32 .dx

def State.pairLow (s : State) (n : Width) : Word :=
  match n with
  | .b => zext8 (s.reg8 .al)
  | .w => s.regZ .s16 .ax
  | .d => s.regZ .s32 .ax

def State.setPair (s : State) (n : Width) (hi lo : Word) : State :=
  match n with
  | .b => (s.setReg8 .ah (hi.setWidth 8)).setReg8 .al (lo.setWidth 8)
  | .w => (s.setRegZ .s16 .dx hi).setRegZ .s16 .ax lo
  | .d => (s.setRegZ .s32 .dx hi).setRegZ .s32 .ax lo

/-- The accumulator. -/
def State.setAcc (s : State) (n : Width) (v : Word) : State :=
  match n with
  | .b => s.setReg8 .al (v.setWidth 8)
  | .w => s.setRegZ .s16 .ax v
  | .d => s.setRegZ .s32 .ax v

/-- The registers of the pair. -/
def pairRegs (n : Width) : List Gpr :=
  match n with
  | .b => [.ax]
  | .w => [.ax, .dx]
  | .d => [.ax, .dx]

/-- The unit of memory or the register that holds the bit of BT, BTS, BTR, BTC (R394). -/
def bitSpot (f : BtForm) (s : State) : Spot :=
  match f.base with
  | .reg r => .reg f.size r
  | .mem m =>
    .mem f.size.width m.size (s.segOf m)
      (truncZ m.size (s.offsetOf m +
        BitVec.ofInt 32 ((f.size.width.bytes : Int) * ((bitOffset f s).fdiv (f.size.width.bits : Int)))))

def bitOk (f : BtForm) (s : State) (acc : Acc) : Bool :=
  (match f.base with
   | .reg _ => true
   | .mem m => !m.isOpen) && (bitSpot f s).ok s acc

/-- A far pointer in memory can be read: offset, then selector. -/
def farOk (z : Sz) (m : Mem) (s : State) : Bool :=
  !m.isOpen && (Spot.mem z.width m.size (s.segOf m) (s.offsetOf m)).ok s .read &&
    (Spot.mem .w m.size (s.segOf m) (Mem.at_ m (s.offsetOf m) z.width.bytes)).ok s .read

def farOff (z : Sz) (m : Mem) (s : State) : Word := (Spot.mem z.width m.size (s.segOf m) (s.offsetOf m)).value s

def farSel (z : Sz) (m : Mem) (s : State) : Half :=
  lowHalf ((Spot.mem .w m.size (s.segOf m) (Mem.at_ m (s.offsetOf m) z.width.bytes)).value s)

/-- The target of a far transfer: operand size, selector, offset. -/
def farTarget (f : FarForm) (s : State) : Sz × Half × Word :=
  match f with
  | .ptr z sel off => (z, sel, truncZ z off)
  | .mem z m => (z, farSel z m s, farOff z m s)

def farTargetOk (f : FarForm) (s : State) : Bool :=
  match f with
  | .ptr _ _ _ => true
  | .mem z m => farOk z m s

/-- The state with CS loaded without a descriptor (real-address and V86 mode). -/
def State.flatCS (s : State) (sel : Half) : State := s.loadFlat .cs sel

/-! Descriptors in memory, paging off. -/

/-- The 8 bytes of a selector's descriptor are in its table and can be read (R128). -/
def State.descIn (s : State) (sel : Half) : Bool :=
  if selLdt sel then
    s.ldtr.valid && decide (selOffset sel + 7 ≤ s.ldtr.limit.toNat)
  else decide (selOffset sel + 7 ≤ s.gdtr.limit.toNat)

/-- The linear address of a selector's descriptor. -/
def State.descAt (s : State) (sel : Half) : Word :=
  (if selLdt sel then s.ldtr.base else s.gdtr.base) + BitVec.ofNat 32 (selOffset sel)

/-- It can be read: RAM, paging off. -/
def State.descFlat (s : State) (sel : Half) : Bool :=
  s.flat (s.descAt sel) 4 && s.flat (s.descAt sel + 4) 4 && s.flat (s.descAt sel + 5) 1

/-- The descriptor. -/
def State.desc (s : State) (sel : Half) : Desc :=
  { at_ := s.descAt sel, lo := readLE s.mem (s.descAt sel).toNat 4, hi := readLE s.mem (s.descAt sel + 4).toNat 4 }

/-- The state with the access-rights byte of a selector's descriptor replaced in memory. -/
def State.setRights (s : State) (sel : Half) (ar : Byte) : State :=
  { s with mem := writeLE s.mem (s.descAt sel + 5).toNat 1 (zext8 ar) }

/-- The byte of memory that holds the access rights. -/
def State.rightsByte (s : State) (sel : Half) (a : Nat) : Bool := a == (s.descAt sel + 5).toNat

/-- The access-rights bytes of two descriptors. -/
def State.rightsBytes (s : State) (x y : Half) (a : Nat) : Bool := s.rightsByte x a || s.rightsByte y a

/-- What is looked at for a selector can be read: nothing, or a descriptor in RAM. -/
def State.selReadable (s : State) (sel : Half) : Bool := selNull sel || !s.descIn sel || s.descFlat sel

/-- Why a load of a segment register in protected mode is refused, checks in order: vector and error code (R131, R132). -/
def State.loadFault (s : State) (r : Sreg) (sel : Half) : Option (Byte × Half) :=
  let d := s.desc sel
  let gp : Option (Byte × Half) := some (13, selCode sel false)
  if selNull sel then (if r == .ss then some (13, 0) else none)
  else if !s.descIn sel then gp
  else if r == .ss then
    if selRpl sel != s.cpl || !arWritable d.ar || d.dpl != s.cpl then gp
    else if !d.present then some (12, selCode sel false) else none
  else if !arReadable d.ar then gp
  else if !arConforming d.ar && !(selRpl sel ≤ d.dpl && s.cpl ≤ d.dpl) then gp
  else if !d.present then some (11, selCode sel false) else none

/-- The state with a segment register loaded in protected mode: the hidden part is the descriptor's, which is marked
accessed in memory; a null selector reads no descriptor (R22, R131, R132). -/
def State.loadedSreg (s u : State) (r : Sreg) (sel : Half) : State :=
  if selNull sel then u.setSreg r ((s.sreg r).null sel)
  else (u.setRights sel ((s.desc sel).ar ||| 1)).setSreg r ((s.desc sel).toSeg sel)

/-- The byte of memory such a load writes. -/
def State.loadByte (s : State) (sel : Half) (a : Nat) : Bool := !selNull sel && s.rightsByte sel a

/-- An instruction that loads a segment register in protected mode: it completes from `u`, the state its other effects
leave, or is refused with every register as before. -/
def Loads (i : Instr) (s u : State) (r : Sreg) (sel : Half) (regs : List Gpr) : Prop :=
  match s.loadFault r sel with
  | none => Done i s (s.loadedSreg u r sel) .same regs (s.loadByte sel)
  | some (v, c) => ∃ k,
    exec i s = takeEvent { vec := v, kind := .fault, code := some c, committed := false } s.eip { s with draws := k }

/-- Why LLDT and LTR are refused, checks in order (R585, R587). -/
def State.ldtFault (s : State) (sel : Half) : Option (Byte × Half) :=
  if selNull sel then none
  else if selLdt sel || !s.descIn sel || !(s.desc sel).isSystem 2 then some (13, selCode sel false)
  else if !(s.desc sel).present then some (11, selCode sel false) else none

def State.tssFault (s : State) (sel : Half) : Option (Byte × Half) :=
  if selNull sel then some (13, 0)
  else if selLdt sel || !s.descIn sel || !(s.desc sel).isAvailTss then some (13, selCode sel false)
  else if !(s.desc sel).present then some (11, selCode sel false) else none

/-! Strings. -/

/-- An index register after one element (R491). -/
def State.stepped (s : State) (a : Sz) (r : Gpr) (n : Width) : State :=
  s.setRegZ a r (if s.df then s.regZ a r - BitVec.ofNat 32 n.bytes else s.regZ a r + BitVec.ofNat 32 n.bytes)

/-- The source element, DS:(E)SI, and the destination element, ES:(E)DI. -/
def State.source (s : State) (a : Sz) (n : Width) : Spot := .mem n a (s.segOr .ds) (s.regZ a .si)
def State.dest (s : State) (a : Sz) (n : Width) : Spot := .mem n a .es (s.regZ a .di)

/-- The count is used up, or ZF ends the repetition, after an iteration that left ZF = `zf` (R490). -/
def repEnds (a : Sz) (testsZf : Bool) (k : RepKind) (s : State) (zf : Bool) : Bool :=
  truncZ a (s.regZ a .cx - 1) == 0 ||
    (match k with
     | .rep => testsZf && !zf
     | .repne => testsZf && zf)

/-- ZF after an instruction. -/
def FlagsOut.zfAfter (f : FlagsOut) (s : State) : Bool :=
  match f.zf with
  | .keep => s.zf
  | .put b => b
  | .free => false

/-- A string instruction, one iteration a step (R490): without a repeat prefix, one element; with one and a count of 0,
nothing; else one element, (E)CX less one, and EIP stays while the repetition goes on. `ok`, `next`, `flags` describe one
element; RF stays while EIP does. -/
def Repeats (i : Instr) (a : Sz) (testsZf : Bool) (ok : State → Bool) (next : State → State → Prop)
    (flags : State → FlagsOut) (regs : List Gpr) (stored : State → Nat → Bool) : Prop :=
  ∀ s : State, s.plain = true →
    match s.pfx.rep with
    | none => ok s = true → ∃ u, next s u ∧ Done i s u (flags s) regs (stored s)
    | some k =>
      if s.regZ a .cx = 0 then Done i s s .same [] noByte
      else ok s = true → ∃ u, next s u ∧
        let v := u.setRegZ a .cx (truncZ a (s.regZ a .cx - 1))
        if repEnds a testsZf k s ((flags s).zfAfter s) then Done i s v (flags s) (.cx :: regs) (stored s)
        else ∃ t, exec i s = .next t ∧ Like t v ∧ t.eip = s.eip ∧ Frame s t (.cx :: regs) (stored s) ∧
          (flags s).Allows s.eflags (putBit t.eflags 16 false) ∧ bit t.eflags 16 = bit s.eflags 16

/-! Events. -/

/-- A processor-detected fault. -/
def faultOf (vec : Byte) (code : Option Half) : Exc := { vec := vec, kind := .fault, code := code, committed := false }

/-- In real-address mode a vector can be delivered: the table holds it, three words can be pushed, and after that the
entry can be read (R732). -/
def State.realReady (s : State) (v : Byte) : Bool :=
  !s.pe && decide (4 * v.toNat + 3 ≤ s.idtr.limit.toNat) && s.canPush .w 3 &&
    s.flat (s.idtr.base + BitVec.ofNat 32 (4 * v.toNat)) 2 && s.flat (s.idtr.base + BitVec.ofNat 32 (4 * v.toNat) + 2) 2

/-- The state after a delivery in real-address mode (R732): FLAGS, CS and the return address are pushed, IF and TF are
cleared, CS:EIP comes from the interrupt table. -/
def State.realEntered (s : State) (v : Byte) (ret : Word) : State :=
  let p := s.pushed .w [fixReserved s.eflags, zext16 s.seg.cs.sel, ret]
  let at_ := s.idtr.base + BitVec.ofNat 32 (4 * v.toNat)
  let cs := lowHalf (readLE p.mem (at_ + 2).toNat 2)
  { p.setSreg .cs ((p.sreg .cs).loadRealCS cs) with
    eip := readLE p.mem at_.toNat 2
    eflags := putBit (putBit s.eflags 9 false) 8 false }

/-- An exception or interrupt delivered in real-address mode. -/
def Enters (o : Host.Outcome State Fault Refusal) (s u : State) (eflags : Word) : Prop :=
  ∃ t, o = .next t ∧ Like t u ∧ t.eip = u.eip ∧ t.eflags = eflags ∧ Frame s t [.sp] (s.pushCovers .w 3)

/-! More places and values. -/

/-- The operands of XCHG: a place and a register (R315). -/
def xchgParts (f : XchgForm) : Place × Spot :=
  match f with
  | .rm8 o r => (o.place, .reg8 r)
  | .rm z o r => (o.place z, .reg z r)
  | .acc z r => (.reg z r, .reg z .ax)

/-- What PUSH pushes, and its size (R310). -/
def pushItem (f : PushForm) (s : State) : Sz × Word :=
  match f with
  | .r z g => (z, s.regZ z g)
  | .immv z imm => (z, truncZ z imm)
  | .immb z imm => (z, truncZ z (imm.signExtend 32))
  | .rm z o => (z, ((o.place z).spot s).value s)

def pushOk (f : PushForm) (s : State) : Bool :=
  match f with
  | .r _ _ => true
  | .immv _ _ => true
  | .immb _ _ => true
  | .rm z o => (o.place z).ok s .read

/-- The registers POPA loads, with the place of each item on the stack (R321). -/
def popaItems : List (Gpr × Nat) := [(.di, 0), (.si, 1), (.bp, 2), (.bx, 4), (.dx, 5), (.cx, 6), (.ax, 7)]

/-- Loads registers from items of the stack of `s`. -/
def State.loadItems (s : State) (z : Sz) : List (Gpr × Nat) → State → State
  | [], t => t
  | (r, j) :: rest, t => s.loadItems z rest (t.setRegZ z r ((s.above z.width (j * z.width.bytes)).value s))

/-- The frame pointers ENTER copies (R510). -/
def copied (z : Sz) : Nat → State → State
  | 0, s => s
  | k + 1, s =>
    let at_ := truncZ z (s.regZ z .bp - BitVec.ofNat 32 z.width.bytes)
    let t := s.setRegZ z .bp at_
    copied z k (t.pushed z.width [(Spot.mem z.width z .ss at_).value t])

/-- They can be read and pushed. -/
def canCopy (z : Sz) : Nat → State → Bool
  | 0, _ => true
  | k + 1, s =>
    let at_ := truncZ z (s.regZ z .bp - BitVec.ofNat 32 z.width.bytes)
    let t := s.setRegZ z .bp at_
    (Spot.mem z.width z .ss at_).ok t .read && t.canPush z.width 1 &&
      canCopy z k (t.pushed z.width [(Spot.mem z.width z .ss at_).value t])

/-- The state with the display of a nesting level pushed, and whether it can be. -/
def displayed (z : Sz) (level : Nat) (s : State) : State :=
  match level with
  | 0 => s
  | k + 1 => (copied z k s).pushed z.width [truncZ z s.gpr.esp]

def canDisplay (z : Sz) (level : Nat) (s : State) : Bool :=
  match level with
  | 0 => true
  | k + 1 => canCopy z k s && (copied z k s).canPush z.width 1

/-- The state ENTER leaves (R510). -/
def entered (z : Sz) (size : Half) (level : Nat) (s : State) : State :=
  let p := s.pushed z.width [s.regZ z .bp]
  let q := (displayed z level p).setRegZ z .bp p.gpr.esp
  q.setReg .sp (q.stack.pointer (q.stack.below size.toNat))

/-- LEAVE's stack pointer (R512). -/
def State.atFrame (s : State) : State := s.setReg .sp (s.stack.pointer s.gpr.ebp)

/-- The target of a near transfer (R432, R433, R441, R442). -/
def nearGoal (f : NearForm) (s : State) : Word :=
  match f with
  | .rel z r => relTarget s.eipNext z r
  | .rm z o => ((o.place z).spot s).value s

def nearOk (f : NearForm) (s : State) : Bool :=
  match f with
  | .rel _ _ => true
  | .rm z o => (o.place z).ok s .read

/-- A target within the limit of CS (R431). -/
def State.inCode (s : State) (t : Word) : Bool := decide (t.toNat ≤ s.seg.cs.limit.toNat)

/-- (E)CX counted down (R437). -/
def State.counted (s : State) (a : Sz) : State := s.setRegZ a .cx (truncZ a (s.regZ a .cx - 1))

/-- Port access needs no look at the I/O map (R564). -/
def State.ioFree (s : State) : Bool := !(s.pe && (s.vm || decide (s.iopl < s.cpl.toNat)))

/-- The I/O permission map can be looked at: what is read of the TSS, if anything is, is RAM (R145, R173). -/
def State.mapFlat (s : State) (port : Nat) : Bool :=
  let at_ := port / 8 + (readLE s.mem (s.tr.base + 0x66).toNat 2).toNat
  !s.tr.is386 || decide (s.tr.limit.toNat < 0x67) ||
    (s.flat (s.tr.base + 0x66) 2 && (decide (s.tr.limit.toNat < at_ + 1) || s.flat (s.tr.base + BitVec.ofNat 32 at_) 2))

/-- The map of the current TSS has a clear bit for each of `n` ports, and lies within its limit (R145, R173). -/
def State.mapGrants (s : State) (port n : Nat) : Bool :=
  let at_ := port / 8 + (readLE s.mem (s.tr.base + 0x66).toNat 2).toNat
  let bits := readLE s.mem (s.tr.base + BitVec.ofNat 32 at_).toNat 2
  s.tr.is386 && decide (0x67 ≤ s.tr.limit.toNat) && decide (at_ + 1 ≤ s.tr.limit.toNat) &&
    (List.range n).all fun j => !bit bits (port % 8 + j)

/-- The ports may be accessed; and they may not (R564). -/
def State.ioOk (s : State) (port n : Nat) : Bool := s.ioFree || (s.mapFlat port && s.mapGrants port n)
def State.ioDenied (s : State) (port n : Nat) : Bool := !s.ioFree && s.mapFlat port && !s.mapGrants port n

/-- The port of IN and OUT. -/
def portNumber (p : Port) (s : State) : Nat :=
  match p with
  | .imm b => b.toNat
  | .dx => (s.regZ .s16 .dx).toNat

/-- What the host is told. -/
def State.told (s : State) (e : Event) : State := { s with events := e :: s.events }

/-- The two parts of a descriptor-table register in memory: limit, base (R580). -/
def tableLimit (m : Mem) (s : State) : Spot := .mem .w m.size (s.segOf m) (s.offsetOf m)
def tableBase (m : Mem) (s : State) : Spot := .mem .d m.size (s.segOf m) (Mem.at_ m (s.offsetOf m) 2)

def tableOk (m : Mem) (s : State) (acc : Acc) : Bool :=
  !m.isOpen && (tableLimit m s).ok s acc && (tableBase m s).ok s acc

/-- What LGDT and LIDT load. -/
def tableValue (z : Sz) (m : Mem) (s : State) : TableReg :=
  { base := match z with
      | .s16 => (tableBase m s).value s &&& 0x00FFFFFF
      | .s32 => (tableBase m s).value s
    limit := lowHalf ((tableLimit m s).value s) }

/-- The state with a table register stored (R582). -/
def tableStored (z : Sz) (m : Mem) (t : TableReg) (s : State) : State :=
  (tableBase m s).store ((tableLimit m s).store s (zext16 t.limit)) (storedBase z t.base)

/-- The selector an operand of 16 bits holds. -/
def selectorOf (o : Rm) (s : State) : Half := lowHalf ((o.place16.spot s).value s)

/-- The descriptor of a selector for LAR, LSL, VERR, VERW: none for a null selector or one outside its table (R610). -/
def State.lookup (s : State) (sel : Half) : Option Desc :=
  if selNull sel || !s.descIn sel then none else some (s.desc sel)

/-- It can be looked up: nothing is read, or what is read is RAM. -/
def State.lookupOk (s : State) (sel : Half) : Bool := selNull sel || !s.descIn sel || (!s.pg && s.descFlat sel)

/-- ZF as said, no other flag changed. -/
def zfOnly (b : Bool) : FlagsOut := { FlagsOut.same with zf := .put b }

/-- CR0 replaced. -/
def State.withCr0 (s : State) (v : Word) : State := { s with cr := { s.cr with cr0 := v } }

/-! Which instructions a prefix, a level or a mode refuses. -/

/-- A prefix. -/
def isPrefix : Instr → Bool
  | .segEs | .segCs | .segSs | .segDs | .segFs | .segGs => true
  | .opsize | .adrsize | .lock | .repne | .rep => true
  | _ => false

/-- LOCK may stand before the form (R258). -/
def lockable : Instr → Bool
  | .add f | .adc f | .sub f | .sbb f | .and f | .or f | .xor f => f.operands.dst.isMem
  | .inc f | .dec f => f.operand.dst.isMem
  | .neg f | .not f => f.operand.dst.isMem
  | .bts f | .btr f | .btc f => (f.base.place f.size).isMem
  | .xchg f => (xchgParts f).1.isMem
  | _ => false

/-- Instructions for CPL 0 only (R584). -/
def privileged : Instr → Bool
  | .lgdt _ _ | .lidt _ _ | .lldt _ | .ltr _ | .lmsw _ | .clts | .hlt => true
  | .movFromCr _ _ | .movToCr _ _ | .movFromDr _ _ | .movToDr _ _ | .movFromTr _ _ | .movToTr _ _ => true
  | _ => false

/-- Instructions undefined outside protected mode (R257). -/
def protectedOnly : Instr → Bool
  | .lldt _ | .sldt _ | .ltr _ | .str _ | .lar _ _ _ | .lsl _ _ _ | .verr _ | .verw _ | .arpl _ _ => true
  | _ => false

/-- Instructions that need IOPL 3 in V86 mode (R470, R476, R530, R531). -/
def iopl3 : Instr → Bool
  | .int _ | .iret _ | .pushf _ | .popf _ => true
  | _ => false

/-! Fetching and boundaries. -/

/-- The bytes of an instruction stand where its bytes `k` and on are fetched: within the limit of CS, paging off, RAM. -/
def State.codeAt (s : State) : Nat → List Byte → Bool
  | _, [] => true
  | k, b :: rest =>
    let lin := s.seg.cs.base + BitVec.ofNat 32 (s.fetchOffset k)
    decide (s.fetchOffset k ≤ s.seg.cs.limit.toNat) && s.flat lin 1 && memGet s.mem lin.toNat == b && s.codeAt (k + 1) rest

/-- The bytes are one unit, and no beginning of them is. -/
def isUnit (os as : Sz) (bs : List Byte) (i : Instr) : Bool :=
  decode os as bs == .unit i bs.length && (List.range bs.length).all fun k => decode os as (bs.take k) == .more

/-- No prefix read, no reset, nothing left to report. -/
def State.quiet (s : State) : Bool :=
  s.pfx.count == 0 && s.pinReset == none && s.pendingExc == none && !s.traps.due

/-- An instruction starts here: running, no breakpoint, no interrupt. -/
def State.starts (s : State) : Bool :=
  s.quiet && s.activity == .running && !breaksHere s && !nmiTaken s && intrTaken s == none

/-- Breakpoint `n` is one on the execution of a byte, and names this linear address (R781). -/
def State.breakpointAt (s : State) (n : Nat) (lin : Word) : Bool :=
  dr7Rw s.dr.dr7 n == 0 && dr7Len s.dr.dr7 n == 0 && s.dr.addr n == lin

/-! What holds of every state the machine reaches. -/

/-- Memory is in its canonical form; the reserved flags are as fixed (R19); the TLB has 32 entries (R56); V86 mode is a
mode of protected mode at CPL 3, real-address mode is at CPL 0 (R62), and paging needs protected mode (R37). -/
def State.inv (s : State) : Bool :=
  memWf s.mem && fixReserved s.eflags == s.eflags && s.tlb.length == 32 &&
    (!s.vm || (s.pe && s.cpl == 3)) && (s.pe || s.cpl == 0) && (!s.pg || s.pe)

/-! Inner levels. -/

/-- The stack pointer the current TSS holds for a level: selector and pointer (R129, R454 step 1). -/
def State.innerPointer (s : State) (n : BitVec 2) : Half × Word :=
  let at_ := fun (off : Nat) (k : Nat) => readLE s.mem (s.tr.base + BitVec.ofNat 32 off).toNat k
  if s.tr.is386 then (lowHalf (at_ (8 + 8 * n.toNat) 2), at_ (4 + 8 * n.toNat) 4)
  else (lowHalf (at_ (4 + 4 * n.toNat) 2), at_ (2 + 4 * n.toNat) 2)

/-- It lies within the limit of the TSS and can be read. -/
def State.innerReadable (s : State) (n : BitVec 2) : Bool :=
  let flat := fun (off : Nat) (k : Nat) => s.flat (s.tr.base + BitVec.ofNat 32 off) k
  if s.tr.is386 then
    decide (9 + 8 * n.toNat ≤ s.tr.limit.toNat) && flat (8 + 8 * n.toNat) 2 && flat (4 + 8 * n.toNat) 4
  else decide (5 + 4 * n.toNat ≤ s.tr.limit.toNat) && flat (4 + 4 * n.toNat) 2 && flat (2 + 4 * n.toNat) 2

/-- The selector names a writable data segment of the level, present (R454 step 2). -/
def State.stackFor (s : State) (sel : Half) (n : BitVec 2) : Bool :=
  let d := s.desc sel
  !selNull sel && s.descIn sel && s.descFlat sel && selRpl sel == n && d.dpl == n && arWritable d.ar && d.present

/-- The state with SS and the stack pointer replaced: with a 16-bit stack the upper half of ESP stays (R454 step 5). -/
def State.onStack (s : State) (sel : Half) (esp : Word) : State :=
  let d := s.desc sel
  (s.setReg .sp (if d.db then esp else withLow s.gpr.esp (lowHalf esp))).setSreg .ss (d.toSeg sel)

/-- The state on the stack of an inner level. -/
def State.onInner (s : State) (n : BitVec 2) : State := s.onStack (s.innerPointer n).1 (s.innerPointer n).2

/-- The stack of an inner level can be switched to, and `count` items pushed there. -/
def State.innerReady (s : State) (n : BitVec 2) (width : Width) (count : Nat) : Bool :=
  s.innerReadable n && s.stackFor (s.innerPointer n).1 n && (s.onInner n).canPush width count

/-- The state with the accessed bit of the descriptor of a selector set in memory. -/
def State.accessed (s u : State) (sel : Half) : State := u.setRights sel ((s.desc sel).ar ||| 1)

/-- The state with CS loaded from its descriptor at a level, and its accessed bit set. -/
def State.enterCode (s u : State) (sel : Half) (level : BitVec 2) : State :=
  (s.accessed u sel).setSreg .cs ((s.desc sel).toSeg (selWithRpl sel level))

/-- The selector names a present code segment. -/
def State.codeSeg (s : State) (sel : Half) : Bool :=
  !selNull sel && s.descIn sel && s.descFlat sel && arIsCode (s.desc sel).ar && (s.desc sel).present

/-- Entering it keeps the level: it is conforming and not less privileged, or at the level (R451). -/
def Desc.sameLevel (c : Desc) (cpl : BitVec 2) : Bool := if arConforming c.ar then decide (c.dpl ≤ cpl) else c.dpl == cpl

/-- Entering it raises the privilege. -/
def Desc.innerLevel (c : Desc) (cpl : BitVec 2) : Bool := !arConforming c.ar && decide (c.dpl < cpl)

/-- The offset of a gate, of a 386 DX one or an 80286 one. -/
def Desc.gateOff (g : Desc) : Word := if g.type ≥ 12 then g.gateOffset32 else g.gateOffset16

/-- The width of the items a gate pushes. -/
def Desc.gateWidth (g : Desc) : Width := if g.type ≥ 12 then .d else .w

/-- A call gate in the tables, present and open to the caller (R452). -/
def State.callGate (s : State) (sel : Half) : Bool :=
  let g := s.desc sel
  !selNull sel && s.descIn sel && s.descFlat sel && (g.isSystem 4 || g.isSystem 12) && decide (s.cpl ≤ g.dpl) &&
    decide (selRpl sel ≤ g.dpl) && g.present && s.codeSeg g.gateSel

/-! Delivery through a gate of protected mode. -/

/-- The gate of a vector (R725). -/
def State.gate (s : State) (v : Byte) : Desc :=
  let a := s.idtr.base + BitVec.ofNat 32 (8 * v.toNat)
  { at_ := a, lo := readLE s.mem a.toNat 4, hi := readLE s.mem (a + 4).toNat 4 }

/-- The gate of an event is in the table, present, and open to a software interrupt (R730 step 1). -/
def State.gateOpen (s : State) (e : Exc) : Bool :=
  let a := s.idtr.base + BitVec.ofNat 32 (8 * e.vec.toNat)
  let g := s.gate e.vec
  s.pe && decide (8 * e.vec.toNat + 7 ≤ s.idtr.limit.toNat) && s.flat a 4 && s.flat (a + 4) 4 && g.present &&
    !(e.kind == .software && decide (g.dpl < s.cpl))

/-- It is an interrupt or trap gate, 80286 or 386 DX, to a code segment whose limit holds its offset. -/
def State.gateToCode (s : State) (e : Exc) : Bool :=
  let g := s.gate e.vec
  s.gateOpen e && (g.isSystem 6 || g.isSystem 7 || g.isSystem 14 || g.isSystem 15) && s.codeSeg g.gateSel &&
    decide (g.gateOff.toNat ≤ (s.desc g.gateSel).limit.toNat)

/-- An interrupt gate, which clears IF. -/
def Desc.clearsIf (g : Desc) : Bool := g.isSystem 6 || g.isSystem 14

/-- How many items an error code is. -/
def Exc.items (e : Exc) : Nat := if e.code.isSome then 1 else 0

/-- The items pushed for an error code: bits 15:0 of one are the code, bits 2:0 for a page fault (R755, I18). -/
def Exc.pushes (e : Exc) (items : List Word) : Prop :=
  match e.code, items with
  | none, [] => True
  | some c, [w] => if e.vec = 14 then w &&& 7 = zext16 c &&& 7 else lowHalf w = c
  | none, _ :: _ => False
  | some _, [] => False
  | some _, _ :: _ :: _ => False

/-- An image of EFLAGS: the reserved bits as fixed, RF as said, bits 31:18 any (R19, I13). -/
def State.isImage (s : State) (rf : Bool) (image : Word) : Prop :=
  image &&& 0x3FFFF = putBit (fixReserved s.eflags) 16 rf &&& 0x3FFFF

/-- EFLAGS after entry through a gate (R734). -/
def gateEflags (isInt : Bool) (fl : Word) : Word :=
  let fl := putBit (putBit fl 8 false) 14 false
  if isInt then putBit fl 9 false else fl

/-- `o` is entry through the gate of `e` to a handler at the same level, the return address `ret` pushed (R730, R734); `act`
and `fl` are the activity and EFLAGS after it. -/
def EntersSame (o : Host.Outcome State Fault Refusal) (e : Exc) (ret : Word) (s : State) (act : Activity) (fl : Word) : Prop :=
  let g := s.gate e.vec
  let n := g.gateWidth
  ∃ (t : State) (image csItem : Word) (code : List Word), o = .next t ∧
    s.isImage (imageRf s e.kind) image ∧ lowHalf csItem = s.seg.cs.sel ∧ e.pushes code ∧
    Like t { s.enterCode (s.pushed n ([image, csItem, ret] ++ code)) g.gateSel s.cpl with activity := act } ∧
    t.eip = g.gateOff ∧ t.eflags = fl ∧
    Frame s t [.sp] (fun a => s.pushCovers n (3 + e.items) a || s.rightsByte g.gateSel a)

/-- The same to a handler at a more privileged level, on the stack of the TSS (R730, R454). -/
def EntersInner (o : Host.Outcome State Fault Refusal) (e : Exc) (ret : Word) (s : State) (act : Activity) (fl : Word) : Prop :=
  let g := s.gate e.vec
  let n := g.gateWidth
  let level := (s.desc g.gateSel).dpl
  let stack := (s.innerPointer level).1
  ∃ (t : State) (image ssItem csItem : Word) (code : List Word), o = .next t ∧
    s.isImage (imageRf s e.kind) image ∧ lowHalf ssItem = s.seg.ss.sel ∧ lowHalf csItem = s.seg.cs.sel ∧ e.pushes code ∧
    (let u := (s.onInner level).pushed n ([ssItem, s.gpr.esp, image, csItem, ret] ++ code)
     Like t { s.enterCode (s.accessed u stack) g.gateSel level with cpl := level, activity := act }) ∧
    t.eip = g.gateOff ∧ t.eflags = fl ∧
    Frame s t [.sp] (fun a => (s.onInner level).pushCovers n (5 + e.items) a || s.rightsBytes stack g.gateSel a)

/-- The state at level 0 with VM clear. -/
def State.outOfV86 (s : State) : State := { s with eflags := putBit s.eflags 17 false, cpl := 0 }

/-- The same on the stack of the TSS, in which an entry from V86 mode pushes: all of ESP is loaded, whatever the size of that
stack (R730). -/
def State.fromV86 (s : State) : State := (s.outOfV86.onInner 0).setReg .sp (s.innerPointer 0).2

/-- Entry from V86 mode, to level 0 (R730, D60). -/
def EntersFromV86 (o : Host.Outcome State Fault Refusal) (e : Exc) (ret : Word) (s : State) (act : Activity) (fl : Word) :
    Prop :=
  let g := s.gate e.vec
  let n := g.gateWidth
  let inner := s.fromV86
  let stack := (s.innerPointer 0).1
  ∃ (t : State) (image : Word) (item : Sreg → Word) (code : List Word), o = .next t ∧
    s.isImage (imageRf s e.kind) image ∧ (∀ r, lowHalf (item r) = (s.sreg r).sel) ∧ e.pushes code ∧
    (let u := inner.pushed n ([item .gs, item .fs, item .ds, item .es, item .ss, s.gpr.esp, image, item .cs, ret] ++ code)
     let v := s.enterCode (s.accessed u stack) g.gateSel 0
     Like t { v with
       seg := { v.seg with gs := s.seg.gs.null 0, fs := s.seg.fs.null 0, ds := s.seg.ds.null 0, es := s.seg.es.null 0 }
       activity := act }) ∧
    t.eip = g.gateOff ∧ t.eflags = fl ∧
    Frame s t [.sp] (fun a => inner.pushCovers n (9 + e.items) a || s.rightsBytes stack g.gateSel a)

/-- Through its gate an event can be delivered at the same level; at a more privileged one; from V86 mode. -/
def State.sameReady (s : State) (e : Exc) : Bool :=
  !s.vm && s.gateToCode e && (s.desc (s.gate e.vec).gateSel).sameLevel s.cpl &&
    s.canPush (s.gate e.vec).gateWidth (3 + e.items)
def State.raiseReady (s : State) (e : Exc) : Bool :=
  let c := s.desc (s.gate e.vec).gateSel
  !s.vm && s.gateToCode e && c.innerLevel s.cpl && s.innerReady c.dpl (s.gate e.vec).gateWidth (5 + e.items)
def State.leaveReady (s : State) (e : Exc) : Bool :=
  let c := s.desc (s.gate e.vec).gateSel
  s.mode == .v86 && s.gateToCode e && !arConforming c.ar && c.dpl == 0 &&
    s.outOfV86.innerReady 0 (s.gate e.vec).gateWidth (9 + e.items)

/-! Paging. -/

/-- The page-directory entry and page-table entry of a linear address, and where they stand (R146). -/
def State.pdeAddr (s : State) (lin : Word) : Nat := (s.cr.cr3.extractLsb' 12 20).toNat * 4096 + (lin.extractLsb' 22 10).toNat * 4
def State.pde (s : State) (lin : Word) : Word := readLE s.mem (s.pdeAddr lin) 4
def State.pteAddr (s : State) (lin : Word) : Nat :=
  ((s.pde lin).extractLsb' 12 20).toNat * 4096 + (lin.extractLsb' 12 10).toNat * 4
def State.pte (s : State) (lin : Word) : Word := readLE s.mem (s.pteAddr lin) 4

/-- Paging is on, nothing is cached, and the entries of the address are in RAM. -/
def State.walks (s : State) (lin : Word) : Bool :=
  s.pg && s.tlb.all (fun e => !e.valid) && s.isRam (s.pdeAddr lin) 4 && s.isRam (s.pteAddr lin) 4

/-- The access is allowed by both levels (R147). -/
def pageGrants (pde pte : Word) (user : Bool) (acc : Acc) : Bool :=
  bit pde 0 && bit pte 0 && (!user || (bit pde 2 && bit pte 2 && (!acc.writes || (bit pde 1 && bit pte 1))))

/-- The error code of a page fault (R755). -/
def pageCode (present wr user : Bool) : Half :=
  (if present then 1 else 0) ||| (if wr then 2 else 0) ||| (if user then 4 else 0)

/-! Far returns in protected mode. -/

/-- The selector names a code segment a return may go to: its level is the selector's (R449 steps 3 and 6). -/
def State.returnCode (s : State) (sel : Half) (off : Word) : Bool :=
  s.codeSeg sel && (s.desc sel).sameLevel (selRpl sel) && decide (off.toNat ≤ (s.desc sel).limit.toNat)

/-- A data segment register as an outer level may keep it (R449 step 10). -/
def SegReg.forLevel (g : SegReg) (level : BitVec 2) : SegReg :=
  if g.valid && !arConforming g.ar && decide (arDpl g.ar < level) then g.null 0 else g

/-- The state at an outer level: ES, DS, FS and GS as it may keep them. -/
def State.atOuter (s : State) (level : BitVec 2) : State :=
  { s with cpl := level,
           seg := { s.seg with es := s.seg.es.forLevel level, ds := s.seg.ds.forLevel level,
                               fs := s.seg.fs.forLevel level, gs := s.seg.gs.forLevel level } }

/-- ESP after a return to an outer level, from the pointer popped (R449 step 9): with a 16-bit operand and a 32-bit
stack the upper half has any value (I12). -/
def outerPointer (z : Sz) (db : Bool) (old popped imm esp : Word) : Prop :=
  if db then
    match z with
    | .s32 => esp = popped + imm
    | .s16 => ∃ high : Half, esp = (high ++ lowHalf popped) + imm
  else esp = withLow old (lowHalf (popped + imm))

/-- The state after a return to an outer level: CS and SS from their descriptors, both marked accessed. -/
def State.returned (s : State) (csel ssel : Half) (esp : Word) : State :=
  ((((s.accessed s csel).setSreg .cs ((s.desc csel).toSeg csel)).setRights ssel ((s.desc ssel).ar ||| 1)).setSreg .ss
    ((s.desc ssel).toSeg ssel)).setReg .sp esp |>.atOuter (selRpl csel)

/-! Task switches. -/

/-- One field saved in a TSS: where, how wide, what. -/
structure TssField where
  off : Nat
  width : Width
  value : Word
deriving DecidableEq, Repr

/-- What a task switch saves of the old task (R770 step 2): in a 386 DX TSS, in an 80286 one. -/
def State.savedFields (s : State) (eip image : Word) : List TssField :=
  let sel := fun r : Sreg => zext16 (s.sreg r).sel
  if s.tr.is386 then
    [⟨0x20, .d, eip⟩, ⟨0x24, .d, image⟩, ⟨0x28, .d, s.gpr.eax⟩, ⟨0x2C, .d, s.gpr.ecx⟩, ⟨0x30, .d, s.gpr.edx⟩,
     ⟨0x34, .d, s.gpr.ebx⟩, ⟨0x38, .d, s.gpr.esp⟩, ⟨0x3C, .d, s.gpr.ebp⟩, ⟨0x40, .d, s.gpr.esi⟩, ⟨0x44, .d, s.gpr.edi⟩,
     ⟨0x48, .w, sel .es⟩, ⟨0x4C, .w, sel .cs⟩, ⟨0x50, .w, sel .ss⟩, ⟨0x54, .w, sel .ds⟩, ⟨0x58, .w, sel .fs⟩,
     ⟨0x5C, .w, sel .gs⟩]
  else
    [⟨0x0E, .w, eip⟩, ⟨0x10, .w, image⟩, ⟨0x12, .w, s.gpr.eax⟩, ⟨0x14, .w, s.gpr.ecx⟩, ⟨0x16, .w, s.gpr.edx⟩,
     ⟨0x18, .w, s.gpr.ebx⟩, ⟨0x1A, .w, s.gpr.esp⟩, ⟨0x1C, .w, s.gpr.ebp⟩, ⟨0x1E, .w, s.gpr.esi⟩, ⟨0x20, .w, s.gpr.edi⟩,
     ⟨0x22, .w, sel .es⟩, ⟨0x24, .w, sel .cs⟩, ⟨0x26, .w, sel .ss⟩, ⟨0x28, .w, sel .ds⟩]

/-- Memory with fields of a TSS stored, in order. -/
def storeFields (base : Word) : List TssField → List Host.Cell → List Host.Cell
  | [], m => m
  | f :: rest, m => storeFields base rest (writeLE m (base + BitVec.ofNat 32 f.off).toNat f.width.bytes f.value)

/-- The bytes of a TSS that its limit must hold (R770 step 1). -/
def tssLeast (is386 : Bool) : Nat := if is386 then 0x67 else 0x2B

/-- The rights byte of the TSS descriptor TR names. -/
def State.taskRights (s : State) : Word := s.gdtr.base + BitVec.ofNat 32 (selOffset s.tr.sel) + 5

/-- The new TSS is a 386 DX one. -/
def Desc.isTss386 (d : Desc) : Bool := d.type == 9 || d.type == 11

/-- Every field of the old TSS that a task switch saves lies within the limit of TR (R145). -/
def State.saveFits (s : State) : Bool :=
  (s.savedFields 0 0).all fun f => decide (f.off + f.width.bytes ≤ s.tr.limit.toNat + 1)

/-- What a task switch writes in the old TSS, the new one and the descriptors is RAM, and both TSSs are large enough. -/
def State.switchable (s : State) (d : Desc) (kind : SwitchKind) : Bool :=
  s.flat s.tr.base (tssLeast s.tr.is386 + 1) && (if kind.nests then s.flat d.base 2 else s.flat s.taskRights 1) &&
    (kind == .iret || s.flat (d.at_ + 5) 1) && decide (tssLeast d.isTss386 ≤ d.limit.toNat) && s.saveFits

/-- The state a task switch leaves before the new task is loaded (R770 steps 2 to 5, R775): the old task saved, its busy
bit cleared or the back link set, the new task busy, TR and TS set. -/
def State.switchedOut (s : State) (tsel : Half) (d : Desc) (kind : SwitchKind) (eip image : Word) : State :=
  let m := storeFields s.tr.base (s.savedFields eip image) s.mem
  let m := if kind.nests then m
    else writeLE m s.taskRights.toNat 1 (putBit (readLE m s.taskRights.toNat 1) 1 false)
  let m := if kind.nests then writeLE m d.base.toNat 2 (zext16 s.tr.sel) else m
  let m := if kind == .iret then m else writeLE m (d.at_ + 5).toNat 1 (putBit (readLE m (d.at_ + 5).toNat 1) 1 true)
  { s with
    mem := m
    tr := { sel := tsel, base := d.base, limit := d.limit, is386 := d.isTss386 }
    cr := { s.cr with cr0 := putBit s.cr.cr0 3 true } }

/-- A field of a TSS in memory. -/
def State.tssField (s : State) (base : Word) (off n : Nat) : Word := readLE s.mem (base + BitVec.ofNat 32 off).toNat n

/-- EFLAGS as a TSS of this kind holds it, the reserved bits fixed, NT as the switch leaves it (R770 step 7, R775). -/
def State.tssFlags (s : State) (is386 : Bool) (base : Word) (kind : SwitchKind) : Word :=
  let fl := fixReserved (if is386 then s.tssField base 0x24 4 else s.tssField base 0x10 2)
  match kind with
  | .jmp => putBit fl 14 false
  | .call => putBit fl 14 true
  | .int => putBit fl 14 true
  | .iret => fl

/-- The general registers a TSS of this kind holds: all of them, or their lower halves (R776). -/
def State.tssRegs (s : State) (is386 : Bool) (base : Word) (r : Gpr) (v : Word) : Prop :=
  let k := match r with
    | .ax => 0
    | .cx => 1
    | .dx => 2
    | .bx => 3
    | .sp => 4
    | .bp => 5
    | .si => 6
    | .di => 7
  if is386 then v = s.tssField base (0x28 + 4 * k) 4 else zext16 (lowHalf v) = s.tssField base (0x12 + 2 * k) 2

/-- A selector a TSS of this kind holds; an 80286 one has no FS and GS (R776). -/
def State.tssSelector (s : State) (is386 : Bool) (base : Word) (r : Sreg) : Half :=
  if is386 then
    lowHalf (s.tssField base (match r with
      | .es => 0x48
      | .cs => 0x4C
      | .ss => 0x50
      | .ds => 0x54
      | .fs => 0x58
      | .gs => 0x5C) 2)
  else
    match r with
    | .es => lowHalf (s.tssField base 0x22 2)
    | .cs => lowHalf (s.tssField base 0x24 2)
    | .ss => lowHalf (s.tssField base 0x26 2)
    | .ds => lowHalf (s.tssField base 0x28 2)
    | .fs => 0
    | .gs => 0

/-- EIP, and the LDT selector, of a TSS. -/
def State.tssEip (s : State) (is386 : Bool) (base : Word) : Word :=
  if is386 then s.tssField base 0x20 4 else s.tssField base 0x0E 2
def State.tssLdt (s : State) (is386 : Bool) (base : Word) : Half :=
  lowHalf (if is386 then s.tssField base 0x60 2 else s.tssField base 0x2A 2)

/-- The task of a TSS can be entered without an exception: a V86 task; or one of protected mode whose CS and SS are GDT
segments at the level of CS, its data segments null. It has no LDT (R770 steps 8 to 11, R772, R773, R777). -/
def State.enterable (s : State) (is386 : Bool) (base : Word) (kind : SwitchKind) : Bool :=
  let cs := s.tssSelector is386 base .cs
  let ss := s.tssSelector is386 base .ss
  let eip := s.tssEip is386 base
  s.flat base (tssLeast is386 + 1) && selNull (s.tssLdt is386 base) &&
    (if bit (s.tssFlags is386 base kind) 17 then decide (eip.toNat ≤ 0xFFFF)
     else
      s.codeSeg cs && !selLdt cs && (s.desc cs).sameLevel (selRpl cs) && decide (eip.toNat ≤ (s.desc cs).limit.toNat) &&
        s.stackFor ss (selRpl cs) && !selLdt ss &&
        [Sreg.ds, .es, .fs, .gs].all fun r => selNull (s.tssSelector is386 base r))

/-- The selector names a TSS of the GDT that is available, and present (R455, R737). -/
def State.tssReady (s : State) (tsel : Half) : Bool :=
  !selLdt tsel && s.descIn tsel && s.descFlat tsel && (s.desc tsel).isAvailTss && (s.desc tsel).present

/-- A TSS, or a task gate to one, that a far transfer may use: the TSS (R455). -/
def State.taskTarget (s : State) (sel : Half) : Option Half :=
  let d := s.desc sel
  if selNull sel || !s.descIn sel || !s.descFlat sel || d.dpl < s.cpl || d.dpl < selRpl sel || !d.present then none
  else if d.isSystem 5 then (if s.tssReady d.gateSel then some d.gateSel else none)
  else if s.tssReady sel then some sel else none

/-- The back link of the current TSS (R478). -/
def State.backLink (s : State) : Half := lowHalf (readLE s.mem s.tr.base.toNat 2)

/-- It lies within the limit of TR (R145), can be read, and names a busy TSS of the GDT, present. -/
def State.backReady (s : State) : Bool :=
  let sel := s.backLink
  decide (1 ≤ s.tr.limit.toNat) && s.flat s.tr.base 2 && !selLdt sel && s.descIn sel && s.descFlat sel &&
    (s.desc sel).isBusyTss && (s.desc sel).present

/-- What an instruction leaves whose effect is a task switch: `r` is what the switch answers, `after` what the instruction
does after it. A fault of the new task waits for the boundary (R774), any other restores the registers (R703). -/
def settled (after : State → State) (s : State) (r : EStateM.Result Stop State Unit) : Host.Outcome State Fault Refusal :=
  match r with
  | .ok () t => .next (finish .jumpKeepRf s (after t))
  | .error (.exc e) t =>
    if e.committed then .next { atBoundary t with traps := .none, pendingExc := some { e with committed := false } }
    else takeEvent e s.eip (rollback s t)
  | .error (.fault x) _ => .fault x
  | .error (.refusal x) _ => .refused x

/-- An instruction that switches to the task of a TSS. Only draws and the noted accesses to its own operand precede the
switch. -/
def Switches (i : Instr) (s : State) (tsel : Half) (kind : SwitchKind) (after : State → State) : Prop :=
  ∃ (k : Nat) (x : Traps), exec i s =
    settled after s (taskSwitch tsel (s.desc tsel) kind s.eipNext s.rf false none { s with draws := k, traps := x })

/-- The software event of a vector. -/
def softEvent (v : Byte) : Exc := { vec := v, kind := .software, code := none, committed := false }

/-- An instruction that delivers the software event of a vector, with the next address as return address (R470 to R472):
through a gate of each kind, and refused where the gate is not open to the level (R799). -/
def Interrupts (i : Instr) (v : Byte) (s : State) : Prop :=
  let e := softEvent v
  let g := s.gate v
  let a := s.idtr.base + BitVec.ofNat 32 (8 * v.toNat)
  let fl := putBit (gateEflags g.clearsIf s.eflags) 16 false
  (s.realReady v = true →
    Enters (exec i s) s (s.realEntered v s.eipNext) (putBit (s.realEntered v s.eipNext).eflags 16 false)) ∧
  (s.sameReady e = true → EntersSame (exec i s) e s.eipNext s s.activity fl) ∧
  (s.raiseReady e = true → EntersInner (exec i s) e s.eipNext s s.activity fl) ∧
  (s.leaveReady e = true → EntersFromV86 (exec i s) e s.eipNext s s.activity (putBit fl 17 false)) ∧
  (s.gateOpen e = true → g.isSystem 5 = true → s.tssReady g.gateSel = true → Switches i s g.gateSel .int id) ∧
  (s.pe = true → 8 * v.toNat + 7 ≤ s.idtr.limit.toNat → s.flat a 4 = true → s.flat (a + 4) 4 = true → g.isIdtGate = true →
    g.dpl < s.cpl → exec i s = takeEvent (faultOf 13 (some (BitVec.ofNat 16 (8 * v.toNat + 2)))) s.eip s)

end Sys2Proof.Machine
end

