-- ==== Sys2Proof/Certificates/Slice0/Obligations.lean ====
section
/-!
DEFINITION. Sys2Proof/Certificates/Slice0/Obligations.lean: what is claimed of the model. The terms are those of
Safety.lean. Where a statement says that an instruction completes, its hypotheses are about the state and the operands
alone: no LOCK, operands in a segment that allows the access and in RAM, paging off.
-/
open Sys2Proof Sys2Proof.Machine

/-! Reset, invariant, encoding, stepping. -/

/-- R70, R830: what RESET# leaves, of the values the spec gives; EAX is 0 after a self-test (D77), and a reset while
running leaves memory alone (D78, log 5). -/
def Obligations.ResetLeaves : Prop :=
  (∀ s, s = State.reset ∨ (∃ (u : State) (b : Bool), s = u.resetEvent b) →
    s.eip = 0xFFF0 ∧ s.eflags &&& 0x3FFFF = 0x2 ∧
    s.seg.cs.sel = 0xF000 ∧ s.seg.cs.base = 0xFFFF0000 ∧ s.seg.cs.limit = 0xFFFF ∧
    s.seg.ds.sel = 0 ∧ s.seg.ds.base = 0 ∧ s.seg.ds.limit = 0xFFFF ∧
    s.seg.es.sel = 0 ∧ s.seg.es.base = 0 ∧ s.seg.es.limit = 0xFFFF ∧
    s.seg.ss.sel = 0 ∧ s.seg.fs.sel = 0 ∧ s.seg.gs.sel = 0 ∧ s.pg = false ∧ s.nmiInService = false ∧
    s.idtr.base = 0 ∧ s.idtr.limit = 0x3FF ∧ s.cr.cr0 &&& 0xFFEF = 0 ∧ s.dr.dr7 &&& 0xFFFF = 0 ∧
    s.reg8 .dh = 3 ∧ s.cpl = 0 ∧ s.mode = .real ∧ s.activity = .running) ∧
  (∀ s b, s.pfx.count = 0 → s.pinReset = some b → step s = .next (s.resetEvent b)) ∧
  (∀ s b, (State.resetEvent s b).mem = s.mem) ∧ (∀ s, (State.resetEvent s true).gpr.eax = 0)

/-- The invariant holds at reset. -/
def Obligations.InvariantAtReset : Prop := State.reset.inv = true

/-- Every step keeps the invariant, from every state that has it (R19, R37, R56, R62). -/
def Obligations.InvariantKept : Prop := ∀ s t, s.inv = true → step s = .next t → t.inv = true

/-- Decoding the encoding of a well-formed instruction gives it back, whatever follows it. -/
def Obligations.DecodeEncode : Prop :=
  ∀ (os as : Sz) (i : Instr) (rest : List Byte), i.wf os as = true →
    decode os as (encode i ++ rest) = .unit i (encode i).length

/-- Words written out from the encodings of the spec decode to their instructions. -/
def Obligations.DecodeWords : Prop :=
  decode .s32 .s32 [0x8B, 0x44, 0xB3, 0x08] =
    .unit (.mov (.rm .s32 .ax (.mem (.sib (some .bx) (some .si) 2 (.d8 8))))) 4 ∧
  decode .s16 .s16 [0x8B, 0x02] = .unit (.mov (.rm .s16 .ax (.mem (.m16 .bpsi .none)))) 2 ∧
  decode .s32 .s32 [0xC7, 0x45, 0xFC, 1, 0, 0, 0] = .unit (.mov (.mi .s32 (.mem (.m32 .bp (.d8 0xFC))) 1)) 7 ∧
  decode .s16 .s16 [0xC2, 0x08, 0x00] = .unit (.retNear .s16 (some 8)) 3 ∧
  decode .s16 .s16 [0x0F, 0x01, 0x16, 0x00, 0x01] = .unit (.lgdt .s16 (.abs16 0x100)) 5 ∧
  decode .s32 .s32 [0x0F, 0xBA, 0xE0, 0x15] = .unit (.bt (.i .s32 (.reg .ax) 21)) 4 ∧
  decode .s16 .s16 [0xB4, 0xFF] = .unit (.mov (.ri8 .ah 0xFF)) 2 ∧
  decode .s32 .s32 [0x8D, 0xC0] = .undefined

/-- R716: at an instruction boundary with nothing to report a step runs the instruction whose bytes stand at CS:EIP.
`afterMatch` and `fetched` only advance the model's own counters and note the breakpoints that the address matches (R780,
log 25).
The model's choices: each prefix is a step of its own, after which no event is looked at (log 6); the bytes are fetched when
the instruction executes, no copy of them being kept (log 22), and their offsets are not wrapped (log 8, D76). -/
def Obligations.StepRunsInstruction : Prop :=
  (∀ (s : State) (bs : List Byte) (i : Instr), s.starts = true → isUnit s.opSz s.adSz bs i = true →
    bs.length ≤ 15 → s.codeAt 0 bs = true → step s = exec i ((afterMatch s).fetched bs.length)) ∧
  (∀ (s : State) (bs : List Byte) (i : Instr), s.pfx.count ≠ 0 → isUnit s.opSz s.adSz bs i = true →
    s.pfx.count + bs.length ≤ 15 → s.codeAt s.pfx.count bs = true → step s = exec i (s.fetched bs.length))

/-- A store writes the bytes of the value at rising addresses, the low byte first, and no other byte (R101); a load
gives the value back. R140 to R144: an access with a byte outside its segment's limit or past the greatest offset of its
address size (D7), or against the rights of its segment, is #SS(0) through SS and #GP(0) through any other, before anything
is read or written; MOV to and from such an operand raises it with the whole state as before. -/
def Obligations.StoreThenLoad : Prop :=
  (∀ (s : State) (a : Sz) (r : Sreg) (off : Word) (n : Width) (v : Word), (Spot.mem n a r off).ok s .write = true →
    ∃ t, memWrite a r off n v s = .ok () t ∧
      (∀ k, k < n.bytes → memGet t.mem (s.physAt r off + k) = v.extractLsb' (8 * k) 8) ∧
      (∀ j, (Spot.mem n a r off).covers s j = false → memGet t.mem j = memGet s.mem j) ∧
      (memWf s.mem = true → memWf t.mem = true) ∧
      ((Spot.mem n a r off).ok s .read = true → ∃ u, memRead a r off n t = .ok (truncW n v) u ∧ u.mem = t.mem)) ∧
  (∀ (s : State) (a : Sz) (r : Sreg) (off : Word) (n : Width),
    let fault := faultOf (if r = .ss then 12 else 13) (some 0)
    (s.outside a r off n.bytes ∨ s.forbids r arWritable → ∀ v, memWrite a r off n v s = .error (.exc fault) s) ∧
    (s.outside a r off n.bytes ∨ s.forbids r arReadable → memRead a r off n s = .error (.exc fault) s)) ∧
  (∀ (s : State) (z : Sz) (m : Mem) (g : Gpr), s.pfx.lock = false → m.isOpen = false →
    let r := s.segOf m
    let fault := faultOf (if r = .ss then 12 else 13) (some 0)
    let out := s.outside m.size r (s.offsetOf m) z.width.bytes
    (out ∨ s.forbids r arWritable → exec (.mov (.mr z (.mem m) g)) s = takeEvent fault s.eip s) ∧
    (out ∨ s.forbids r arReadable → exec (.mov (.rm z g (.mem m))) s = takeEvent fault s.eip s))

/-- R202: a prefix is recorded, and nothing else happens; the segment override read last counts (D11).
That each prefix byte is a step of its own is the model's choice: log 6. -/
def Obligations.PrefixesRecord : Prop :=
  ∀ s : State,
    let p := s.pfx
    let k := s.pfx.count + 1
    exec .segEs s = .next { s with pfx := { p with seg := some .es, count := k } } ∧
    exec .segCs s = .next { s with pfx := { p with seg := some .cs, count := k } } ∧
    exec .segSs s = .next { s with pfx := { p with seg := some .ss, count := k } } ∧
    exec .segDs s = .next { s with pfx := { p with seg := some .ds, count := k } } ∧
    exec .segFs s = .next { s with pfx := { p with seg := some .fs, count := k } } ∧
    exec .segGs s = .next { s with pfx := { p with seg := some .gs, count := k } } ∧
    exec .opsize s = .next { s with pfx := { p with opsize := true, count := k } } ∧
    exec .adrsize s = .next { s with pfx := { p with adrsize := true, count := k } } ∧
    exec .lock s = .next { s with pfx := { p with lock := true, count := k } } ∧
    exec .repne s = .next { s with pfx := { p with rep := some .repne, count := k } } ∧
    exec .rep s = .next { s with pfx := { p with rep := some .rep, count := k } }

/-! Data movement. -/

/-- R303 to R306: every form of MOV writes its source to its destination, at the destination's width; no flag changes. -/
def Obligations.MovMoves : Prop :=
  ∀ (f : MovForm) (s : State), s.plain = true → movOk f s = true →
    let d := (movSpots f s).1
    Done (.mov f) s (d.store s (movSpots f s).2) .same d.regs (d.covers s)

/-- R315: XCHG exchanges its operands; no flag changes. LOCK may stand before the forms with memory. -/
def Obligations.XchgExchanges : Prop :=
  ∀ (f : XchgForm) (s : State), s.lockOk (xchgParts f).1.isMem = true → (xchgParts f).1.ok s .rmw = true →
    let d := (xchgParts f).1.spot s
    let r := (xchgParts f).2
    Done (.xchg f) s (r.store (d.store s (r.value s)) (d.value s)) .same (r.regs ++ d.regs) (d.covers s)

/-- R300, R310: PUSH stores the operand, read before the stack pointer changes, in the bytes below it. -/
def Obligations.PushStores : Prop :=
  ∀ (f : PushForm) (s : State),
    let n := (pushItem f s).1.width
    s.plain = true → pushOk f s = true → s.canPush n 1 = true →
    Done (.push f) s (s.pushed n [(pushItem f s).2]) .same [.sp] (s.pushCovers n 1)

/-- R301, R312: POP loads the item at the top of the stack. Where the stack pointer is the destination it keeps the popped
value, and a destination in memory is addressed after the stack pointer has moved: both are the spec's own decision D30
(log 35). -/
def Obligations.PopLoads : Prop :=
  (∀ (z : Sz) (g : Gpr) (s : State), s.plain = true → (s.above z.width 0).ok s .read = true →
    Done (.pop (.r z g)) s ((s.popped z.width.bytes).setRegZ z g ((s.above z.width 0).value s)) .same [.sp, g] noByte) ∧
  (∀ (z : Sz) (o : Rm) (s : State), s.plain = true → (s.above z.width 0).ok s .read = true →
    let u := s.popped z.width.bytes
    (o.place z).ok u .write = true →
    let d := (o.place z).spot u
    Done (.pop (.rm z o)) s (d.store u ((s.above z.width 0).value s)) .same (.sp :: d.regs) (d.covers u))

/-- R320, R321: PUSHA stores the eight registers, the stack pointer as it was; POPA loads seven of them. -/
def Obligations.AllRegistersPushedPopped : Prop :=
  (∀ (z : Sz) (s : State), s.plain = true → s.canPush z.width 8 = true →
    Done (.pusha z) s (s.pushed z.width ([Gpr.ax, .cx, .dx, .bx, .sp, .bp, .si, .di].map (s.regZ z))) .same [.sp]
      (s.pushCovers z.width 8)) ∧
  (∀ (z : Sz) (s : State), s.plain = true →
    ((List.range 8).all fun j => (s.above z.width (j * z.width.bytes)).ok s .read) = true →
    Done (.popa z) s ((s.loadItems z popaItems s).popped (8 * z.width.bytes)) .same
      [.ax, .cx, .dx, .bx, .sp, .bp, .si, .di] noByte)

/-- R325, R326, R330, R331: conversions by sign or zero extension; no flag changes. That MOVSX and MOVZX of a word with a
16-bit operand size (0F BF, 0F B7) move it unchanged is the spec's own inference, marked [derived] beside R330 and R331. -/
def Obligations.Extensions : Prop :=
  (∀ (z : Sz) (r : Gpr) (o : Rm8) (s : State), s.plain = true → o.place.ok s .read = true →
    let v := (o.place.spot s).value s
    Done (.movsx (.b z r o)) s (s.setRegZ z r (sextW .b v)) .same [r] noByte ∧
    Done (.movzx (.b z r o)) s (s.setRegZ z r v) .same [r] noByte) ∧
  (∀ (z : Sz) (r : Gpr) (o : Rm) (s : State), s.plain = true → o.place16.ok s .read = true →
    let v := (o.place16.spot s).value s
    Done (.movsx (.w z r o)) s (s.setRegZ z r (sextW .w v)) .same [r] noByte ∧
    Done (.movzx (.w z r o)) s (s.setRegZ z r v) .same [r] noByte) ∧
  (∀ os as, decode os as [0x98] = .unit (.cbw os) 1 ∧ decode os as [0x99] = .unit (.cwd os) 1) ∧
  (∀ s : State, s.plain = true →
    Done (.cbw .s16) s (s.setRegZ .s16 .ax (sextW .b (s.reg .ax))) .same [.ax] noByte ∧
    Done (.cbw .s32) s (s.setReg .ax (sextW .w (s.reg .ax))) .same [.ax] noByte) ∧
  (∀ (z : Sz) (s : State), s.plain = true →
    Done (.cwd z) s (s.setRegZ z .dx (if signedW z.width (s.regZ z .ax) < 0 then 0xFFFFFFFF else 0)) .same [.dx] noByte)

/-! Segment registers. -/

/-- R550, R552: a selector is stored as 16 bits; in a 32-bit register or item the upper half has any value (I14, D44, D45). -/
def Obligations.SelectorStores : Prop :=
  (∀ (z : Sz) (g : Gpr) (r : Sreg) (s : State), s.plain = true →
    ∃ w, lowHalf w = (s.sreg r).sel ∧ Done (.movFromSreg z (.reg g) r) s (s.setRegZ z g w) .same [g] noByte) ∧
  (∀ (z : Sz) (m : Mem) (r : Sreg) (s : State), s.plain = true → (Place.mem .w m).ok s .write = true →
    let d := (Place.mem .w m).spot s
    Done (.movFromSreg z (.mem m) r) s (d.store s (zext16 (s.sreg r).sel)) .same [] (d.covers s)) ∧
  (∀ (z : Sz) (r : Sreg) (s : State), s.plain = true → s.canPush z.width 1 = true →
    ∃ w, lowHalf w = (s.sreg r).sel ∧
      Done (.pushSreg z r) s (s.pushed z.width [w]) .same [.sp] (s.pushCovers z.width 1))

/-- R133, R162, R551, R553, R556: outside protected mode a load of a segment register reads no descriptor; a load of
SS by MOV or POP holds interrupts off for one instruction (R713). What stays of the hidden part is log 28's. -/
def Obligations.SelectorLoadsFlat : Prop :=
  (∀ (r : Sreg) (o : Rm) (s : State), s.plain = true → s.mode ≠ .prot → r ≠ .cs → o.place16.ok s .read = true →
    Done (.movToSreg r o) s (s.loadFlat r (selectorOf o s)) .same [] noByte ∧
    ∀ t, exec (.movToSreg r o) s = .next t → t.inhibit = (r == .ss)) ∧
  (∀ (z : Sz) (r : Sreg) (s : State), s.plain = true → s.mode ≠ .prot → r ≠ .cs →
    (s.above z.width 0).ok s .read = true →
    Done (.popSreg z r) s ((s.popped z.width.bytes).loadFlat r (lowHalf ((s.above z.width 0).value s))) .same [.sp] noByte ∧
    ∀ t, exec (.popSreg z r) s = .next t → t.inhibit = (r == .ss)) ∧
  (∀ (z : Sz) (g : Gpr) (m : Mem) (s : State), s.plain = true → s.mode ≠ .prot → farOk z m s = true →
    let u := fun r : Sreg => (s.loadFlat r (farSel z m s)).setRegZ z g (farOff z m s)
    Done (.lds z g m) s (u .ds) .same [g] noByte ∧ Done (.les z g m) s (u .es) .same [g] noByte ∧
    Done (.lfs z g m) s (u .fs) .same [g] noByte ∧ Done (.lgs z g m) s (u .gs) .same [g] noByte ∧
    Done (.lss z g m) s (u .ss) .same [g] noByte)

/-- R131, R132, R551, R553, R556: in protected mode MOV, POP, LDS, LES, LFS, LGS and LSS check the selector and its
descriptor in the order given, mark the descriptor accessed in memory and load the hidden part; a null selector in DS, ES,
FS or GS is loaded as one (R22); what fails a check raises its exception with every register as before. After MOV and POP
of SS interrupts are held off (R713). -/
def Obligations.SelectorLoadsProtected : Prop :=
  (∀ (r : Sreg) (o : Rm) (s : State), s.plain = true → s.mode = .prot → r ≠ .cs → o.place16.ok s .read = true →
    let sel := selectorOf o s
    s.selReadable sel = true →
    Loads (.movToSreg r o) s s r sel [] ∧
    (s.loadFault r sel = none → ∀ t, exec (.movToSreg r o) s = .next t → t.inhibit = (r == .ss))) ∧
  (∀ (z : Sz) (r : Sreg) (s : State), s.plain = true → s.mode = .prot → r ≠ .cs → (s.above z.width 0).ok s .read = true →
    let sel := lowHalf ((s.above z.width 0).value s)
    s.selReadable sel = true →
    Loads (.popSreg z r) s (s.popped z.width.bytes) r sel [.sp] ∧
    (s.loadFault r sel = none → ∀ t, exec (.popSreg z r) s = .next t → t.inhibit = (r == .ss))) ∧
  (∀ (z : Sz) (g : Gpr) (m : Mem) (s : State), s.plain = true → s.mode = .prot → farOk z m s = true →
    let sel := farSel z m s
    let u := s.setRegZ z g (farOff z m s)
    s.selReadable sel = true →
    Loads (.lds z g m) s u .ds sel [g] ∧ Loads (.les z g m) s u .es sel [g] ∧ Loads (.lfs z g m) s u .fs sel [g] ∧
    Loads (.lgs z g m) s u .gs sel [g] ∧ Loads (.lss z g m) s u .ss sel [g])

/-! Arithmetic and logic. -/

/-- R342 to R349, R381 to R385: ADD, ADC, SUB, SBB, AND, OR, XOR in every form; CMP and TEST set flags and write nothing;
INC and DEC keep CF, NOT keeps every flag. -/
def Obligations.AluResults : Prop :=
  Combines .add (fun n a b _ => addRes n a b false) ∧ Combines .adc addRes ∧
  Combines .sub (fun n a b _ => subRes n a b false) ∧ Combines .sbb subRes ∧
  Combines .and (fun n a b _ => logicRes n (a &&& b)) ∧ Combines .or (fun n a b _ => logicRes n (a ||| b)) ∧
  Combines .xor (fun n a b _ => logicRes n (a ^^^ b)) ∧
  (∀ (f : AluForm) (s : State), s.plain = true → f.operands.ok s .read = true →
    Done (.cmp f) s s
      (subRes f.operands.width ((f.operands.dst.spot s).value s) (f.operands.src.value s) false).flags [] noByte) ∧
  (∀ (f : TestForm) (s : State), s.plain = true → f.operands.ok s .read = true →
    Done (.test f) s s
      (logicRes f.operands.width ((f.operands.dst.spot s).value s &&& f.operands.src.value s)).flags [] noByte) ∧
  Modifies .inc IncForm.operand (fun _ _ n a _ => (addRes n a 1 false).keepCf) true ∧
  Modifies .dec IncForm.operand (fun _ _ n a _ => (subRes n a 1 false).keepCf) true ∧
  Modifies .neg UnForm.operand (fun _ _ n a _ => subRes n 0 a false) true ∧
  Modifies .not UnForm.operand (fun _ _ n a _ => { val := truncW n (~~~a), flags := .same }) true

/-- R360 to R363: MUL and IMUL: the product in the pair, or its lower half in a register. R365, R366: DIV and IDIV leave
quotient and remainder in the pair where the quotient exists and fits; else #DE is raised with every register as before
(R741). -/
def Obligations.ProductsAndQuotients : Prop :=
  (∀ (f : UnForm) (s : State), s.plain = true → f.operand.dst.ok s .read = true →
    let n := f.operand.width
    let b := (f.operand.dst.spot s).value s
    let a := s.pairLow n
    Done (.mul f) s (s.setPair n (highPart n (mulNat a b)) (lowPart n (mulNat a b)))
      (mulFlags (highPart n (mulNat a b) != 0)) (pairRegs n) noByte ∧
    Done (.imul1 f) s (s.setPair n (highPart n (imulNat n a b)) (lowPart n (imulNat n a b)))
      (mulFlags (imulBig n a b)) (pairRegs n) noByte) ∧
  (∀ (z : Sz) (r : Gpr) (o : Rm) (imm : Word) (imm8 : Byte) (s : State), s.plain = true → (o.place z).ok s .read = true →
    let v := ((o.place z).spot s).value s
    let i8 := truncZ z (imm8.signExtend 32)
    let done := fun (i : Instr) (a b : Word) =>
      Done i s (s.setRegZ z r (lowPart z.width (imulNat z.width a b))) (mulFlags (imulBig z.width a b)) [r] noByte
    done (.imul2 z r o) (s.regZ z r) v ∧ done (.imul3 (.immv z r o imm)) v (truncZ z imm) ∧
    done (.imul3 (.immb z r o imm8)) v i8) ∧
  (∀ (f : UnForm) (s : State), s.plain = true → f.operand.dst.ok s .read = true →
      let n := f.operand.width
      let d := (f.operand.dst.spot s).value s
      let one := fun (i : Instr) (x : Option (Word × Word)) =>
        match x with
        | some (q, r) => Done i s (s.setPair n r q) .undefined (pairRegs n) noByte
        | none => ∃ k, exec i s = takeEvent (faultOf 0 none) s.eip { s with draws := k }
      one (.div f) (divRes n (s.pairHigh n) (s.pairLow n) d) ∧ one (.idiv f) (idivRes n (s.pairHigh n) (s.pairLow n) d))

/-- R370 to R375: the decimal adjustments of AL and AH. That SF, ZF and PF of AAM and AAD come from the new AL is the spec's
decision D31 (log 35). AAM and AAD with another second byte than 0AH stop: nothing is said of them (R250, I2; log 18). -/
def Obligations.DecimalAdjusts : Prop :=
  ∀ s : State, s.plain = true →
    let al := s.reg8 .al
    let ah := s.reg8 .ah
    let carry := decide (9 < al.toNat % 16) || s.af
    Done .daa s (s.setReg8 .al (daaRes al s.af s.cf).1) (daaRes al s.af s.cf).2 [.ax] noByte ∧
    Done .das s (s.setReg8 .al (dasRes al s.af s.cf).1) (dasRes al s.af s.cf).2 [.ax] noByte ∧
    Done .aaa s ((s.setReg8 .al ((if carry then al + 6 else al) &&& 0x0F)).setReg8 .ah (if carry then ah + 1 else ah))
      (asciiFlags carry) [.ax] noByte ∧
    Done .aas s ((s.setReg8 .al ((if carry then al - 6 else al) &&& 0x0F)).setReg8 .ah (if carry then ah - 1 else ah))
      (asciiFlags carry) [.ax] noByte ∧
    Done (.aam 10) s ((s.setReg8 .al (BitVec.ofNat 8 (al.toNat % 10))).setReg8 .ah (BitVec.ofNat 8 (al.toNat / 10)))
      (decimalFlags (BitVec.ofNat 8 (al.toNat % 10)) .free .free) [.ax] noByte ∧
    Done (.aad 10) s ((s.setReg8 .al (BitVec.ofNat 8 (ah.toNat * 10 + al.toNat))).setReg8 .ah 0)
      (decimalFlags (BitVec.ofNat 8 (ah.toNat * 10 + al.toNat)) .free .free) [.ax] noByte ∧
    (∀ imm : Byte, imm ≠ 10 → exec (.aam imm) s = .refused .decimalBase ∧ exec (.aad imm) s = .refused .decimalBase)

/-- R394 to R399: CF is the bit selected, as it was; BTS, BTR, BTC set, clear, complement it in its unit. R401, R402: BSF
and BSR leave the least and the greatest index of a set bit, and ZF = 0; of zero, ZF = 1 and any value in the destination
(I12). The unit of memory that a register offset selects is of the operand size (D33), and an immediate offset is taken
modulo the operand size (D35): decisions of the spec, log 35. -/
def Obligations.BitTestsAndScans : Prop :=
  (∀ (f : BtForm) (s : State),
      let d := bitSpot f s
      let v := d.value s
      let k := bitNumber f.size (bitOffset f s)
      (s.plain = true → bitOk f s .read = true → Done (.bt f) s s (bitFlags (bit v k)) [] noByte) ∧
      (s.lockOk (f.base.place f.size).isMem = true → bitOk f s .rmw = true →
        Done (.bts f) s (d.store s (putBit v k true)) (bitFlags (bit v k)) d.regs (d.covers s) ∧
        Done (.btr f) s (d.store s (putBit v k false)) (bitFlags (bit v k)) d.regs (d.covers s) ∧
        Done (.btc f) s (d.store s (putBit v k (!bit v k))) (bitFlags (bit v k)) d.regs (d.covers s))) ∧
  (∀ (z : Sz) (r : Gpr) (o : Rm) (s : State), s.plain = true → (o.place z).ok s .read = true →
      let v := ((o.place z).spot s).value s
      let found := fun (i : Instr) (k : Nat) => Done i s (s.setRegZ z r (BitVec.ofNat 32 k)) (scanFlags false) [r] noByte
      let absent := fun (i : Instr) => ∃ w, Done i s (s.setRegZ z r w) (scanFlags true) [r] noByte
      (v = 0 → absent (.bsf z r o) ∧ absent (.bsr z r o)) ∧
      (v ≠ 0 →
        (∃ k, k < z.width.bits ∧ bit v k = true ∧ (∀ j, j < k → bit v j = false) ∧ found (.bsf z r o) k) ∧
        (∃ k, k < z.width.bits ∧ bit v k = true ∧ (∀ j, k < j → j < z.width.bits → bit v j = false) ∧ found (.bsr z r o) k)))

/-- R405 to R415: the shifts and rotates, with a count of five bits; the operand is written also by a count of 0 (for SHLD
and SHRD that is the model's choice, log 39). R409, R410: SHLD and SHRD shift in bits of the register; a count from the
operand's width on leaves any value and any flags (I12). -/
def Obligations.ShiftResults : Prop :=
  Modifies .rol ShiftForm.operand (fun f s n a cf => rolRes n (f.count s) a cf) false ∧
  Modifies .ror ShiftForm.operand (fun f s n a cf => rorRes n (f.count s) a cf) false ∧
  Modifies .rcl ShiftForm.operand (fun f s n a cf => rclRes n (f.count s) a cf) false ∧
  Modifies .rcr ShiftForm.operand (fun f s n a cf => rcrRes n (f.count s) a cf) false ∧
  Modifies .shl ShiftForm.operand (fun f s n a cf => shlRes n (f.count s) a cf) false ∧
  Modifies .shr ShiftForm.operand (fun f s n a cf => shrRes n (f.count s) a cf) false ∧
  Modifies .sar ShiftForm.operand (fun f s n a cf => sarRes n (f.count s) a cf) false ∧
  (∀ (z : Sz) (o : Rm) (r : Gpr) (c : DCount) (s : State), s.plain = true → (o.place z).ok s .rmw = true →
    let d := (o.place z).spot s
    let v := d.value s
    let src := s.regZ z r
    (∃ w, let x := shldRes z.width (c.masked s) v src w
      Done (.shld z o r c) s (d.store s x.val) x.flags d.regs (d.covers s)) ∧
    (∃ w, let x := shrdRes z.width (c.masked s) v src w
      Done (.shrd z o r c) s (d.store s x.val) x.flags d.regs (d.covers s))) ∧
  (∀ (n : Width) (k : Nat) (d s w : Word), d.toNat < 2 ^ n.bits → s.toNat < 2 ^ n.bits → k < n.bits →
    (shldRes n k d s w).val.toNat = (d.toNat * 2 ^ n.bits + s.toNat) * 2 ^ k / 2 ^ n.bits % 2 ^ n.bits ∧
    (shrdRes n k d s w).val.toNat = (s.toNat * 2 ^ n.bits + d.toNat) / 2 ^ k % 2 ^ n.bits)

/-- R340, R360, R361, R365, R366, R406 to R408, R411 to R415: what the operations on words mean as integers. Sums and
differences are those of integers modulo 2^N; CF tells an unsigned carry or borrow, OF that the signed result does not fit,
SF its sign, ZF that it is zero. The halves of a product make up the product; dividend = quotient · divisor + remainder with
a smaller remainder (of the dividend's sign), and no answer exactly when the divisor is 0 or the quotient does not fit. SHL
multiplies and SHR divides by a power of two, SAR divides rounding down; ROR undoes ROL, which has period N; RCR undoes RCL
on the operand and CF together, which has period N + 1. -/
def Obligations.ArithmeticIsInteger : Prop :=
  (∀ (n : Width) (a b : Word) (c : Bool), a.toNat < 2 ^ n.bits → b.toNat < 2 ^ n.bits →
      let x := addRes n a b c
      let y := subRes n a b c
      let sum : Int := signedW n a + signedW n b + c.toNat
      let dif : Int := signedW n a - signedW n b - c.toNat
      let fits : Int → Bool := fun v => decide (-(2 ^ (n.bits - 1) : Int) ≤ v ∧ v < 2 ^ (n.bits - 1))
      x.val.toNat = (a.toNat + b.toNat + c.toNat) % 2 ^ n.bits ∧
      x.flags.cf = .put (decide (2 ^ n.bits ≤ a.toNat + b.toNat + c.toNat)) ∧ x.flags.ofl = .put (!fits sum) ∧
      x.flags.sf = .put (decide (signedW n x.val < 0)) ∧ x.flags.zf = .put (decide (x.val.toNat = 0)) ∧
      (y.val.toNat : Int) = ((a.toNat : Int) - b.toNat - c.toNat) % 2 ^ n.bits ∧
      y.flags.cf = .put (decide (a.toNat < b.toNat + c.toNat)) ∧ y.flags.ofl = .put (!fits dif) ∧
      y.flags.sf = .put (decide (signedW n y.val < 0)) ∧ y.flags.zf = .put (decide (y.val.toNat = 0))) ∧
  (∀ (n : Width) (a b c : Word), a.toNat < 2 ^ n.bits → b.toNat < 2 ^ n.bits → c.toNat < 2 ^ n.bits →
      (highPart n (mulNat a b)).toNat * 2 ^ n.bits + (lowPart n (mulNat a b)).toNat = a.toNat * b.toNat ∧
      signedPair n (highPart n (imulNat n a b)) (lowPart n (imulNat n a b)) = signedW n a * signedW n b ∧
      (imulBig n a b = false ↔
        -(2 ^ (n.bits - 1) : Int) ≤ signedW n a * signedW n b ∧ signedW n a * signedW n b < 2 ^ (n.bits - 1)) ∧
      (match divRes n a b c with
       | some (q, r) => a.toNat * 2 ^ n.bits + b.toNat = q.toNat * c.toNat + r.toNat ∧ r.toNat < c.toNat ∧ q.toNat < 2 ^ n.bits
       | none => c.toNat = 0 ∨ 2 ^ n.bits * c.toNat ≤ a.toNat * 2 ^ n.bits + b.toNat) ∧
      (match idivRes n a b c with
       | some (q, r) =>
         signedPair n a b = signedW n q * signedW n c + signedW n r ∧ (signedW n r).natAbs < (signedW n c).natAbs ∧
         (signedW n r = 0 ∨ (signedW n r < 0 ↔ signedPair n a b < 0))
       | none => signedW n c = 0 ∨ (signedPair n a b).tdiv (signedW n c) < -(2 ^ (n.bits - 1) : Int) ∨
         (2 ^ (n.bits - 1) : Int) ≤ (signedPair n a b).tdiv (signedW n c))) ∧
  (∀ (n : Width) (c : Nat) (x : Word) (cf : Bool), c < 32 → x.toNat < 2 ^ n.bits →
      (shlRes n c x cf).val.toNat = x.toNat * 2 ^ c % 2 ^ n.bits ∧
      (shrRes n c x cf).val.toNat = x.toNat / 2 ^ c ∧
      signedW n (sarRes n c x cf).val = (signedW n x).fdiv (2 ^ c) ∧
      (rolRes n c x cf).val.toNat =
        x.toNat * 2 ^ (c % n.bits) % 2 ^ n.bits + x.toNat / 2 ^ (n.bits - c % n.bits) ∧
      (rorRes n c (rolRes n c x cf).val cf).val = x ∧
      (∀ b, (rclRes n c x cf).flags.cf = .put b → (rcrRes n c (rclRes n c x cf).val b).val = x ∧
        (rcrRes n c (rclRes n c x cf).val b).flags.cf = .put cf) ∧
      (n ≠ .d → c = n.bits + 1 → (rclRes n c x cf).val = x))

/-! Control transfer. -/

/-- R430, R431, R435 to R439: the conditional transfers go to their target, or to the next instruction; LOOP counts (E)CX
down first. A target beyond the limit of CS is #GP(0) with every register as before. -/
def Obligations.ConditionalJumps : Prop :=
  ∀ s : State, s.plain = true →
    let go := fun (i : Instr) (taken : Bool) (z : Sz) (r : Rel) (u : State) (regs : List Gpr) =>
      let t := relTarget s.eipNext z r
      if taken then (if s.inCode t then Goes i s u t regs noByte else exec i s = takeEvent (faultOf 13 (some 0)) s.eip s)
      else Goes i s u s.eipNext regs noByte
    (∀ (z : Sz) (c : Cond) (r : Rel), go (.jcc z c r) (s.cond c) z r s []) ∧
    (∀ (z a : Sz) (v : Byte), go (.jcxz z a v) (s.regZ a .cx == 0) z (.short v) s []) ∧
    (∀ (z a : Sz) (v : Byte),
      let more := truncZ a (s.regZ a .cx - 1) != 0
      go (.loop z a v) more z (.short v) (s.counted a) [.cx] ∧
      go (.loope z a v) (more && s.zf) z (.short v) (s.counted a) [.cx] ∧
      go (.loopne z a v) (more && !s.zf) z (.short v) (s.counted a) [.cx])

/-- R431 to R433, R441, R442, R447: near JMP, CALL and RET. -/
def Obligations.NearTransfers : Prop :=
  (∀ (f : NearForm) (s : State), s.plain = true → nearOk f s = true → s.inCode (nearGoal f s) = true →
    Goes (.jmpNear f) s s (nearGoal f s) [] noByte ∧
    (s.canPush (nearSize f).width 1 = true →
      Goes (.callNear f) s (s.pushed (nearSize f).width [s.eipNext]) (nearGoal f s) [.sp]
        (s.pushCovers (nearSize f).width 1))) ∧
  (∀ (z : Sz) (n : Option Half) (s : State), s.plain = true → (s.above z.width 0).ok s .read = true →
    let v := (s.above z.width 0).value s
    s.inCode v = true →
    Goes (.retNear z n) s ((s.popped z.width.bytes).popped (n.getD 0).toNat) v [.sp] noByte)

/-- R434, R443, R448, R475: far JMP, CALL, RET and IRET outside protected mode (IRET in V86 mode with IOPL 3). The limit and
rights of CS after a load in V86 mode are decision D9's, in real-address mode log 28's; that IRETD leaves VM alone in
real-address mode is decision D39 (log 35). -/
def Obligations.FarTransfersFlat : Prop :=
  (∀ (f : FarForm) (s : State), s.plain = true → s.mode ≠ .prot → farTargetOk f s = true →
    let (z, sel, off) := farTarget f s
    s.inCode off = true →
    Goes (.jmpFar f) s (s.flatCS sel) off [] noByte ∧
    (s.canPush z.width 2 = true → ∃ w, lowHalf w = s.seg.cs.sel ∧
      Goes (.callFar f) s ((s.pushed z.width [w, s.eipNext]).flatCS sel) off [.sp] (s.pushCovers z.width 2))) ∧
  (∀ (z : Sz) (n : Option Half) (s : State), s.plain = true → s.mode ≠ .prot →
    (s.above z.width 0).ok s .read = true → (s.above z.width z.width.bytes).ok s .read = true →
    let off := (s.above z.width 0).value s
    let sel := lowHalf ((s.above z.width z.width.bytes).value s)
    s.inCode off = true →
    Goes (.retFar z n) s ((s.flatCS sel).popped (2 * z.width.bytes + (n.getD 0).toNat)) off [.sp] noByte ∧
    ((s.mode = .v86 → s.iopl = 3) → (s.above z.width (2 * z.width.bytes)).ok s .read = true →
      DoneFlags (.iret z) s { (s.flatCS sel).popped (3 * z.width.bytes) with nmiInService := false } off
        (mergeBits (returnMask s z) ((s.above z.width (2 * z.width.bytes)).value s) s.eflags) [.sp] noByte))

/-- R450 to R453: far JMP and CALL in protected mode to a code segment at the same level, directly and through a call gate;
CALL pushes CS and the next address with items of the operand size or of the gate. -/
def Obligations.FarTransfersProtected : Prop :=
  ∀ (f : FarForm) (s : State), s.plain = true → s.mode = .prot → farTargetOk f s = true →
    let (z, sel, off) := farTarget f s
    let d := s.desc sel
    let goes := fun (n : Width) (csel : Half) (eip : Word) =>
      Goes (.jmpFar f) s (s.enterCode s csel s.cpl) eip [] (s.rightsByte csel) ∧
      (s.canPush n 2 = true → ∃ w, lowHalf w = s.seg.cs.sel ∧
        Goes (.callFar f) s (s.enterCode (s.pushed n [w, s.eipNext]) csel s.cpl) eip [.sp]
          (fun a => s.pushCovers n 2 a || s.rightsByte csel a))
    (s.codeSeg sel = true → (if arConforming d.ar then d.dpl ≤ s.cpl else selRpl sel ≤ s.cpl ∧ d.dpl = s.cpl) →
      off.toNat ≤ d.limit.toNat → goes z.width sel off) ∧
    (s.callGate sel = true → (s.desc d.gateSel).sameLevel s.cpl = true →
      d.gateOff.toNat ≤ (s.desc d.gateSel).limit.toNat → goes d.gateWidth d.gateSel d.gateOff)

/-- R454: CALL through a call gate to a more privileged level switches to the stack the TSS holds for it, pushes the old SS
and ESP, the parameters in their order, CS and the next address, and marks both new descriptors accessed. -/
def Obligations.GateCallsInner : Prop :=
  ∀ (f : FarForm) (s : State), s.plain = true → s.mode = .prot → farTargetOk f s = true →
    let g := s.desc (farTarget f s).2.1
    let c := s.desc g.gateSel
    let n := g.gateWidth
    let stack := (s.innerPointer c.dpl).1
    s.callGate (farTarget f s).2.1 = true → c.innerLevel s.cpl = true → g.gateOff.toNat ≤ c.limit.toNat →
    s.innerReady c.dpl n (4 + g.gateCount) = true →
    ((List.range g.gateCount).all fun j => (s.above n (j * n.bytes)).ok s .read) = true →
    let params := (List.range g.gateCount).map fun j => (s.above n (j * n.bytes)).value s
    let u := s.onInner c.dpl
    ∃ w, lowHalf w = s.seg.cs.sel ∧
      let p := u.pushed n ([zext16 s.seg.ss.sel, s.gpr.esp] ++ params.reverse ++ [w, s.eipNext])
      Goes (.callFar f) s { s.enterCode (s.accessed p stack) g.gateSel c.dpl with cpl := c.dpl } g.gateOff [.sp]
        (fun a => u.pushCovers n (4 + g.gateCount) a || s.rightsBytes stack g.gateSel a)

/-- R449, R477: far RET and IRET in protected mode to the same level: CS from its descriptor, marked accessed; IRET loads the
flags its level may change and ends the service of an NMI (R711). That only the lower word of the CS item need be readable is
log 41's choice. -/
def Obligations.FarReturnsProtected : Prop :=
  ∀ (z : Sz) (s : State), s.plain = true → s.mode = .prot →
    let n := z.width
    let off := (s.above n 0).value s
    let sel := lowHalf ((s.above .w n.bytes).value s)
    (s.above n 0).ok s .read = true → (s.above .w n.bytes).ok s .read = true → s.returnCode sel off = true →
    selRpl sel = s.cpl →
    (∀ imm : Option Half,
      Goes (.retFar z imm) s ((s.enterCode s sel s.cpl).popped (2 * n.bytes + (imm.getD 0).toNat)) off [.sp]
        (s.rightsByte sel)) ∧
    (let image := (s.above n (2 * n.bytes)).value s
     s.nt = false → s.stack.holds .prot (3 * n.bytes) = true → (s.above n (2 * n.bytes)).ok s .read = true →
     (z = .s32 → s.cpl = 0 → bit image 17 = false) →
     DoneFlags (.iret z) s { (s.enterCode s sel s.cpl).popped (3 * n.bytes) with nmiInService := false } off
       (mergeBits (returnMask s z) image s.eflags) [.sp] (s.rightsByte sel))

/-- R449, R477: the same to a less privileged level: SS and the stack pointer are loaded too, and DS, ES, FS and GS become
null where the new level may not keep them (D38). Above the items of the same level RET skips its operand. That
only the lower word of the CS item need be readable is log 41's choice. -/
def Obligations.FarReturnsOuter : Prop :=
  ∀ (z : Sz) (s : State) (imm : Option Half) (withFlags : Bool), s.plain = true → s.mode = .prot →
    (withFlags = true → imm = none ∧ s.nt = false) →
    let n := z.width
    let top := (if withFlags then 3 else 2) * n.bytes + (imm.getD 0).toNat
    let off := (s.above n 0).value s
    let sel := lowHalf ((s.above .w n.bytes).value s)
    let image := (s.above n (2 * n.bytes)).value s
    let stack := lowHalf ((s.above n (top + n.bytes)).value s)
    s.stack.holds .prot (top + 2 * n.bytes) = true → (s.above n 0).ok s .read = true →
    (s.above .w n.bytes).ok s .read = true → (withFlags = true → (s.above n (2 * n.bytes)).ok s .read = true) →
    (s.above n top).ok s .read = true → (s.above n (top + n.bytes)).ok s .read = true →
    s.returnCode sel off = true → s.cpl < selRpl sel → s.stackFor stack (selRpl sel) = true →
    (withFlags = true → z = .s32 → s.cpl = 0 → bit image 17 = false) →
    ∃ esp, outerPointer z (s.desc stack).db s.gpr.esp ((s.above n top).value s) ((imm.getD 0).setWidth 32) esp ∧
      let u := s.returned sel stack esp
      if withFlags then
        DoneFlags (.iret z) s { u with nmiInService := false } off (mergeBits (returnMask s z) image s.eflags) [.sp]
          (s.rightsBytes sel stack)
      else Goes (.retFar z imm) s u off [.sp] (s.rightsBytes sel stack)

/-- R730, R480: an exception or interrupt in V86 mode goes through a 386 DX or 80286 gate (decision D59) to level 0: on the
stack of the TSS, which is loaded with all of ESP, the segment registers, SS, ESP, EFLAGS, CS and the return address are
pushed, VM is cleared, and GS, FS, DS, ES are null (D60). IRETD at level 0 with VM in the image goes back: it loads them all
(what V86 mode loads with a selector: D9). The bits of the items that the spec leaves open have any value (I13, I14, I18); the
pushed RF is as in SameLevelDelivery, the reserved bits 1, 3, 5 and 15 of the pushed image are decision D3's. Every decision:
log 35. -/
def Obligations.V86Transitions : Prop :=
  (∀ (e : Exc) (ret : Word) (s : State), s.leaveReady e = true →
    EntersFromV86 (takeEvent e ret s) e ret s .running (gateEflags (s.gate e.vec).clearsIf s.outOfV86.eflags)) ∧
  (∀ s : State, s.plain = true → s.mode = .prot → s.cpl = 0 → s.nt = false → s.stack.holds .prot 36 = true →
    ((List.range 9).all fun j => (s.above .d (4 * j)).ok s .read) = true →
    let item := fun j => (s.above .d (4 * j)).value s
    let sel := fun j => SegReg.loadV86 (lowHalf (item j))
    bit (item 2) 17 = true → (item 0).toNat ≤ 0xFFFF →
    DoneFlags (.iret .s32) s
      { s.setReg .sp (item 3) with
        cpl := 3
        seg := { cs := sel 1, ss := sel 4, es := sel 5, ds := sel 6, fs := sel 7, gs := sel 8 }
        nmiInService := false }
      (item 0) (mergeBits (s.flagMask ||| 0x30000) (item 2) s.eflags) [.sp] noByte)

/-- R470 to R473, R730, R732: INT n, INT 3 and INTO with OF set deliver the software event of their vector with the next
address as return address: in real-address mode, through a gate of protected mode to the same or a more privileged level, from
V86 mode (INT n there with IOPL 3), or through a task gate; a gate whose DPL is below CPL is #GP. INTO with OF = 0 and BOUND
within its bounds do nothing, BOUND outside them is #BR, and bounds past the greatest offset are #GP(0) or #SS(0). In
real-address mode the rights and D of CS after the load are log 28's (DEDUCED). The reserved bits of the pushed flags are
decision D3's, entry from V86 mode through an 80286 gate and the null registers D59's and D60's (log 35). What a task switch
here rests on, TaskTransfers names (logs 24, 40, 42, 46). -/
def Obligations.SoftwareInterrupts : Prop :=
  (∀ (v : Byte) (s : State), s.plain = true →
    ((s.mode = .v86 → s.iopl = 3) → Interrupts (.int v) v s) ∧
    Interrupts .int3 3 s ∧ (s.ofl = true → Interrupts .into 4 s)) ∧
  (∀ s : State, s.plain = true → s.ofl = false → Done .into s s .same [] noByte) ∧
  (∀ (z : Sz) (r : Gpr) (m : Mem) (s : State), s.plain = true → m.isOpen = false →
    let ea := s.offsetOf m
    let lo := Spot.mem z.width m.size (s.segOf m) ea
    let hi := Spot.mem z.width m.size (s.segOf m) (ea + BitVec.ofNat 32 z.width.bytes)
    let raises := fun e => ∃ k, exec (.bound z r m) s = takeEvent e s.eip { s with draws := k }
    lo.ok s .read = true →
    if m.size.top < ea.toNat + z.width.bytes then raises (faultOf (Sreg.violation (s.segOf m)) (some 0))
    else hi.ok s .read = true →
      if signedW z.width (lo.value s) ≤ signedW z.width (s.regZ z r) ∧
         signedW z.width (s.regZ z r) ≤ signedW z.width (hi.value s)
      then Done (.bound z r m) s s .same [] noByte
      else raises (faultOf 5 none))

/-! Strings, block structure, flags. -/

/-- R490 to R492, R495, R496: MOVS, LODS, STOS, alone and repeated. That one iteration is one step is the model's choice
(log 6); that F2 before these instructions acts as F3 is decision D14 (log 7), that RF stays between iterations decision
D74 (log 35). -/
def Obligations.StringMoves : Prop :=
  ∀ (z a : Sz),
    let movs := fun (i : Instr) (n : Width) =>
      Repeats i a false (fun s => (s.source a n).ok s .read && (s.dest a n).ok s .write)
        (fun s u => u = ((((s.dest a n).store s ((s.source a n).value s)).stepped a .si n).stepped a .di n))
        (fun _ => .same) [.si, .di] (fun s => (s.dest a n).covers s)
    let lods := fun (i : Instr) (n : Width) =>
      Repeats i a false (fun s => (s.source a n).ok s .read)
        (fun s u => u = (s.setAcc n ((s.source a n).value s)).stepped a .si n) (fun _ => .same) [.ax, .si] (fun _ => noByte)
    let stos := fun (i : Instr) (n : Width) =>
      Repeats i a false (fun s => (s.dest a n).ok s .write)
        (fun s u => u = ((s.dest a n).store s (s.pairLow n)).stepped a .di n) (fun _ => .same) [.di]
        (fun s => (s.dest a n).covers s)
    movs (.movsb a) .b ∧ movs (.movsv z a) z.width ∧ lods (.lodsb a) .b ∧ lods (.lodsv z a) z.width ∧
    stos (.stosb a) .b ∧ stos (.stosv z a) z.width

/-- R490, R493, R494: CMPS and SCAS, alone and repeated; ZF ends the repetition as well as the count. That one iteration is
one step is the model's choice (log 6); that RF stays between iterations is decision D74 (log 35). -/
def Obligations.StringCompares : Prop :=
  ∀ (z a : Sz),
    let cmps := fun (i : Instr) (n : Width) =>
      Repeats i a true (fun s => (s.source a n).ok s .read && (s.dest a n).ok s .read)
        (fun s u => u = (s.stepped a .si n).stepped a .di n)
        (fun s => (subRes n ((s.source a n).value s) ((s.dest a n).value s) false).flags) [.si, .di] (fun _ => noByte)
    let scas := fun (i : Instr) (n : Width) =>
      Repeats i a true (fun s => (s.dest a n).ok s .read) (fun s u => u = s.stepped a .di n)
        (fun s => (subRes n (s.pairLow n) ((s.dest a n).value s) false).flags) [.di] (fun _ => noByte)
    cmps (.cmpsb a) .b ∧ cmps (.cmpsv z a) z.width ∧ scas (.scasb a) .b ∧ scas (.scasv z a) z.width

/-- R490, R564, R567, R568, R569: INS and OUTS, alone and repeated: where the level or the I/O permission map grants the
ports; where they deny them, #GP(0) with every register as before. What a port answers is the device's, and an access past
port FFFFH runs where the map grants it (N24): log 15. One iteration is one step (log 6), F2 acts as F3 (D14, log 7), RF
stays between iterations (D74, log 35). -/
def Obligations.StringPorts : Prop :=
  ∀ (z a : Sz),
    let port := fun s : State => (s.regZ .s16 .dx).toNat
    let ins := fun (i : Instr) (n : Width) =>
      Repeats i a false (fun s => s.ioOk (port s) n.bytes && (s.dest a n).ok s .write)
        (fun s u => ∃ v, truncW n v = v ∧ u = (((s.dest a n).store s v).stepped a .di n).told (.portRead (port s) n v))
        (fun _ => .same) [.di] (fun s => (s.dest a n).covers s)
    let outs := fun (i : Instr) (n : Width) =>
      Repeats i a false (fun s => s.ioOk (port s) n.bytes && (s.source a n).ok s .read)
        (fun s u => u = (s.stepped a .si n).told (.portWrite (port s) n ((s.source a n).value s)))
        (fun _ => .same) [.si] (fun _ => noByte)
    let denied := fun (i : Instr) (n : Width) => ∀ s : State, s.plain = true → s.ioDenied (port s) n.bytes = true →
      (s.pfx.rep = none ∨ s.regZ a .cx ≠ 0) → exec i s = takeEvent (faultOf 13 (some 0)) s.eip s
    ins (.insb a) .b ∧ ins (.insv z a) z.width ∧ outs (.outsb a) .b ∧ outs (.outsv z a) z.width ∧
    denied (.insb a) .b ∧ denied (.insv z a) z.width ∧ denied (.outsb a) .b ∧ denied (.outsv z a) z.width

/-- R510 to R512: ENTER builds a frame with the display of its level modulo 32; LEAVE undoes it. Where operand size and stack
size differ, the widths of the frame pointer and of the display items are decision D41's (log 35). -/
def Obligations.Frames : Prop :=
  (∀ (z : Sz) (size : Half) (level : Byte) (s : State), s.plain = true → s.canPush z.width 1 = true →
    canDisplay z (level.toNat % 32) (s.pushed z.width [s.regZ z .bp]) = true →
    Done (.enter z size level) s (entered z size (level.toNat % 32) s) .same [.bp, .sp]
      (s.pushCovers z.width (level.toNat % 32 + 1))) ∧
  (∀ (z : Sz) (s : State), s.plain = true → (s.atFrame.above z.width 0).ok s.atFrame .read = true →
    Done (.leave z) s ((s.atFrame.popped z.width.bytes).setRegZ z .bp ((s.atFrame.above z.width 0).value s.atFrame))
      .same [.bp, .sp] noByte)

/-- R515, R516, R517: STC, CLC and CMC set, clear and complement CF and change no other flag or register but EIP (and
RF, R786). -/
def Obligations.CarryFlagControl : Prop :=
  (∀ os as, decode os as [0xF9] = .unit .stc 1 ∧ decode os as [0xF8] = .unit .clc 1 ∧ decode os as [0xF5] = .unit .cmc 1) ∧
  (∀ s : State, s.plain = true →
    let leaves := fun (i : Instr) (b : Bool) => DoneFlags i s s s.eipNext (putBit (putBit s.eflags 0 b) 16 false) [] noByte
    leaves .stc true ∧ leaves .clc false ∧ leaves .cmc (!s.cf))

/-- R518, R519, R524, R525: CLD and STD; CLI and STI where CPL is within IOPL, else #GP(0); INTR waits one instruction
after an STI that set IF, and only then: decision D42 (log 35). -/
def Obligations.DirectionAndInterruptFlags : Prop :=
  ∀ s : State, s.plain = true →
    let leaves := fun (i : Instr) (k : Nat) (b : Bool) =>
      DoneFlags i s s s.eipNext (putBit (putBit s.eflags k b) 16 false) [] noByte
    let gp := fun i : Instr => exec i s = takeEvent (faultOf 13 (some 0)) s.eip s
    leaves .cld 10 false ∧ leaves .std 10 true ∧
    (if s.pe = true ∧ s.iopl < s.cpl.toNat then gp .cli ∧ gp .sti
     else leaves .cli 9 false ∧ leaves .sti 9 true ∧ ∀ t, exec .sti s = .next t → t.stiDelay = !s.ifl)

/-- R526, R527: LAHF copies SF, ZF, AF, PF, CF to bits 7, 6, 4, 2, 0 of AH (bits 5, 3, 1 have any value, I13) and changes
no flag; SAHF copies them back and changes no other flag (but RF, R786). -/
def Obligations.FlagsThroughAh : Prop :=
  (∀ os as, decode os as [0x9F] = .unit .lahf 1 ∧ decode os as [0x9E] = .unit .sahf 1) ∧
  (∀ s : State, s.plain = true →
    (∃ b : Byte,
      (b.getLsbD 7 = s.sf ∧ b.getLsbD 6 = s.zf ∧ b.getLsbD 4 = s.af ∧ b.getLsbD 2 = s.pf ∧ b.getLsbD 0 = s.cf) ∧
      Done .lahf s (s.setReg8 .ah b) .same [.ax] noByte) ∧
    DoneFlags .sahf s s s.eipNext (putBit (mergeBits 0xD5 (zext8 (s.reg8 .ah)) s.eflags) 16 false) [] noByte)

/-- R530, R531, R31: PUSHF and POPF; POPF changes only what the level may change. The reserved bits 1, 3, 5 and 15 of the image
that PUSHF stores are as decision D3 fixes them (R19, log 35); its bits 31:18 have any value (I13). -/
def Obligations.FlagTransfers : Prop :=
  ∀ s : State, s.plain = true →
    (s.vm = false ∨ s.iopl = 3 → s.canPush .w 1 = true →
      Done (.pushf .s16) s (s.pushed .w [fixReserved s.eflags]) .same [.sp] (s.pushCovers .w 1)) ∧
    (s.vm = false ∨ s.iopl = 3 → s.canPush .d 1 = true →
      ∃ w, w &&& 0x3FFFF = putBit (fixReserved s.eflags) 16 false &&& 0x3FFFF ∧
        Done (.pushf .s32) s (s.pushed .d [w]) .same [.sp] (s.pushCovers .d 1)) ∧
    (∀ z : Sz, s.vm = false ∨ s.iopl = 3 → (s.above z.width 0).ok s .read = true →
      DoneFlags (.popf z) s (s.popped z.width.bytes) s.eipNext
        (mergeBits s.flagMask ((s.above z.width 0).value s) s.eflags) [.sp] noByte)

/-- R420, R534, R536, R537: SETcc writes 1 or 0 to its byte; LEA gives the offset without an access (any value where it
is undefined, I3); NOP; XLAT. -/
def Obligations.SetAndTranslate : Prop :=
  ∀ s : State, s.plain = true →
    (∀ (z : Sz) (r : Gpr) (m : Mem),
      (m.isOpen = false → Done (.lea z r m) s (s.setRegZ z r (m.sum s.gpr)) .same [r] noByte) ∧
      (m.isOpen = true → ∃ w, Done (.lea z r m) s (s.setRegZ z r w) .same [r] noByte)) ∧
    Done .nop s s .same [] noByte ∧
    (∀ (c : Cond) (o : Rm8), o.place.ok s .write = true →
      let d := o.place.spot s
      Done (.setcc c o) s (d.store s (if s.cond c then 1 else 0)) .same d.regs (d.covers s)) ∧
    (∀ a : Sz,
      let e := Spot.mem .b a (s.segOr .ds) (truncZ a (s.regZ a .bx + zext8 (s.reg8 .al)))
      e.ok s .read = true → Done (.xlat a) s (s.setReg8 .al ((e.value s).setWidth 8)) .same [.ax] noByte)

/-- R540, R541, R256: WAIT: #NM, waiting while BUSY# is active, #MF, else nothing. ESC: #NM, #MF, else what it does is
the coprocessor's, and the model stops (D43, log 16); that every ESC tests ERROR# first is the default of a parameter
(log 30). An opcode reserved by Intel stops: nothing is said of it (log 17). -/
def Obligations.CoprocessorAndReserved : Prop :=
  (∀ s : State, s.plain = true →
    (s.mp = true → s.ts = true → exec .wait s = takeEvent (faultOf 7 none) s.eip s) ∧
    ((s.mp && s.ts) = false → s.busy = true → exec .wait s = .next { s with pfx := .empty }) ∧
    ((s.mp && s.ts) = false → s.busy = false → s.error = true → exec .wait s = takeEvent (faultOf 16 none) s.eip s) ∧
    ((s.mp && s.ts) = false → s.busy = false → s.error = false → Done .wait s s .same [] noByte)) ∧
  (∀ (opc ext : BitVec 3) (o : Rm) (s : State), s.pfx.lock = false →
    ((s.em || s.ts) = true → exec (.esc opc ext o) s = takeEvent (faultOf 7 none) s.eip s) ∧
    ((s.em || s.ts) = false → s.error = true → exec (.esc opc ext o) s = takeEvent (faultOf 16 none) s.eip s) ∧
    ((s.em || s.ts) = false → s.error = false →
      (match o with
       | .reg _ => true
       | .mem m => (Place.mem .b m).ok s .read) = true → exec (.esc opc ext o) s = .refused .coprocessor)) ∧
  (∀ (k : Reserved) (s : State), s.pfx.lock = false → exec (.intelReserved k) s = .refused .reservedOpcode)

/-! Ports, tables, control registers. -/

/-- R170, R173, R564 to R566, R569: IN and OUT, where the level or the I/O permission map of the TSS grants the ports: the
host is told, and IN loads what the port answers; where they deny them, #GP(0) with every register as before. What a port
answers, and that an access past port FFFFH runs where the map grants it (N24), are the model's choices: log 15. -/
def Obligations.Ports : Prop :=
  ∀ (n : Width) (p : Port) (s : State), s.plain = true →
    let port := portNumber p s
    (s.ioOk port n.bytes = true →
      (∃ v, truncW n v = v ∧ Done (.inp n p) s ((s.told (.portRead port n v)).setAcc n v) .same [.ax] noByte) ∧
      Done (.outp n p) s (s.told (.portWrite port n (s.pairLow n))) .same [] noByte) ∧
    (s.ioDenied port n.bytes = true →
      exec (.inp n p) s = takeEvent (faultOf 13 (some 0)) s.eip s ∧
      exec (.outp n p) s = takeEvent (faultOf 13 (some 0)) s.eip s)

/-- R580 to R583: LGDT and LIDT load 6 bytes (24 bits of the base with a 16-bit operand size); SGDT and SIDT store them
(what SGDT stores as its sixth byte with a 16-bit operand size is the model's choice, log 30). -/
def Obligations.TableRegisters : Prop :=
  ∀ (z : Sz) (m : Mem) (s : State), s.plain = true →
    (s.cpl = 0 → tableOk m s .read = true →
      Done (.lgdt z m) s { s with gdtr := tableValue z m s } .same [] noByte ∧
      Done (.lidt z m) s { s with idtr := tableValue z m s } .same [] noByte) ∧
    (tableOk m s .write = true →
      let bytes := fun a => (tableLimit m s).covers s a || (tableBase m s).covers s a
      Done (.sgdt z m) s (tableStored z m s.gdtr s) .same [] bytes ∧
      Done (.sidt z m) s (tableStored z m s.idtr s) .same [] bytes)

/-- R585 to R588: LLDT, SLDT, LTR and STR in protected mode; a selector that fails a check is refused with every register as
before. That SLDT and STR leave the upper half of a 32-bit register alone is decision D49, what LTR does with a null
selector or one outside the GDT decision D50 (log 35). -/
def Obligations.LocalTables : Prop :=
  (∀ (o : Rm) (s : State), s.plain = true → s.mode = .prot → s.cpl = 0 → o.place16.ok s .read = true →
    let sel := selectorOf o s
    let d := s.desc sel
    (selNull sel = true →
      Done (.lldt o) s { s with ldtr := { s.ldtr with sel := sel, valid := false } } .same [] noByte) ∧
    (selNull sel = false → selLdt sel = false → s.descIn sel = true → s.descFlat sel = true → d.present = true →
      (d.isSystem 2 = true →
        Done (.lldt o) s { s with ldtr := { sel := sel, base := d.base, limit := d.limit, valid := true } } .same [] noByte) ∧
      (d.isAvailTss = true →
        Done (.ltr o) s
          { s.setRights sel (d.ar ||| 2) with tr := { sel := sel, base := d.base, limit := d.limit, is386 := d.type == 9 } }
          .same [] (s.rightsByte sel))) ∧
    (let raises := fun (i : Instr) (e : Byte × Half) =>
       ∃ k, exec i s = takeEvent (faultOf e.1 (some e.2)) s.eip { s with draws := k }
     s.selReadable sel = true →
     (∀ e, s.ldtFault sel = some e → raises (.lldt o) e) ∧ (∀ e, s.tssFault sel = some e → raises (.ltr o) e))) ∧
  (∀ (o : Rm) (s : State), s.plain = true → s.mode = .prot → o.place16.ok s .write = true →
    let e := o.place16.spot s
    Done (.sldt o) s (e.store s (zext16 s.ldtr.sel)) .same e.regs (e.covers s) ∧
    Done (.str o) s (e.store s (zext16 s.tr.sel)) .same e.regs (e.covers s))

/-- R590 to R592, R632: LMSW loads PE, MP, EM, TS but does not clear PE, and ignores bits 15:4 (D51); SMSW, which leaves the
upper half of a 32-bit register alone (D49); CLTS; HLT halts. D49 and D51 are the spec's decisions: log 35.
EIP_next of an LMSW that changes PE is by the mode after the write: log 43 (DESIGN CHOICE). -/
def Obligations.StatusWord : Prop :=
  ∀ s : State, s.plain = true →
    (∀ o : Rm, s.cpl = 0 → o.place16.ok s .read = true →
      let v := (o.place16.spot s).value s
      let u := s.withCr0 (mergeBits 0xE v s.cr.cr0 ||| (v &&& 1))
      u.eipOpen = false → Goes (.lmsw o) s u u.eipNext [] noByte) ∧
    (∀ o : Rm, o.place16.ok s .write = true →
      let e := o.place16.spot s
      Done (.smsw o) s (e.store s (truncW .w s.cr.cr0)) .same e.regs (e.covers s)) ∧
    (s.cpl = 0 → Done .clts s (s.withCr0 (putBit s.cr.cr0 3 false)) .same [] noByte) ∧
    (s.cpl = 0 → Done .hlt s ({ s with activity := .halted }.told .halted) .same [] noByte)

/-- R600 to R602: MOV to and from control, debug and test registers at CPL 0; the status flags have any value after it. A
write of CR3 empties the TLB (R148); one of CR0 with PG = 1 and PE = 0 is #GP(0). While an in-circuit emulator uses the debug
registers a MOV to or from one is the debug exception with BD set in DR6, and Bn of the breakpoints that the instruction
matched (R601, R780, R784); nothing else changes. That reserved bits are stored and read back as written is the spec's
decision D52, that the general-detect fault is as here D73's (log 35); the place of BD is log 29's (PRESUMED); EIP_next of a
MOV CR0 that changes PE is by the mode after the write: log 43 (DESIGN CHOICE). -/
def Obligations.SpecialRegisters : Prop :=
  ∀ (r : Gpr) (s : State), s.plain = true → s.cpl = 0 →
    let v := s.reg r
    (∀ c : Creg, Done (.movFromCr r c) s (s.setReg r (s.cr.get c)) .undefined [r] noByte) ∧
    (∀ d : Dreg, s.iceActive = false → Done (.movFromDr r d) s (s.setReg r (s.dr.get d)) .undefined [r] noByte) ∧
    (∀ t : Treg, Done (.movFromTr r t) s (s.setReg r (s.tregs.get t)) .undefined [r] noByte) ∧
    ((bit v 31 = true → bit v 0 = true) → (s.withCr0 v).eipOpen = false →
      ∃ t, exec (.movToCr .cr0 r) s = .next t ∧ Like t (s.withCr0 v) ∧ t.eip = (s.withCr0 v).eipNext ∧
        FlagsOut.undefined.Allows s.eflags t.eflags) ∧
    (bit v 31 = true → bit v 0 = false → exec (.movToCr .cr0 r) s = takeEvent (faultOf 13 (some 0)) s.eip s) ∧
    Done (.movToCr .cr2 r) s { s with cr := { s.cr with cr2 := v } } .undefined [] noByte ∧
    Done (.movToCr .cr3 r) s { s with cr := { s.cr with cr3 := v }, tlb := tlbClear s.tlb } .undefined [] noByte ∧
    (∀ d : Dreg, s.iceActive = false → Done (.movToDr d r) s { s with dr := s.dr.set d v } .undefined [] noByte) ∧
    Done (.movToTr .tr7 r) s { s with tregs := { s.tregs with tr7 := v } } .undefined [] noByte ∧
    (∀ d : Dreg, s.iceActive = true →
      let u := { s with dr := { s.dr with dr6 := putBit s.dr.dr6 13 true ||| s.traps.hits.setWidth 32 } }
      exec (.movFromDr r d) s = takeEvent (faultOf 1 none) s.eip u ∧
      exec (.movToDr d r) s = takeEvent (faultOf 1 none) s.eip u)

/-- R53, R54, R855: MOV to TR6 with C (bit 0) clear writes a TLB entry: in the block TR7 names if PL is set, else in some
block; an undefined flag pair gives some bit; a tag that another valid entry has stops (I25). With C set it looks one up: it
reports the one entry that matches, or a miss; what several matches report, and a lookup with V clear while an entry has
never been written, is any value. The bit positions of TR6 and TR7 are log 29's (PRESUMED); the TLB as an array of 32
entries and these commands rest on logs 20 and 21 and decision D79. -/
def Obligations.TlbTest : Prop :=
  ∀ (r : Gpr) (s : State), s.plain = true → s.cpl = 0 →
    let v := s.reg r
    let w := { s with tregs := { s.tregs with tr6 := v } }
    let page := v.extractLsb' 12 20
    let named := s.tregs.tr7.extractLsb' 2 2
    (bit v 0 = false → bit s.tregs.tr7 4 = true → bit v 10 ≠ bit v 9 → bit v 8 ≠ bit v 7 → bit v 6 ≠ bit v 5 →
      (s.tlb.all fun e => !(e.valid && e.page == page)) = true →
      Done (.movToTr .tr6 r) s
        { w with tlb := tlbPut s.tlb (tlbIndex named page)
                   { valid := bit v 11, page := page, dirty := bit v 10, user := bit v 8, writable := bit v 6,
                     frame := s.tregs.tr7.extractLsb' 12 20, written := true } }
        .undefined [] noByte) ∧
    (bit v 0 = false → ∃ (free : Word) (block : BitVec 2), (bit s.tregs.tr7 4 = true → block = named) ∧
      let n := testEntry v s.tregs.tr7 free
      let i := tlbIndex block page
      if n.valid && tagElsewhere n i 0 s.tlb then exec (.movToTr .tr6 r) s = .refused .tlbTest
      else Done (.movToTr .tr6 r) s { w with tlb := tlbPut s.tlb i n } .undefined [] noByte) ∧
    (bit v 0 = true →
      let any := ∃ x y, Done (.movToTr .tr6 r) s { s with tregs := lookupOpen w.tregs x y } .undefined [] noByte
      if bit v 11 = false ∧ (s.tlb.any fun e => !e.written) = true then any
      else
        match tlbMatches v 0 s.tlb with
        | [(k, e)] => Done (.movToTr .tr6 r) s { s with tregs := lookupHit w.tregs k e } .undefined [] noByte
        | [] => ∃ free, Done (.movToTr .tr6 r) s { s with tregs := lookupMiss w.tregs free } .undefined [] noByte
        | _ :: _ :: _ => any)

/-- R610 to R628: LAR, LSL, VERR, VERW answer in ZF whether the selector may be used so, LAR and LSL with the rights and
the limit in bytes; ARPL raises an RPL. The spec's decisions (log 35): the Present bit is not tested (D53), LAR and LSL read
their source at the operand size (D54), LSL with a 16-bit operand size keeps the low half of the limit (D55), and ARPL checks
for writing before it compares (D56). -/
def Obligations.PointerChecks : Prop :=
  (∀ (z : Sz) (r : Gpr) (o : Rm) (s : State), s.plain = true → s.mode = .prot → (o.place z).ok s .read = true →
    let sel := lowHalf (((o.place z).spot s).value s)
    s.lookupOk sel = true →
    (match (s.lookup sel).filter (fun d => d.larType && d.visible s.cpl sel) with
     | none => Done (.lar z r o) s s (zfOnly false) [] noByte
     | some d => ∃ v, v &&& 0xFFF0FFFF = d.hi &&& (match z with | .s16 => 0xFF00 | .s32 => 0xF0FF00) ∧
         Done (.lar z r o) s (s.setRegZ z r v) (zfOnly true) [r] noByte) ∧
    (match (s.lookup sel).filter (fun d => d.lslType && d.visible s.cpl sel) with
     | none => Done (.lsl z r o) s s (zfOnly false) [] noByte
     | some d => Done (.lsl z r o) s (s.setRegZ z r d.limit) (zfOnly true) [r] noByte)) ∧
  (∀ (o : Rm) (s : State), s.plain = true → s.mode = .prot → o.place16.ok s .read = true →
    let sel := selectorOf o s
    s.lookupOk sel = true →
    Done (.verr o) s s (zfOnly ((s.lookup sel).any fun d => arReadable d.ar && d.visible s.cpl sel)) [] noByte ∧
    Done (.verw o) s s (zfOnly ((s.lookup sel).any fun d => arWritable d.ar && d.visible s.cpl sel)) [] noByte) ∧
  (∀ (o : Rm) (r : Gpr) (s : State), s.plain = true → s.mode = .prot → o.place16.ok s .rmw = true →
    let e := o.place16.spot s
    let v := e.value s
    if v.toNat % 4 < (s.reg r).toNat % 4
    then Done (.arpl o r) s (e.store s (BitVec.ofNat 32 (v.toNat / 4 * 4 + (s.reg r).toNat % 4))) (zfOnly true) e.regs
      (e.covers s)
    else Done (.arpl o r) s s (zfOnly false) [] noByte)

/-! Exceptions, interrupts, paging, tasks. -/

/-- R258: LOCK before an instruction, or a form of it, that may not be locked is #UD, with every register as before. -/
def Obligations.LockRefused : Prop :=
  ∀ (i : Instr) (s : State), s.pfx.lock = true → isPrefix i = false → lockable i = false →
    exec i s = takeEvent (faultOf 6 none) s.eip s

/-- R584 (in the order of decision D47: before any operand is looked at, log 35), R257, R470, R476, R530, R531: a
privileged instruction at CPL 1 to 3, and in V86 mode one that needs IOPL 3, is #GP(0); an instruction of protected
mode only is #UD elsewhere, whatever the level; every register is as before. -/
def Obligations.LevelAndModeRefused : Prop :=
  ∀ (i : Instr) (s : State), s.pfx.lock = false →
    (privileged i = true → s.cpl ≠ 0 → (s.mode = .prot ∨ protectedOnly i = false) →
      exec i s = takeEvent (faultOf 13 (some 0)) s.eip s) ∧
    (protectedOnly i = true → s.mode ≠ .prot → exec i s = takeEvent (faultOf 6 none) s.eip s) ∧
    (iopl3 i = true → s.mode = .v86 → s.iopl ≠ 3 → exec i s = takeEvent (faultOf 13 (some 0)) s.eip s)

/-- R732, R736: in real-address mode an exception or interrupt pushes FLAGS, CS and IP, clears IF and TF, and goes where
the interrupt table says; no error code is pushed. A vector beyond the table is a double fault (R749),
which pushes the return address of the event it replaces: decision D67 (log 35). The rights and D of CS after the load are
log 28's (DEDUCED), the reserved bits of the pushed FLAGS decision D3's (log 35). -/
def Obligations.RealDelivery : Prop :=
  (∀ (e : Exc) (ret : Word) (s : State), s.realReady e.vec = true →
    let u := { s.realEntered e.vec ret with activity := .running }
    Enters (takeEvent e ret s) s u u.eflags) ∧
  (∀ (e : Exc) (ret : Word) (s : State), e.kind ≠ .abort → s.idtr.limit.toNat < 4 * e.vec.toNat + 3 →
    s.realReady 8 = true →
    let u := { s.realEntered 8 ret with activity := .running }
    Enters (takeEvent e ret s) s u u.eflags)

/-- R730, R734, R755: through an interrupt or trap gate, 386 DX or 80286, to a handler at the same level: EFLAGS, CS and the
return address are pushed, then the error code, with items of the gate's width; TF and NT are cleared, IF too by an interrupt
gate; CS:EIP is the gate's. Upper halves of CS and of the error code, bits 15:3 of a page fault's code, and bits 31:18 of
EFLAGS have any value (I13, I14, I18). RF of the image is `imageRf`'s: 1 for a fault, else as decision D74 and log 30
(RF_ON_DEBUG_FAULT) say; its reserved bits are decision D3's, the width and place of the error code D58's. -/
def Obligations.SameLevelDelivery : Prop :=
  ∀ (e : Exc) (ret : Word) (s : State), s.sameReady e = true →
    EntersSame (takeEvent e ret s) e ret s .running (gateEflags (s.gate e.vec).clearsIf s.eflags)

/-- R730, R454: the same to a handler at a more privileged level, on the stack the TSS holds for it: the old SS and ESP are
pushed first, and both new descriptors are marked accessed. What SameLevelDelivery leaves open or rests on holds here too. -/
def Obligations.InnerLevelDelivery : Prop :=
  ∀ (e : Exc) (ret : Word) (s : State), s.raiseReady e = true →
    EntersInner (takeEvent e ret s) e ret s .running (gateEflags (s.gate e.vec).clearsIf s.eflags)

/-- R735, R749, R760: in protected mode with an empty interrupt table every exception and interrupt ends in shutdown, with
the registers as before. That entering shutdown also drops debug traps not yet reported and the inhibition of NMI is the
model's deduction: log 32 (DEDUCED); that it no longer stands between two iterations of a string instruction, its choice:
log 45 (DESIGN CHOICE). -/
def Obligations.EmptyTableShutsDown : Prop :=
  ∀ (e : Exc) (ret : Word) (s : State), s.pe = true → s.idtr.limit.toNat < 7 →
    takeEvent e ret s = .next (enterShutdown s)

/-- R632, R710 to R713, R716, R760, R781, R783, R787: at a boundary debug traps come first, then an enabled instruction
breakpoint at CS:EIP, unless RF is set, with Bn in DR6 of every breakpoint that matches, enabled or not; then NMI, then INTR
if IF is set and nothing holds it off; halted or shut down with no interrupt to take, nothing changes; TF makes a completed
NOP due for a trap. The next step reports it (log 23). What a setting of DR7 that is undefined matches is any value, and no
breakpoint is looked at between the iterations of a string instruction: log 25 (I20, D74). The places of the bits of DR6 are
log 29's (PRESUMED); that NMI ends shutdown while it is not in service, and that halt and shutdown are as here, rests on log
32 (D63). -/
def Obligations.Boundaries : Prop :=
  (∀ s : State, s.pfx.count = 0 → s.pinReset = none → s.pendingExc = none → s.traps.due = true →
    step s = takeEvent (plainEvent 1 .trap) s.eip
      { s with dr := { s.dr with dr6 := s.traps.dr6 s.dr.dr6 }, traps := .none }) ∧
  (∀ (s : State) (n : Nat), s.quiet = true → s.activity = .running → s.inhibit = false → s.midRep = false → n < 4 →
    s.breakpointAt n (s.seg.cs.base + s.eip) = true → dr7Enabled s.dr.dr7 n = true →
    if s.rf = true then breaksHere s = false
    else ∃ (bits : BitVec 4) (k : Nat),
      (∀ j, j < 4 → instrUndefined s.dr.dr7 j = false → bits.getLsbD j = s.breakpointAt j (s.seg.cs.base + s.eip)) ∧
      step s = takeEvent (plainEvent 1 .debugFault) s.eip
        { s with dr := { s.dr with dr6 := s.dr.dr6 ||| bits.setWidth 32 }, draws := k }) ∧
  (∀ s : State, s.quiet = true → (s.activity = .running → breaksHere s = false) →
    s.nmiPending = true → s.nmiInService = false → s.inhibit = false →
    step s = takeEvent (plainEvent 2 .external) s.eip { s with nmiPending := false, nmiInService := true }) ∧
  (∀ (s : State) (v : Byte), s.quiet = true → s.activity ≠ .shutdown → (s.activity = .running → breaksHere s = false) →
    nmiTaken s = false → s.intr = some v → s.ifl = true → s.inhibit = false → s.stiDelay = false →
    step s = takeEvent (plainEvent v .external) s.eip s) ∧
  (∀ s : State, s.quiet = true → nmiTaken s = false →
    (s.activity = .shutdown ∨ (s.activity = .halted ∧ (s.ifl = false ∨ s.intr = none))) → step s = .next s) ∧
  (∀ s : State, s.plain = true → ∃ t, exec .nop s = .next t ∧ t.traps.bs = s.tf)

/-- R146, R147, R149, R754, R755: a page walk that both levels allow gives the frame and sets the Accessed bits, and Dirty
for a write; one that ends at an entry that is not present, or at a level that refuses, is #PF with the address in CR2,
and no entry changes. That a read-modify-write access reports W/R = 0 unless its write permission fails is decision D71
(log 35); the bit positions of the entries and of the code are general knowledge of the family, as R146 and R755 say. -/
def Obligations.PageWalk : Prop :=
  ∀ (lin : Word) (user : Bool) (acc : Acc) (s : State), s.walks lin = true →
    let pde := s.pde lin
    let pte := s.pte lin
    let fault := fun (present wr : Bool) => ∃ t,
      translate lin user acc s = .error (.exc (faultOf 14 (some (pageCode present wr user)))) t ∧
      t.cr.cr2 = lin ∧ t.mem = s.mem ∧ t.gpr = s.gpr
    (pageGrants pde pte user acc = true → ∃ t,
      translate lin user acc s = .ok ((pte.extractLsb' 12 20).toNat * 4096 + lin.toNat % 4096) t ∧
      (∀ a, memGet t.mem a = memGet (writeLE (writeLE s.mem (s.pdeAddr lin) 4 (putBit pde 5 true)) (s.pteAddr lin) 4
        (if acc.writes then putBit (putBit pte 5 true) 6 true else putBit pte 5 true)) a) ∧ t.gpr = s.gpr) ∧
    (bit pde 0 = false ∨ bit pte 0 = false → fault false (acc == .write)) ∧
    (bit pde 0 = true → bit pte 0 = true → user = true → (bit pde 2 && bit pte 2) = false → fault true (acc == .write)) ∧
    (bit pde 0 = true → bit pte 0 = true → user = true → (bit pde 2 && bit pte 2) = true → acc.writes = true →
      (bit pde 1 && bit pte 1) = false → fault true true)

/-- R455, R478, R737: far JMP and CALL, to a TSS or through a task gate, IRET with NT set, and an event through a task gate
perform the task switch of R770; an IRET that completes ends the service of an NMI (R711). IRET with a back link that lies
beyond the limit of TR is #TS of TR (R145, R750, D37), with every register as before. What the switch does, the next two
statements say. That a fault of the new task is left pending for the next step is log 24's choice; that the debug traps are
then lost, and that an IRET which ends so leaves the NMI latch set, log 40's; that a null selector of a TSS is used like any
other, log 46's (all DESIGN CHOICE). That R145's check is made of the back link is log 42's (DEDUCED). -/
def Obligations.TaskTransfers : Prop :=
  (∀ (f : FarForm) (s : State) (tsel : Half), s.plain = true → s.mode = .prot → farTargetOk f s = true →
    s.taskTarget (farTarget f s).2.1 = some tsel →
    Switches (.jmpFar f) s tsel .jmp id ∧ Switches (.callFar f) s tsel .call id) ∧
  (∀ (z : Sz) (s : State), s.plain = true → s.mode = .prot → s.nt = true → s.backReady = true →
    Switches (.iret z) s s.backLink .iret fun t => { t with nmiInService := false }) ∧
  (∀ (z : Sz) (s : State), s.plain = true → s.mode = .prot → s.nt = true → s.tr.limit = 0 →
    exec (.iret z) s = takeEvent (faultOf 10 (some (selCode s.tr.sel false))) s.eip s) ∧
  (∀ (e : Exc) (ret : Word) (s : State), s.gateOpen e = true →
    let g := s.gate e.vec
    g.isSystem 5 = true → s.tssReady g.gateSel = true →
    ∃ (k : Nat) (code : Option Word), e.pushes code.toList ∧
      match taskSwitch g.gateSel (s.desc g.gateSel) .int ret (imageRf s e.kind) e.kind.ext code
          { s with draws := k, traps := .none } with
      | .ok () t => takeEvent e ret s = .next (atBoundary t)
      | .error (.exc x) t => x.committed = true →
        takeEvent e ret s = .next { atBoundary t with pendingExc := some { x with committed := false } }
      | .error (.fault x) _ => takeEvent e ret s = .fault x
      | .error (.refusal x) _ => takeEvent e ret s = .refused x)

/-- R770 steps 1 to 5, R775: with paging off a task switch saves EIP, EFLAGS (NT clear in the image of an IRET), the general
registers and the selectors in the old TSS, clears its busy bit (JMP, IRET) or writes the back link (CALL, interrupts), marks
the new TSS busy, loads TR and sets TS, all before it enters the new task. Too small a TSS is #TS with nothing saved, and so
is an old TSS whose limit in TR does not hold what is saved: R145's check, which R770 does not list (log 42, DEDUCED). Bits
31:18 of the saved image have any value (I13). The order of saves, busy bits and back link is decision D65's, the reserved
bits of the saved image D3's (log 35); the layout of an 80286 TSS is log 29's (PRESUMED). -/
def Obligations.TaskSwitchSaves : Prop :=
  ∀ (tsel : Half) (d : Desc) (kind : SwitchKind) (eip : Word) (rf ext : Bool) (code : Option Word) (s : State),
    (s.switchable d kind = true →
      ∃ image, (if kind = .iret then s.setFlag 14 false else s).isImage rf image ∧
        taskSwitch tsel d kind eip rf ext code s = asNewTask (enterTask d.isTss386 d.base kind ext code)
          { s.switchedOut tsel d kind eip image with draws := s.draws + 1 }) ∧
    (d.limit.toNat < tssLeast d.isTss386 →
      taskSwitch tsel d kind eip rf ext code s = .error (.exc (faultOf 10 (some (selCode tsel ext)))) s) ∧
    (tssLeast d.isTss386 ≤ d.limit.toNat → s.saveFits = false →
      taskSwitch tsel d kind eip rf ext code s = .error (.exc (faultOf 10 (some (selCode s.tr.sel ext)))) s)

/-- R770 steps 6 to 10, R773, R775 to R777: a task switch that completes has loaded TR, set CR0.TS, cleared the local
breakpoint enables, and set NT (CALL, interrupts) or cleared it (JMP). What entering a task loads, when it completes: CR3 and
the registers, selectors, EIP, EFLAGS and LDT selector the TSS holds (an 80286 one has no CR3, FS, GS nor upper halves),
with CPL that of CS, or 3 in V86 mode. A task whose segments pass their checks is entered. The places of the breakpoint
enables, mask 155H, and the layout of an 80286 TSS are log 29's (PRESUMED). The spec's decisions (log 35): CR3 is loaded
whether or not paging is on (D69), an 80286 TSS clears EFLAGS 31:16 (D68), the reserved bits of EFLAGS are fixed (D3), and
the order of the loads and checks (D65). -/
def Obligations.TaskSwitchCommits : Prop :=
  (∀ (tsel : Half) (d : Desc) (kind : SwitchKind) (eip : Word) (rf ext : Bool) (code : Option Word) (s t : State),
    taskSwitch tsel d kind eip rf ext code s = .ok () t →
    t.tr.sel = tsel ∧ t.tr.base = d.base ∧ t.tr.limit = d.limit ∧ t.ts = true ∧ t.dr.dr7 &&& 0x155 = 0 ∧
    (kind = .jmp → t.nt = false) ∧ (kind.nests = true → t.nt = true)) ∧
  (∀ (is386 : Bool) (base : Word) (kind : SwitchKind) (ext : Bool) (code : Option Word) (s t : State),
    s.flat base (tssLeast is386 + 1) = true → enterTask is386 base kind ext code s = .ok () t →
    (∀ r, (code = none ∨ r ≠ .sp) → s.tssRegs is386 base r (t.reg r)) ∧
    (∀ r, (t.sreg r).sel = s.tssSelector is386 base r) ∧
    t.eip = s.tssEip is386 base ∧ t.eflags = s.tssFlags is386 base kind ∧ t.ldtr.sel = s.tssLdt is386 base ∧
    t.cr.cr3 = (if is386 then s.tssField base 0x1C 4 else s.cr.cr3) ∧
    t.cpl = (if t.vm then 3 else selRpl (s.tssSelector is386 base .cs)) ∧
    (is386 = true → bit (s.tssField base 0x64 2) 0 = true → t.traps.bt = true)) ∧
  (∀ (is386 : Bool) (base : Word) (kind : SwitchKind) (ext : Bool) (s : State), s.enterable is386 base kind = true →
    ∃ t, enterTask is386 base kind ext none s = .ok () t)
end

