-- ==== Sys2Proof/Laws/Monad.lean ====
section
/-!
SUPPORT. Sys2Proof/Laws/Monad.lean: how the computations of one step are taken apart: what a sequence answers, and when.
-/
namespace Sys2Proof.Machine

variable {α β : Type}

@[simp] theorem M.pure_apply (a : α) (s : State) : (pure a : M α) s = .ok a s := rfl

/-- The first part answers, so the second runs from there. -/
theorem M.bind_ok {m : M α} {s t : State} {a : α} (f : α → M β) (h : m s = .ok a t) : (m >>= f) s = f a t := by
  show EStateM.bind m f s = _
  simp [EStateM.bind, h]

/-- The first part stops, so all stops. -/
theorem M.bind_stop {m : M α} {s t : State} {x : Stop} (f : α → M β) (h : m s = .error x t) : (m >>= f) s = .error x t := by
  show EStateM.bind m f s = _
  simp [EStateM.bind, h]

/-- A sequence answers when both parts do. -/
theorem M.bind_eq_ok {m : M α} {f : α → M β} {s u : State} {b : β} :
    (m >>= f) s = .ok b u ↔ ∃ a t, m s = .ok a t ∧ f a t = .ok b u := by
  constructor
  · intro h
    cases e : m s with
    | ok a t => exact ⟨a, t, rfl, by rw [M.bind_ok f e] at h; exact h⟩
    | error x t => rw [M.bind_stop f e] at h; cases h
  · rintro ⟨a, t, e, h⟩
    rw [M.bind_ok f e]; exact h

/-- A sequence stops when its first part does, or its second after it. -/
theorem M.bind_eq_error {m : M α} {f : α → M β} {s u : State} {x : Stop} :
    (m >>= f) s = .error x u ↔ m s = .error x u ∨ ∃ a t, m s = .ok a t ∧ f a t = .error x u := by
  constructor
  · intro h
    cases e : m s with
    | ok a t => exact .inr ⟨a, t, rfl, by rw [M.bind_ok f e] at h; exact h⟩
    | error y t => rw [M.bind_stop f e] at h; cases h; exact .inl rfl
  · rintro (h | ⟨a, t, e, h⟩)
    · exact M.bind_stop f h
    · rw [M.bind_ok f e]; exact h

@[simp] theorem M.look_apply (f : State → α) (s : State) : look f s = .ok (f s) s := rfl
@[simp] theorem M.upd_apply (f : State → State) (s : State) : upd f s = .ok () (f s) := rfl
@[simp] theorem M.look_bind (f : State → α) (k : α → M β) (s : State) : (look f >>= k) s = k (f s) s := rfl
@[simp] theorem M.upd_bind (f : State → State) (k : Unit → M β) (s : State) : (upd f >>= k) s = k () (f s) := rfl
@[simp] theorem M.pure_bind (a : α) (k : α → M β) (s : State) : ((pure a : M α) >>= k) s = k a s := rfl
@[simp] theorem M.stop_bind (x : Stop) (k : α → M β) (s : State) : ((stop x : M α) >>= k) s = .error x s := rfl

/-- A check passes. -/
@[simp] theorem M.require_true (v : Byte) (c : Option Half) (k : Unit → M β) (s : State) :
    (require true v c >>= k) s = k () s := rfl

/-- A check fails: the fault, with the state as it is. -/
@[simp] theorem M.require_false (v : Byte) (c : Option Half) (k : Unit → M β) (s : State) :
    (require false v c >>= k) s = .error (.exc { vec := v, kind := .fault, code := c, committed := false }) s := rfl

theorem M.require_eq_ok {b : Bool} {v : Byte} {c : Option Half} {s t : State} :
    require b v c s = .ok () t ↔ b = true ∧ t = s := by
  cases b
  · constructor
    · intro h; cases h
    · rintro ⟨h, _⟩; cases h
  · constructor
    · intro h; cases h; exact ⟨rfl, rfl⟩
    · rintro ⟨_, rfl⟩; rfl

theorem M.require_eq_error {b : Bool} {v : Byte} {c : Option Half} {s t : State} {x : Stop} :
    require b v c s = .error x t ↔
      b = false ∧ x = .exc { vec := v, kind := .fault, code := c, committed := false } ∧ t = s := by
  cases b
  · constructor
    · intro h; cases h; exact ⟨rfl, rfl, rfl⟩
    · rintro ⟨_, rfl, rfl⟩; rfl
  · constructor
    · intro h; cases h
    · rintro ⟨h, _⟩; cases h

/-- A free value: the counter moves on, nothing else. -/
@[simp] theorem M.drawWord_apply (s : State) :
    drawWord s = .ok (Config.freeWord s.draws) { s with draws := s.draws + 1 } := rfl
@[simp] theorem M.drawWord_bind (k : Word → M β) (s : State) :
    (drawWord >>= k) s = k (Config.freeWord s.draws) { s with draws := s.draws + 1 } := rfl

/-- What runs as the new task answers as it would alone. -/
theorem M.asNewTask_eq_ok {m : M α} {s t : State} {a : α} : asNewTask m s = .ok a t ↔ m s = .ok a t := by
  unfold asNewTask
  cases h : m s with
  | ok b u => simp
  | error x u => cases x <;> simp

end Sys2Proof.Machine
end

