-- ==== Sys2Proof/Laws/Memory.lean ====
section
/-!
SUPPORT. Sys2Proof/Laws/Memory.lean: physical memory. Every operation keeps the canonical form; a byte reads as last
written; reading and writing several bytes is `readLE` and `writeLE` where they are RAM.
-/
namespace Sys2Proof.Machine

/-! The canonical form. -/

theorem memAbove_weaken {m : List Host.Cell} {j k : Nat} (hjk : j ≤ k) (h : memAbove k m = true) : memAbove j m = true := by
  induction m with
  | nil => rfl
  | cons c m ih => simp only [memAbove, Bool.and_eq_true, decide_eq_true_eq] at h ⊢; exact ⟨by omega, ih h.2⟩

theorem memAbove_erase {m : List Host.Cell} (j k : Nat) (h : memAbove j m = true) : memAbove j (memErase k m) = true := by
  induction m with
  | nil => rfl
  | cons c m ih =>
    simp only [memAbove, Bool.and_eq_true] at h
    simp only [memErase]
    split
    · exact ih h.2
    · simp only [memAbove, Bool.and_eq_true]; exact ⟨h.1, ih h.2⟩

theorem memAbove_insert {m : List Host.Cell} {j k : Nat} (b : Byte) (hjk : j < k) (h : memAbove j m = true) :
    memAbove j (memInsert k b m) = true := by
  induction m with
  | nil => simp [memInsert, memAbove, hjk]
  | cons c m ih =>
    simp only [memAbove, Bool.and_eq_true] at h
    simp only [memInsert]
    split
    · simp only [memAbove, Bool.and_eq_true, decide_eq_true_eq]; exact ⟨hjk, by simpa using h.1, h.2⟩
    · split
      · simp only [memAbove, Bool.and_eq_true, decide_eq_true_eq]; exact ⟨hjk, h.2⟩
      · simp only [memAbove, Bool.and_eq_true]; exact ⟨h.1, ih h.2⟩

theorem memWf_erase {m : List Host.Cell} (k : Nat) (h : memWf m = true) : memWf (memErase k m) = true := by
  induction m with
  | nil => rfl
  | cons c m ih =>
    simp only [memWf, Bool.and_eq_true] at h
    simp only [memErase]
    split
    · exact ih h.2
    · simp only [memWf, Bool.and_eq_true]; exact ⟨⟨h.1.1, memAbove_erase _ _ h.1.2⟩, ih h.2⟩

theorem memWf_insert {m : List Host.Cell} (k : Nat) {b : Byte} (hb : b ≠ unlistedByte) (h : memWf m = true) :
    memWf (memInsert k b m) = true := by
  induction m with
  | nil => simpa [memInsert, memWf, memAbove] using hb
  | cons c m ih =>
    have h' := h
    simp only [memWf, Bool.and_eq_true] at h
    simp only [memInsert]
    split
    next hk =>
      simp only [memWf, memAbove, Bool.and_eq_true, decide_eq_true_eq]
      exact ⟨⟨by simpa using hb, hk, memAbove_weaken (by omega) h.1.2⟩, h.1, h.2⟩
    next hk =>
      split
      next he =>
        subst he
        simp only [memWf, Bool.and_eq_true]
        exact ⟨⟨by simpa using hb, h.1.2⟩, h.2⟩
      next he =>
        simp only [memWf, Bool.and_eq_true]
        exact ⟨⟨h.1.1, memAbove_insert b (by omega) h.1.2⟩, ih h.2⟩

/-- A byte write keeps the canonical form. -/
theorem memWf_memSet {m : List Host.Cell} (k : Nat) (b : Byte) (h : memWf m = true) : memWf (memSet m k b) = true := by
  unfold memSet
  split
  · exact memWf_erase k h
  next hb => exact memWf_insert k hb h

/-- The memory at reset is canonical: nothing is listed. -/
theorem memWf_reset : memWf State.reset.mem = true := rfl

/-- A write of several bytes keeps the canonical form. -/
theorem memWf_writeLE {m : List Host.Cell} (a n : Nat) (v : Word) (h : memWf m = true) : memWf (writeLE m a n v) = true := by
  induction n generalizing m a v with
  | zero => exact h
  | succ n ih => exact ih _ _ (memWf_memSet a _ h)

/-! Reading after writing. -/

theorem memGet_erase_same (m : List Host.Cell) (k : Nat) : memGet (memErase k m) k = unlistedByte := by
  induction m with
  | nil => rfl
  | cons c m ih =>
    simp only [memErase]
    split
    · exact ih
    next h => simp only [memGet, if_neg h]; exact ih

theorem memGet_erase_ne (m : List Host.Cell) {k a : Nat} (h : a ≠ k) : memGet (memErase k m) a = memGet m a := by
  induction m with
  | nil => rfl
  | cons c m ih =>
    simp only [memErase]
    split
    next e => simp only [memGet, ← e, if_neg h]; exact ih
    next => simp only [memGet, ih]

theorem memGet_insert_same (m : List Host.Cell) (k : Nat) (b : Byte) : memGet (memInsert k b m) k = b := by
  induction m with
  | nil => simp [memInsert, memGet]
  | cons c m ih =>
    simp only [memInsert]
    split
    · simp [memGet]
    · split
      · simp [memGet]
      next h => simp only [memGet, if_neg h]; exact ih

theorem memGet_insert_ne (m : List Host.Cell) {k a : Nat} (b : Byte) (h : a ≠ k) :
    memGet (memInsert k b m) a = memGet m a := by
  induction m with
  | nil => simp [memInsert, memGet, h]
  | cons c m ih =>
    simp only [memInsert]
    split
    · simp [memGet, h]
    · split
      next e => simp [memGet, ← e, h]
      next => simp only [memGet, ih]

/-- A byte reads as written. -/
@[simp] theorem memGet_memSet_same (m : List Host.Cell) (k : Nat) (b : Byte) : memGet (memSet m k b) k = b := by
  unfold memSet
  split
  next h => rw [memGet_erase_same, h]
  next => exact memGet_insert_same m k b

/-- A byte write leaves every other byte. -/
theorem memGet_memSet_ne (m : List Host.Cell) {k a : Nat} (b : Byte) (h : a ≠ k) : memGet (memSet m k b) a = memGet m a := by
  unfold memSet
  split
  · exact memGet_erase_ne m h
  · exact memGet_insert_ne m b h

/-- A write of several bytes leaves every byte outside them. -/
theorem memGet_writeLE_ne (m : List Host.Cell) (a n : Nat) (v : Word) {k : Nat} (h : k < a ∨ a + n ≤ k) :
    memGet (writeLE m a n v) k = memGet m k := by
  induction n generalizing m a v with
  | zero => rfl
  | succ n ih =>
    rw [writeLE, ih _ _ _ (by omega), memGet_memSet_ne _ _ (by omega)]

/-- The byte `k` places from the lowest is byte `k` of the value (R101). -/
theorem memGet_writeLE (m : List Host.Cell) (a n : Nat) (v : Word) {k : Nat} (h : k < n) :
    memGet (writeLE m a n v) (a + k) = v.extractLsb' (8 * k) 8 := by
  induction n generalizing m a v k with
  | zero => omega
  | succ n ih =>
    rw [writeLE]
    cases k with
    | zero =>
      rw [memGet_writeLE_ne _ _ _ _ (by omega), Nat.add_zero, memGet_memSet_same]
      apply BitVec.eq_of_getLsbD_eq
      intro i hi
      simp [hi]
    | succ k =>
      rw [show a + (k + 1) = (a + 1) + k by omega, ih _ _ _ (by omega)]
      apply BitVec.eq_of_getLsbD_eq
      intro i hi
      simp only [BitVec.getLsbD_extractLsb', BitVec.getLsbD_ushiftRight, hi, decide_true, Bool.true_and]
      congr 1; omega

/-- The bits of a value read (R101). -/
theorem getLsbD_readLE (m : List Host.Cell) (a n i : Nat) :
    (readLE m a n).getLsbD i = (decide (i < 8 * n ∧ i < 32) && (memGet m (a + i / 8)).getLsbD (i % 8)) := by
  induction n generalizing a i with
  | zero => simp [readLE]
  | succ n ih =>
    rw [readLE, zext8, BitVec.getLsbD_or, BitVec.getLsbD_setWidth, BitVec.getLsbD_shiftLeft, ih]
    by_cases h8 : i < 8
    · rw [Nat.div_eq_of_lt h8, Nat.mod_eq_of_lt h8]
      simp [h8, show i < 32 by omega, show i < 8 * (n + 1) by omega]
    · have e : a + 1 + (i - 8) / 8 = a + i / 8 := by omega
      have e2 : (i - 8) % 8 = i % 8 := by omega
      rw [e, e2, BitVec.getLsbD_of_ge (memGet m a) i (by omega)]
      by_cases h : i < 8 * (n + 1) ∧ i < 32
      · have h' : i - 8 < 8 * n ∧ i - 8 < 32 := by omega
        simp [h.1, h.2, h'.1, h'.2, h8]
      · by_cases h32 : i < 32
        · have h' : ¬ (i - 8 < 8 * n) := by omega
          have h'' : ¬ (i < 8 * (n + 1)) := by omega
          simp [h', h'', h32]
        · simp [h32]

/-- Reading depends on the bytes read only. -/
theorem readLE_congr {m k : List Host.Cell} {a n : Nat} (h : ∀ j, j < n → memGet m (a + j) = memGet k (a + j)) :
    readLE m a n = readLE k a n := by
  induction n generalizing a with
  | zero => rfl
  | succ n ih =>
    simp only [readLE]
    have h0 := h 0 (by omega)
    rw [Nat.add_zero] at h0
    rw [h0, ih (a := a + 1) fun j hj => by
      have := h (j + 1) (by omega)
      rw [show a + (j + 1) = a + 1 + j by omega] at this
      exact this]

theorem readLE_writeLE_ne (m : List Host.Cell) {a n b k : Nat} (v : Word) (h : a + n ≤ b ∨ b + k ≤ a) :
    readLE (writeLE m b k v) a n = readLE m a n :=
  readLE_congr fun j hj => memGet_writeLE_ne m b k v (by omega)

/-- What was written is read, at the width written. -/
theorem readLE_writeLE (m : List Host.Cell) (a : Nat) (n : Width) (v : Word) :
    readLE (writeLE m a n.bytes v) a n.bytes = truncW n v := by
  apply BitVec.eq_of_getLsbD_eq
  intro i hi
  rw [getLsbD_readLE]
  by_cases h : i < 8 * n.bytes
  · rw [memGet_writeLE _ _ _ _ (by omega), BitVec.getLsbD_extractLsb']
    have e : 8 * (i / 8) + i % 8 = i := by omega
    have e2 : i % 8 < 8 := by omega
    rw [e]
    cases n <;> simp only [Width.bytes] at h <;>
      simp [truncW, zext8, zext16, h, hi, e2, Width.bytes]
  · have : (decide (i < 8 * n.bytes ∧ i < 32)) = false := by simp only [decide_eq_false_iff_not]; omega
    rw [this, Bool.false_and]
    cases n <;> simp only [Width.bytes] at h <;> simp [truncW, zext8, zext16, BitVec.getLsbD_setWidth, hi] <;> omega

/-- A value of n bytes is below 2^8n. -/
theorem readLE_lt (m : List Host.Cell) (a : Nat) (n : Width) : (readLE m a n.bytes).toNat < 2 ^ n.bits := by
  have key : readLE m a n.bytes = truncW n (readLE m a n.bytes) := by
    apply BitVec.eq_of_getLsbD_eq
    intro i hi
    cases n
    · by_cases h : i < 8 <;>
        simp only [truncW, zext8, BitVec.getLsbD_setWidth, getLsbD_readLE, Width.bytes, hi, h, decide_true, decide_false,
          Bool.true_and, Bool.false_and, Nat.mul_one, and_true]
    · by_cases h : i < 16 <;>
        simp only [truncW, zext16, BitVec.getLsbD_setWidth, getLsbD_readLE, Width.bytes, hi, h, decide_true, decide_false,
          Bool.true_and, Bool.false_and, Nat.reduceMul, and_true]
    · rfl
  rw [key]
  cases n
  · simp [truncW, zext8, Width.bits]; omega
  · simp [truncW, zext16, Width.bits]; omega
  · exact BitVec.isLt _

/-! The monad's reads and writes of RAM. -/

theorem State.isRam_succ {s : State} {a n : Nat} (h : s.isRam a (n + 1) = true) :
    kindAt s.memMap a = .ram ∧ s.isRam (a + 1) n = true := by
  simp only [State.isRam, List.all_eq_true, List.mem_range] at h ⊢
  refine ⟨by simpa using h 0 (by omega), fun k hk => ?_⟩
  have := h (k + 1) (by omega)
  rwa [show a + (k + 1) = a + 1 + k by omega] at this

/-- RAM is no device. -/
theorem State.onDevice_ram {s : State} {a n : Nat} (h : s.isRam a n = true) : s.onDevice (addrsFrom a n) = false := by
  induction n generalizing a with
  | zero => rfl
  | succ n ih =>
    obtain ⟨hk, hr⟩ := State.isRam_succ h
    have := ih hr
    simp only [State.onDevice, addrsFrom, List.any_cons, hk] at this ⊢
    rw [this]
    rfl

theorem readBytes_ram {s : State} {a n : Nat} (h : s.isRam a n = true) :
    readBytes (addrsFrom a n) s = .ok (readLE s.mem a n) s := by
  induction n generalizing a with
  | zero => rfl
  | succ n ih =>
    obtain ⟨hk, hr⟩ := State.isRam_succ h
    have e : physRead a s = .ok (memGet s.mem a) s := by simp [physRead, hk]
    rw [addrsFrom, readBytes, M.bind_ok _ e, M.bind_ok _ (ih hr)]
    rfl

/-- Reading RAM answers the value and changes nothing. -/
theorem readAddrs_ram {s : State} {a n : Nat} (h : s.isRam a n = true) :
    readAddrs (addrsFrom a n) s = .ok (readLE s.mem a n) s := by
  unfold readAddrs
  rw [M.look_bind, State.onDevice_ram h]
  exact readBytes_ram h

theorem writeBytes_ram {s : State} {a n : Nat} (v : Word) (h : s.isRam a n = true) :
    writeBytes (addrsFrom a n) v s = .ok () { s with mem := writeLE s.mem a n v } := by
  induction n generalizing a v s with
  | zero => rfl
  | succ n ih =>
    obtain ⟨hk, hr⟩ := State.isRam_succ h
    have e : physWrite a (v.setWidth 8) s = .ok () { s with mem := memSet s.mem a (v.setWidth 8) } := by
      simp [physWrite, hk]
    rw [addrsFrom, writeBytes, M.bind_ok _ e]
    have := ih (s := { s with mem := memSet s.mem a (v.setWidth 8) }) (a := a + 1) (v >>> 8) hr
    rw [this]
    rfl

/-- Writing RAM changes the memory alone. -/
theorem writeAddrs_ram {s : State} {a n : Nat} (v : Word) (h : s.isRam a n = true) :
    writeAddrs (addrsFrom a n) v s = .ok () { s with mem := writeLE s.mem a n v } := by
  unfold writeAddrs
  rw [M.look_bind, State.onDevice_ram h]
  exact writeBytes_ram v h

/-- Whether a computation answers or stops, its state is related so to the state it started from. -/
def Leaves {α : Type} (R : State → State → Prop) (m : M α) : Prop :=
  ∀ s, match m s with
    | .ok _ t => R s t
    | .error _ t => R s t

theorem Leaves.bind {α β : Type} {R : State → State → Prop} (ht : ∀ {s t u}, R s t → R t u → R s u) {m : M α} {f : α → M β}
    (h : Leaves R m) (k : ∀ a, Leaves R (f a)) : Leaves R (m >>= f) := by
  intro s
  have hs := h s
  cases e : m s with
  | ok a t =>
    rw [M.bind_ok f e]
    rw [e] at hs
    have := k a t
    cases e' : f a t with
    | ok b u => rw [e'] at this; exact ht hs this
    | error x u => rw [e'] at this; exact ht hs this
  | error x t => rw [M.bind_stop f e]; rw [e] at hs; exact hs

theorem Leaves.ite {α : Type} {R : State → State → Prop} {b : Prop} [Decidable b] {m k : M α} (h : Leaves R m)
    (h' : Leaves R k) : Leaves R (if b then m else k) := by
  split
  · exact h
  · exact h'

/-- Only free values were drawn and the host told (R171). -/
def Asked (s t : State) : Prop := ∃ k e, t = { s with draws := k, events := e }

theorem Asked.refl (s : State) : Asked s s := ⟨_, _, rfl⟩

theorem Asked.trans {s t u : State} (h : Asked s t) (k : Asked t u) : Asked s u := by
  obtain ⟨a, b, rfl⟩ := h
  obtain ⟨c, d, rfl⟩ := k
  exact ⟨c, d, rfl⟩

theorem physRead_asks (a : Nat) : Leaves Asked (physRead a) := by
  intro s
  unfold physRead
  cases kindAt s.memMap a
  · exact .refl s
  · exact .refl s
  · exact ⟨_, _, rfl⟩
  · exact .refl s

theorem readBytes_asks (as : List Nat) : Leaves Asked (readBytes as) := by
  induction as with
  | nil => exact .refl
  | cons a as ih => exact .bind .trans (physRead_asks a) fun _ => .bind .trans ih fun _ => .refl

theorem readParts_asks (k : Nat) (as : List Nat) : Leaves Asked (readParts k as) := by
  induction k generalizing as with
  | zero => exact .refl
  | succ k ih =>
    exact .ite .refl (.bind .trans (.bind .trans (m := look _) .refl fun _ => .ite (fun _ => ⟨_, _, rfl⟩) (readBytes_asks _))
      fun _ => .bind .trans (ih _) fun _ => .refl)

/-- Reading changes at most what devices do: the free values drawn and what the host is told (R171). -/
theorem readAddrs_asks (as : List Nat) : Leaves Asked (readAddrs as) :=
  .bind .trans (m := look _) .refl fun _ => .ite (readParts_asks _ _) (readBytes_asks _)

/-- Only memory was written, its canonical form kept, and the host told. -/
def Written (s t : State) : Prop := ∃ m e, t = { s with mem := m, events := e } ∧ (memWf s.mem = true → memWf m = true)

theorem Written.refl (s : State) : Written s s := ⟨_, _, rfl, id⟩

theorem Written.trans {s t u : State} (h : Written s t) (k : Written t u) : Written s u := by
  obtain ⟨a, b, rfl, h⟩ := h
  obtain ⟨c, d, rfl, k⟩ := k
  exact ⟨c, d, rfl, fun x => k (h x)⟩

theorem physWrite_writes (a : Nat) (b : Byte) : Leaves Written (physWrite a b) := by
  intro s
  unfold physWrite
  cases kindAt s.memMap a
  · exact ⟨_, _, rfl, memWf_memSet a b⟩
  · exact .refl s
  · exact ⟨_, _, rfl, id⟩
  · exact .refl s

theorem writeBytes_writes (as : List Nat) (v : Word) : Leaves Written (writeBytes as v) := by
  induction as generalizing v with
  | nil => exact .refl
  | cons a as ih => exact .bind .trans (physWrite_writes a _) fun _ => ih _

theorem writeParts_writes (k : Nat) (as : List Nat) (v : Word) : Leaves Written (writeParts k as v) := by
  induction k generalizing as v with
  | zero => exact .refl
  | succ k ih =>
    exact .ite .refl (.bind .trans (.bind .trans (m := look _) .refl fun _ => .ite (fun _ => ⟨_, _, rfl, id⟩)
      (writeBytes_writes _ _)) fun _ => ih _ _)

/-- Writing changes the memory, keeping its canonical form, and what the host is told; a stop leaves what was written
before it. -/
theorem writeAddrs_writes (as : List Nat) (v : Word) : Leaves Written (writeAddrs as v) :=
  .bind .trans (m := look _) .refl fun _ => .ite (writeParts_writes _ _ _) (writeBytes_writes _ _)

end Sys2Proof.Machine
end

