-- ==== Sys2Proof/Laws/State.lean ====
section
/-!
SUPPORT. Sys2Proof/Laws/State.lean: what each update of State leaves alone, field by field, and what a register reads
as after a write.
-/
namespace Sys2Proof.Machine

/-! `State.setReg`. -/

@[simp] theorem State.setReg_eip (s : State) (r : Gpr) (v : Word) : (s.setReg r v).eip = s.eip := rfl
@[simp] theorem State.setReg_eflags (s : State) (r : Gpr) (v : Word) : (s.setReg r v).eflags = s.eflags := rfl
@[simp] theorem State.setReg_cpl (s : State) (r : Gpr) (v : Word) : (s.setReg r v).cpl = s.cpl := rfl
@[simp] theorem State.setReg_seg (s : State) (r : Gpr) (v : Word) : (s.setReg r v).seg = s.seg := rfl
@[simp] theorem State.setReg_gdtr (s : State) (r : Gpr) (v : Word) : (s.setReg r v).gdtr = s.gdtr := rfl
@[simp] theorem State.setReg_idtr (s : State) (r : Gpr) (v : Word) : (s.setReg r v).idtr = s.idtr := rfl
@[simp] theorem State.setReg_ldtr (s : State) (r : Gpr) (v : Word) : (s.setReg r v).ldtr = s.ldtr := rfl
@[simp] theorem State.setReg_tr (s : State) (r : Gpr) (v : Word) : (s.setReg r v).tr = s.tr := rfl
@[simp] theorem State.setReg_cr (s : State) (r : Gpr) (v : Word) : (s.setReg r v).cr = s.cr := rfl
@[simp] theorem State.setReg_dr (s : State) (r : Gpr) (v : Word) : (s.setReg r v).dr = s.dr := rfl
@[simp] theorem State.setReg_tregs (s : State) (r : Gpr) (v : Word) : (s.setReg r v).tregs = s.tregs := rfl
@[simp] theorem State.setReg_tlb (s : State) (r : Gpr) (v : Word) : (s.setReg r v).tlb = s.tlb := rfl
@[simp] theorem State.setReg_activity (s : State) (r : Gpr) (v : Word) : (s.setReg r v).activity = s.activity := rfl
@[simp] theorem State.setReg_inhibit (s : State) (r : Gpr) (v : Word) : (s.setReg r v).inhibit = s.inhibit := rfl
@[simp] theorem State.setReg_stiDelay (s : State) (r : Gpr) (v : Word) : (s.setReg r v).stiDelay = s.stiDelay := rfl
@[simp] theorem State.setReg_nmiInService (s : State) (r : Gpr) (v : Word) : (s.setReg r v).nmiInService = s.nmiInService := rfl
@[simp] theorem State.setReg_nmiPending (s : State) (r : Gpr) (v : Word) : (s.setReg r v).nmiPending = s.nmiPending := rfl
@[simp] theorem State.setReg_intr (s : State) (r : Gpr) (v : Word) : (s.setReg r v).intr = s.intr := rfl
@[simp] theorem State.setReg_lateHits (s : State) (r : Gpr) (v : Word) : (s.setReg r v).lateHits = s.lateHits := rfl
@[simp] theorem State.setReg_pinReset (s : State) (r : Gpr) (v : Word) : (s.setReg r v).pinReset = s.pinReset := rfl
@[simp] theorem State.setReg_busy (s : State) (r : Gpr) (v : Word) : (s.setReg r v).busy = s.busy := rfl
@[simp] theorem State.setReg_error (s : State) (r : Gpr) (v : Word) : (s.setReg r v).error = s.error := rfl
@[simp] theorem State.setReg_iceActive (s : State) (r : Gpr) (v : Word) : (s.setReg r v).iceActive = s.iceActive := rfl
@[simp] theorem State.setReg_mem (s : State) (r : Gpr) (v : Word) : (s.setReg r v).mem = s.mem := rfl
@[simp] theorem State.setReg_memMap (s : State) (r : Gpr) (v : Word) : (s.setReg r v).memMap = s.memMap := rfl
@[simp] theorem State.setReg_pfx (s : State) (r : Gpr) (v : Word) : (s.setReg r v).pfx = s.pfx := rfl
@[simp] theorem State.setReg_ilen (s : State) (r : Gpr) (v : Word) : (s.setReg r v).ilen = s.ilen := rfl
@[simp] theorem State.setReg_midRep (s : State) (r : Gpr) (v : Word) : (s.setReg r v).midRep = s.midRep := rfl
@[simp] theorem State.setReg_draws (s : State) (r : Gpr) (v : Word) : (s.setReg r v).draws = s.draws := rfl
@[simp] theorem State.setReg_traps (s : State) (r : Gpr) (v : Word) : (s.setReg r v).traps = s.traps := rfl
@[simp] theorem State.setReg_pendingExc (s : State) (r : Gpr) (v : Word) : (s.setReg r v).pendingExc = s.pendingExc := rfl
@[simp] theorem State.setReg_events (s : State) (r : Gpr) (v : Word) : (s.setReg r v).events = s.events := rfl

/-! `State.setReg8`. -/

@[simp] theorem State.setReg8_eip (s : State) (r : Gpr8) (v : Byte) : (s.setReg8 r v).eip = s.eip := rfl
@[simp] theorem State.setReg8_eflags (s : State) (r : Gpr8) (v : Byte) : (s.setReg8 r v).eflags = s.eflags := rfl
@[simp] theorem State.setReg8_cpl (s : State) (r : Gpr8) (v : Byte) : (s.setReg8 r v).cpl = s.cpl := rfl
@[simp] theorem State.setReg8_seg (s : State) (r : Gpr8) (v : Byte) : (s.setReg8 r v).seg = s.seg := rfl
@[simp] theorem State.setReg8_gdtr (s : State) (r : Gpr8) (v : Byte) : (s.setReg8 r v).gdtr = s.gdtr := rfl
@[simp] theorem State.setReg8_idtr (s : State) (r : Gpr8) (v : Byte) : (s.setReg8 r v).idtr = s.idtr := rfl
@[simp] theorem State.setReg8_ldtr (s : State) (r : Gpr8) (v : Byte) : (s.setReg8 r v).ldtr = s.ldtr := rfl
@[simp] theorem State.setReg8_tr (s : State) (r : Gpr8) (v : Byte) : (s.setReg8 r v).tr = s.tr := rfl
@[simp] theorem State.setReg8_cr (s : State) (r : Gpr8) (v : Byte) : (s.setReg8 r v).cr = s.cr := rfl
@[simp] theorem State.setReg8_dr (s : State) (r : Gpr8) (v : Byte) : (s.setReg8 r v).dr = s.dr := rfl
@[simp] theorem State.setReg8_tregs (s : State) (r : Gpr8) (v : Byte) : (s.setReg8 r v).tregs = s.tregs := rfl
@[simp] theorem State.setReg8_tlb (s : State) (r : Gpr8) (v : Byte) : (s.setReg8 r v).tlb = s.tlb := rfl
@[simp] theorem State.setReg8_activity (s : State) (r : Gpr8) (v : Byte) : (s.setReg8 r v).activity = s.activity := rfl
@[simp] theorem State.setReg8_inhibit (s : State) (r : Gpr8) (v : Byte) : (s.setReg8 r v).inhibit = s.inhibit := rfl
@[simp] theorem State.setReg8_stiDelay (s : State) (r : Gpr8) (v : Byte) : (s.setReg8 r v).stiDelay = s.stiDelay := rfl
@[simp] theorem State.setReg8_nmiInService (s : State) (r : Gpr8) (v : Byte) : (s.setReg8 r v).nmiInService = s.nmiInService := rfl
@[simp] theorem State.setReg8_nmiPending (s : State) (r : Gpr8) (v : Byte) : (s.setReg8 r v).nmiPending = s.nmiPending := rfl
@[simp] theorem State.setReg8_intr (s : State) (r : Gpr8) (v : Byte) : (s.setReg8 r v).intr = s.intr := rfl
@[simp] theorem State.setReg8_lateHits (s : State) (r : Gpr8) (v : Byte) : (s.setReg8 r v).lateHits = s.lateHits := rfl
@[simp] theorem State.setReg8_pinReset (s : State) (r : Gpr8) (v : Byte) : (s.setReg8 r v).pinReset = s.pinReset := rfl
@[simp] theorem State.setReg8_busy (s : State) (r : Gpr8) (v : Byte) : (s.setReg8 r v).busy = s.busy := rfl
@[simp] theorem State.setReg8_error (s : State) (r : Gpr8) (v : Byte) : (s.setReg8 r v).error = s.error := rfl
@[simp] theorem State.setReg8_iceActive (s : State) (r : Gpr8) (v : Byte) : (s.setReg8 r v).iceActive = s.iceActive := rfl
@[simp] theorem State.setReg8_mem (s : State) (r : Gpr8) (v : Byte) : (s.setReg8 r v).mem = s.mem := rfl
@[simp] theorem State.setReg8_memMap (s : State) (r : Gpr8) (v : Byte) : (s.setReg8 r v).memMap = s.memMap := rfl
@[simp] theorem State.setReg8_pfx (s : State) (r : Gpr8) (v : Byte) : (s.setReg8 r v).pfx = s.pfx := rfl
@[simp] theorem State.setReg8_ilen (s : State) (r : Gpr8) (v : Byte) : (s.setReg8 r v).ilen = s.ilen := rfl
@[simp] theorem State.setReg8_midRep (s : State) (r : Gpr8) (v : Byte) : (s.setReg8 r v).midRep = s.midRep := rfl
@[simp] theorem State.setReg8_draws (s : State) (r : Gpr8) (v : Byte) : (s.setReg8 r v).draws = s.draws := rfl
@[simp] theorem State.setReg8_traps (s : State) (r : Gpr8) (v : Byte) : (s.setReg8 r v).traps = s.traps := rfl
@[simp] theorem State.setReg8_pendingExc (s : State) (r : Gpr8) (v : Byte) : (s.setReg8 r v).pendingExc = s.pendingExc := rfl
@[simp] theorem State.setReg8_events (s : State) (r : Gpr8) (v : Byte) : (s.setReg8 r v).events = s.events := rfl

/-! `State.setRegZ`. -/

@[simp] theorem State.setRegZ_eip (s : State) (z : Sz) (r : Gpr) (v : Word) : (s.setRegZ z r v).eip = s.eip := by cases z <;> rfl
@[simp] theorem State.setRegZ_eflags (s : State) (z : Sz) (r : Gpr) (v : Word) : (s.setRegZ z r v).eflags = s.eflags := by cases z <;> rfl
@[simp] theorem State.setRegZ_cpl (s : State) (z : Sz) (r : Gpr) (v : Word) : (s.setRegZ z r v).cpl = s.cpl := by cases z <;> rfl
@[simp] theorem State.setRegZ_seg (s : State) (z : Sz) (r : Gpr) (v : Word) : (s.setRegZ z r v).seg = s.seg := by cases z <;> rfl
@[simp] theorem State.setRegZ_gdtr (s : State) (z : Sz) (r : Gpr) (v : Word) : (s.setRegZ z r v).gdtr = s.gdtr := by cases z <;> rfl
@[simp] theorem State.setRegZ_idtr (s : State) (z : Sz) (r : Gpr) (v : Word) : (s.setRegZ z r v).idtr = s.idtr := by cases z <;> rfl
@[simp] theorem State.setRegZ_ldtr (s : State) (z : Sz) (r : Gpr) (v : Word) : (s.setRegZ z r v).ldtr = s.ldtr := by cases z <;> rfl
@[simp] theorem State.setRegZ_tr (s : State) (z : Sz) (r : Gpr) (v : Word) : (s.setRegZ z r v).tr = s.tr := by cases z <;> rfl
@[simp] theorem State.setRegZ_cr (s : State) (z : Sz) (r : Gpr) (v : Word) : (s.setRegZ z r v).cr = s.cr := by cases z <;> rfl
@[simp] theorem State.setRegZ_dr (s : State) (z : Sz) (r : Gpr) (v : Word) : (s.setRegZ z r v).dr = s.dr := by cases z <;> rfl
@[simp] theorem State.setRegZ_tregs (s : State) (z : Sz) (r : Gpr) (v : Word) : (s.setRegZ z r v).tregs = s.tregs := by cases z <;> rfl
@[simp] theorem State.setRegZ_tlb (s : State) (z : Sz) (r : Gpr) (v : Word) : (s.setRegZ z r v).tlb = s.tlb := by cases z <;> rfl
@[simp] theorem State.setRegZ_activity (s : State) (z : Sz) (r : Gpr) (v : Word) : (s.setRegZ z r v).activity = s.activity := by cases z <;> rfl
@[simp] theorem State.setRegZ_inhibit (s : State) (z : Sz) (r : Gpr) (v : Word) : (s.setRegZ z r v).inhibit = s.inhibit := by cases z <;> rfl
@[simp] theorem State.setRegZ_stiDelay (s : State) (z : Sz) (r : Gpr) (v : Word) : (s.setRegZ z r v).stiDelay = s.stiDelay := by cases z <;> rfl
@[simp] theorem State.setRegZ_nmiInService (s : State) (z : Sz) (r : Gpr) (v : Word) : (s.setRegZ z r v).nmiInService = s.nmiInService := by cases z <;> rfl
@[simp] theorem State.setRegZ_nmiPending (s : State) (z : Sz) (r : Gpr) (v : Word) : (s.setRegZ z r v).nmiPending = s.nmiPending := by cases z <;> rfl
@[simp] theorem State.setRegZ_intr (s : State) (z : Sz) (r : Gpr) (v : Word) : (s.setRegZ z r v).intr = s.intr := by cases z <;> rfl
@[simp] theorem State.setRegZ_lateHits (s : State) (z : Sz) (r : Gpr) (v : Word) : (s.setRegZ z r v).lateHits = s.lateHits := by cases z <;> rfl
@[simp] theorem State.setRegZ_pinReset (s : State) (z : Sz) (r : Gpr) (v : Word) : (s.setRegZ z r v).pinReset = s.pinReset := by cases z <;> rfl
@[simp] theorem State.setRegZ_busy (s : State) (z : Sz) (r : Gpr) (v : Word) : (s.setRegZ z r v).busy = s.busy := by cases z <;> rfl
@[simp] theorem State.setRegZ_error (s : State) (z : Sz) (r : Gpr) (v : Word) : (s.setRegZ z r v).error = s.error := by cases z <;> rfl
@[simp] theorem State.setRegZ_iceActive (s : State) (z : Sz) (r : Gpr) (v : Word) : (s.setRegZ z r v).iceActive = s.iceActive := by cases z <;> rfl
@[simp] theorem State.setRegZ_mem (s : State) (z : Sz) (r : Gpr) (v : Word) : (s.setRegZ z r v).mem = s.mem := by cases z <;> rfl
@[simp] theorem State.setRegZ_memMap (s : State) (z : Sz) (r : Gpr) (v : Word) : (s.setRegZ z r v).memMap = s.memMap := by cases z <;> rfl
@[simp] theorem State.setRegZ_pfx (s : State) (z : Sz) (r : Gpr) (v : Word) : (s.setRegZ z r v).pfx = s.pfx := by cases z <;> rfl
@[simp] theorem State.setRegZ_ilen (s : State) (z : Sz) (r : Gpr) (v : Word) : (s.setRegZ z r v).ilen = s.ilen := by cases z <;> rfl
@[simp] theorem State.setRegZ_midRep (s : State) (z : Sz) (r : Gpr) (v : Word) : (s.setRegZ z r v).midRep = s.midRep := by cases z <;> rfl
@[simp] theorem State.setRegZ_draws (s : State) (z : Sz) (r : Gpr) (v : Word) : (s.setRegZ z r v).draws = s.draws := by cases z <;> rfl
@[simp] theorem State.setRegZ_traps (s : State) (z : Sz) (r : Gpr) (v : Word) : (s.setRegZ z r v).traps = s.traps := by cases z <;> rfl
@[simp] theorem State.setRegZ_pendingExc (s : State) (z : Sz) (r : Gpr) (v : Word) : (s.setRegZ z r v).pendingExc = s.pendingExc := by cases z <;> rfl
@[simp] theorem State.setRegZ_events (s : State) (z : Sz) (r : Gpr) (v : Word) : (s.setRegZ z r v).events = s.events := by cases z <;> rfl

/-! `State.setSreg`. -/

@[simp] theorem State.setSreg_gpr (s : State) (r : Sreg) (v : SegReg) : (s.setSreg r v).gpr = s.gpr := rfl
@[simp] theorem State.setSreg_eip (s : State) (r : Sreg) (v : SegReg) : (s.setSreg r v).eip = s.eip := rfl
@[simp] theorem State.setSreg_eflags (s : State) (r : Sreg) (v : SegReg) : (s.setSreg r v).eflags = s.eflags := rfl
@[simp] theorem State.setSreg_cpl (s : State) (r : Sreg) (v : SegReg) : (s.setSreg r v).cpl = s.cpl := rfl
@[simp] theorem State.setSreg_gdtr (s : State) (r : Sreg) (v : SegReg) : (s.setSreg r v).gdtr = s.gdtr := rfl
@[simp] theorem State.setSreg_idtr (s : State) (r : Sreg) (v : SegReg) : (s.setSreg r v).idtr = s.idtr := rfl
@[simp] theorem State.setSreg_ldtr (s : State) (r : Sreg) (v : SegReg) : (s.setSreg r v).ldtr = s.ldtr := rfl
@[simp] theorem State.setSreg_tr (s : State) (r : Sreg) (v : SegReg) : (s.setSreg r v).tr = s.tr := rfl
@[simp] theorem State.setSreg_cr (s : State) (r : Sreg) (v : SegReg) : (s.setSreg r v).cr = s.cr := rfl
@[simp] theorem State.setSreg_dr (s : State) (r : Sreg) (v : SegReg) : (s.setSreg r v).dr = s.dr := rfl
@[simp] theorem State.setSreg_tregs (s : State) (r : Sreg) (v : SegReg) : (s.setSreg r v).tregs = s.tregs := rfl
@[simp] theorem State.setSreg_tlb (s : State) (r : Sreg) (v : SegReg) : (s.setSreg r v).tlb = s.tlb := rfl
@[simp] theorem State.setSreg_activity (s : State) (r : Sreg) (v : SegReg) : (s.setSreg r v).activity = s.activity := rfl
@[simp] theorem State.setSreg_inhibit (s : State) (r : Sreg) (v : SegReg) : (s.setSreg r v).inhibit = s.inhibit := rfl
@[simp] theorem State.setSreg_stiDelay (s : State) (r : Sreg) (v : SegReg) : (s.setSreg r v).stiDelay = s.stiDelay := rfl
@[simp] theorem State.setSreg_nmiInService (s : State) (r : Sreg) (v : SegReg) : (s.setSreg r v).nmiInService = s.nmiInService := rfl
@[simp] theorem State.setSreg_nmiPending (s : State) (r : Sreg) (v : SegReg) : (s.setSreg r v).nmiPending = s.nmiPending := rfl
@[simp] theorem State.setSreg_intr (s : State) (r : Sreg) (v : SegReg) : (s.setSreg r v).intr = s.intr := rfl
@[simp] theorem State.setSreg_lateHits (s : State) (r : Sreg) (v : SegReg) : (s.setSreg r v).lateHits = s.lateHits := rfl
@[simp] theorem State.setSreg_pinReset (s : State) (r : Sreg) (v : SegReg) : (s.setSreg r v).pinReset = s.pinReset := rfl
@[simp] theorem State.setSreg_busy (s : State) (r : Sreg) (v : SegReg) : (s.setSreg r v).busy = s.busy := rfl
@[simp] theorem State.setSreg_error (s : State) (r : Sreg) (v : SegReg) : (s.setSreg r v).error = s.error := rfl
@[simp] theorem State.setSreg_iceActive (s : State) (r : Sreg) (v : SegReg) : (s.setSreg r v).iceActive = s.iceActive := rfl
@[simp] theorem State.setSreg_mem (s : State) (r : Sreg) (v : SegReg) : (s.setSreg r v).mem = s.mem := rfl
@[simp] theorem State.setSreg_memMap (s : State) (r : Sreg) (v : SegReg) : (s.setSreg r v).memMap = s.memMap := rfl
@[simp] theorem State.setSreg_pfx (s : State) (r : Sreg) (v : SegReg) : (s.setSreg r v).pfx = s.pfx := rfl
@[simp] theorem State.setSreg_ilen (s : State) (r : Sreg) (v : SegReg) : (s.setSreg r v).ilen = s.ilen := rfl
@[simp] theorem State.setSreg_midRep (s : State) (r : Sreg) (v : SegReg) : (s.setSreg r v).midRep = s.midRep := rfl
@[simp] theorem State.setSreg_draws (s : State) (r : Sreg) (v : SegReg) : (s.setSreg r v).draws = s.draws := rfl
@[simp] theorem State.setSreg_traps (s : State) (r : Sreg) (v : SegReg) : (s.setSreg r v).traps = s.traps := rfl
@[simp] theorem State.setSreg_pendingExc (s : State) (r : Sreg) (v : SegReg) : (s.setSreg r v).pendingExc = s.pendingExc := rfl
@[simp] theorem State.setSreg_events (s : State) (r : Sreg) (v : SegReg) : (s.setSreg r v).events = s.events := rfl

/-! `State.setFlag`. -/

@[simp] theorem State.setFlag_gpr (s : State) (i : Nat) (b : Bool) : (s.setFlag i b).gpr = s.gpr := rfl
@[simp] theorem State.setFlag_eip (s : State) (i : Nat) (b : Bool) : (s.setFlag i b).eip = s.eip := rfl
@[simp] theorem State.setFlag_cpl (s : State) (i : Nat) (b : Bool) : (s.setFlag i b).cpl = s.cpl := rfl
@[simp] theorem State.setFlag_seg (s : State) (i : Nat) (b : Bool) : (s.setFlag i b).seg = s.seg := rfl
@[simp] theorem State.setFlag_gdtr (s : State) (i : Nat) (b : Bool) : (s.setFlag i b).gdtr = s.gdtr := rfl
@[simp] theorem State.setFlag_idtr (s : State) (i : Nat) (b : Bool) : (s.setFlag i b).idtr = s.idtr := rfl
@[simp] theorem State.setFlag_ldtr (s : State) (i : Nat) (b : Bool) : (s.setFlag i b).ldtr = s.ldtr := rfl
@[simp] theorem State.setFlag_tr (s : State) (i : Nat) (b : Bool) : (s.setFlag i b).tr = s.tr := rfl
@[simp] theorem State.setFlag_cr (s : State) (i : Nat) (b : Bool) : (s.setFlag i b).cr = s.cr := rfl
@[simp] theorem State.setFlag_dr (s : State) (i : Nat) (b : Bool) : (s.setFlag i b).dr = s.dr := rfl
@[simp] theorem State.setFlag_tregs (s : State) (i : Nat) (b : Bool) : (s.setFlag i b).tregs = s.tregs := rfl
@[simp] theorem State.setFlag_tlb (s : State) (i : Nat) (b : Bool) : (s.setFlag i b).tlb = s.tlb := rfl
@[simp] theorem State.setFlag_activity (s : State) (i : Nat) (b : Bool) : (s.setFlag i b).activity = s.activity := rfl
@[simp] theorem State.setFlag_inhibit (s : State) (i : Nat) (b : Bool) : (s.setFlag i b).inhibit = s.inhibit := rfl
@[simp] theorem State.setFlag_stiDelay (s : State) (i : Nat) (b : Bool) : (s.setFlag i b).stiDelay = s.stiDelay := rfl
@[simp] theorem State.setFlag_nmiInService (s : State) (i : Nat) (b : Bool) : (s.setFlag i b).nmiInService = s.nmiInService := rfl
@[simp] theorem State.setFlag_nmiPending (s : State) (i : Nat) (b : Bool) : (s.setFlag i b).nmiPending = s.nmiPending := rfl
@[simp] theorem State.setFlag_intr (s : State) (i : Nat) (b : Bool) : (s.setFlag i b).intr = s.intr := rfl
@[simp] theorem State.setFlag_lateHits (s : State) (i : Nat) (b : Bool) : (s.setFlag i b).lateHits = s.lateHits := rfl
@[simp] theorem State.setFlag_pinReset (s : State) (i : Nat) (b : Bool) : (s.setFlag i b).pinReset = s.pinReset := rfl
@[simp] theorem State.setFlag_busy (s : State) (i : Nat) (b : Bool) : (s.setFlag i b).busy = s.busy := rfl
@[simp] theorem State.setFlag_error (s : State) (i : Nat) (b : Bool) : (s.setFlag i b).error = s.error := rfl
@[simp] theorem State.setFlag_iceActive (s : State) (i : Nat) (b : Bool) : (s.setFlag i b).iceActive = s.iceActive := rfl
@[simp] theorem State.setFlag_mem (s : State) (i : Nat) (b : Bool) : (s.setFlag i b).mem = s.mem := rfl
@[simp] theorem State.setFlag_memMap (s : State) (i : Nat) (b : Bool) : (s.setFlag i b).memMap = s.memMap := rfl
@[simp] theorem State.setFlag_pfx (s : State) (i : Nat) (b : Bool) : (s.setFlag i b).pfx = s.pfx := rfl
@[simp] theorem State.setFlag_ilen (s : State) (i : Nat) (b : Bool) : (s.setFlag i b).ilen = s.ilen := rfl
@[simp] theorem State.setFlag_midRep (s : State) (i : Nat) (b : Bool) : (s.setFlag i b).midRep = s.midRep := rfl
@[simp] theorem State.setFlag_draws (s : State) (i : Nat) (b : Bool) : (s.setFlag i b).draws = s.draws := rfl
@[simp] theorem State.setFlag_traps (s : State) (i : Nat) (b : Bool) : (s.setFlag i b).traps = s.traps := rfl
@[simp] theorem State.setFlag_pendingExc (s : State) (i : Nat) (b : Bool) : (s.setFlag i b).pendingExc = s.pendingExc := rfl
@[simp] theorem State.setFlag_events (s : State) (i : Nat) (b : Bool) : (s.setFlag i b).events = s.events := rfl

/-! `State.loadFlags`. -/

@[simp] theorem State.loadFlags_gpr (s : State) (k v : Word) : (s.loadFlags k v).gpr = s.gpr := rfl
@[simp] theorem State.loadFlags_eip (s : State) (k v : Word) : (s.loadFlags k v).eip = s.eip := rfl
@[simp] theorem State.loadFlags_cpl (s : State) (k v : Word) : (s.loadFlags k v).cpl = s.cpl := rfl
@[simp] theorem State.loadFlags_seg (s : State) (k v : Word) : (s.loadFlags k v).seg = s.seg := rfl
@[simp] theorem State.loadFlags_gdtr (s : State) (k v : Word) : (s.loadFlags k v).gdtr = s.gdtr := rfl
@[simp] theorem State.loadFlags_idtr (s : State) (k v : Word) : (s.loadFlags k v).idtr = s.idtr := rfl
@[simp] theorem State.loadFlags_ldtr (s : State) (k v : Word) : (s.loadFlags k v).ldtr = s.ldtr := rfl
@[simp] theorem State.loadFlags_tr (s : State) (k v : Word) : (s.loadFlags k v).tr = s.tr := rfl
@[simp] theorem State.loadFlags_cr (s : State) (k v : Word) : (s.loadFlags k v).cr = s.cr := rfl
@[simp] theorem State.loadFlags_dr (s : State) (k v : Word) : (s.loadFlags k v).dr = s.dr := rfl
@[simp] theorem State.loadFlags_tregs (s : State) (k v : Word) : (s.loadFlags k v).tregs = s.tregs := rfl
@[simp] theorem State.loadFlags_tlb (s : State) (k v : Word) : (s.loadFlags k v).tlb = s.tlb := rfl
@[simp] theorem State.loadFlags_activity (s : State) (k v : Word) : (s.loadFlags k v).activity = s.activity := rfl
@[simp] theorem State.loadFlags_inhibit (s : State) (k v : Word) : (s.loadFlags k v).inhibit = s.inhibit := rfl
@[simp] theorem State.loadFlags_stiDelay (s : State) (k v : Word) : (s.loadFlags k v).stiDelay = s.stiDelay := rfl
@[simp] theorem State.loadFlags_nmiInService (s : State) (k v : Word) : (s.loadFlags k v).nmiInService = s.nmiInService := rfl
@[simp] theorem State.loadFlags_nmiPending (s : State) (k v : Word) : (s.loadFlags k v).nmiPending = s.nmiPending := rfl
@[simp] theorem State.loadFlags_intr (s : State) (k v : Word) : (s.loadFlags k v).intr = s.intr := rfl
@[simp] theorem State.loadFlags_lateHits (s : State) (k v : Word) : (s.loadFlags k v).lateHits = s.lateHits := rfl
@[simp] theorem State.loadFlags_pinReset (s : State) (k v : Word) : (s.loadFlags k v).pinReset = s.pinReset := rfl
@[simp] theorem State.loadFlags_busy (s : State) (k v : Word) : (s.loadFlags k v).busy = s.busy := rfl
@[simp] theorem State.loadFlags_error (s : State) (k v : Word) : (s.loadFlags k v).error = s.error := rfl
@[simp] theorem State.loadFlags_iceActive (s : State) (k v : Word) : (s.loadFlags k v).iceActive = s.iceActive := rfl
@[simp] theorem State.loadFlags_mem (s : State) (k v : Word) : (s.loadFlags k v).mem = s.mem := rfl
@[simp] theorem State.loadFlags_memMap (s : State) (k v : Word) : (s.loadFlags k v).memMap = s.memMap := rfl
@[simp] theorem State.loadFlags_pfx (s : State) (k v : Word) : (s.loadFlags k v).pfx = s.pfx := rfl
@[simp] theorem State.loadFlags_ilen (s : State) (k v : Word) : (s.loadFlags k v).ilen = s.ilen := rfl
@[simp] theorem State.loadFlags_midRep (s : State) (k v : Word) : (s.loadFlags k v).midRep = s.midRep := rfl
@[simp] theorem State.loadFlags_draws (s : State) (k v : Word) : (s.loadFlags k v).draws = s.draws := rfl
@[simp] theorem State.loadFlags_traps (s : State) (k v : Word) : (s.loadFlags k v).traps = s.traps := rfl
@[simp] theorem State.loadFlags_pendingExc (s : State) (k v : Word) : (s.loadFlags k v).pendingExc = s.pendingExc := rfl
@[simp] theorem State.loadFlags_events (s : State) (k v : Word) : (s.loadFlags k v).events = s.events := rfl

/-! `State.putFlags`. -/

@[simp] theorem State.putFlags_gpr (s : State) (f : FlagsOut) : (s.putFlags f).gpr = s.gpr := rfl
@[simp] theorem State.putFlags_eip (s : State) (f : FlagsOut) : (s.putFlags f).eip = s.eip := rfl
@[simp] theorem State.putFlags_cpl (s : State) (f : FlagsOut) : (s.putFlags f).cpl = s.cpl := rfl
@[simp] theorem State.putFlags_seg (s : State) (f : FlagsOut) : (s.putFlags f).seg = s.seg := rfl
@[simp] theorem State.putFlags_gdtr (s : State) (f : FlagsOut) : (s.putFlags f).gdtr = s.gdtr := rfl
@[simp] theorem State.putFlags_idtr (s : State) (f : FlagsOut) : (s.putFlags f).idtr = s.idtr := rfl
@[simp] theorem State.putFlags_ldtr (s : State) (f : FlagsOut) : (s.putFlags f).ldtr = s.ldtr := rfl
@[simp] theorem State.putFlags_tr (s : State) (f : FlagsOut) : (s.putFlags f).tr = s.tr := rfl
@[simp] theorem State.putFlags_cr (s : State) (f : FlagsOut) : (s.putFlags f).cr = s.cr := rfl
@[simp] theorem State.putFlags_dr (s : State) (f : FlagsOut) : (s.putFlags f).dr = s.dr := rfl
@[simp] theorem State.putFlags_tregs (s : State) (f : FlagsOut) : (s.putFlags f).tregs = s.tregs := rfl
@[simp] theorem State.putFlags_tlb (s : State) (f : FlagsOut) : (s.putFlags f).tlb = s.tlb := rfl
@[simp] theorem State.putFlags_activity (s : State) (f : FlagsOut) : (s.putFlags f).activity = s.activity := rfl
@[simp] theorem State.putFlags_inhibit (s : State) (f : FlagsOut) : (s.putFlags f).inhibit = s.inhibit := rfl
@[simp] theorem State.putFlags_stiDelay (s : State) (f : FlagsOut) : (s.putFlags f).stiDelay = s.stiDelay := rfl
@[simp] theorem State.putFlags_nmiInService (s : State) (f : FlagsOut) : (s.putFlags f).nmiInService = s.nmiInService := rfl
@[simp] theorem State.putFlags_nmiPending (s : State) (f : FlagsOut) : (s.putFlags f).nmiPending = s.nmiPending := rfl
@[simp] theorem State.putFlags_intr (s : State) (f : FlagsOut) : (s.putFlags f).intr = s.intr := rfl
@[simp] theorem State.putFlags_lateHits (s : State) (f : FlagsOut) : (s.putFlags f).lateHits = s.lateHits := rfl
@[simp] theorem State.putFlags_pinReset (s : State) (f : FlagsOut) : (s.putFlags f).pinReset = s.pinReset := rfl
@[simp] theorem State.putFlags_busy (s : State) (f : FlagsOut) : (s.putFlags f).busy = s.busy := rfl
@[simp] theorem State.putFlags_error (s : State) (f : FlagsOut) : (s.putFlags f).error = s.error := rfl
@[simp] theorem State.putFlags_iceActive (s : State) (f : FlagsOut) : (s.putFlags f).iceActive = s.iceActive := rfl
@[simp] theorem State.putFlags_mem (s : State) (f : FlagsOut) : (s.putFlags f).mem = s.mem := rfl
@[simp] theorem State.putFlags_memMap (s : State) (f : FlagsOut) : (s.putFlags f).memMap = s.memMap := rfl
@[simp] theorem State.putFlags_pfx (s : State) (f : FlagsOut) : (s.putFlags f).pfx = s.pfx := rfl
@[simp] theorem State.putFlags_ilen (s : State) (f : FlagsOut) : (s.putFlags f).ilen = s.ilen := rfl
@[simp] theorem State.putFlags_midRep (s : State) (f : FlagsOut) : (s.putFlags f).midRep = s.midRep := rfl
@[simp] theorem State.putFlags_traps (s : State) (f : FlagsOut) : (s.putFlags f).traps = s.traps := rfl
@[simp] theorem State.putFlags_pendingExc (s : State) (f : FlagsOut) : (s.putFlags f).pendingExc = s.pendingExc := rfl
@[simp] theorem State.putFlags_events (s : State) (f : FlagsOut) : (s.putFlags f).events = s.events := rfl

/-! `State.loadFlat`. -/

@[simp] theorem State.loadFlat_gpr (s : State) (r : Sreg) (h : Half) : (s.loadFlat r h).gpr = s.gpr := by unfold State.loadFlat; split <;> rfl
@[simp] theorem State.loadFlat_eip (s : State) (r : Sreg) (h : Half) : (s.loadFlat r h).eip = s.eip := by unfold State.loadFlat; split <;> rfl
@[simp] theorem State.loadFlat_eflags (s : State) (r : Sreg) (h : Half) : (s.loadFlat r h).eflags = s.eflags := by unfold State.loadFlat; split <;> rfl
@[simp] theorem State.loadFlat_cpl (s : State) (r : Sreg) (h : Half) : (s.loadFlat r h).cpl = s.cpl := by unfold State.loadFlat; split <;> rfl
@[simp] theorem State.loadFlat_gdtr (s : State) (r : Sreg) (h : Half) : (s.loadFlat r h).gdtr = s.gdtr := by unfold State.loadFlat; split <;> rfl
@[simp] theorem State.loadFlat_idtr (s : State) (r : Sreg) (h : Half) : (s.loadFlat r h).idtr = s.idtr := by unfold State.loadFlat; split <;> rfl
@[simp] theorem State.loadFlat_ldtr (s : State) (r : Sreg) (h : Half) : (s.loadFlat r h).ldtr = s.ldtr := by unfold State.loadFlat; split <;> rfl
@[simp] theorem State.loadFlat_tr (s : State) (r : Sreg) (h : Half) : (s.loadFlat r h).tr = s.tr := by unfold State.loadFlat; split <;> rfl
@[simp] theorem State.loadFlat_cr (s : State) (r : Sreg) (h : Half) : (s.loadFlat r h).cr = s.cr := by unfold State.loadFlat; split <;> rfl
@[simp] theorem State.loadFlat_dr (s : State) (r : Sreg) (h : Half) : (s.loadFlat r h).dr = s.dr := by unfold State.loadFlat; split <;> rfl
@[simp] theorem State.loadFlat_tregs (s : State) (r : Sreg) (h : Half) : (s.loadFlat r h).tregs = s.tregs := by unfold State.loadFlat; split <;> rfl
@[simp] theorem State.loadFlat_tlb (s : State) (r : Sreg) (h : Half) : (s.loadFlat r h).tlb = s.tlb := by unfold State.loadFlat; split <;> rfl
@[simp] theorem State.loadFlat_activity (s : State) (r : Sreg) (h : Half) : (s.loadFlat r h).activity = s.activity := by unfold State.loadFlat; split <;> rfl
@[simp] theorem State.loadFlat_inhibit (s : State) (r : Sreg) (h : Half) : (s.loadFlat r h).inhibit = s.inhibit := by unfold State.loadFlat; split <;> rfl
@[simp] theorem State.loadFlat_stiDelay (s : State) (r : Sreg) (h : Half) : (s.loadFlat r h).stiDelay = s.stiDelay := by unfold State.loadFlat; split <;> rfl
@[simp] theorem State.loadFlat_nmiInService (s : State) (r : Sreg) (h : Half) : (s.loadFlat r h).nmiInService = s.nmiInService := by unfold State.loadFlat; split <;> rfl
@[simp] theorem State.loadFlat_nmiPending (s : State) (r : Sreg) (h : Half) : (s.loadFlat r h).nmiPending = s.nmiPending := by unfold State.loadFlat; split <;> rfl
@[simp] theorem State.loadFlat_intr (s : State) (r : Sreg) (h : Half) : (s.loadFlat r h).intr = s.intr := by unfold State.loadFlat; split <;> rfl
@[simp] theorem State.loadFlat_lateHits (s : State) (r : Sreg) (h : Half) : (s.loadFlat r h).lateHits = s.lateHits := by unfold State.loadFlat; split <;> rfl
@[simp] theorem State.loadFlat_pinReset (s : State) (r : Sreg) (h : Half) : (s.loadFlat r h).pinReset = s.pinReset := by unfold State.loadFlat; split <;> rfl
@[simp] theorem State.loadFlat_busy (s : State) (r : Sreg) (h : Half) : (s.loadFlat r h).busy = s.busy := by unfold State.loadFlat; split <;> rfl
@[simp] theorem State.loadFlat_error (s : State) (r : Sreg) (h : Half) : (s.loadFlat r h).error = s.error := by unfold State.loadFlat; split <;> rfl
@[simp] theorem State.loadFlat_iceActive (s : State) (r : Sreg) (h : Half) : (s.loadFlat r h).iceActive = s.iceActive := by unfold State.loadFlat; split <;> rfl
@[simp] theorem State.loadFlat_mem (s : State) (r : Sreg) (h : Half) : (s.loadFlat r h).mem = s.mem := by unfold State.loadFlat; split <;> rfl
@[simp] theorem State.loadFlat_memMap (s : State) (r : Sreg) (h : Half) : (s.loadFlat r h).memMap = s.memMap := by unfold State.loadFlat; split <;> rfl
@[simp] theorem State.loadFlat_pfx (s : State) (r : Sreg) (h : Half) : (s.loadFlat r h).pfx = s.pfx := by unfold State.loadFlat; split <;> rfl
@[simp] theorem State.loadFlat_ilen (s : State) (r : Sreg) (h : Half) : (s.loadFlat r h).ilen = s.ilen := by unfold State.loadFlat; split <;> rfl
@[simp] theorem State.loadFlat_midRep (s : State) (r : Sreg) (h : Half) : (s.loadFlat r h).midRep = s.midRep := by unfold State.loadFlat; split <;> rfl
@[simp] theorem State.loadFlat_draws (s : State) (r : Sreg) (h : Half) : (s.loadFlat r h).draws = s.draws := by unfold State.loadFlat; split <;> rfl
@[simp] theorem State.loadFlat_traps (s : State) (r : Sreg) (h : Half) : (s.loadFlat r h).traps = s.traps := by unfold State.loadFlat; split <;> rfl
@[simp] theorem State.loadFlat_pendingExc (s : State) (r : Sreg) (h : Half) : (s.loadFlat r h).pendingExc = s.pendingExc := by unfold State.loadFlat; split <;> rfl
@[simp] theorem State.loadFlat_events (s : State) (r : Sreg) (h : Half) : (s.loadFlat r h).events = s.events := by unfold State.loadFlat; split <;> rfl

/-! `State.fetched`. -/

@[simp] theorem State.fetched_gpr (s : State) (k : Nat) : (s.fetched k).gpr = s.gpr := rfl
@[simp] theorem State.fetched_eip (s : State) (k : Nat) : (s.fetched k).eip = s.eip := rfl
@[simp] theorem State.fetched_eflags (s : State) (k : Nat) : (s.fetched k).eflags = s.eflags := rfl
@[simp] theorem State.fetched_cpl (s : State) (k : Nat) : (s.fetched k).cpl = s.cpl := rfl
@[simp] theorem State.fetched_seg (s : State) (k : Nat) : (s.fetched k).seg = s.seg := rfl
@[simp] theorem State.fetched_gdtr (s : State) (k : Nat) : (s.fetched k).gdtr = s.gdtr := rfl
@[simp] theorem State.fetched_idtr (s : State) (k : Nat) : (s.fetched k).idtr = s.idtr := rfl
@[simp] theorem State.fetched_ldtr (s : State) (k : Nat) : (s.fetched k).ldtr = s.ldtr := rfl
@[simp] theorem State.fetched_tr (s : State) (k : Nat) : (s.fetched k).tr = s.tr := rfl
@[simp] theorem State.fetched_cr (s : State) (k : Nat) : (s.fetched k).cr = s.cr := rfl
@[simp] theorem State.fetched_dr (s : State) (k : Nat) : (s.fetched k).dr = s.dr := rfl
@[simp] theorem State.fetched_tregs (s : State) (k : Nat) : (s.fetched k).tregs = s.tregs := rfl
@[simp] theorem State.fetched_tlb (s : State) (k : Nat) : (s.fetched k).tlb = s.tlb := rfl
@[simp] theorem State.fetched_activity (s : State) (k : Nat) : (s.fetched k).activity = s.activity := rfl
@[simp] theorem State.fetched_inhibit (s : State) (k : Nat) : (s.fetched k).inhibit = s.inhibit := rfl
@[simp] theorem State.fetched_stiDelay (s : State) (k : Nat) : (s.fetched k).stiDelay = s.stiDelay := rfl
@[simp] theorem State.fetched_nmiInService (s : State) (k : Nat) : (s.fetched k).nmiInService = s.nmiInService := rfl
@[simp] theorem State.fetched_nmiPending (s : State) (k : Nat) : (s.fetched k).nmiPending = s.nmiPending := rfl
@[simp] theorem State.fetched_intr (s : State) (k : Nat) : (s.fetched k).intr = s.intr := rfl
@[simp] theorem State.fetched_lateHits (s : State) (k : Nat) : (s.fetched k).lateHits = s.lateHits := rfl
@[simp] theorem State.fetched_pinReset (s : State) (k : Nat) : (s.fetched k).pinReset = s.pinReset := rfl
@[simp] theorem State.fetched_busy (s : State) (k : Nat) : (s.fetched k).busy = s.busy := rfl
@[simp] theorem State.fetched_error (s : State) (k : Nat) : (s.fetched k).error = s.error := rfl
@[simp] theorem State.fetched_iceActive (s : State) (k : Nat) : (s.fetched k).iceActive = s.iceActive := rfl
@[simp] theorem State.fetched_mem (s : State) (k : Nat) : (s.fetched k).mem = s.mem := rfl
@[simp] theorem State.fetched_memMap (s : State) (k : Nat) : (s.fetched k).memMap = s.memMap := rfl
@[simp] theorem State.fetched_pfx (s : State) (k : Nat) : (s.fetched k).pfx = s.pfx := rfl
@[simp] theorem State.fetched_midRep (s : State) (k : Nat) : (s.fetched k).midRep = s.midRep := rfl
@[simp] theorem State.fetched_draws (s : State) (k : Nat) : (s.fetched k).draws = s.draws := rfl
@[simp] theorem State.fetched_traps (s : State) (k : Nat) : (s.fetched k).traps = s.traps := rfl
@[simp] theorem State.fetched_pendingExc (s : State) (k : Nat) : (s.fetched k).pendingExc = s.pendingExc := rfl
@[simp] theorem State.fetched_events (s : State) (k : Nat) : (s.fetched k).events = s.events := rfl

/-! `State.withCr0`. -/

@[simp] theorem State.withCr0_gpr (s : State) (v : Word) : (s.withCr0 v).gpr = s.gpr := rfl
@[simp] theorem State.withCr0_eip (s : State) (v : Word) : (s.withCr0 v).eip = s.eip := rfl
@[simp] theorem State.withCr0_eflags (s : State) (v : Word) : (s.withCr0 v).eflags = s.eflags := rfl
@[simp] theorem State.withCr0_cpl (s : State) (v : Word) : (s.withCr0 v).cpl = s.cpl := rfl
@[simp] theorem State.withCr0_seg (s : State) (v : Word) : (s.withCr0 v).seg = s.seg := rfl
@[simp] theorem State.withCr0_gdtr (s : State) (v : Word) : (s.withCr0 v).gdtr = s.gdtr := rfl
@[simp] theorem State.withCr0_idtr (s : State) (v : Word) : (s.withCr0 v).idtr = s.idtr := rfl
@[simp] theorem State.withCr0_ldtr (s : State) (v : Word) : (s.withCr0 v).ldtr = s.ldtr := rfl
@[simp] theorem State.withCr0_tr (s : State) (v : Word) : (s.withCr0 v).tr = s.tr := rfl
@[simp] theorem State.withCr0_dr (s : State) (v : Word) : (s.withCr0 v).dr = s.dr := rfl
@[simp] theorem State.withCr0_tregs (s : State) (v : Word) : (s.withCr0 v).tregs = s.tregs := rfl
@[simp] theorem State.withCr0_tlb (s : State) (v : Word) : (s.withCr0 v).tlb = s.tlb := rfl
@[simp] theorem State.withCr0_activity (s : State) (v : Word) : (s.withCr0 v).activity = s.activity := rfl
@[simp] theorem State.withCr0_inhibit (s : State) (v : Word) : (s.withCr0 v).inhibit = s.inhibit := rfl
@[simp] theorem State.withCr0_stiDelay (s : State) (v : Word) : (s.withCr0 v).stiDelay = s.stiDelay := rfl
@[simp] theorem State.withCr0_nmiInService (s : State) (v : Word) : (s.withCr0 v).nmiInService = s.nmiInService := rfl
@[simp] theorem State.withCr0_nmiPending (s : State) (v : Word) : (s.withCr0 v).nmiPending = s.nmiPending := rfl
@[simp] theorem State.withCr0_intr (s : State) (v : Word) : (s.withCr0 v).intr = s.intr := rfl
@[simp] theorem State.withCr0_lateHits (s : State) (v : Word) : (s.withCr0 v).lateHits = s.lateHits := rfl
@[simp] theorem State.withCr0_pinReset (s : State) (v : Word) : (s.withCr0 v).pinReset = s.pinReset := rfl
@[simp] theorem State.withCr0_busy (s : State) (v : Word) : (s.withCr0 v).busy = s.busy := rfl
@[simp] theorem State.withCr0_error (s : State) (v : Word) : (s.withCr0 v).error = s.error := rfl
@[simp] theorem State.withCr0_iceActive (s : State) (v : Word) : (s.withCr0 v).iceActive = s.iceActive := rfl
@[simp] theorem State.withCr0_mem (s : State) (v : Word) : (s.withCr0 v).mem = s.mem := rfl
@[simp] theorem State.withCr0_memMap (s : State) (v : Word) : (s.withCr0 v).memMap = s.memMap := rfl
@[simp] theorem State.withCr0_pfx (s : State) (v : Word) : (s.withCr0 v).pfx = s.pfx := rfl
@[simp] theorem State.withCr0_ilen (s : State) (v : Word) : (s.withCr0 v).ilen = s.ilen := rfl
@[simp] theorem State.withCr0_midRep (s : State) (v : Word) : (s.withCr0 v).midRep = s.midRep := rfl
@[simp] theorem State.withCr0_draws (s : State) (v : Word) : (s.withCr0 v).draws = s.draws := rfl
@[simp] theorem State.withCr0_traps (s : State) (v : Word) : (s.withCr0 v).traps = s.traps := rfl
@[simp] theorem State.withCr0_pendingExc (s : State) (v : Word) : (s.withCr0 v).pendingExc = s.pendingExc := rfl
@[simp] theorem State.withCr0_events (s : State) (v : Word) : (s.withCr0 v).events = s.events := rfl

/-! `State.told`. -/

@[simp] theorem State.told_gpr (s : State) (e : Event) : (s.told e).gpr = s.gpr := rfl
@[simp] theorem State.told_eip (s : State) (e : Event) : (s.told e).eip = s.eip := rfl
@[simp] theorem State.told_eflags (s : State) (e : Event) : (s.told e).eflags = s.eflags := rfl
@[simp] theorem State.told_cpl (s : State) (e : Event) : (s.told e).cpl = s.cpl := rfl
@[simp] theorem State.told_seg (s : State) (e : Event) : (s.told e).seg = s.seg := rfl
@[simp] theorem State.told_gdtr (s : State) (e : Event) : (s.told e).gdtr = s.gdtr := rfl
@[simp] theorem State.told_idtr (s : State) (e : Event) : (s.told e).idtr = s.idtr := rfl
@[simp] theorem State.told_ldtr (s : State) (e : Event) : (s.told e).ldtr = s.ldtr := rfl
@[simp] theorem State.told_tr (s : State) (e : Event) : (s.told e).tr = s.tr := rfl
@[simp] theorem State.told_cr (s : State) (e : Event) : (s.told e).cr = s.cr := rfl
@[simp] theorem State.told_dr (s : State) (e : Event) : (s.told e).dr = s.dr := rfl
@[simp] theorem State.told_tregs (s : State) (e : Event) : (s.told e).tregs = s.tregs := rfl
@[simp] theorem State.told_tlb (s : State) (e : Event) : (s.told e).tlb = s.tlb := rfl
@[simp] theorem State.told_activity (s : State) (e : Event) : (s.told e).activity = s.activity := rfl
@[simp] theorem State.told_inhibit (s : State) (e : Event) : (s.told e).inhibit = s.inhibit := rfl
@[simp] theorem State.told_stiDelay (s : State) (e : Event) : (s.told e).stiDelay = s.stiDelay := rfl
@[simp] theorem State.told_nmiInService (s : State) (e : Event) : (s.told e).nmiInService = s.nmiInService := rfl
@[simp] theorem State.told_nmiPending (s : State) (e : Event) : (s.told e).nmiPending = s.nmiPending := rfl
@[simp] theorem State.told_intr (s : State) (e : Event) : (s.told e).intr = s.intr := rfl
@[simp] theorem State.told_lateHits (s : State) (e : Event) : (s.told e).lateHits = s.lateHits := rfl
@[simp] theorem State.told_pinReset (s : State) (e : Event) : (s.told e).pinReset = s.pinReset := rfl
@[simp] theorem State.told_busy (s : State) (e : Event) : (s.told e).busy = s.busy := rfl
@[simp] theorem State.told_error (s : State) (e : Event) : (s.told e).error = s.error := rfl
@[simp] theorem State.told_iceActive (s : State) (e : Event) : (s.told e).iceActive = s.iceActive := rfl
@[simp] theorem State.told_mem (s : State) (e : Event) : (s.told e).mem = s.mem := rfl
@[simp] theorem State.told_memMap (s : State) (e : Event) : (s.told e).memMap = s.memMap := rfl
@[simp] theorem State.told_pfx (s : State) (e : Event) : (s.told e).pfx = s.pfx := rfl
@[simp] theorem State.told_ilen (s : State) (e : Event) : (s.told e).ilen = s.ilen := rfl
@[simp] theorem State.told_midRep (s : State) (e : Event) : (s.told e).midRep = s.midRep := rfl
@[simp] theorem State.told_draws (s : State) (e : Event) : (s.told e).draws = s.draws := rfl
@[simp] theorem State.told_traps (s : State) (e : Event) : (s.told e).traps = s.traps := rfl
@[simp] theorem State.told_pendingExc (s : State) (e : Event) : (s.told e).pendingExc = s.pendingExc := rfl

/-! `State.setAcc`. -/

@[simp] theorem State.setAcc_eip (s : State) (n : Width) (v : Word) : (s.setAcc n v).eip = s.eip := by cases n <;> rfl
@[simp] theorem State.setAcc_eflags (s : State) (n : Width) (v : Word) : (s.setAcc n v).eflags = s.eflags := by cases n <;> rfl
@[simp] theorem State.setAcc_cpl (s : State) (n : Width) (v : Word) : (s.setAcc n v).cpl = s.cpl := by cases n <;> rfl
@[simp] theorem State.setAcc_seg (s : State) (n : Width) (v : Word) : (s.setAcc n v).seg = s.seg := by cases n <;> rfl
@[simp] theorem State.setAcc_gdtr (s : State) (n : Width) (v : Word) : (s.setAcc n v).gdtr = s.gdtr := by cases n <;> rfl
@[simp] theorem State.setAcc_idtr (s : State) (n : Width) (v : Word) : (s.setAcc n v).idtr = s.idtr := by cases n <;> rfl
@[simp] theorem State.setAcc_ldtr (s : State) (n : Width) (v : Word) : (s.setAcc n v).ldtr = s.ldtr := by cases n <;> rfl
@[simp] theorem State.setAcc_tr (s : State) (n : Width) (v : Word) : (s.setAcc n v).tr = s.tr := by cases n <;> rfl
@[simp] theorem State.setAcc_cr (s : State) (n : Width) (v : Word) : (s.setAcc n v).cr = s.cr := by cases n <;> rfl
@[simp] theorem State.setAcc_dr (s : State) (n : Width) (v : Word) : (s.setAcc n v).dr = s.dr := by cases n <;> rfl
@[simp] theorem State.setAcc_tregs (s : State) (n : Width) (v : Word) : (s.setAcc n v).tregs = s.tregs := by cases n <;> rfl
@[simp] theorem State.setAcc_tlb (s : State) (n : Width) (v : Word) : (s.setAcc n v).tlb = s.tlb := by cases n <;> rfl
@[simp] theorem State.setAcc_activity (s : State) (n : Width) (v : Word) : (s.setAcc n v).activity = s.activity := by cases n <;> rfl
@[simp] theorem State.setAcc_inhibit (s : State) (n : Width) (v : Word) : (s.setAcc n v).inhibit = s.inhibit := by cases n <;> rfl
@[simp] theorem State.setAcc_stiDelay (s : State) (n : Width) (v : Word) : (s.setAcc n v).stiDelay = s.stiDelay := by cases n <;> rfl
@[simp] theorem State.setAcc_nmiInService (s : State) (n : Width) (v : Word) : (s.setAcc n v).nmiInService = s.nmiInService := by cases n <;> rfl
@[simp] theorem State.setAcc_nmiPending (s : State) (n : Width) (v : Word) : (s.setAcc n v).nmiPending = s.nmiPending := by cases n <;> rfl
@[simp] theorem State.setAcc_intr (s : State) (n : Width) (v : Word) : (s.setAcc n v).intr = s.intr := by cases n <;> rfl
@[simp] theorem State.setAcc_lateHits (s : State) (n : Width) (v : Word) : (s.setAcc n v).lateHits = s.lateHits := by cases n <;> rfl
@[simp] theorem State.setAcc_pinReset (s : State) (n : Width) (v : Word) : (s.setAcc n v).pinReset = s.pinReset := by cases n <;> rfl
@[simp] theorem State.setAcc_busy (s : State) (n : Width) (v : Word) : (s.setAcc n v).busy = s.busy := by cases n <;> rfl
@[simp] theorem State.setAcc_error (s : State) (n : Width) (v : Word) : (s.setAcc n v).error = s.error := by cases n <;> rfl
@[simp] theorem State.setAcc_iceActive (s : State) (n : Width) (v : Word) : (s.setAcc n v).iceActive = s.iceActive := by cases n <;> rfl
@[simp] theorem State.setAcc_mem (s : State) (n : Width) (v : Word) : (s.setAcc n v).mem = s.mem := by cases n <;> rfl
@[simp] theorem State.setAcc_memMap (s : State) (n : Width) (v : Word) : (s.setAcc n v).memMap = s.memMap := by cases n <;> rfl
@[simp] theorem State.setAcc_pfx (s : State) (n : Width) (v : Word) : (s.setAcc n v).pfx = s.pfx := by cases n <;> rfl
@[simp] theorem State.setAcc_ilen (s : State) (n : Width) (v : Word) : (s.setAcc n v).ilen = s.ilen := by cases n <;> rfl
@[simp] theorem State.setAcc_midRep (s : State) (n : Width) (v : Word) : (s.setAcc n v).midRep = s.midRep := by cases n <;> rfl
@[simp] theorem State.setAcc_draws (s : State) (n : Width) (v : Word) : (s.setAcc n v).draws = s.draws := by cases n <;> rfl
@[simp] theorem State.setAcc_traps (s : State) (n : Width) (v : Word) : (s.setAcc n v).traps = s.traps := by cases n <;> rfl
@[simp] theorem State.setAcc_pendingExc (s : State) (n : Width) (v : Word) : (s.setAcc n v).pendingExc = s.pendingExc := by cases n <;> rfl
@[simp] theorem State.setAcc_events (s : State) (n : Width) (v : Word) : (s.setAcc n v).events = s.events := by cases n <;> rfl

/-! `State.setPair`. -/

@[simp] theorem State.setPair_eip (s : State) (n : Width) (v w : Word) : (s.setPair n v w).eip = s.eip := by cases n <;> rfl
@[simp] theorem State.setPair_eflags (s : State) (n : Width) (v w : Word) : (s.setPair n v w).eflags = s.eflags := by cases n <;> rfl
@[simp] theorem State.setPair_cpl (s : State) (n : Width) (v w : Word) : (s.setPair n v w).cpl = s.cpl := by cases n <;> rfl
@[simp] theorem State.setPair_seg (s : State) (n : Width) (v w : Word) : (s.setPair n v w).seg = s.seg := by cases n <;> rfl
@[simp] theorem State.setPair_gdtr (s : State) (n : Width) (v w : Word) : (s.setPair n v w).gdtr = s.gdtr := by cases n <;> rfl
@[simp] theorem State.setPair_idtr (s : State) (n : Width) (v w : Word) : (s.setPair n v w).idtr = s.idtr := by cases n <;> rfl
@[simp] theorem State.setPair_ldtr (s : State) (n : Width) (v w : Word) : (s.setPair n v w).ldtr = s.ldtr := by cases n <;> rfl
@[simp] theorem State.setPair_tr (s : State) (n : Width) (v w : Word) : (s.setPair n v w).tr = s.tr := by cases n <;> rfl
@[simp] theorem State.setPair_cr (s : State) (n : Width) (v w : Word) : (s.setPair n v w).cr = s.cr := by cases n <;> rfl
@[simp] theorem State.setPair_dr (s : State) (n : Width) (v w : Word) : (s.setPair n v w).dr = s.dr := by cases n <;> rfl
@[simp] theorem State.setPair_tregs (s : State) (n : Width) (v w : Word) : (s.setPair n v w).tregs = s.tregs := by cases n <;> rfl
@[simp] theorem State.setPair_tlb (s : State) (n : Width) (v w : Word) : (s.setPair n v w).tlb = s.tlb := by cases n <;> rfl
@[simp] theorem State.setPair_activity (s : State) (n : Width) (v w : Word) : (s.setPair n v w).activity = s.activity := by cases n <;> rfl
@[simp] theorem State.setPair_inhibit (s : State) (n : Width) (v w : Word) : (s.setPair n v w).inhibit = s.inhibit := by cases n <;> rfl
@[simp] theorem State.setPair_stiDelay (s : State) (n : Width) (v w : Word) : (s.setPair n v w).stiDelay = s.stiDelay := by cases n <;> rfl
@[simp] theorem State.setPair_nmiInService (s : State) (n : Width) (v w : Word) : (s.setPair n v w).nmiInService = s.nmiInService := by cases n <;> rfl
@[simp] theorem State.setPair_nmiPending (s : State) (n : Width) (v w : Word) : (s.setPair n v w).nmiPending = s.nmiPending := by cases n <;> rfl
@[simp] theorem State.setPair_intr (s : State) (n : Width) (v w : Word) : (s.setPair n v w).intr = s.intr := by cases n <;> rfl
@[simp] theorem State.setPair_lateHits (s : State) (n : Width) (v w : Word) : (s.setPair n v w).lateHits = s.lateHits := by cases n <;> rfl
@[simp] theorem State.setPair_pinReset (s : State) (n : Width) (v w : Word) : (s.setPair n v w).pinReset = s.pinReset := by cases n <;> rfl
@[simp] theorem State.setPair_busy (s : State) (n : Width) (v w : Word) : (s.setPair n v w).busy = s.busy := by cases n <;> rfl
@[simp] theorem State.setPair_error (s : State) (n : Width) (v w : Word) : (s.setPair n v w).error = s.error := by cases n <;> rfl
@[simp] theorem State.setPair_iceActive (s : State) (n : Width) (v w : Word) : (s.setPair n v w).iceActive = s.iceActive := by cases n <;> rfl
@[simp] theorem State.setPair_mem (s : State) (n : Width) (v w : Word) : (s.setPair n v w).mem = s.mem := by cases n <;> rfl
@[simp] theorem State.setPair_memMap (s : State) (n : Width) (v w : Word) : (s.setPair n v w).memMap = s.memMap := by cases n <;> rfl
@[simp] theorem State.setPair_pfx (s : State) (n : Width) (v w : Word) : (s.setPair n v w).pfx = s.pfx := by cases n <;> rfl
@[simp] theorem State.setPair_ilen (s : State) (n : Width) (v w : Word) : (s.setPair n v w).ilen = s.ilen := by cases n <;> rfl
@[simp] theorem State.setPair_midRep (s : State) (n : Width) (v w : Word) : (s.setPair n v w).midRep = s.midRep := by cases n <;> rfl
@[simp] theorem State.setPair_draws (s : State) (n : Width) (v w : Word) : (s.setPair n v w).draws = s.draws := by cases n <;> rfl
@[simp] theorem State.setPair_traps (s : State) (n : Width) (v w : Word) : (s.setPair n v w).traps = s.traps := by cases n <;> rfl
@[simp] theorem State.setPair_pendingExc (s : State) (n : Width) (v w : Word) : (s.setPair n v w).pendingExc = s.pendingExc := by cases n <;> rfl
@[simp] theorem State.setPair_events (s : State) (n : Width) (v w : Word) : (s.setPair n v w).events = s.events := by cases n <;> rfl

/-! `State.popped`. -/

@[simp] theorem State.popped_eip (s : State) (d : Nat) : (s.popped d).eip = s.eip := rfl
@[simp] theorem State.popped_eflags (s : State) (d : Nat) : (s.popped d).eflags = s.eflags := rfl
@[simp] theorem State.popped_cpl (s : State) (d : Nat) : (s.popped d).cpl = s.cpl := rfl
@[simp] theorem State.popped_seg (s : State) (d : Nat) : (s.popped d).seg = s.seg := rfl
@[simp] theorem State.popped_gdtr (s : State) (d : Nat) : (s.popped d).gdtr = s.gdtr := rfl
@[simp] theorem State.popped_idtr (s : State) (d : Nat) : (s.popped d).idtr = s.idtr := rfl
@[simp] theorem State.popped_ldtr (s : State) (d : Nat) : (s.popped d).ldtr = s.ldtr := rfl
@[simp] theorem State.popped_tr (s : State) (d : Nat) : (s.popped d).tr = s.tr := rfl
@[simp] theorem State.popped_cr (s : State) (d : Nat) : (s.popped d).cr = s.cr := rfl
@[simp] theorem State.popped_dr (s : State) (d : Nat) : (s.popped d).dr = s.dr := rfl
@[simp] theorem State.popped_tregs (s : State) (d : Nat) : (s.popped d).tregs = s.tregs := rfl
@[simp] theorem State.popped_tlb (s : State) (d : Nat) : (s.popped d).tlb = s.tlb := rfl
@[simp] theorem State.popped_activity (s : State) (d : Nat) : (s.popped d).activity = s.activity := rfl
@[simp] theorem State.popped_inhibit (s : State) (d : Nat) : (s.popped d).inhibit = s.inhibit := rfl
@[simp] theorem State.popped_stiDelay (s : State) (d : Nat) : (s.popped d).stiDelay = s.stiDelay := rfl
@[simp] theorem State.popped_nmiInService (s : State) (d : Nat) : (s.popped d).nmiInService = s.nmiInService := rfl
@[simp] theorem State.popped_nmiPending (s : State) (d : Nat) : (s.popped d).nmiPending = s.nmiPending := rfl
@[simp] theorem State.popped_intr (s : State) (d : Nat) : (s.popped d).intr = s.intr := rfl
@[simp] theorem State.popped_lateHits (s : State) (d : Nat) : (s.popped d).lateHits = s.lateHits := rfl
@[simp] theorem State.popped_pinReset (s : State) (d : Nat) : (s.popped d).pinReset = s.pinReset := rfl
@[simp] theorem State.popped_busy (s : State) (d : Nat) : (s.popped d).busy = s.busy := rfl
@[simp] theorem State.popped_error (s : State) (d : Nat) : (s.popped d).error = s.error := rfl
@[simp] theorem State.popped_iceActive (s : State) (d : Nat) : (s.popped d).iceActive = s.iceActive := rfl
@[simp] theorem State.popped_mem (s : State) (d : Nat) : (s.popped d).mem = s.mem := rfl
@[simp] theorem State.popped_memMap (s : State) (d : Nat) : (s.popped d).memMap = s.memMap := rfl
@[simp] theorem State.popped_pfx (s : State) (d : Nat) : (s.popped d).pfx = s.pfx := rfl
@[simp] theorem State.popped_ilen (s : State) (d : Nat) : (s.popped d).ilen = s.ilen := rfl
@[simp] theorem State.popped_midRep (s : State) (d : Nat) : (s.popped d).midRep = s.midRep := rfl
@[simp] theorem State.popped_draws (s : State) (d : Nat) : (s.popped d).draws = s.draws := rfl
@[simp] theorem State.popped_traps (s : State) (d : Nat) : (s.popped d).traps = s.traps := rfl
@[simp] theorem State.popped_pendingExc (s : State) (d : Nat) : (s.popped d).pendingExc = s.pendingExc := rfl
@[simp] theorem State.popped_events (s : State) (d : Nat) : (s.popped d).events = s.events := rfl

/-! `State.pushed`. -/

@[simp] theorem State.pushed_eip (s : State) (n : Width) (vs : List Word) : (s.pushed n vs).eip = s.eip := rfl
@[simp] theorem State.pushed_eflags (s : State) (n : Width) (vs : List Word) : (s.pushed n vs).eflags = s.eflags := rfl
@[simp] theorem State.pushed_cpl (s : State) (n : Width) (vs : List Word) : (s.pushed n vs).cpl = s.cpl := rfl
@[simp] theorem State.pushed_seg (s : State) (n : Width) (vs : List Word) : (s.pushed n vs).seg = s.seg := rfl
@[simp] theorem State.pushed_gdtr (s : State) (n : Width) (vs : List Word) : (s.pushed n vs).gdtr = s.gdtr := rfl
@[simp] theorem State.pushed_idtr (s : State) (n : Width) (vs : List Word) : (s.pushed n vs).idtr = s.idtr := rfl
@[simp] theorem State.pushed_ldtr (s : State) (n : Width) (vs : List Word) : (s.pushed n vs).ldtr = s.ldtr := rfl
@[simp] theorem State.pushed_tr (s : State) (n : Width) (vs : List Word) : (s.pushed n vs).tr = s.tr := rfl
@[simp] theorem State.pushed_cr (s : State) (n : Width) (vs : List Word) : (s.pushed n vs).cr = s.cr := rfl
@[simp] theorem State.pushed_dr (s : State) (n : Width) (vs : List Word) : (s.pushed n vs).dr = s.dr := rfl
@[simp] theorem State.pushed_tregs (s : State) (n : Width) (vs : List Word) : (s.pushed n vs).tregs = s.tregs := rfl
@[simp] theorem State.pushed_tlb (s : State) (n : Width) (vs : List Word) : (s.pushed n vs).tlb = s.tlb := rfl
@[simp] theorem State.pushed_activity (s : State) (n : Width) (vs : List Word) : (s.pushed n vs).activity = s.activity := rfl
@[simp] theorem State.pushed_inhibit (s : State) (n : Width) (vs : List Word) : (s.pushed n vs).inhibit = s.inhibit := rfl
@[simp] theorem State.pushed_stiDelay (s : State) (n : Width) (vs : List Word) : (s.pushed n vs).stiDelay = s.stiDelay := rfl
@[simp] theorem State.pushed_nmiInService (s : State) (n : Width) (vs : List Word) : (s.pushed n vs).nmiInService = s.nmiInService := rfl
@[simp] theorem State.pushed_nmiPending (s : State) (n : Width) (vs : List Word) : (s.pushed n vs).nmiPending = s.nmiPending := rfl
@[simp] theorem State.pushed_intr (s : State) (n : Width) (vs : List Word) : (s.pushed n vs).intr = s.intr := rfl
@[simp] theorem State.pushed_lateHits (s : State) (n : Width) (vs : List Word) : (s.pushed n vs).lateHits = s.lateHits := rfl
@[simp] theorem State.pushed_pinReset (s : State) (n : Width) (vs : List Word) : (s.pushed n vs).pinReset = s.pinReset := rfl
@[simp] theorem State.pushed_busy (s : State) (n : Width) (vs : List Word) : (s.pushed n vs).busy = s.busy := rfl
@[simp] theorem State.pushed_error (s : State) (n : Width) (vs : List Word) : (s.pushed n vs).error = s.error := rfl
@[simp] theorem State.pushed_iceActive (s : State) (n : Width) (vs : List Word) : (s.pushed n vs).iceActive = s.iceActive := rfl
@[simp] theorem State.pushed_memMap (s : State) (n : Width) (vs : List Word) : (s.pushed n vs).memMap = s.memMap := rfl
@[simp] theorem State.pushed_pfx (s : State) (n : Width) (vs : List Word) : (s.pushed n vs).pfx = s.pfx := rfl
@[simp] theorem State.pushed_ilen (s : State) (n : Width) (vs : List Word) : (s.pushed n vs).ilen = s.ilen := rfl
@[simp] theorem State.pushed_midRep (s : State) (n : Width) (vs : List Word) : (s.pushed n vs).midRep = s.midRep := rfl
@[simp] theorem State.pushed_draws (s : State) (n : Width) (vs : List Word) : (s.pushed n vs).draws = s.draws := rfl
@[simp] theorem State.pushed_traps (s : State) (n : Width) (vs : List Word) : (s.pushed n vs).traps = s.traps := rfl
@[simp] theorem State.pushed_pendingExc (s : State) (n : Width) (vs : List Word) : (s.pushed n vs).pendingExc = s.pendingExc := rfl
@[simp] theorem State.pushed_events (s : State) (n : Width) (vs : List Word) : (s.pushed n vs).events = s.events := rfl

/-! `State.setRights`. -/

@[simp] theorem State.setRights_gpr (s : State) (h : Half) (b : Byte) : (s.setRights h b).gpr = s.gpr := rfl
@[simp] theorem State.setRights_eip (s : State) (h : Half) (b : Byte) : (s.setRights h b).eip = s.eip := rfl
@[simp] theorem State.setRights_eflags (s : State) (h : Half) (b : Byte) : (s.setRights h b).eflags = s.eflags := rfl
@[simp] theorem State.setRights_cpl (s : State) (h : Half) (b : Byte) : (s.setRights h b).cpl = s.cpl := rfl
@[simp] theorem State.setRights_seg (s : State) (h : Half) (b : Byte) : (s.setRights h b).seg = s.seg := rfl
@[simp] theorem State.setRights_gdtr (s : State) (h : Half) (b : Byte) : (s.setRights h b).gdtr = s.gdtr := rfl
@[simp] theorem State.setRights_idtr (s : State) (h : Half) (b : Byte) : (s.setRights h b).idtr = s.idtr := rfl
@[simp] theorem State.setRights_ldtr (s : State) (h : Half) (b : Byte) : (s.setRights h b).ldtr = s.ldtr := rfl
@[simp] theorem State.setRights_tr (s : State) (h : Half) (b : Byte) : (s.setRights h b).tr = s.tr := rfl
@[simp] theorem State.setRights_cr (s : State) (h : Half) (b : Byte) : (s.setRights h b).cr = s.cr := rfl
@[simp] theorem State.setRights_dr (s : State) (h : Half) (b : Byte) : (s.setRights h b).dr = s.dr := rfl
@[simp] theorem State.setRights_tregs (s : State) (h : Half) (b : Byte) : (s.setRights h b).tregs = s.tregs := rfl
@[simp] theorem State.setRights_tlb (s : State) (h : Half) (b : Byte) : (s.setRights h b).tlb = s.tlb := rfl
@[simp] theorem State.setRights_activity (s : State) (h : Half) (b : Byte) : (s.setRights h b).activity = s.activity := rfl
@[simp] theorem State.setRights_inhibit (s : State) (h : Half) (b : Byte) : (s.setRights h b).inhibit = s.inhibit := rfl
@[simp] theorem State.setRights_stiDelay (s : State) (h : Half) (b : Byte) : (s.setRights h b).stiDelay = s.stiDelay := rfl
@[simp] theorem State.setRights_nmiInService (s : State) (h : Half) (b : Byte) : (s.setRights h b).nmiInService = s.nmiInService := rfl
@[simp] theorem State.setRights_nmiPending (s : State) (h : Half) (b : Byte) : (s.setRights h b).nmiPending = s.nmiPending := rfl
@[simp] theorem State.setRights_intr (s : State) (h : Half) (b : Byte) : (s.setRights h b).intr = s.intr := rfl
@[simp] theorem State.setRights_lateHits (s : State) (h : Half) (b : Byte) : (s.setRights h b).lateHits = s.lateHits := rfl
@[simp] theorem State.setRights_pinReset (s : State) (h : Half) (b : Byte) : (s.setRights h b).pinReset = s.pinReset := rfl
@[simp] theorem State.setRights_busy (s : State) (h : Half) (b : Byte) : (s.setRights h b).busy = s.busy := rfl
@[simp] theorem State.setRights_error (s : State) (h : Half) (b : Byte) : (s.setRights h b).error = s.error := rfl
@[simp] theorem State.setRights_iceActive (s : State) (h : Half) (b : Byte) : (s.setRights h b).iceActive = s.iceActive := rfl
@[simp] theorem State.setRights_memMap (s : State) (h : Half) (b : Byte) : (s.setRights h b).memMap = s.memMap := rfl
@[simp] theorem State.setRights_pfx (s : State) (h : Half) (b : Byte) : (s.setRights h b).pfx = s.pfx := rfl
@[simp] theorem State.setRights_ilen (s : State) (h : Half) (b : Byte) : (s.setRights h b).ilen = s.ilen := rfl
@[simp] theorem State.setRights_midRep (s : State) (h : Half) (b : Byte) : (s.setRights h b).midRep = s.midRep := rfl
@[simp] theorem State.setRights_draws (s : State) (h : Half) (b : Byte) : (s.setRights h b).draws = s.draws := rfl
@[simp] theorem State.setRights_traps (s : State) (h : Half) (b : Byte) : (s.setRights h b).traps = s.traps := rfl
@[simp] theorem State.setRights_pendingExc (s : State) (h : Half) (b : Byte) : (s.setRights h b).pendingExc = s.pendingExc := rfl
@[simp] theorem State.setRights_events (s : State) (h : Half) (b : Byte) : (s.setRights h b).events = s.events := rfl

/-! Registers after a write. -/

theorem Gprs.get_set_same (g : Gprs) (r : Gpr) (v : Word) : (g.set r v).get r = v := by cases r <;> rfl

theorem Gprs.get_set_ne (g : Gprs) {r q : Gpr} (v : Word) (h : q ≠ r) : (g.set r v).get q = g.get q := by
  cases r <;> cases q <;> first | rfl | exact absurd rfl h

theorem Gprs.set_get (g : Gprs) (r : Gpr) : g.set r (g.get r) = g := by cases r <;> rfl

theorem Gprs.ext_get {g k : Gprs} (h : ∀ r, g.get r = k.get r) : g = k := by
  cases g; cases k
  have h0 := h .ax; have h1 := h .cx; have h2 := h .dx; have h3 := h .bx
  have h4 := h .sp; have h5 := h .bp; have h6 := h .si; have h7 := h .di
  simp_all [Gprs.get]

@[simp] theorem State.reg_setReg_same (s : State) (r : Gpr) (v : Word) : (s.setReg r v).reg r = v :=
  Gprs.get_set_same s.gpr r v

theorem State.reg_setReg_ne (s : State) {r q : Gpr} (v : Word) (h : q ≠ r) : (s.setReg r v).reg q = s.reg q :=
  Gprs.get_set_ne s.gpr v h

theorem State.reg_setReg (s : State) (r q : Gpr) (v : Word) :
    (s.setReg r v).reg q = if q = r then v else s.reg q := by
  by_cases h : q = r
  · subst h; simp
  · simp [h, State.reg_setReg_ne]

/-- An 8-bit write reaches no other register than the one it is part of. -/
theorem State.reg_setReg8_ne (s : State) {r : Gpr8} {q : Gpr} (v : Byte) (h : q ≠ Gpr8.home r) :
    (s.setReg8 r v).reg q = s.reg q := State.reg_setReg_ne s _ h

theorem State.reg_setRegZ_ne (s : State) {r q : Gpr} (z : Sz) (v : Word) (h : q ≠ r) :
    (s.setRegZ z r v).reg q = s.reg q := by
  cases z <;> exact State.reg_setReg_ne s _ h

/-- A 16-bit write reads back (R11). -/
theorem lowHalf_withLow (v : Word) (h : Half) : lowHalf (withLow v h) = h := by
  apply BitVec.eq_of_getLsbD_eq
  intro i hi
  have e := BitVec.getLsbD_append (x := v.extractLsb' 16 16) (y := h) (i := i)
  rw [if_pos hi] at e
  rw [lowHalf, BitVec.getLsbD_setWidth, decide_eq_true hi, Bool.true_and]
  exact e

theorem low_byte (w : BitVec 24) (v : Byte) : (w ++ v : Word).extractLsb' 0 8 = v := by
  apply BitVec.eq_of_getLsbD_eq
  intro i hi
  have e := BitVec.getLsbD_append (x := w) (y := v) (i := i)
  rw [if_pos hi] at e
  rw [BitVec.getLsbD_extractLsb', decide_eq_true hi, Bool.true_and, Nat.zero_add]
  exact e

theorem mid_byte (w : BitVec 16) (v u : Byte) : (w ++ v ++ u : Word).extractLsb' 8 8 = v := by
  apply BitVec.eq_of_getLsbD_eq
  intro i hi
  have e := BitVec.getLsbD_append (x := w ++ v) (y := u) (i := 8 + i)
  have e' := BitVec.getLsbD_append (x := w) (y := v) (i := i)
  rw [if_neg (by omega : ¬ 8 + i < 8), Nat.add_sub_cancel_left, e', if_pos hi] at e
  rw [BitVec.getLsbD_extractLsb', decide_eq_true hi, Bool.true_and]
  exact e

/-- An 8-bit register reads as written (R11). -/
theorem State.reg8_setReg8_same (s : State) (r : Gpr8) (v : Byte) : (s.setReg8 r v).reg8 r = v := by
  unfold State.setReg8 State.reg8
  simp only [State.reg_setReg_same]
  cases Gpr8.high r
  · exact low_byte _ v
  · exact mid_byte _ v _

/-- A 16- or 32-bit register reads as written, truncated (R11). -/
theorem State.regZ_setRegZ_same (s : State) (z : Sz) (r : Gpr) (v : Word) : (s.setRegZ z r v).regZ z r = truncZ z v := by
  cases z
  · simp only [State.setRegZ, State.regZ, State.reg_setReg_same, truncZ, truncW, Sz.width, lowHalf_withLow]
    rfl
  · simp [State.setRegZ, State.regZ, truncZ, truncW, Sz.width]

@[simp] theorem State.sreg_setSreg_same (s : State) (r : Sreg) (v : SegReg) : (s.setSreg r v).sreg r = v := by
  cases r <;> rfl

theorem State.sreg_setSreg_ne (s : State) {r q : Sreg} (v : SegReg) (h : q ≠ r) : (s.setSreg r v).sreg q = s.sreg q := by
  cases r <;> cases q <;> first | rfl | exact absurd rfl h

@[simp] theorem State.reg_setSreg (s : State) (r : Sreg) (v : SegReg) (q : Gpr) : (s.setSreg r v).reg q = s.reg q := rfl
@[simp] theorem State.sreg_setReg (s : State) (r : Gpr) (v : Word) (q : Sreg) : (s.setReg r v).sreg q = s.sreg q := rfl
@[simp] theorem State.reg_putFlags (s : State) (f : FlagsOut) (q : Gpr) : (s.putFlags f).reg q = s.reg q := rfl

/-! Bits of EFLAGS and CR0. -/

theorem bit_one_shift (i j : Nat) : (1 <<< i : Word).getLsbD j = decide (i = j ∧ j < 32) := by
  show (BitVec.ofNat 32 (1 <<< i)).getLsbD j = _
  rw [BitVec.getLsbD_ofNat, Nat.one_shiftLeft, Nat.testBit_two_pow]
  by_cases h : i = j <;> simp [h]

theorem bit_putBit_same (v : Word) {i : Nat} (b : Bool) (h : i < 32) : bit (putBit v i b) i = b := by
  cases b <;> simp only [bit, putBit, Bool.false_eq_true, if_false, if_true]
  · rw [BitVec.getLsbD_and, BitVec.getLsbD_not, bit_one_shift]; simp [h]
  · rw [BitVec.getLsbD_or, bit_one_shift]; simp [h]

theorem bit_putBit_ne (v : Word) {i j : Nat} (b : Bool) (h : j ≠ i) : bit (putBit v i b) j = bit v j := by
  have h' : ¬ (i = j ∧ j < 32) := fun x => h x.1.symm
  cases b <;> simp only [bit, putBit, Bool.false_eq_true, if_false, if_true]
  · rw [BitVec.getLsbD_and, BitVec.getLsbD_not, bit_one_shift]
    by_cases hj : j < 32
    · rw [decide_eq_false h']; simp [hj]
    · simp [BitVec.getLsbD_of_ge v j (by omega)]
  · rw [BitVec.getLsbD_or, bit_one_shift]; simp [h']

theorem bit_mergeBits (k u v : Word) (i : Nat) :
    bit (mergeBits k u v) i = ((bit k i && bit u i) || (!bit k i && bit v i)) := by
  by_cases h : i < 32
  · simp [bit, mergeBits, h, Bool.and_comm]
  · have e : ∀ w : Word, w.getLsbD i = false := fun w => BitVec.getLsbD_of_ge w i (by omega)
    simp [bit, e]

end Sys2Proof.Machine
end

