-- ==== Sys2Proof/Laws/Access.lean ====
section
/-!
SUPPORT. Sys2Proof/Laws/Access.lean: what an access to memory, an operand or a place does where it may be made: it
answers, and beside the effect said only the record of data breakpoints and the counter of free values change.
-/
namespace Sys2Proof.Machine

/-- `t` is `s` but for the breakpoints noted and the free values drawn. -/
def Noted (s t : State) : Prop := ∃ tr k, t = { s with traps := tr, draws := k }

theorem Noted.refl (s : State) : Noted s s := ⟨s.traps, s.draws, rfl⟩

theorem Noted.trans {s t u : State} (h : Noted s t) (k : Noted t u) : Noted s u := by
  obtain ⟨a, b, rfl⟩ := h
  obtain ⟨c, d, rfl⟩ := k
  exact ⟨c, d, rfl⟩

/-- An update that reads neither record carries the relation along. -/
theorem Noted.map {s t : State} (f : State → State)
    (hf : ∀ s tr k, f { s with traps := tr, draws := k } = { f s with traps := tr, draws := k }) (h : Noted s t) :
    Noted (f s) (f t) := by
  obtain ⟨a, b, rfl⟩ := h
  exact ⟨a, b, hf s a b⟩

/-- What does not depend on the two records is as before. -/
theorem Noted.look {α : Type} {s t : State} (f : State → α)
    (hf : ∀ s tr k, f { s with traps := tr, draws := k } = f s) (h : Noted s t) : f t = f s := by
  obtain ⟨a, b, rfl⟩ := h
  exact hf s a b

theorem Noted.draw {s t : State} (h : Noted s t) (k : Nat) : Noted s { t with draws := k } := by
  obtain ⟨a, b, rfl⟩ := h
  exact ⟨a, k, rfl⟩

theorem Spot.value_noted {s t : State} (k : Spot) (h : Noted s t) : k.value t = k.value s := by
  obtain ⟨a, b, rfl⟩ := h
  cases k <;> rfl

theorem Spot.ok_noted {s t : State} (k : Spot) (acc : Acc) (h : Noted s t) : k.ok t acc = k.ok s acc := by
  obtain ⟨a, b, rfl⟩ := h
  cases k <;> rfl

theorem Spot.store_noted {s t : State} (k : Spot) (v : Word) (h : Noted s t) : Noted (k.store s v) (k.store t v) := by
  obtain ⟨a, b, rfl⟩ := h
  refine ⟨a, b, ?_⟩
  cases k with
  | reg8 r => rfl
  | reg z r => cases z <;> rfl
  | mem n z r off => rfl

/-! Physical addresses. -/

theorem addrsFrom_append (a k j : Nat) : addrsFrom a k ++ addrsFrom (a + k) j = addrsFrom a (k + j) := by
  induction k generalizing a with
  | zero => simp [addrsFrom]
  | succ k ih =>
    rw [show k + 1 + j = (k + j) + 1 by omega, addrsFrom, addrsFrom, List.cons_append,
      show a + (k + 1) = a + 1 + k by omega, ih]

theorem translate_flat {s : State} (lin : Word) (user : Bool) (acc : Acc) (h : s.pg = false) :
    translate lin user acc s = .ok lin.toNat s := by
  unfold translate
  rw [M.look_bind, h]
  rfl

/-- With paging off the addresses are the linear ones (R110). -/
theorem linAddrs_flat {s : State} {lin : Word} {n : Nat} (user : Bool) (acc : Acc) (h : s.flat lin n = true) :
    linAddrs lin n user acc s = .ok (addrsFrom lin.toNat n) s := by
  simp only [State.flat, Bool.and_eq_true, Bool.not_eq_true', decide_eq_true_eq] at h
  obtain ⟨⟨hpg, hle⟩, -⟩ := h
  unfold linAddrs
  rw [M.bind_ok _ (translate_flat lin user acc hpg)]
  by_cases hk : n ≤ 4096 - pageOffset lin
  · rw [if_pos hk]; rfl
  · rw [if_neg hk, M.bind_ok _ (translate_flat _ user acc hpg)]
    have hp : pageOffset lin < 4096 := by
      unfold pageOffset; exact (lin.extractLsb' 0 12).isLt
    have e : (lin + BitVec.ofNat 32 (4096 - pageOffset lin)).toNat = lin.toNat + (4096 - pageOffset lin) := by
      rw [BitVec.toNat_add, BitVec.toNat_ofNat]; omega
    rw [e]
    show EStateM.Result.ok _ _ = _
    rw [addrsFrom_append, show 4096 - pageOffset lin + (n - (4096 - pageOffset lin)) = n by omega]

theorem noteAccess_ok (lin : Word) (k : Nat) (acc : Acc) (s : State) :
    ∃ t, noteAccess lin k acc s = .ok () t ∧ Noted s t := by
  unfold noteAccess
  rw [M.look_bind]
  by_cases h : bits4 (dataUndefined s.dr.dr7) == 0
  · rw [if_pos h]; exact ⟨_, rfl, _, _, rfl⟩
  · rw [if_neg h]; exact ⟨_, rfl, _, _, rfl⟩

/-- An access that may be made answers the addresses of its bytes. -/
theorem memAddrs_ok {s : State} {a : Sz} {r : Sreg} {off : Word} {n : Width} {acc : Acc}
    (h : (Spot.mem n a r off).ok s acc = true) :
    ∃ t, memAddrs a r off n.bytes acc s = .ok (addrsFrom (s.physAt r off) n.bytes) t ∧ Noted s t := by
  simp only [Spot.ok, Bool.and_eq_true] at h
  obtain ⟨t, ht, hn⟩ := noteAccess_ok ((s.sreg r).base + off) n.bytes acc s
  refine ⟨t, ?_, hn⟩
  unfold memAddrs
  rw [M.look_bind, M.look_bind, h.1, M.require_true, M.bind_ok _ ht, M.look_bind]
  have hf : t.flat ((s.sreg r).base + off) n.bytes = true := by
    obtain ⟨a, b, rfl⟩ := hn; exact h.2
  rw [linAddrs_flat _ _ hf]
  rfl

/-- The bytes of an access that may be made are RAM. -/
theorem Spot.isRam_of_ok {s : State} {a : Sz} {r : Sreg} {off : Word} {n : Width} {acc : Acc}
    (h : (Spot.mem n a r off).ok s acc = true) : s.isRam (s.physAt r off) n.bytes = true := by
  simp only [Spot.ok, State.flat, Bool.and_eq_true] at h
  exact h.2.2

/-- A read that may be made answers the value. -/
theorem memRead_ok {s : State} {a : Sz} {r : Sreg} {off : Word} {n : Width} (h : (Spot.mem n a r off).ok s .read = true) :
    ∃ t, memRead a r off n s = .ok ((Spot.mem n a r off).value s) t ∧ Noted s t := by
  obtain ⟨t, ht, hn⟩ := memAddrs_ok h
  refine ⟨t, ?_, hn⟩
  unfold memRead
  rw [M.bind_ok _ ht]
  have hr : t.isRam (s.physAt r off) n.bytes = true := by
    obtain ⟨a, b, rfl⟩ := hn; exact Spot.isRam_of_ok h
  rw [readAddrs_ram hr]
  obtain ⟨a, b, rfl⟩ := hn
  rfl

/-- A write that may be made stores the value. -/
theorem memWrite_ok {s : State} {a : Sz} {r : Sreg} {off : Word} {n : Width} (v : Word)
    (h : (Spot.mem n a r off).ok s .write = true) :
    ∃ t, memWrite a r off n v s = .ok () t ∧ Noted ((Spot.mem n a r off).store s v) t := by
  obtain ⟨t, ht, hn⟩ := memAddrs_ok h
  unfold memWrite
  rw [M.bind_ok _ ht]
  have hr : t.isRam (s.physAt r off) n.bytes = true := by
    obtain ⟨a, b, rfl⟩ := hn; exact Spot.isRam_of_ok h
  rw [writeAddrs_ram v hr]
  obtain ⟨a, b, rfl⟩ := hn
  exact ⟨_, rfl, a, b, rfl⟩

/-! Places and operands. -/

/-- A place that may be accessed: what it holds is read from, and written to, its spot. -/
theorem Place.loc_ok {s : State} {p : Place} {acc : Acc} (h : p.ok s acc = true) :
    ∃ l t, p.loc acc s = .ok l t ∧ Noted s t ∧
      (∀ u, Noted s u → l.get u = .ok ((p.spot s).value s) u) ∧
      (∀ u v, Noted s u → ∃ w, l.put v u = .ok () w ∧ Noted ((p.spot s).store s v) w) := by
  cases p with
  | reg8 r =>
    refine ⟨.reg8 r, s, rfl, .refl s, fun u hu => ?_, fun u v hu => ⟨_, rfl, (Spot.reg8 r).store_noted v hu⟩⟩
    show _ = EStateM.Result.ok ((Spot.reg8 r).value s) u
    rw [← Spot.value_noted (Spot.reg8 r) hu]
    rfl
  | reg z r =>
    refine ⟨.reg z r, s, rfl, .refl s, fun u hu => ?_, fun u v hu => ⟨_, rfl, (Spot.reg z r).store_noted v hu⟩⟩
    show _ = EStateM.Result.ok ((Spot.reg z r).value s) u
    rw [← Spot.value_noted (Spot.reg z r) hu]
    rfl
  | mem n m =>
    simp only [Place.ok, Bool.and_eq_true, Bool.not_eq_true'] at h
    have hram := Spot.isRam_of_ok h.2
    obtain ⟨t, ht, hn⟩ := memAddrs_ok h.2
    refine ⟨.bytes (addrsFrom (s.physAt (s.segOf m) (s.offsetOf m)) n.bytes), t, ?_, hn, fun u hu => ?_, fun u v hu => ?_⟩
    · have e : effAddr m s = .ok (s.offsetOf m) s := by simp [effAddr, h.1]
      show (effAddr m >>= fun off => look (·.segOf m) >>= fun seg => memAddrs m.size seg off n.bytes acc >>= fun as =>
        pure (Loc.bytes as)) s = _
      rw [M.bind_ok _ e, M.look_bind, M.bind_ok _ ht]
      rfl
    · obtain ⟨a, b, rfl⟩ := hu
      exact readAddrs_ram hram
    · obtain ⟨a, b, rfl⟩ := hu
      exact ⟨_, writeAddrs_ram v hram, a, b, rfl⟩

theorem Place.read_ok {s : State} {p : Place} (h : p.ok s .read = true) :
    ∃ t, p.read s = .ok ((p.spot s).value s) t ∧ Noted s t := by
  obtain ⟨l, t, h1, hn, hg, -⟩ := Place.loc_ok h
  exact ⟨t, by unfold Place.read; rw [M.bind_ok _ h1, hg t hn], hn⟩

theorem Place.write_ok {s : State} {p : Place} (v : Word) (h : p.ok s .write = true) :
    ∃ t, p.write v s = .ok () t ∧ Noted ((p.spot s).store s v) t := by
  obtain ⟨l, t, h1, hn, -, hp⟩ := Place.loc_ok h
  obtain ⟨w, hw, hnw⟩ := hp t v hn
  exact ⟨w, by unfold Place.write; rw [M.bind_ok _ h1, hw], hnw⟩

theorem Operand.get_ok {s : State} {o : Operand} (h : o.ok s = true) :
    ∃ t, o.get s = .ok (o.value s) t ∧ Noted s t := by
  cases o with
  | at_ p => exact Place.read_ok h
  | imm v => exact ⟨s, rfl, .refl s⟩

/-- A place is the same place, and as accessible, where only the records differ. -/
theorem Place.ok_noted {s t : State} (p : Place) (acc : Acc) (hp : Noted s t) (h : p.ok s acc = true) :
    p.ok t acc = true ∧ p.spot t = p.spot s := by
  obtain ⟨a, b, rfl⟩ := hp
  cases p with
  | reg8 r => exact ⟨rfl, rfl⟩
  | reg z r => exact ⟨rfl, rfl⟩
  | mem n m =>
    simp only [Place.ok, Bool.and_eq_true, Bool.not_eq_true'] at h
    have e : ({ s with traps := a, draws := b } : State).offsetOf m = s.offsetOf m := by
      simp [State.offsetOf, h.1]
    have e2 : ({ s with traps := a, draws := b } : State).segOf m = s.segOf m := rfl
    constructor
    · simp only [Place.ok, e, e2, h.1, Bool.not_false, Bool.true_and]
      rw [Spot.ok_noted _ _ ⟨a, b, rfl⟩]; exact h.2
    · simp only [Place.spot, e, e2]

/-! Instructions over operands. -/

/-- What `combine` leaves: the result at the destination, and its flags. -/
theorem combine_ok (op : Width → Word → Word → Bool → Res) {s : State} {p : Pair} (h : p.ok s .rmw = true) :
    let x := op p.width ((p.dst.spot s).value s) (p.src.value s) s.cf
    ∃ t k, combine op p s = .ok () t ∧
      Noted { (p.dst.spot s).store s x.val with eflags := x.flags.image s.eflags (Config.freeWord k) } t := by
  simp only [Pair.ok, Bool.and_eq_true] at h
  obtain ⟨t1, e1, n1⟩ := Operand.get_ok h.1
  obtain ⟨hd, hs⟩ := Place.ok_noted p.dst .rmw n1 h.2
  obtain ⟨l, t2, e2, n2, hg, hp⟩ := Place.loc_ok hd
  have hv : (p.dst.spot t1).value t1 = (p.dst.spot s).value s := by rw [hs, Spot.value_noted _ n1]
  have hc : t2.cf = s.cf := (n1.trans n2).look State.cf fun _ _ _ => rfl
  obtain ⟨w, ew, nw⟩ := hp t2 (op p.width ((p.dst.spot s).value s) (p.src.value s) s.cf).val n2
  have nw' := (Spot.store_noted (p.dst.spot s) (op p.width ((p.dst.spot s).value s) (p.src.value s) s.cf).val n1).trans
    (hs ▸ nw)
  refine ⟨w.putFlags (op p.width ((p.dst.spot s).value s) (p.src.value s) s.cf).flags, w.draws, ?_, ?_⟩
  · unfold combine
    rw [M.bind_ok _ e1, M.bind_ok _ e2, M.bind_ok _ (hg t2 n2), M.look_bind, hv, hc, M.bind_ok _ ew]
    rfl
  · have he : w.eflags = s.eflags := by
      obtain ⟨a, b, rfl⟩ := nw'
      cases p.dst.spot s with
      | reg8 r => rfl
      | reg z r => cases z <;> rfl
      | mem n z r off => rfl
    obtain ⟨a, b, hw⟩ := nw'
    refine ⟨a, if (op p.width ((p.dst.spot s).value s) (p.src.value s) s.cf).flags.isOpen then w.draws + 1 else w.draws, ?_⟩
    unfold State.putFlags
    rw [he, hw]

/-- What `modify` leaves. -/
theorem modify_ok (op : Width → Word → Bool → Res) {s : State} {p : Single} (h : p.dst.ok s .rmw = true) :
    let x := op p.width ((p.dst.spot s).value s) s.cf
    ∃ t k, modify op p s = .ok () t ∧
      Noted { (p.dst.spot s).store s x.val with eflags := x.flags.image s.eflags (Config.freeWord k) } t := by
  obtain ⟨l, t2, e2, n2, hg, hp⟩ := Place.loc_ok h
  have hc : t2.cf = s.cf := n2.look State.cf fun _ _ _ => rfl
  obtain ⟨w, ew, nw⟩ := hp t2 (op p.width ((p.dst.spot s).value s) s.cf).val n2
  refine ⟨w.putFlags (op p.width ((p.dst.spot s).value s) s.cf).flags, w.draws, ?_, ?_⟩
  · unfold modify
    rw [M.bind_ok _ e2, M.bind_ok _ (hg t2 n2), M.look_bind, hc, M.bind_ok _ ew]
    rfl
  · have he : w.eflags = s.eflags := by
      obtain ⟨a, b, rfl⟩ := nw
      cases p.dst.spot s with
      | reg8 r => rfl
      | reg z r => cases z <;> rfl
      | mem n z r off => rfl
    obtain ⟨a, b, hw⟩ := nw
    refine ⟨a, if (op p.width ((p.dst.spot s).value s) s.cf).flags.isOpen then w.draws + 1 else w.draws, ?_⟩
    unfold State.putFlags
    rw [he, hw]

/-- What `compare` leaves: flags alone. -/
theorem compare_ok (op : Width → Word → Word → Bool → Res) {s : State} {p : Pair} (h : p.ok s .read = true) :
    let x := op p.width ((p.dst.spot s).value s) (p.src.value s) s.cf
    ∃ t k, compare op p s = .ok () t ∧
      Noted { s with eflags := x.flags.image s.eflags (Config.freeWord k) } t := by
  simp only [Pair.ok, Bool.and_eq_true] at h
  obtain ⟨t1, e1, n1⟩ := Operand.get_ok h.1
  obtain ⟨hd, hs⟩ := Place.ok_noted p.dst .read n1 h.2
  obtain ⟨t2, e2, n2⟩ := Place.read_ok hd
  have hv : (p.dst.spot t1).value t1 = (p.dst.spot s).value s := by rw [hs, Spot.value_noted _ n1]
  have hc : t2.cf = s.cf := (n1.trans n2).look State.cf fun _ _ _ => rfl
  refine ⟨t2.putFlags (op p.width ((p.dst.spot s).value s) (p.src.value s) s.cf).flags, t2.draws, ?_, ?_⟩
  · unfold compare
    rw [M.bind_ok _ e1, M.bind_ok _ e2, M.look_bind, hv, hc]
    rfl
  · obtain ⟨a, b, rfl⟩ := n1.trans n2
    exact ⟨a, _, rfl⟩

/-- What `move` leaves: the source at the destination. -/
theorem move_ok {s : State} {p : Pair} (h : p.ok s .write = true) :
    ∃ t, move p s = .ok () t ∧ Noted ((p.dst.spot s).store s (p.src.value s)) t := by
  simp only [Pair.ok, Bool.and_eq_true] at h
  obtain ⟨t1, e1, n1⟩ := Operand.get_ok h.1
  obtain ⟨hd, hs⟩ := Place.ok_noted p.dst .write n1 h.2
  obtain ⟨t2, e2, n2⟩ := Place.write_ok (p.src.value s) hd
  refine ⟨t2, ?_, (Spot.store_noted (p.dst.spot s) _ n1).trans (hs ▸ n2)⟩
  unfold move
  rw [M.bind_ok _ e1, e2]

end Sys2Proof.Machine
end

