-- ==== Sys2Proof/Laws/Run.lean ====
section
/-!
SUPPORT. Sys2Proof/Laws/Run.lean: from what an instruction's body leaves to what the instruction leaves: the boundary
(`finish`), EIP, RF, and the flags.
-/
namespace Sys2Proof.Machine

/-! Flags. -/

/-- A flag resolved is one the instruction may leave. -/
theorem FlagVal.resolve_allows (f : FlagVal) (old free : Bool) : f.allows old (f.resolve old free) := by
  cases f <;> simp [FlagVal.allows, FlagVal.resolve]

/-- EFLAGS with the six flags resolved, RF then cleared, is what the instruction may leave. -/
theorem FlagsOut.image_allows (f : FlagsOut) (old free : Word) : f.Allows old (putBit (f.image old free) 16 false) := by
  have same : ∀ (v : Word) (i : Nat) (x : FlagVal) (o r : Bool), i < 32 → x.allows o (bit (putBit v i (x.resolve o r)) i) :=
    fun v i x o r h => by rw [bit_putBit_same v _ h]; exact x.resolve_allows o r
  refine ⟨?_, ?_, ?_, ?_, ?_, ?_, bit_putBit_same _ _ (by omega), ?_⟩
  · rw [bit_putBit_ne _ _ (by decide)]; exact same _ _ _ _ _ (by decide)
  · rw [bit_putBit_ne _ _ (by decide), FlagsOut.image, bit_putBit_ne _ _ (by decide)]; exact same _ _ _ _ _ (by decide)
  · rw [bit_putBit_ne _ _ (by decide), FlagsOut.image, bit_putBit_ne _ _ (by decide), bit_putBit_ne _ _ (by decide)]
    exact same _ _ _ _ _ (by decide)
  · rw [bit_putBit_ne _ _ (by decide), FlagsOut.image, bit_putBit_ne _ _ (by decide), bit_putBit_ne _ _ (by decide),
      bit_putBit_ne _ _ (by decide)]
    exact same _ _ _ _ _ (by decide)
  · rw [bit_putBit_ne _ _ (by decide), FlagsOut.image, bit_putBit_ne _ _ (by decide), bit_putBit_ne _ _ (by decide),
      bit_putBit_ne _ _ (by decide), bit_putBit_ne _ _ (by decide)]
    exact same _ _ _ _ _ (by decide)
  · rw [bit_putBit_ne _ _ (by decide), FlagsOut.image, bit_putBit_ne _ _ (by decide), bit_putBit_ne _ _ (by decide),
      bit_putBit_ne _ _ (by decide), bit_putBit_ne _ _ (by decide), bit_putBit_ne _ _ (by decide)]
    exact same _ _ _ _ _ (by decide)
  apply BitVec.eq_of_getLsbD_eq
  intro i hi
  rw [BitVec.getLsbD_and, BitVec.getLsbD_and]
  by_cases hm : (0xFFFEF72A : Word).getLsbD i = true
  · have hne : i ≠ 0 ∧ i ≠ 2 ∧ i ≠ 4 ∧ i ≠ 6 ∧ i ≠ 7 ∧ i ≠ 11 ∧ i ≠ 16 := by
      refine ⟨?_, ?_, ?_, ?_, ?_, ?_, ?_⟩ <;> (intro h; subst h; revert hm; decide)
    have e : bit (putBit (f.image old free) 16 false) i = bit old i := by
      unfold FlagsOut.image
      simp only [bit_putBit_ne _ _ hne.1, bit_putBit_ne _ _ hne.2.1, bit_putBit_ne _ _ hne.2.2.1,
        bit_putBit_ne _ _ hne.2.2.2.1, bit_putBit_ne _ _ hne.2.2.2.2.1, bit_putBit_ne _ _ hne.2.2.2.2.2.1,
        bit_putBit_ne _ _ hne.2.2.2.2.2.2]
    unfold bit at e
    rw [e]
  · rw [Bool.eq_false_iff.mpr hm, Bool.and_false, Bool.and_false]

/-- No flag but RF changes. -/
theorem FlagsOut.same_allows (v : Word) : FlagsOut.same.Allows v (putBit v 16 false) := by
  have h := FlagsOut.image_allows .same v 0
  have e : FlagsOut.same.image v 0 = v := by
    apply BitVec.eq_of_getLsbD_eq
    intro i hi
    have one : ∀ (w : Word) (k : Nat), k < 32 → bit (putBit w k (bit v k)) i = if i = k then bit v i else bit w i := by
      intro w k hk
      by_cases h : i = k
      · subst h; simp [bit_putBit_same _ _ hk]
      · simp [h, bit_putBit_ne _ _ h]
    show bit _ i = bit v i
    simp only [FlagsOut.image, FlagsOut.same, FlagVal.resolve]
    rw [one _ 0 (by omega), one _ 2 (by omega), one _ 4 (by omega), one _ 6 (by omega), one _ 7 (by omega),
      one _ 11 (by omega)]
    simp
  rwa [e] at h

/-! The boundary. -/

/-- What the boundary changes is none of what `Like` looks at. -/
theorem finish_like {e : Ending} {s t u : State} (he : e ≠ .hold) (h : Like t u) : Like (finish e s t) u := by
  have hb : (e == Ending.hold) = false := by cases e <;> first | rfl | exact absurd rfl he
  have key : ∀ v : State, Like v u → Like (e.debug s.tf (dr7Exact s.dr.dr7) v) u := by
    intro v hv
    unfold Ending.debug
    cases e <;> (dsimp only; split <;> split <;> exact ⟨hv.1, hv.2, hv.3, hv.4, hv.5, hv.6, hv.7, hv.8, hv.9, hv.10, hv.11,
      hv.12, hv.13, hv.14, hv.15, hv.16, hv.17, hv.18⟩)
  have place : Like (e.place t) u := by
    unfold Ending.place State.advance
    dsimp only
    cases e <;> (split <;> split <;> (try split) <;> exact ⟨h.1, h.2, h.3, h.4, h.5, h.6, h.7, h.8, h.9, h.10, h.11, h.12, h.13, h.14,
      h.15, h.16, h.17, h.18⟩)
  have := key _ place
  unfold finish
  rw [hb]
  exact ⟨this.1, this.2, this.3, this.4, this.5, this.6, this.7, this.8, this.9, this.10, this.11, this.12, this.13, this.14,
    this.15, this.16, this.17, this.18⟩

/-- EIP at the boundary: `EIP_next`, or as the body left it. -/
theorem finish_eip {e : Ending} {s t : State} (he : e ≠ .hold) :
    (finish e s t).eip = if e.advances then t.eipNext else t.eip := by
  have debug : ∀ v : State, (e.debug s.tf (dr7Exact s.dr.dr7) v).eip = v.eip := by
    intro v
    unfold Ending.debug
    dsimp only
    split <;> split <;> rfl
  have place : (e.place t).eip = if e.advances then t.eipNext else t.eip := by
    unfold Ending.place State.advance
    dsimp only
    split <;> split <;> (try split) <;> rfl
  have hb : (e == Ending.hold) = false := by cases e <;> first | rfl | exact absurd rfl he
  unfold finish
  rw [hb]
  show (e.debug _ _ (e.place t)).eip = _
  rw [debug, place]

/-- EFLAGS at the boundary: RF is cleared, but by the endings that keep it (R786). -/
theorem finish_eflags {e : Ending} {s t : State} (he : e ≠ .hold) :
    (finish e s t).eflags = if e.clearsRf then putBit t.eflags 16 false else t.eflags := by
  have debug : ∀ v : State, (e.debug s.tf (dr7Exact s.dr.dr7) v).eflags = v.eflags := by
    intro v
    unfold Ending.debug
    dsimp only
    split <;> split <;> rfl
  have place : (e.place t).eflags = if e.clearsRf then putBit t.eflags 16 false else t.eflags := by
    unfold Ending.place State.advance
    dsimp only
    split <;> split <;> (try split) <;> rfl
  have hb : (e == Ending.hold) = false := by cases e <;> first | rfl | exact absurd rfl he
  unfold finish
  rw [hb]
  show (e.debug _ _ (e.place t)).eflags = _
  rw [debug, place]

/-! Running an instruction. -/

/-- The body runs when LOCK does not stand in its way (R258). -/
theorem runInstr_ok {l : Bool} {body : M Ending} {s t : State} {e : Ending} (hl : (s.pfx.lock && !l) = false)
    (h : body s = .ok e t) : runInstr l body s = .next (finish e s t) := by
  unfold runInstr
  rw [hl, if_neg (by decide), h]

/-- A fault of the body is taken from the state it rolls back to (R703). -/
theorem runInstr_fault {l : Bool} {body : M Ending} {s t : State} {f : Exc} (hl : (s.pfx.lock && !l) = false)
    (hc : f.committed = false) (h : body s = .error (.exc f) t) :
    runInstr l body s = takeEvent f s.eip (rollback s t) := by
  unfold runInstr
  rw [hl, if_neg (by decide), h]
  simp [hc]

/-- Every answer of an instruction's body: what it can come to. -/
theorem runInstr_next {l : Bool} {body : M Ending} {s t : State} (h : runInstr l body s = .next t) :
    (∃ e u, (s.pfx.lock && !l) = false ∧ body s = .ok e u ∧ t = finish e s u) ∨
    (∃ f u, (s.pfx.lock && !l) = false ∧ body s = .error (.exc f) u ∧ f.committed = true ∧
      t = { atBoundary u with traps := .none, pendingExc := some { f with committed := false } }) ∨
    (∃ f u, ((s.pfx.lock && !l) = false ∧ body s = .error (.exc f) u ∨ (s.pfx.lock && !l) = true ∧ u = s) ∧
      f.committed = false ∧ takeEvent f s.eip (rollback s u) = .next t) := by
  unfold runInstr at h
  by_cases hl : (s.pfx.lock && !l) = true
  · rw [if_pos hl] at h
    exact .inr (.inr ⟨_, s, .inr ⟨hl, rfl⟩, rfl, h⟩)
  · have hl' := Bool.eq_false_iff.mpr hl
    rw [if_neg hl] at h
    cases hb : body s with
    | ok e u => rw [hb] at h; cases h; exact .inl ⟨e, u, hl', rfl, rfl⟩
    | error x u =>
      rw [hb] at h
      cases x with
      | fault x => cases h
      | refusal x => cases h
      | exc f =>
        dsimp only at h
        by_cases hc : f.committed = true
        · rw [if_pos hc] at h; cases h; exact .inr (.inl ⟨f, u, hl', rfl, hc, rfl⟩)
        · rw [if_neg hc] at h; exact .inr (.inr ⟨f, u, .inl ⟨hl', rfl⟩, by simpa using hc, h⟩)

theorem State.plain_lock {s : State} (h : s.plain = true) (l : Bool) : (s.pfx.lock && !l) = false := by
  simp only [State.plain, Bool.and_eq_true, Bool.not_eq_true'] at h
  rw [h.1]; rfl

theorem State.lockOk_lock {s : State} {l : Bool} (h : s.lockOk l = true) : (s.pfx.lock && !l) = false := by
  simp only [State.lockOk, Bool.and_eq_true, Bool.or_eq_true, Bool.not_eq_true'] at h
  rcases h.1 with h | h
  · rw [h]; rfl
  · rw [h]; simp

/-- `EIP_next` depends on these alone. -/
theorem State.eipNext_congr {s t : State} (hs : s.eipOpen = false) (h1 : t.eip = s.eip) (h2 : t.ilen = s.ilen)
    (h3 : t.cr.cr0 = s.cr.cr0) (h4 : t.vm = s.vm) (h5 : t.seg.cs.db = s.seg.cs.db) : t.eipNext = s.eipNext := by
  have e16 : t.eip16 = s.eip16 := by unfold State.eip16 State.mode State.pe; rw [h3, h4, h5]
  have eo : t.eipOpen = false := by rw [← hs]; simp [State.eipOpen, e16, h1, h2]
  simp [State.eipNext, eo, hs, e16, h1, h2]

theorem State.eipOpen_of_plain {s : State} (h : s.plain = true) : s.eipOpen = false := by
  simp only [State.plain, Bool.and_eq_true, Bool.not_eq_true'] at h
  exact h.2

theorem State.eipOpen_of_lockOk {s : State} {l : Bool} (h : s.lockOk l = true) : s.eipOpen = false := by
  simp only [State.lockOk, Bool.and_eq_true, Bool.not_eq_true'] at h
  exact h.2

/-- From the body to `Done`: the body leaves `u` with EFLAGS `fl`, but for the records of the model. -/
theorem done_of_body {i : Instr} {l : Bool} {body : M Unit} {s u t : State} {fl : Word} {f : FlagsOut} {regs : List Gpr}
    {stored : Nat → Bool} (hi : exec i s = runInstr l (thenNext body) s) (hl : (s.pfx.lock && !l) = false)
    (hs : s.eipOpen = false) (hb : body s = .ok () t) (hn : Noted { u with eflags := fl } t)
    (hf : f.Allows s.eflags (putBit fl 16 false)) (hframe : Frame s u regs stored)
    (h1 : u.eip = s.eip) (h2 : u.ilen = s.ilen) (h3 : u.cr.cr0 = s.cr.cr0) (h4 : bit fl 17 = s.vm)
    (h5 : u.seg.cs.db = s.seg.cs.db) : Done i s u f regs stored := by
  have lk : Like t u := by
    obtain ⟨a, b, rfl⟩ := hn
    exact ⟨fun _ => rfl, fun _ => rfl, rfl, rfl, rfl, rfl, rfl, rfl, rfl, rfl, rfl, rfl, rfl, ⟨rfl, rfl⟩,
      ⟨rfl, rfl, rfl, rfl, rfl⟩, rfl, rfl, rfl⟩
  have te : t.eip = u.eip ∧ t.ilen = u.ilen ∧ t.eflags = fl := by
    obtain ⟨a, b, rfl⟩ := hn
    exact ⟨rfl, rfl, rfl⟩
  have ht : thenNext body s = .ok .next t := by unfold thenNext; rw [M.bind_ok _ hb]; rfl
  have hlike : Like (finish .next s t) u := finish_like (by decide) lk
  refine ⟨_, hi.trans (runInstr_ok hl ht), hlike, ?_, ?_, ?_⟩
  · rw [finish_eip (by decide)]
    have hv : t.vm = s.vm := by unfold State.vm at h4 ⊢; rw [te.2.2]; exact h4
    exact State.eipNext_congr hs (te.1.trans h1) (te.2.1.trans h2) (by rw [lk.cr]; exact h3) hv (by rw [lk.seg]; exact h5)
  · rw [finish_eflags (by decide), te.2.2]; exact hf
  · exact ⟨fun r hr => (hlike.regs r).trans (hframe.regs r hr), fun k hk => (hlike.mem k).trans (hframe.mem k hk)⟩

/-! What a store to a spot leaves. -/

@[simp] theorem Spot.store_eip (k : Spot) (s : State) (v : Word) : (k.store s v).eip = s.eip := by
  cases k with
  | reg8 r => rfl
  | reg z r => cases z <;> rfl
  | mem n a r off => rfl
@[simp] theorem Spot.store_ilen (k : Spot) (s : State) (v : Word) : (k.store s v).ilen = s.ilen := by
  cases k with
  | reg8 r => rfl
  | reg z r => cases z <;> rfl
  | mem n a r off => rfl
@[simp] theorem Spot.store_cr (k : Spot) (s : State) (v : Word) : (k.store s v).cr = s.cr := by
  cases k with
  | reg8 r => rfl
  | reg z r => cases z <;> rfl
  | mem n a r off => rfl
@[simp] theorem Spot.store_seg (k : Spot) (s : State) (v : Word) : (k.store s v).seg = s.seg := by
  cases k with
  | reg8 r => rfl
  | reg z r => cases z <;> rfl
  | mem n a r off => rfl
@[simp] theorem Spot.store_eflags (k : Spot) (s : State) (v : Word) : (k.store s v).eflags = s.eflags := by
  cases k with
  | reg8 r => rfl
  | reg z r => cases z <;> rfl
  | mem n a r off => rfl

/-- A store changes the register or the bytes of its spot, and no other. -/
theorem Spot.store_frame (k : Spot) (s : State) (v : Word) : Frame s (k.store s v) k.regs (k.covers s) := by
  constructor
  · intro q hq
    cases k with
    | reg8 r => exact State.reg_setReg8_ne s _ (by simpa [Spot.regs] using hq)
    | reg z r => exact State.reg_setRegZ_ne s z _ (by simpa [Spot.regs] using hq)
    | mem n a r off => rfl
  · intro a ha
    cases k with
    | reg8 r => rfl
    | reg z r => cases z <;> rfl
    | mem n a r off =>
      refine memGet_writeLE_ne _ _ _ _ ?_
      simp only [Spot.covers, Bool.and_eq_false_iff, decide_eq_false_iff_not] at ha
      omega

/-- What is stored is read back, at the width of the spot. -/
theorem Spot.value_store (k : Spot) (s : State) (v : Word) :
    k.value (k.store s v) =
      match k with
      | .reg8 _ => truncW .b v
      | .reg z _ => truncZ z v
      | .mem n _ _ _ => truncW n v := by
  cases k with
  | reg8 r => show zext8 (State.reg8 _ _) = _; rw [Spot.store, State.reg8_setReg8_same]; rfl
  | reg z r => exact State.regZ_setRegZ_same s z r v
  | mem n a r off => exact readLE_writeLE _ _ _ _

theorem FlagsOut.image_vm (f : FlagsOut) (old free : Word) : bit (f.image old free) 17 = bit old 17 := by
  unfold FlagsOut.image
  simp only [bit_putBit_ne _ _ (show 17 ≠ 0 by decide), bit_putBit_ne _ _ (show 17 ≠ 2 by decide),
    bit_putBit_ne _ _ (show 17 ≠ 4 by decide), bit_putBit_ne _ _ (show 17 ≠ 6 by decide),
    bit_putBit_ne _ _ (show 17 ≠ 7 by decide), bit_putBit_ne _ _ (show 17 ≠ 11 by decide)]

end Sys2Proof.Machine
end

