-- ==== Sys2Proof/Laws/Stack.lean ====
section
/-!
SUPPORT. Sys2Proof/Laws/Stack.lean: pushing and popping where every item can be accessed (R300, R301).
-/
namespace Sys2Proof.Machine

/-- The addresses of items below the stack pointer of `s`, in push order, from `d` bytes below it on. -/
def State.itemAddrs (s : State) (n : Width) : Nat → List Word → List (List Nat × Word)
  | _, [] => []
  | d, v :: rest =>
    (addrsFrom (s.physAt .ss (s.stack.below (d + n.bytes))) n.bytes, v) :: s.itemAddrs n (d + n.bytes) rest

/-- Every item can be accessed: its addresses are answered. -/
theorem pushAddrs_ok {s u : State} {n : Width} (note : Bool) (code : Half) {d : Nat} {vs : List Word} (hu : Noted s u)
    (h : ∀ j, j < vs.length → (s.below n (d + (j + 1) * n.bytes)).ok s .write = true) :
    ∃ t, pushAddrs s.stack n note code d vs u = .ok (s.itemAddrs n d vs) t ∧ Noted s t := by
  induction vs generalizing d u with
  | nil => exact ⟨u, rfl, hu⟩
  | cons v rest ih =>
    have h0 := h 0 (by simp)
    rw [Nat.zero_add, Nat.one_mul] at h0
    have hok := h0
    simp only [State.below, Spot.ok, Bool.and_eq_true] at h0
    unfold pushAddrs
    rw [M.look_bind]
    have hm : u.mode = s.mode := hu.look State.mode fun _ _ _ => rfl
    have h1 : s.stack.allows u.mode (s.stack.below (d + n.bytes)) n.bytes .write = true := by rw [hm]; exact h0.1
    rw [h1, M.require_true]
    have cont : ∀ t, Noted s t → ∃ w,
        (linAddrs (s.stack.seg.base + s.stack.below (d + n.bytes)) n.bytes s.stack.user .write >>= fun a =>
          pushAddrs s.stack n note code (d + n.bytes) rest >>= fun more => pure ((a, v) :: more)) t
          = .ok (s.itemAddrs n d (v :: rest)) w ∧ Noted s w := by
      intro t ht
      have hf : t.flat (s.stack.seg.base + s.stack.below (d + n.bytes)) n.bytes = true := by
        obtain ⟨a, b, rfl⟩ := ht; exact h0.2
      rw [M.bind_ok _ (linAddrs_flat s.stack.user .write hf)]
      obtain ⟨w, ew, hw⟩ := ih (d := d + n.bytes) ht fun j hj => by
        have := h (j + 1) (by simpa using hj)
        rwa [show d + (j + 1 + 1) * n.bytes = d + n.bytes + (j + 1) * n.bytes by rw [Nat.add_mul (j + 1)]; omega] at this
      rw [M.bind_ok _ ew]
      exact ⟨w, rfl, hw⟩
    cases note
    · exact cont u hu
    · obtain ⟨t, e, hn⟩ := noteAccess_ok (s.stack.seg.base + s.stack.below (d + n.bytes)) n.bytes .write u
      obtain ⟨w, ew, hw⟩ := cont t (hu.trans hn)
      exact ⟨w, (M.bind_ok _ e).trans ew, hw⟩

/-- Storing the items changes the memory alone. -/
theorem performStores_items {s u : State} {n : Width} {d : Nat} {vs : List Word} (hu : u.memMap = s.memMap)
    (h : ∀ j, j < vs.length → (s.below n (d + (j + 1) * n.bytes)).ok s .write = true) :
    performStores (s.itemAddrs n d vs) u = .ok () { u with mem := s.stacked n d vs u.mem } := by
  induction vs generalizing d u with
  | nil => rfl
  | cons v rest ih =>
    have h0 := h 0 (by simp)
    rw [Nat.zero_add, Nat.one_mul] at h0
    have hr := Spot.isRam_of_ok h0
    have hr' : u.isRam (s.physAt .ss (s.stack.below (d + n.bytes))) n.bytes = true := by
      unfold State.isRam at hr ⊢; rw [hu]; exact hr
    unfold State.itemAddrs performStores
    rw [M.bind_ok _ (writeAddrs_ram v hr')]
    have := ih (d := d + n.bytes) (u := { u with mem := writeLE u.mem (s.physAt .ss (s.stack.below (d + n.bytes))) n.bytes v }) hu
      fun j hj => by
        have := h (j + 1) (by simpa using hj)
        rwa [show d + (j + 1 + 1) * n.bytes = d + n.bytes + (j + 1) * n.bytes by rw [Nat.add_mul (j + 1)]; omega] at this
    rw [this]
    rfl

theorem State.canPush_item {s : State} {n : Width} {c j : Nat} (h : s.canPush n c = true) (hj : j < c) :
    (s.below n (0 + (j + 1) * n.bytes)).ok s .write = true := by
  simp only [State.canPush, List.all_eq_true, List.mem_range] at h
  rw [Nat.zero_add]
  exact h j hj

/-- Items go below the stack pointer of `s` (R300); the pointer is not moved. -/
theorem pushItems_ok {s u : State} {n : Width} (note : Bool) (code : Half) {vs : List Word} (hu : Noted s u)
    (h : s.canPush n vs.length = true) :
    ∃ t, pushItems s.stack n note code vs [] u = .ok () t ∧ Noted { s with mem := s.stacked n 0 vs s.mem } t := by
  obtain ⟨t, e, ht⟩ := pushAddrs_ok note code hu fun j hj => State.canPush_item h hj
  have hm : t.memMap = s.memMap := ht.look State.memMap fun _ _ _ => rfl
  have e2 := performStores_items hm fun j hj => State.canPush_item h hj
  refine ⟨_, by
    unfold pushItems
    rw [M.bind_ok _ e, M.bind_ok _ (show storeAddrs [] t = .ok [] t from rfl), List.append_nil, e2], ?_⟩
  obtain ⟨a, b, rfl⟩ := ht
  exact ⟨a, b, rfl⟩

/-- Items are pushed (R300). -/
theorem pushAll_ok {s : State} {n : Width} {vs : List Word} (h : s.canPush n vs.length = true) :
    ∃ t, pushAll n vs s = .ok () t ∧ Noted (s.pushed n vs) t := by
  obtain ⟨t, e, ht⟩ := pushItems_ok true 0 (.refl s) h
  refine ⟨_, by unfold pushAll pushWith; rw [M.look_bind, M.bind_ok _ e]; rfl, ?_⟩
  obtain ⟨a, b, rfl⟩ := ht
  exact ⟨a, b, rfl⟩

/-- What pushing leaves of memory: every byte it does not cover. -/
theorem memGet_stacked (s : State) (n : Width) (d : Nat) (vs : List Word) (m : List Host.Cell) {a : Nat}
    (h : ∀ j, j < vs.length → (s.below n (d + (j + 1) * n.bytes)).covers s a = false) :
    memGet (s.stacked n d vs m) a = memGet m a := by
  induction vs generalizing d m with
  | nil => rfl
  | cons v rest ih =>
    unfold State.stacked
    rw [ih]
    · have h0 := h 0 (by simp)
      rw [Nat.zero_add, Nat.one_mul] at h0
      simp only [State.below, Spot.covers, Bool.and_eq_false_iff, decide_eq_false_iff_not] at h0
      exact memGet_writeLE_ne _ _ _ _ (by omega)
    · intro j hj
      have := h (j + 1) (by simpa using hj)
      rwa [show d + (j + 1 + 1) * n.bytes = d + n.bytes + (j + 1) * n.bytes by rw [Nat.add_mul (j + 1)]; omega] at this

/-- Pushing changes the stack pointer and the bytes of the items, and no other. -/
theorem State.pushed_frame (s : State) (n : Width) (vs : List Word) :
    Frame s (s.pushed n vs) [.sp] (s.pushCovers n vs.length) := by
  constructor
  · intro r hr
    exact State.reg_setReg_ne _ _ (by simpa using hr)
  · intro a ha
    refine memGet_stacked s n 0 vs s.mem fun j hj => ?_
    simp only [State.pushCovers, List.any_eq_false, List.mem_range] at ha
    rw [Nat.zero_add]
    simpa using ha j hj

theorem memWf_stacked (s : State) (n : Width) (d : Nat) (vs : List Word) {m : List Host.Cell} (h : memWf m = true) :
    memWf (s.stacked n d vs m) = true := by
  induction vs generalizing d m with
  | nil => exact h
  | cons v rest ih => exact ih _ (memWf_writeLE _ _ _ h)

/-- An item above the stack pointer is read. -/
theorem peek_ok {s : State} {n : Width} {d : Nat} (h : (s.above n d).ok s .read = true) :
    ∃ t, peek n d s = .ok ((s.above n d).value s) t ∧ Noted s t := by
  obtain ⟨t, e, ht⟩ := memRead_ok h
  exact ⟨t, by unfold peek; rw [M.look_bind]; exact e, ht⟩

theorem popBytes_apply (d : Nat) (s : State) : popBytes d s = .ok () (s.popped d) := rfl

theorem Noted.popped {s t : State} (h : Noted s t) (d : Nat) : Noted (s.popped d) (t.popped d) :=
  h.map (·.popped d) fun _ _ _ => rfl

/-- An item is popped (R301). -/
theorem pop_ok {s : State} {n : Width} (h : (s.above n 0).ok s .read = true) :
    ∃ t, pop n s = .ok ((s.above n 0).value s) t ∧ Noted (s.popped n.bytes) t := by
  obtain ⟨t, e, ht⟩ := peek_ok h
  refine ⟨_, by unfold pop; rw [M.bind_ok _ e, M.bind_ok _ (popBytes_apply _ _)]; rfl, ht.popped _⟩

/-- Popping changes the stack pointer alone. -/
theorem State.popped_frame (s : State) (d : Nat) : Frame s (s.popped d) [.sp] noByte :=
  ⟨fun _ hr => State.reg_setReg_ne _ _ (by simpa using hr), fun _ _ => rfl⟩

end Sys2Proof.Machine
end

