-- ==== Sys2Proof/Laws/Quiet.lean ====
section
/-!
SUPPORT. Sys2Proof/Laws/Quiet.lean: the operations that read and write memory for an instruction. Whether they answer or
stop, they leave every register alone but CR2, and keep the canonical form of memory and the size of the TLB; the host
may be told of accesses to devices (R171).
-/
namespace Sys2Proof.Machine

variable {α β : Type}

/-- `t` is `s` but for memory, the TLB's contents, CR2, what the host is told and the model's records. -/
def Touches (s t : State) : Prop :=
  ∃ m b c d k e, t = { s with mem := m, tlb := b, cr := { s.cr with cr2 := c }, draws := d, traps := k, events := e } ∧
    (memWf s.mem = true → memWf m = true) ∧ b.length = s.tlb.length

theorem Touches.refl (s : State) : Touches s s := ⟨s.mem, s.tlb, s.cr.cr2, s.draws, s.traps, s.events, rfl, id, rfl⟩

theorem Touches.trans {s t u : State} (h : Touches s t) (k : Touches t u) : Touches s u := by
  obtain ⟨m, b, c, d, r, e, rfl, h1, h2⟩ := h
  obtain ⟨m', b', c', d', r', e', rfl, k1, k2⟩ := k
  exact ⟨m', b', c', d', r', e', rfl, fun x => k1 (h1 x), k2.trans h2⟩

/-- The state a computation leaves, answering or stopping. -/
def after (r : EStateM.Result Stop State α) : State :=
  match r with
  | .ok _ t => t
  | .error _ t => t

/-- A computation that only touches memory. -/
def Quiet (m : M α) : Prop := ∀ s, Touches s (after (m s))

theorem Quiet.ok {m : M α} (h : Quiet m) {s t : State} {a : α} (e : m s = .ok a t) : Touches s t := by
  have := h s
  rwa [e] at this

theorem Quiet.error {m : M α} (h : Quiet m) {s t : State} {x : Stop} (e : m s = .error x t) : Touches s t := by
  have := h s
  rwa [e] at this

theorem Quiet.pure (a : α) : Quiet (Pure.pure a : M α) := fun s => .refl s
theorem Quiet.look (f : State → α) : Quiet (Machine.look f) := fun s => .refl s
theorem Quiet.stop (x : Stop) : Quiet (Machine.stop x : M α) := fun s => .refl s
theorem Quiet.raise (v : Byte) (c : Option Half) : Quiet (Machine.raise v c : M α) := fun s => .refl s
theorem Quiet.draw : Quiet drawWord := fun s => ⟨s.mem, s.tlb, s.cr.cr2, s.draws + 1, s.traps, s.events, rfl, id, rfl⟩

theorem Quiet.bind {m : M α} {f : α → M β} (h : Quiet m) (k : ∀ a, Quiet (f a)) : Quiet (m >>= f) := by
  intro s
  cases e : m s with
  | ok a t => rw [M.bind_ok f e]; exact (h.ok e).trans (k a t)
  | error x t => rw [M.bind_stop f e]; exact h.error e

theorem Quiet.require (b : Bool) (v : Byte) (c : Option Half) : Quiet (Machine.require b v c) := by
  cases b
  · exact .raise v c
  · exact .pure ()

theorem Quiet.ite {b : Prop} [Decidable b] {m k : M α} (h : Quiet m) (h' : Quiet k) : Quiet (if b then m else k) := by
  split
  · exact h
  · exact h'

/-! Physical memory. -/

theorem deviceRead_quiet (a : Nat) (n : Width) : Quiet (deviceRead a n) := fun s =>
  ⟨s.mem, s.tlb, s.cr.cr2, _, s.traps, _, rfl, id, rfl⟩

theorem deviceWrite_quiet (a : Nat) (n : Width) (v : Word) : Quiet (deviceWrite a n v) := fun s =>
  ⟨s.mem, s.tlb, s.cr.cr2, s.draws, s.traps, _, rfl, id, rfl⟩

theorem physRead_quiet (a : Nat) : Quiet (physRead a) := by
  intro s
  unfold physRead
  split
  case h_3 => exact Quiet.bind (deviceRead_quiet a .b) (fun _ => .pure _) s
  all_goals exact .refl s

theorem physWrite_quiet (a : Nat) (b : Byte) : Quiet (physWrite a b) := by
  intro s
  unfold physWrite
  split
  · exact ⟨_, s.tlb, s.cr.cr2, s.draws, s.traps, s.events, rfl, memWf_memSet a b, rfl⟩
  · exact .refl s
  · exact deviceWrite_quiet _ _ _ s
  · exact .refl s

theorem readBytes_quiet (as : List Nat) : Quiet (readBytes as) := by
  induction as with
  | nil => exact .pure 0
  | cons a as ih => exact .bind (physRead_quiet a) fun b => .bind ih fun v => .pure _

theorem writeBytes_quiet (as : List Nat) (v : Word) : Quiet (writeBytes as v) := by
  induction as generalizing v with
  | nil => exact .pure ()
  | cons a as ih => exact .bind (physWrite_quiet a _) fun _ => ih _

theorem readParts_quiet (k : Nat) (as : List Nat) : Quiet (readParts k as) := by
  induction k generalizing as with
  | zero => exact .pure 0
  | succ k ih =>
    exact .ite (.pure 0) (.bind (.bind (.look _) fun _ => .ite (deviceRead_quiet _ _) (readBytes_quiet _)) fun _ =>
      .bind (ih _) fun _ => .pure _)

theorem writeParts_quiet (k : Nat) (as : List Nat) (v : Word) : Quiet (writeParts k as v) := by
  induction k generalizing as v with
  | zero => exact .pure ()
  | succ k ih =>
    exact .ite (.pure ()) (.bind (.bind (.look _) fun _ => .ite (deviceWrite_quiet _ _ _) (writeBytes_quiet _ _)) fun _ =>
      ih _ _)

theorem readAddrs_quiet (as : List Nat) : Quiet (readAddrs as) :=
  .bind (.look _) fun _ => .ite (readParts_quiet _ _) (readBytes_quiet _)

theorem writeAddrs_quiet (as : List Nat) (v : Word) : Quiet (writeAddrs as v) :=
  .bind (.look _) fun _ => .ite (writeParts_quiet _ _ _) (writeBytes_quiet _ _)

/-! The TLB and paging. -/

theorem tlbMask_length (l : List TlbEntry) (m : Word) : (tlbMask l m).length = l.length := by
  induction l generalizing m with
  | nil => rfl
  | cons e l ih => simp [tlbMask, ih]

theorem tlbForget_length (l : List TlbEntry) (p : BitVec 20) : (tlbForget l p).length = l.length := by
  induction l with
  | nil => rfl
  | cons e l ih => simp [tlbForget, ih]

theorem tlbPut_length (l : List TlbEntry) (i : Nat) (n : TlbEntry) : (tlbPut l i n).length = l.length := by
  induction l generalizing i with
  | nil => rfl
  | cons e l ih => cases i <;> simp [tlbPut, ih]

theorem tlbClear_length (l : List TlbEntry) : (tlbClear l).length = l.length := by
  induction l with
  | nil => rfl
  | cons e l ih => simp [tlbClear, ih]

theorem tlbDirty_length (l : List TlbEntry) (p : BitVec 20) : (tlbDirty l p).length = l.length := by
  induction l with
  | nil => rfl
  | cons e l ih => simp [tlbDirty, ih]

theorem tlbAge_quiet : Quiet tlbAge := fun s => ⟨s.mem, _, s.cr.cr2, _, s.traps, s.events, rfl, id, tlbMask_length _ _⟩

theorem tlbLoad_quiet (e : TlbEntry) : Quiet (tlbLoad e) := fun s =>
  ⟨s.mem, _, s.cr.cr2, _, s.traps, s.events, rfl, id, (tlbPut_length _ _ _).trans (tlbForget_length _ _)⟩

theorem pageFault_quiet (lin : Word) (p u w : Bool) : Quiet (pageFault lin p u w : M α) := by
  refine .bind (fun s => ?_) fun _ => .raise _ _
  exact ⟨s.mem, s.tlb, lin, s.draws, s.traps, s.events, rfl, id, rfl⟩

theorem pageAllows_quiet (lin : Word) (user : Bool) (acc : Acc) (us rw_ : Bool) : Quiet (pageAllows lin user acc us rw_) :=
  .ite (pageFault_quiet _ _ _ _) (.ite (pageFault_quiet _ _ _ _) (.pure ()))

theorem putEntry_quiet (a : Nat) (o n : Word) : Quiet (putEntry a o n) := .ite (.pure ()) (writeAddrs_quiet _ _)

theorem walk_quiet (lin : Word) (user : Bool) (acc : Acc) : Quiet (walk lin user acc) :=
  .bind (.look _) fun _ => .bind (readAddrs_quiet _) fun _ => .ite (pageFault_quiet _ _ _ _) <|
    .bind (readAddrs_quiet _) fun _ => .ite (pageFault_quiet _ _ _ _) <|
      .bind (pageAllows_quiet _ _ _ _ _) fun _ => .bind (putEntry_quiet _ _ _) fun _ =>
        .bind (putEntry_quiet _ _ _) fun _ => .bind (tlbLoad_quiet _) fun _ => .pure _

theorem putDirty_quiet (lin : Word) : Quiet (putDirty lin) :=
  .bind (.look _) fun _ => .bind (readAddrs_quiet _) fun _ =>
    .ite (.bind (readAddrs_quiet _) fun _ => .ite (putEntry_quiet _ _ _) (.pure ())) (.pure ())

theorem setDirty_quiet (lin : Word) : Quiet (setDirty lin) := by
  refine .bind (putDirty_quiet _) fun _ s => ?_
  exact ⟨s.mem, _, s.cr.cr2, s.draws, s.traps, s.events, rfl, id, tlbDirty_length _ _⟩

theorem pageFrame_quiet (lin : Word) (user : Bool) (acc : Acc) : Quiet (pageFrame lin user acc) := by
  refine .bind tlbAge_quiet fun _ => .bind (.look _) fun hit => ?_
  cases hit with
  | none => exact walk_quiet _ _ _
  | some e =>
    exact .ite (.bind .draw fun _ => .ite (walk_quiet _ _ _) (.bind (pageAllows_quiet _ _ _ _ _) fun _ =>
      .bind (setDirty_quiet _) fun _ => .pure _)) (.bind (pageAllows_quiet _ _ _ _ _) fun _ => .pure _)

theorem translate_quiet (lin : Word) (user : Bool) (acc : Acc) : Quiet (translate lin user acc) :=
  .bind (.look _) fun _ => .ite (.bind (pageFrame_quiet _ _ _) fun _ => .pure _) (.pure _)

theorem linAddrs_quiet (lin : Word) (n : Nat) (user : Bool) (acc : Acc) : Quiet (linAddrs lin n user acc) :=
  .bind (translate_quiet _ _ _) fun _ => .ite (.pure _) (.bind (translate_quiet _ _ _) fun _ => .pure _)

theorem linRead_quiet (lin : Word) (n : Width) : Quiet (linRead lin n) :=
  .bind (linAddrs_quiet _ _ _ _) fun _ => readAddrs_quiet _

theorem linWrite_quiet (lin : Word) (n : Width) (v : Word) : Quiet (linWrite lin n v) :=
  .bind (linAddrs_quiet _ _ _ _) fun _ => writeAddrs_quiet _ _

theorem storeAddrs_quiet (ws : List LinStore) : Quiet (storeAddrs ws) := by
  induction ws with
  | nil => exact .pure _
  | cons w ws ih => exact .bind (linAddrs_quiet _ _ _ _) fun _ => .bind ih fun _ => .pure _

theorem performStores_quiet (ws : List (List Nat × Word)) : Quiet (performStores ws) := by
  induction ws with
  | nil => exact .pure _
  | cons w ws ih => exact .bind (writeAddrs_quiet _ _) fun _ => ih

theorem linWriteAll_quiet (ws : List LinStore) : Quiet (linWriteAll ws) :=
  .bind (storeAddrs_quiet _) fun _ => performStores_quiet _

/-! Accesses through a segment register, and the stack. -/

theorem noteAccess_quiet (lin : Word) (k : Nat) (acc : Acc) : Quiet (noteAccess lin k acc) := by
  intro s
  obtain ⟨t, e, a, b, rfl⟩ := noteAccess_ok lin k acc s
  rw [e]
  exact ⟨s.mem, s.tlb, s.cr.cr2, b, a, s.events, rfl, id, rfl⟩

theorem memAddrs_quiet (a : Sz) (r : Sreg) (off : Word) (n : Nat) (acc : Acc) : Quiet (memAddrs a r off n acc) :=
  .bind (.look _) fun _ => .bind (.look _) fun _ => .bind (.require _ _ _) fun _ => .bind (noteAccess_quiet _ _ _) fun _ =>
    .bind (.look _) fun _ => linAddrs_quiet _ _ _ _

theorem memRead_quiet (a : Sz) (r : Sreg) (off : Word) (n : Width) : Quiet (memRead a r off n) :=
  .bind (memAddrs_quiet _ _ _ _ _) fun _ => readAddrs_quiet _

theorem memWrite_quiet (a : Sz) (r : Sreg) (off : Word) (n : Width) (v : Word) : Quiet (memWrite a r off n v) :=
  .bind (memAddrs_quiet _ _ _ _ _) fun _ => writeAddrs_quiet _ _

theorem pushAddrs_quiet (k : Stack) (n : Width) (note : Bool) (code : Half) (d : Nat) (vs : List Word) :
    Quiet (pushAddrs k n note code d vs) := by
  induction vs generalizing d with
  | nil => exact .pure _
  | cons v vs ih =>
    have rest := fun d => Quiet.bind (linAddrs_quiet (k.seg.base + k.below d) n.bytes k.user .write) fun a =>
      Quiet.bind (ih d) fun more => Quiet.pure ((a, v) :: more)
    refine .bind (.look _) fun _ => .bind (.require _ _ _) fun _ => ?_
    cases note
    · exact rest _
    · exact .bind (noteAccess_quiet _ _ _) fun _ => rest _

theorem pushItems_quiet (k : Stack) (n : Width) (note : Bool) (code : Half) (vs : List Word)
    (own : List LinStore) : Quiet (pushItems k n note code vs own) :=
  .bind (pushAddrs_quiet _ _ _ _ _ _) fun _ => .bind (storeAddrs_quiet _) fun _ => performStores_quiet _

theorem peek_quiet (n : Width) (d : Nat) : Quiet (peek n d) := .bind (.look _) fun _ => memRead_quiet _ _ _ _

/-! Descriptors and task state segments. -/

theorem readDesc_quiet (a : Word) : Quiet (readDesc a) :=
  .bind (linRead_quiet _ _) fun _ => .bind (linRead_quiet _ _) fun _ => .pure _

theorem fetchDesc_quiet (sel : Half) : Quiet (fetchDesc sel) :=
  .ite (.bind (.look _) fun _ => .ite (.bind (readDesc_quiet _) fun _ => .pure _) (.pure _))
    (.bind (.look _) fun _ => .ite (.bind (readDesc_quiet _) fun _ => .pure _) (.pure _))

theorem needDesc_quiet (sel : Half) (v : Byte) (ext : Bool) : Quiet (needDesc sel v ext) := by
  refine .bind (fetchDesc_quiet _) fun d => ?_
  cases d
  · exact .raise _ _
  · exact .pure _

theorem writeRights_quiet (d : Desc) (ar : Byte) : Quiet (writeRights d ar) := linWrite_quiet _ _ _
theorem putBusy_quiet (as : List Nat) (b : Bool) : Quiet (putBusy as b) :=
  .bind (readAddrs_quiet _) fun _ => writeAddrs_quiet _ _
theorem setAccessed_quiet (d : Desc) : Quiet (setAccessed d) := writeRights_quiet _ _
theorem tssRead_quiet (b : Word) (off : Nat) (n : Width) : Quiet (tssRead b off n) := linRead_quiet _ _
theorem tssSel_quiet (b : Word) (off : Nat) : Quiet (tssSel b off) := .bind (tssRead_quiet _ _ _) fun _ => .pure _
theorem tss286Reg_quiet (b : Word) (off : Nat) : Quiet (tss286Reg b off) :=
  .bind (tssRead_quiet _ _ _) fun _ => .bind .draw fun _ => .pure _
theorem flagImage_quiet (rf : Bool) : Quiet (flagImage rf) := .bind (.look _) fun _ => .bind .draw fun _ => .pure _
theorem selItem_quiet (n : Width) (sel : Half) : Quiet (selItem n sel) := .ite (.bind .draw fun _ => .pure _) (.pure _)

theorem codeItem_quiet (e : Exc) : Quiet (codeItem e) := by
  unfold codeItem
  cases e.code
  · exact .pure _
  · exact .bind .draw fun _ => .pure _

theorem readTss386_quiet (b : Word) : Quiet (readTss386 b) := by
  unfold readTss386
  repeat' first
    | exact .pure _
    | (refine .bind (tssRead_quiet _ _ _) fun _ => ?_)
    | (refine .bind (tssSel_quiet _ _) fun _ => ?_)

theorem readTss286_quiet (b : Word) : Quiet (readTss286 b) := by
  unfold readTss286
  refine .bind (.look _) fun _ => ?_
  repeat' first
    | exact .pure _
    | (refine .bind (tssRead_quiet _ _ _) fun _ => ?_)
    | (refine .bind (tss286Reg_quiet _ _) fun _ => ?_)
    | (refine .bind (tssSel_quiet _ _) fun _ => ?_)

theorem needTss_quiet (last : Nat) (ext : Bool) : Quiet (needTss last ext) := .bind (.look _) fun _ => .require _ _ _

theorem innerStack_quiet (n : BitVec 2) (ext : Bool) : Quiet (innerStack n ext) :=
  .bind (.look _) fun _ => .ite
    (.bind (needTss_quiet _ _) fun _ => .bind (tssRead_quiet _ _ _) fun _ => .bind (tssSel_quiet _ _) fun _ => .pure _)
    (.bind (needTss_quiet _ _) fun _ => .bind (tssRead_quiet _ _ _) fun _ => .bind (tssSel_quiet _ _) fun _ => .pure _)

theorem checkInnerSS_quiet (sel : Half) (n : BitVec 2) (ext : Bool) : Quiet (checkInnerSS sel n ext) :=
  .bind (.require _ _ _) fun _ => .bind (needDesc_quiet _ _ _) fun _ => .bind (.require _ _ _) fun _ =>
    .bind (.require _ _ _) fun _ => .bind (.require _ _ _) fun _ => .bind (.require _ _ _) fun _ => .pure _

theorem checkReturnCS_quiet (sel : Half) : Quiet (checkReturnCS sel) :=
  .bind (.require _ _ _) fun _ => .bind (needDesc_quiet _ _ _) fun _ => .bind (.require _ _ _) fun _ =>
    .bind (.require _ _ _) fun _ => .bind (.require _ _ _) fun _ => .pure _

theorem checkReturnSS_quiet (sel : Half) (level : BitVec 2) : Quiet (checkReturnSS sel level) :=
  .bind (.require _ _ _) fun _ => .bind (needDesc_quiet _ _ _) fun _ => .bind (.require _ _ _) fun _ =>
    .bind (.require _ _ _) fun _ => .bind (.require _ _ _) fun _ => .bind (.require _ _ _) fun _ => .pure _

/-! Operands. -/

theorem effAddr_quiet (m : Mem) : Quiet (effAddr m) := by
  intro s
  unfold effAddr
  show Touches s (if m.isOpen then _ else s)
  split
  · exact ⟨s.mem, s.tlb, s.cr.cr2, _, s.traps, s.events, rfl, id, rfl⟩
  · exact .refl s

theorem nextEip_quiet : Quiet nextEip := by
  intro s
  unfold nextEip
  show Touches s (if s.eipOpen then _ else s)
  split
  · exact ⟨s.mem, s.tlb, s.cr.cr2, _, s.traps, s.events, rfl, id, rfl⟩
  · exact .refl s

theorem readPointer_quiet (z : Sz) (m : Mem) : Quiet (readPointer z m) :=
  .bind (effAddr_quiet _) fun _ => .bind (.look _) fun _ => .bind (memRead_quiet _ _ _ _) fun _ =>
    .bind (memRead_quiet _ _ _ _) fun _ => .pure _

theorem Place.loc_quiet (p : Place) (acc : Acc) : Quiet (p.loc acc) := by
  cases p with
  | reg8 r => exact .pure _
  | reg z r => exact .pure _
  | mem n m =>
    exact .bind (effAddr_quiet _) fun _ => .bind (.look _) fun _ => .bind (memAddrs_quiet _ _ _ _ _) fun _ => .pure _

theorem Loc.get_quiet (l : Loc) : Quiet l.get := by
  cases l with
  | reg8 r => exact .bind (.look _) fun _ => .pure _
  | reg z r => exact .look _
  | bytes as => exact readAddrs_quiet _

theorem Place.read_quiet (p : Place) : Quiet p.read := .bind (p.loc_quiet _) fun l => l.get_quiet

theorem Operand.get_quiet (o : Operand) : Quiet o.get := by
  cases o with
  | at_ p => exact p.read_quiet
  | imm v => exact .pure _

/-! What a computation that only touches memory keeps. -/

/-- The invariant of the machine (`State.inv`) survives it. -/
theorem Touches.inv {s t : State} (h : Touches s t) (hs : s.inv = true) : t.inv = true := by
  obtain ⟨m, b, c, d, k, e, rfl, hm, hb⟩ := h
  simp only [State.inv, Bool.and_eq_true, beq_iff_eq] at hs ⊢
  obtain ⟨⟨⟨⟨⟨h1, h2⟩, h3⟩, h4⟩, h5⟩, h6⟩ := hs
  exact ⟨⟨⟨⟨⟨hm h1, h2⟩, hb.trans h3⟩, h4⟩, h5⟩, h6⟩

/-- The registers it keeps. -/
theorem Touches.regs {s t : State} (h : Touches s t) :
    t.gpr = s.gpr ∧ t.eip = s.eip ∧ t.eflags = s.eflags ∧ t.cpl = s.cpl ∧ t.seg = s.seg ∧ t.cr.cr0 = s.cr.cr0 ∧
      t.cr.cr3 = s.cr.cr3 ∧ t.ilen = s.ilen ∧ t.pfx = s.pfx := by
  obtain ⟨m, b, c, d, k, e, rfl, -, -⟩ := h
  exact ⟨rfl, rfl, rfl, rfl, rfl, rfl, rfl, rfl, rfl⟩

/-- Rolling back to `s` what touched only memory is what it touched, but for the records (R703). -/
theorem rollback_inv {s t : State} (hs : s.inv = true) (hm : memWf t.mem = true) (hb : t.tlb.length = 32) :
    (rollback s t).inv = true := by
  simp only [State.inv, Bool.and_eq_true, beq_iff_eq] at hs ⊢
  obtain ⟨⟨⟨⟨⟨h1, h2⟩, h3⟩, h4⟩, h5⟩, h6⟩ := hs
  exact ⟨⟨⟨⟨⟨hm, h2⟩, hb⟩, h4⟩, h5⟩, h6⟩

theorem atBoundary_inv (s : State) : (atBoundary s).inv = s.inv := rfl

theorem enterShutdown_inv (s : State) : (enterShutdown s).inv = s.inv := rfl

end Sys2Proof.Machine
end

