-- ==== Sys2Proof/Laws/Descriptors.lean ====
section
/-!
SUPPORT. Sys2Proof/Laws/Descriptors.lean: reading and marking descriptors where the tables are in RAM and paging is off.
-/
namespace Sys2Proof.Machine

theorem State.isRam_of_flat {s : State} {lin : Word} {n : Nat} (h : s.flat lin n = true) : s.isRam lin.toNat n = true := by
  simp only [State.flat, Bool.and_eq_true] at h
  exact h.2

/-- The processor's own read (R151). -/
theorem linRead_flat {s : State} {lin : Word} {n : Width} (h : s.flat lin n.bytes = true) :
    linRead lin n s = .ok (readLE s.mem lin.toNat n.bytes) s := by
  unfold linRead
  rw [M.bind_ok _ (linAddrs_flat false .read h), readAddrs_ram (State.isRam_of_flat h)]

/-- The processor's own write. -/
theorem linWrite_flat {s : State} {lin : Word} {n : Width} (v : Word) (h : s.flat lin n.bytes = true) :
    linWrite lin n v s = .ok () { s with mem := writeLE s.mem lin.toNat n.bytes v } := by
  unfold linWrite
  rw [M.bind_ok _ (linAddrs_flat false .write h), writeAddrs_ram v (State.isRam_of_flat h)]

/-- A descriptor is two doublewords (R121). -/
theorem readDesc_flat {s : State} {a : Word} (h : s.flat a 4 = true) (h' : s.flat (a + 4) 4 = true) :
    readDesc a s = .ok { at_ := a, lo := readLE s.mem a.toNat 4, hi := readLE s.mem (a + 4).toNat 4 } s := by
  unfold readDesc
  rw [M.bind_ok _ (linRead_flat (n := .d) h), M.bind_ok _ (linRead_flat (n := .d) h')]
  rfl

/-- A selector within its table names its descriptor (R128). -/
theorem fetchDesc_ok {s : State} {sel : Half} (hi : s.descIn sel = true) (hf : s.descFlat sel = true) :
    fetchDesc sel s = .ok (some (s.desc sel)) s := by
  simp only [State.descFlat, Bool.and_eq_true] at hf
  have hr := readDesc_flat hf.1.1 hf.1.2
  unfold fetchDesc
  unfold State.descIn at hi
  by_cases ht : selLdt sel = true
  · rw [if_pos ht] at hi ⊢
    simp only [State.descAt, if_pos ht] at hr
    rw [M.look_bind]
    rw [Bool.and_eq_true, decide_eq_true_eq] at hi
    rw [if_pos (by simpa using hi), M.bind_ok _ hr]
    simp [State.desc, State.descAt, ht]
  · rw [if_neg ht] at hi ⊢
    simp only [State.descAt, if_neg ht] at hr
    rw [M.look_bind]
    rw [decide_eq_true_eq] at hi
    rw [if_pos hi, M.bind_ok _ hr]
    simp [State.desc, State.descAt, ht]

/-- A selector outside its table names none. -/
theorem fetchDesc_none {s : State} {sel : Half} (hi : s.descIn sel = false) : fetchDesc sel s = .ok none s := by
  unfold fetchDesc
  unfold State.descIn at hi
  by_cases ht : selLdt sel = true
  · rw [if_pos ht] at hi ⊢
    rw [M.look_bind, if_neg (by simpa using hi)]
    rfl
  · rw [if_neg ht] at hi ⊢
    rw [M.look_bind, if_neg (by simpa using hi)]
    rfl

theorem needDesc_ok {s : State} {sel : Half} (v : Byte) (ext : Bool) (hi : s.descIn sel = true) (hf : s.descFlat sel = true) :
    needDesc sel v ext s = .ok (s.desc sel) s := by
  unfold needDesc
  rw [M.bind_ok _ (fetchDesc_ok hi hf)]
  rfl

/-- The access-rights byte is written where the descriptor stands. -/
theorem writeRights_ok {s : State} {sel : Half} (ar : Byte) (hf : s.descFlat sel = true) :
    writeRights (s.desc sel) ar s = .ok () (s.setRights sel ar) := by
  simp only [State.descFlat, Bool.and_eq_true] at hf
  exact linWrite_flat (n := .b) (zext8 ar) hf.2

/-- A segment register loaded from a descriptor: it is marked accessed, then loaded (R122, R131, R132). -/
theorem loadSeg_ok {s : State} {sel : Half} (r : Sreg) (hf : s.descFlat sel = true) :
    loadSeg r sel (s.desc sel) s =
      .ok () ((s.setRights sel ((s.desc sel).ar ||| 1)).setSreg r ((s.desc sel).toSeg sel)) := by
  unfold loadSeg setAccessed
  rw [M.bind_ok _ (writeRights_ok _ hf)]
  rfl

/-- Marking a descriptor changes one byte of memory, and no general register. -/
theorem State.setRights_frame (s : State) (sel : Half) (ar : Byte) :
    Frame s (s.setRights sel ar) [] (s.rightsByte sel) := by
  refine ⟨fun _ _ => rfl, fun a ha => memGet_writeLE_ne _ _ _ _ ?_⟩
  simp only [State.rightsByte, beq_eq_false_iff_ne, ne_eq] at ha
  omega

end Sys2Proof.Machine
end

