-- ==== Sys2Proof/Laws/Transfers.lean ====
section
/-!
SUPPORT. Sys2Proof/Laws/Transfers.lean: what the checks of far transfers, segment loads and port accesses answer where what they
read is in RAM and paging is off.
-/
namespace Sys2Proof.Machine

theorem M.require_pass {v : Byte} {c : Option Half} {b : Bool} {s : State} (h : b = true) : require b v c s = .ok () s := by
  subst h
  rfl

theorem M.require_fail {v : Byte} {c : Option Half} {b : Bool} {s : State} (h : b = false) :
    require b v c s = .error (.exc (faultOf v c)) s := by
  subst h
  rfl

theorem tssRead_flat {s : State} {base : Word} {off : Nat} {n : Width} (h : s.flat (base + BitVec.ofNat 32 off) n.bytes = true) :
    tssRead base off n s = .ok (s.tssField base off n.bytes) s := linRead_flat h

theorem tssSel_flat {s : State} {base : Word} {off : Nat} (h : s.flat (base + BitVec.ofNat 32 off) 2 = true) :
    tssSel base off s = .ok (lowHalf (s.tssField base off 2)) s := by
  unfold tssSel
  rw [M.bind_ok _ (tssRead_flat (n := .w) h)]
  rfl

/-- A field of the current TSS within the limit of TR, and one beyond it (R145, R750). -/
theorem needTss_ok {s : State} {last : Nat} (ext : Bool) (h : last ≤ s.tr.limit.toNat) : needTss last ext s = .ok () s :=
  M.require_pass (decide_eq_true h)

theorem needTss_beyond {s : State} {last : Nat} (ext : Bool) (h : s.tr.limit.toNat < last) :
    needTss last ext s = .error (.exc (faultOf 10 (some (selCode s.tr.sel ext)))) s :=
  M.require_fail (decide_eq_false (Nat.not_le.2 h))

/-- `savedTop` is the last byte of what a task switch saves: the limit of TR holds it exactly where it holds every field. -/
theorem saveFits_eq (s : State) : s.saveFits = decide (savedTop s.tr.is386 ≤ s.tr.limit.toNat) := by
  unfold State.saveFits State.savedFields savedTop
  rw [Bool.eq_iff_iff]
  cases s.tr.is386 <;> simp [Width.bytes] <;> omega

/-- The stack pointer of a level (R454 step 1). -/
theorem innerStack_ok {s : State} {n : BitVec 2} (ext : Bool) (h : s.innerReadable n = true) :
    innerStack n ext s = .ok (s.innerPointer n) s := by
  unfold innerStack
  rw [M.look_bind]
  unfold State.innerReadable at h
  unfold State.innerPointer
  by_cases hk : s.tr.is386 = true
  · rw [if_pos hk] at h ⊢
    simp only [Bool.and_eq_true] at h
    rw [if_pos hk, M.bind_ok _ (needTss_ok ext (of_decide_eq_true h.1.1)),
      M.bind_ok _ (tssRead_flat (n := .d) h.2), M.bind_ok _ (tssSel_flat h.1.2)]
    rfl
  · rw [if_neg hk] at h ⊢
    simp only [Bool.and_eq_true] at h
    rw [if_neg hk, M.bind_ok _ (needTss_ok ext (of_decide_eq_true h.1.1)),
      M.bind_ok _ (tssRead_flat (n := .w) h.2), M.bind_ok _ (tssSel_flat h.1.2)]
    rfl

/-- The stack segment of an inner level (R454 step 2). -/
theorem checkInnerSS_ok {s : State} {sel : Half} {n : BitVec 2} (ext : Bool) (h : s.stackFor sel n = true) :
    checkInnerSS sel n ext s = .ok (s.desc sel) s := by
  simp only [State.stackFor, Bool.and_eq_true] at h
  obtain ⟨⟨⟨⟨⟨⟨hn, hi⟩, hf⟩, hr⟩, hd⟩, hw⟩, hp⟩ := h
  unfold checkInnerSS
  rw [M.bind_ok _ (M.require_pass hn), M.bind_ok _ (needDesc_ok _ _ hi hf), M.bind_ok _ (M.require_pass hr),
    M.bind_ok _ (M.require_pass hd), M.bind_ok _ (M.require_pass (b := (s.desc sel).isStack) hw), M.bind_ok _ (M.require_pass hp)]
  rfl

/-- The return SS (R449 step 7): the same checks. -/
theorem checkReturnSS_ok {s : State} {sel : Half} {n : BitVec 2} (h : s.stackFor sel n = true) :
    checkReturnSS sel n s = .ok (s.desc sel) s := by
  simp only [State.stackFor, Bool.and_eq_true] at h
  obtain ⟨⟨⟨⟨⟨⟨hn, hi⟩, hf⟩, hr⟩, hd⟩, hw⟩, hp⟩ := h
  unfold checkReturnSS
  rw [M.bind_ok _ (M.require_pass hn), M.bind_ok _ (needDesc_ok _ _ hi hf), M.bind_ok _ (M.require_pass hr),
    M.bind_ok _ (M.require_pass (b := (s.desc sel).isStack) hw), M.bind_ok _ (M.require_pass hd), M.bind_ok _ (M.require_pass hp)]
  rfl

/-- The return CS (R449 steps 3 and 6). -/
theorem checkReturnCS_ok {s : State} {sel : Half} {off : Word} (h : s.returnCode sel off = true) :
    checkReturnCS sel s = .ok (s.desc sel) s := by
  simp only [State.returnCode, State.codeSeg, Bool.and_eq_true] at h
  obtain ⟨⟨⟨⟨⟨⟨hn, hi⟩, hf⟩, hc⟩, hp⟩, hl⟩, _⟩ := h
  unfold checkReturnCS
  rw [M.bind_ok _ (M.require_pass hn), M.bind_ok _ (needDesc_ok _ _ hi hf), M.bind_ok _ (M.require_pass hc),
    M.bind_ok _ (M.require_pass (by simpa [Desc.sameLevel] using hl)), M.bind_ok _ (M.require_pass hp)]
  rfl

/-- The map's mask test, bit by bit. -/
theorem mask_clear (w : Word) {k n : Nat} (hk : k < 8) (hn : n ≤ 4) :
    (w &&& (BitVec.ofNat 32 (2 ^ n - 1) <<< k) == 0) = (List.range n).all fun j => !bit w (k + j) := by
  rw [Bool.eq_iff_iff, beq_iff_eq, List.all_eq_true]
  constructor
  · intro h j hj
    have hj' := List.mem_range.mp hj
    have hm : (BitVec.ofNat 32 (2 ^ n - 1)).getLsbD j = true := by
      rw [BitVec.getLsbD_ofNat, Nat.testBit_two_pow_sub_one]; simp [hj']; omega
    have := congrArg (fun v : Word => v.getLsbD (k + j)) h
    simp only [BitVec.getLsbD_and, BitVec.getLsbD_shiftLeft, Nat.add_sub_cancel_left, hm] at this
    simpa [bit, show k + j < 32 by omega] using this
  · intro h
    ext i hi
    by_cases hc : k ≤ i ∧ i - k < n
    · have := h (i - k) (List.mem_range.mpr hc.2)
      rw [show k + (i - k) = i by omega] at this
      simp only [bit, Bool.not_eq_true'] at this
      have hb : w[i] = false := by rw [← BitVec.getLsbD_eq_getElem]; exact this
      simp [hb]
    · by_cases hki : i < k
      · simp [hki]
      · have : ¬ i - k < n := fun hlt => hc ⟨by omega, hlt⟩
        have hm : (BitVec.ofNat 32 (2 ^ n - 1)).getLsbD (i - k) = false := by
          rw [BitVec.getLsbD_ofNat, Nat.testBit_two_pow_sub_one]; simp [this]
        rw [← BitVec.getLsbD_eq_getElem, BitVec.getLsbD_and, BitVec.getLsbD_shiftLeft, hm]
        simp

/-- The I/O permission map (R173). -/
theorem ioPermission_ok {s : State} {port n : Nat} (hn : n ≤ 4) (h : s.mapFlat port = true) :
    ioPermission port n s = .ok (s.mapGrants port n) s := by
  unfold ioPermission
  rw [M.look_bind]
  unfold State.mapFlat at h
  unfold State.mapGrants
  have hk : port % 8 < 8 := Nat.mod_lt _ (by decide)
  simp only [← mask_clear _ hk hn]
  by_cases ht : s.tr.is386 = true
  · by_cases hl : s.tr.limit.toNat < 0x67
    · simp [ht, hl, show ¬ 0x67 ≤ s.tr.limit.toNat by omega]
    · simp only [ht, hl, Bool.not_true, decide_false, Bool.false_or, Bool.and_eq_true, Bool.or_eq_true, decide_eq_true_eq] at h
      simp only [ht, hl, Bool.not_true, decide_false, Bool.false_or, Bool.false_eq_true, if_false, show 0x67 ≤ s.tr.limit.toNat by omega]
      rw [M.bind_ok _ (linRead_flat (n := .w) h.1)]
      by_cases hm : s.tr.limit.toNat < port / 8 + (readLE s.mem (s.tr.base + 0x66).toNat 2).toNat + 1
      · have hm' : ¬ port / 8 + (readLE s.mem (s.tr.base + 0x66).toNat 2).toNat + 1 ≤ s.tr.limit.toNat := by omega
        refine (congrFun (if_pos hm) s).trans ?_
        simp only [hm', decide_false, Bool.and_false, Bool.false_and]; rfl
      · refine (congrFun (if_neg hm) s).trans ?_
        refine (M.bind_ok _ (linRead_flat (n := .w) (h.2.resolve_left hm))).trans ?_
        simp only [show port / 8 + (readLE s.mem (s.tr.base + 0x66).toNat 2).toNat + 1 ≤ s.tr.limit.toNat by omega, decide_true,
          Bool.true_and]
        rfl
  · simp [ht]

/-! Stores of the processor's own, made with pushes or with one another. -/

/-- Memory after such stores, in order. -/
def ownStored : List LinStore → List Host.Cell → List Host.Cell
  | [], m => m
  | w :: rest, m => ownStored rest (writeLE m w.lin.toNat w.width.bytes w.value)

theorem storeAddrs_flat {s : State} {ws : List LinStore} (h : ∀ w ∈ ws, s.flat w.lin w.width.bytes = true) :
    storeAddrs ws s = .ok (ws.map fun w => (addrsFrom w.lin.toNat w.width.bytes, w.value)) s := by
  induction ws with
  | nil => rfl
  | cons w ws ih =>
    unfold storeAddrs
    rw [M.bind_ok _ (linAddrs_flat false .write (h w (by simp))), M.bind_ok _ (ih fun x hx => h x (by simp [hx]))]
    rfl

theorem performStores_append (a b : List (List Nat × Word)) {s t : State} (h : performStores a s = .ok () t) :
    performStores (a ++ b) s = performStores b t := by
  induction a generalizing s with
  | nil => cases h; rfl
  | cons x a ih =>
    obtain ⟨as, v⟩ := x
    obtain ⟨⟨⟩, u, e, h⟩ := M.bind_eq_ok.1 h
    exact (M.bind_ok _ e).trans (ih h)

theorem performStores_flat {s : State} {ws : List LinStore} (h : ∀ w ∈ ws, s.flat w.lin w.width.bytes = true) :
    performStores (ws.map fun w => (addrsFrom w.lin.toNat w.width.bytes, w.value)) s
      = .ok () { s with mem := ownStored ws s.mem } := by
  induction ws generalizing s with
  | nil => rfl
  | cons w ws ih =>
    unfold List.map performStores
    rw [M.bind_ok _ (writeAddrs_ram w.value (State.isRam_of_flat (h w (by simp))))]
    exact ih (s := { s with mem := writeLE s.mem w.lin.toNat w.width.bytes w.value }) fun x hx => h x (by simp [hx])

/-- Several stores, all of them checked first (D8). -/
theorem linWriteAll_flat {s : State} {ws : List LinStore} (h : ∀ w ∈ ws, s.flat w.lin w.width.bytes = true) :
    linWriteAll ws s = .ok () { s with mem := ownStored ws s.mem } := by
  unfold linWriteAll
  rw [M.bind_ok _ (storeAddrs_flat h)]
  exact performStores_flat h

/-- Items go below the stack pointer of `s`, then the stores of the processor's own are made (R450, D8). -/
theorem pushItems_own_ok {s u : State} {n : Width} (note : Bool) (code : Half) {vs : List Word} {own : List LinStore}
    (hu : Noted s u) (h : s.canPush n vs.length = true) (ho : ∀ w ∈ own, s.flat w.lin w.width.bytes = true) :
    ∃ t, pushItems s.stack n note code vs own u = .ok () t ∧
      Noted { s with mem := ownStored own (s.stacked n 0 vs s.mem) } t := by
  obtain ⟨t, e, ht⟩ := pushAddrs_ok note code hu fun j hj => State.canPush_item h hj
  have e2 := performStores_items (ht.look State.memMap fun _ _ _ => rfl) fun j hj => State.canPush_item h hj
  have e3 : storeAddrs own t = _ := storeAddrs_flat fun w hw => (ht.look (·.flat w.lin w.width.bytes) fun _ _ _ => rfl).trans (ho w hw)
  have e4 := performStores_append _ (own.map fun w => (addrsFrom w.lin.toNat w.width.bytes, w.value)) e2
  refine ⟨_, by
    unfold pushItems
    rw [M.bind_ok _ e, M.bind_ok _ e3, e4]
    exact performStores_flat fun w hw => (ht.look (·.flat w.lin w.width.bytes) fun _ _ _ => rfl).trans (ho w hw), ?_⟩
  obtain ⟨a, b, rfl⟩ := ht
  exact ⟨a, b, rfl⟩

end Sys2Proof.Machine
end

