-- ==== Sys2Proof/Laws/Widths.lean ====
section
/-!
SUPPORT. Sys2Proof/Laws/Widths.lean: truncation, sign and signed value of operands as numbers (R7, R8).
-/
namespace Sys2Proof.Machine

/-- Truncation is the remainder modulo 2^N. -/
theorem truncW_toNat (n : Width) (v : Word) : (truncW n v).toNat = v.toNat % 2 ^ n.bits := by
  cases n
  · simp only [truncW, zext8, BitVec.toNat_setWidth, Width.bits]; omega
  · simp only [truncW, zext16, BitVec.toNat_setWidth, Width.bits]; omega
  · exact (Nat.mod_eq_of_lt v.isLt).symm

theorem truncW_lt (n : Width) (v : Word) : (truncW n v).toNat < 2 ^ n.bits := by
  rw [truncW_toNat]; exact Nat.mod_lt _ (by cases n <;> decide)

/-- A value of N bits is its own truncation. -/
theorem truncW_of_lt {n : Width} {v : Word} (h : v.toNat < 2 ^ n.bits) : truncW n v = v := by
  apply BitVec.eq_of_toNat_eq; rw [truncW_toNat, Nat.mod_eq_of_lt h]

/-- The sign bit of a value of N bits. -/
theorem signBit_eq {n : Width} {v : Word} (h : v.toNat < 2 ^ n.bits) :
    signBit n v = decide (2 ^ (n.bits - 1) ≤ v.toNat) := by
  have key : ∀ k, v.toNat < 2 ^ (k + 1) → v.getLsbD k = decide (2 ^ k ≤ v.toNat) := by
    intro k hk
    rw [BitVec.getLsbD, Nat.testBit_eq_decide_div_mod_eq]
    have hp : 0 < 2 ^ k := Nat.two_pow_pos k
    congr 1
    rw [Nat.pow_succ] at hk
    apply propext
    constructor
    · intro e
      by_cases hlt : v.toNat < 2 ^ k
      · rw [Nat.div_eq_of_lt hlt] at e
        omega
      · omega
    · intro hle
      have : v.toNat / 2 ^ k = 1 := by
        rw [Nat.div_eq_iff (by omega)]; omega
      omega
  cases n
  · exact key 7 h
  · exact key 15 h
  · exact key 31 h

/-- The signed value of a value of N bits (R8). -/
theorem signedW_eq {n : Width} {v : Word} (h : v.toNat < 2 ^ n.bits) :
    signedW n v = if v.toNat < 2 ^ (n.bits - 1) then (v.toNat : Int) else (v.toNat : Int) - 2 ^ n.bits := by
  have key : ∀ (k x : Nat), x < 2 ^ (k + 1) →
      (if 2 * x < 2 ^ (k + 1) then (x : Int) else (x : Int) - ((2 ^ (k + 1) : Nat) : Int))
        = if x < 2 ^ k then (x : Int) else (x : Int) - 2 ^ (k + 1) := by
    intro k x hx
    by_cases hk : x < 2 ^ k
    · rw [if_pos hk, if_pos (by rw [Nat.pow_succ]; omega)]
    · rw [if_neg hk, if_neg (by rw [Nat.pow_succ]; omega)]; simp
  cases n
  · simp only [signedW, sextW, Width.bits] at h ⊢
    rw [BitVec.toInt_signExtend_of_le (by omega), BitVec.toInt_eq_toNat_cond, BitVec.toNat_setWidth, Nat.mod_eq_of_lt h]
    exact key 7 _ h
  · simp only [signedW, sextW, Width.bits] at h ⊢
    rw [BitVec.toInt_signExtend_of_le (by omega), BitVec.toInt_eq_toNat_cond, BitVec.toNat_setWidth, Nat.mod_eq_of_lt h]
    exact key 15 _ h
  · simp only [signedW, sextW, Width.bits] at h ⊢
    rw [BitVec.toInt_eq_toNat_cond]
    exact key 31 _ h

/-- It lies in the signed range. -/
theorem signedW_range {n : Width} {v : Word} (h : v.toNat < 2 ^ n.bits) :
    -(2 ^ (n.bits - 1) : Int) ≤ signedW n v ∧ signedW n v < 2 ^ (n.bits - 1) := by
  rw [signedW_eq h]
  by_cases hk : v.toNat < 2 ^ (n.bits - 1)
  · rw [if_pos hk]
    cases n <;> simp only [Width.bits] at h hk ⊢ <;> omega
  · rw [if_neg hk]
    cases n <;> simp only [Width.bits] at h hk ⊢ <;> omega

end Sys2Proof.Machine
end

