-- ==== Sys2Proof/Tests/Slice0.lean ====
section
/-!
SUPPORT. Sys2Proof/Tests/Slice0.lean: small tests. Every expected value is from the spec: an encoding of 30_encoding.md or
of the instruction's rule written out byte by byte, a worked example of a rule, or a vector of 95_test_vectors.md. After
them, for each statement with hypotheses, states and operands that meet them.
-/
namespace Sys2Proof.Tests
open Sys2Proof Sys2Proof.Machine

/-! Well-formedness: a term that each check refuses. -/

theorem test_wf_size : Sz.fits .s16 0x10000 = false := by decide

theorem test_wf_mem :
    (Mem.m16 .si .none).wf .s32 = false ∧ (Mem.m16 .bp .none).wf .s16 = false ∧ (Mem.abs16 0).wf .s32 = false ∧
    (Mem.m32 .ax .none).wf .s16 = false ∧ (Mem.m32 .sp .none).wf .s32 = false ∧ (Mem.m32 .bp .none).wf .s32 = false ∧
    (Mem.abs32 0).wf .s16 = false ∧ (Mem.sib (some .ax) none 0 .none).wf .s16 = false ∧
    (Mem.sib (some .ax) (some .sp) 0 .none).wf .s32 = false ∧ (Mem.sib none none 0 .none).wf .s32 = false ∧
    (Mem.sib none (some .ax) 0 (.d8 1)).wf .s32 = false ∧ (Mem.sib (some .bp) none 0 .none).wf .s32 = false := by decide

/-- A memory operand of 32-bit addressing where 16-bit addressing is in force. -/
def badRm : Rm := .mem (.abs32 0)
def badRm8 : Rm8 := .mem (.abs32 0)

/-- The instruction is refused at a place of 16-bit operands and addresses. -/
def ill (i : Instr) : Bool := !i.wf .s16 .s16

theorem test_wf_alu :
    (ill (.add (.mr8 badRm8 .al)) && ill (.add (.mr .s32 (.reg .ax) .ax)) && ill (.add (.mr .s16 badRm .ax)) &&
    ill (.add (.rm8 .al badRm8)) && ill (.adc (.rm .s32 .ax (.reg .ax))) && ill (.adc (.rm .s16 .ax badRm)) &&
    ill (.sub (.ai .s32 0)) && ill (.sbb (.ai .s16 0x10000)) && ill (.cmp (.mi8 badRm8 0)) && ill (.and (.mi .s32 (.reg .ax) 0)) &&
    ill (.or (.mi .s16 badRm 0)) && ill (.xor (.mi .s16 (.reg .ax) 0x10000)) && ill (.add (.mib .s32 (.reg .ax) 0)) &&
    ill (.add (.mib .s16 badRm 0)) && ill (.test (.mr8 badRm8 .al)) && ill (.test (.mr .s32 (.reg .ax) .ax)) &&
    ill (.test (.ai .s16 0x10000)) && ill (.test (.mi8 badRm8 0)) && ill (.test (.mi .s16 (.reg .ax) 0x10000))) = true := by decide

theorem test_wf_mov :
    (ill (.mov (.mr8 badRm8 .al)) && ill (.mov (.mr .s32 (.reg .ax) .ax)) && ill (.mov (.rm8 .al badRm8)) &&
    ill (.mov (.rm .s16 .ax badRm)) && ill (.mov (.loadA8 .s32 0)) && ill (.mov (.loadA8 .s16 0x10000)) &&
    ill (.mov (.loadA .s32 .s16 0)) && ill (.mov (.loadA .s16 .s32 0)) && ill (.mov (.storeA8 .s32 0)) &&
    ill (.mov (.storeA .s16 .s16 0x10000)) && ill (.mov (.ri .s16 .ax 0x10000)) && ill (.mov (.mi8 badRm8 0)) &&
    ill (.mov (.mi .s16 (.reg .ax) 0x10000)) && ill (.movFromSreg .s32 (.reg .ax) .ds) && ill (.movToSreg .cs (.reg .ax)) &&
    ill (.movToSreg .ds badRm)) = true := by decide

theorem test_wf_stack :
    (ill (.push (.r .s32 .ax)) && ill (.push (.immv .s16 0x10000)) && ill (.push (.immb .s32 0)) && ill (.push (.rm .s16 badRm)) &&
    ill (.pop (.r .s32 .ax)) && ill (.pop (.rm .s16 badRm)) && ill (.pushSreg .s32 .ds) && ill (.popSreg .s32 .ds) &&
    ill (.popSreg .s16 .cs) && ill (.pusha .s32) && ill (.popa .s32) && ill (.xchg (.rm8 badRm8 .al)) &&
    ill (.xchg (.rm .s32 (.reg .ax) .cx)) && ill (.xchg (.acc .s32 .cx)) && ill (.xchg (.acc .s16 .ax)) &&
    ill (.enter .s32 0 0) && ill (.leave .s32) && ill (.pushf .s32) && ill (.popf .s32)) = true := by decide

theorem test_wf_rest :
    (ill (.inc (.r .s32 .ax)) && ill (.inc (.rm8 badRm8)) && ill (.dec (.rm .s16 badRm)) && ill (.neg (.rm8 badRm8)) &&
    ill (.mul (.rm .s32 (.reg .ax))) && ill (.imul2 .s16 .ax badRm) && ill (.imul3 (.immv .s16 .ax (.reg .ax) 0x10000)) &&
    ill (.imul3 (.immb .s16 .ax badRm 0)) && ill (.not (.rm8 badRm8)) && ill (.bt (.r .s32 (.reg .ax) .ax)) &&
    ill (.bts (.i .s16 badRm 0)) && ill (.bsf .s32 .ax (.reg .ax)) && ill (.rol (.rm8 badRm8 .one)) &&
    ill (.shl (.rm .s32 (.reg .ax) .cl)) && ill (.shld .s16 badRm .ax .cl) && ill (.setcc .o badRm8) &&
    ill (.movsx (.b .s16 .ax badRm8)) && ill (.movzx (.w .s32 .ax (.reg .ax))) && ill (.cbw .s32) && ill (.cwd .s32) &&
    ill (.jcc .s16 .o (.near 0x10000)) && ill (.jmpNear (.rel .s32 (.short 0))) && ill (.jmpNear (.rm .s16 badRm)) &&
    ill (.callNear (.rel .s16 (.short 0))) && ill (.callFar (.ptr .s16 0 0x10000)) && ill (.jmpFar (.mem .s16 (.abs32 0))) &&
    ill (.retNear .s32 none) && ill (.retFar .s32 none) && ill (.loop .s16 .s32 0) && ill (.jcxz .s32 .s16 0) &&
    ill (.iret .s32) && ill (.bound .s16 .ax (.abs32 0)) && ill (.movsb .s32) && ill (.stosv .s32 .s16) && ill (.xlat .s32) &&
    ill (.lea .s16 .ax (.abs32 0)) && ill (.esc 0 0 badRm) && ill (.lds .s32 .ax (.abs16 0)) && ill (.inp .d .dx) &&
    ill (.lgdt .s16 (.abs32 0)) && ill (.lldt badRm) && ill (.lar .s32 .ax (.reg .ax)) && ill (.verr badRm) &&
    ill (.arpl badRm .ax)) = true := by decide

/-! Decoding: for every constructor, bytes written out from the spec's encoding of it. -/

/-- The bytes are exactly this unit, with 32-bit operands and addresses, or 16-bit ones. -/
def is32 (bs : List Byte) (i : Instr) : Bool := decode .s32 .s32 bs == .unit i bs.length
def is16 (bs : List Byte) (i : Instr) : Bool := decode .s16 .s16 bs == .unit i bs.length

/-- R202. -/
theorem test_decode_prefixes :
    (is32 [0x26] .segEs && is32 [0x2E] .segCs && is32 [0x36] .segSs && is32 [0x3E] .segDs && is32 [0x64] .segFs &&
    is32 [0x65] .segGs && is32 [0x66] .opsize && is32 [0x67] .adrsize && is32 [0xF0] .lock && is32 [0xF2] .repne &&
    is32 [0xF3] .rep) = true := by decide

/-- R303 to R331. -/
theorem test_decode_data :
    (is32 [0x88, 0xD1] (.mov (.mr8 (.reg .cl) .dl)) && is32 [0x89, 0x18] (.mov (.mr .s32 (.mem (.m32 .ax .none)) .bx)) &&
    is32 [0x8A, 0x65, 0x80] (.mov (.rm8 .ah (.mem (.m32 .bp (.d8 0x80))))) && is16 [0x8B, 0x1E, 0x34, 0x12] (.mov (.rm .s16 .bx (.mem (.abs16 0x1234)))) &&
    is32 [0xA0, 1, 2, 3, 4] (.mov (.loadA8 .s32 0x04030201)) && is16 [0xA1, 1, 2] (.mov (.loadA .s16 .s16 0x0201)) &&
    is16 [0xA2, 1, 2] (.mov (.storeA8 .s16 0x0201)) && is32 [0xA3, 1, 2, 3, 4] (.mov (.storeA .s32 .s32 0x04030201)) &&
    is32 [0xB7, 0x55] (.mov (.ri8 .bh 0x55)) && is16 [0xBC, 0xCD, 0xAB] (.mov (.ri .s16 .sp 0xABCD)) &&
    is32 [0xC6, 0x00, 0x7F] (.mov (.mi8 (.mem (.m32 .ax .none)) 0x7F)) && is16 [0xC7, 0xC1, 5, 0] (.mov (.mi .s16 (.reg .cx) 5)) &&
    is32 [0x8C, 0xD8] (.movFromSreg .s32 (.reg .ax) .ds) && is32 [0x8E, 0xD0] (.movToSreg .ss (.reg .ax)) &&
    is32 [0x55] (.push (.r .s32 .bp)) && is16 [0x68, 1, 2] (.push (.immv .s16 0x0201)) && is32 [0x6A, 0xFF] (.push (.immb .s32 0xFF)) &&
    is32 [0xFF, 0x30] (.push (.rm .s32 (.mem (.m32 .ax .none)))) && is32 [0x0F, 0xA0] (.pushSreg .s32 .fs) && is32 [0x5F] (.pop (.r .s32 .di)) &&
    is32 [0x8F, 0x00] (.pop (.rm .s32 (.mem (.m32 .ax .none)))) && is32 [0x07] (.popSreg .s32 .es) && is32 [0x60] (.pusha .s32) &&
    is32 [0x61] (.popa .s32) && is32 [0x86, 0xC1] (.xchg (.rm8 (.reg .cl) .al)) && is32 [0x87, 0x18] (.xchg (.rm .s32 (.mem (.m32 .ax .none)) .bx)) &&
    is32 [0x93] (.xchg (.acc .s32 .bx)) && is32 [0x0F, 0xBE, 0xC1] (.movsx (.b .s32 .ax (.reg .cl))) &&
    is32 [0x0F, 0xB7, 0xC1] (.movzx (.w .s32 .ax (.reg .cx))) && is32 [0x98] (.cbw .s32) && is16 [0x99] (.cwd .s16)) = true := by decide

/-- R341 to R375. -/
theorem test_decode_arithmetic :
    (is32 [0x00, 0xC8] (.add (.mr8 (.reg .al) .cl)) && is32 [0x13, 0x08] (.adc (.rm .s32 .cx (.mem (.m32 .ax .none)))) &&
    is32 [0x2C, 0x80] (.sub (.ai8 0x80)) && is16 [0x1D, 1, 2] (.sbb (.ai .s16 0x0201)) && is32 [0x80, 0xF9, 0x10] (.cmp (.mi8 (.reg .cl) 0x10)) &&
    is32 [0x83, 0xC0, 0xFF] (.add (.mib .s32 (.reg .ax) 0xFF)) && is32 [0x42] (.inc (.r .s32 .dx)) && is32 [0xFE, 0x00] (.inc (.rm8 (.mem (.m32 .ax .none)))) &&
    is32 [0x4F] (.dec (.r .s32 .di)) && is32 [0xFF, 0xC9] (.dec (.rm .s32 (.reg .cx))) && is32 [0xF7, 0xDB] (.neg (.rm .s32 (.reg .bx))) &&
    is32 [0xF6, 0xE1] (.mul (.rm8 (.reg .cl))) && is32 [0xF7, 0xF3] (.div (.rm .s32 (.reg .bx))) && is32 [0xF6, 0xFB] (.idiv (.rm8 (.reg .bl))) &&
    is32 [0xF7, 0xE9] (.imul1 (.rm .s32 (.reg .cx))) && is32 [0x0F, 0xAF, 0xC1] (.imul2 .s32 .ax (.reg .cx)) &&
    is16 [0x69, 0xC1, 1, 2] (.imul3 (.immv .s16 .ax (.reg .cx) 0x0201)) && is32 [0x6B, 0xC1, 0xFE] (.imul3 (.immb .s32 .ax (.reg .cx) 0xFE)) &&
    is32 [0x27] .daa && is32 [0x2F] .das && is32 [0x37] .aaa && is32 [0x3F] .aas && is32 [0xD4, 0x0A] (.aam 0x0A) &&
    is32 [0xD5, 0x0A] (.aad 0x0A)) = true := by decide

/-- R381 to R420. -/
theorem test_decode_logical :
    (is32 [0x21, 0xD8] (.and (.mr .s32 (.reg .ax) .bx)) && is32 [0x0C, 1] (.or (.ai8 1)) && is32 [0x33, 0xC0] (.xor (.rm .s32 .ax (.reg .ax))) &&
    is32 [0xF7, 0xD0] (.not (.rm .s32 (.reg .ax))) && is32 [0x84, 0xC9] (.test (.mr8 (.reg .cl) .cl)) && is32 [0xF6, 0xC3, 1] (.test (.mi8 (.reg .bl) 1)) &&
    is32 [0x0F, 0xA3, 0xC8] (.bt (.r .s32 (.reg .ax) .cx)) && is32 [0x0F, 0xBA, 0xE8, 3] (.bts (.i .s32 (.reg .ax) 3)) &&
    is32 [0x0F, 0xB3, 0xC8] (.btr (.r .s32 (.reg .ax) .cx)) && is32 [0x0F, 0xBA, 0xF8, 3] (.btc (.i .s32 (.reg .ax) 3)) &&
    is32 [0x0F, 0xBC, 0xC1] (.bsf .s32 .ax (.reg .cx)) && is32 [0x0F, 0xBD, 0xC1] (.bsr .s32 .ax (.reg .cx)) &&
    is32 [0xD0, 0xC0] (.rol (.rm8 (.reg .al) .one)) && is32 [0xC1, 0xC8, 4] (.ror (.rm .s32 (.reg .ax) (.imm 4))) &&
    is32 [0xD3, 0xD0] (.rcl (.rm .s32 (.reg .ax) .cl)) && is32 [0xD1, 0xD8] (.rcr (.rm .s32 (.reg .ax) .one)) &&
    is32 [0xC0, 0xE0, 7] (.shl (.rm8 (.reg .al) (.imm 7))) && is32 [0xD2, 0xE8] (.shr (.rm8 (.reg .al) .cl)) && is32 [0xD1, 0xF8] (.sar (.rm .s32 (.reg .ax) .one)) &&
    is32 [0x0F, 0xA4, 0xC8, 4] (.shld .s32 (.reg .ax) .cx (.imm 4)) && is32 [0x0F, 0xAD, 0xC8] (.shrd .s32 (.reg .ax) .cx .cl) &&
    is32 [0x0F, 0x94, 0xC0] (.setcc .e (.reg .al))) = true := by decide

/-- R430 to R480. -/
theorem test_decode_control :
    (is32 [0x74, 0xFE] (.jcc .s32 .e (.short 0xFE)) && is32 [0x0F, 0x8F, 1, 0, 0, 0] (.jcc .s32 .nle (.near 1)) &&
    is32 [0xEB, 5] (.jmpNear (.rel .s32 (.short 5))) && is32 [0xFF, 0xE0] (.jmpNear (.rm .s32 (.reg .ax))) && is16 [0xEA, 1, 2, 3, 4] (.jmpFar (.ptr .s16 0x0403 0x0201)) &&
    is16 [0xE8, 1, 2] (.callNear (.rel .s16 (.near 0x0201))) && is32 [0xFF, 0x10] (.callNear (.rm .s32 (.mem (.m32 .ax .none)))) &&
    is32 [0xFF, 0x18] (.callFar (.mem .s32 (.m32 .ax .none))) && is32 [0xC3] (.retNear .s32 none) && is32 [0xCA, 8, 0] (.retFar .s32 (some 8)) &&
    is32 [0xE2, 0xFE] (.loop .s32 .s32 0xFE) && is32 [0xE1, 2] (.loope .s32 .s32 2) && is32 [0xE0, 2] (.loopne .s32 .s32 2) && is16 [0xE3, 2] (.jcxz .s16 .s16 2) &&
    is32 [0xCC] .int3 && is32 [0xCD, 0x80] (.int 0x80) && is32 [0xCE] .into && is32 [0xCF] (.iret .s32) &&
    is32 [0x62, 0x00] (.bound .s32 .ax (.m32 .ax .none))) = true := by decide

/-- R492 to R496, R567, R568. -/
theorem test_decode_strings :
    (is32 [0xA4] (.movsb .s32) && is32 [0xA5] (.movsv .s32 .s32) && is32 [0xA6] (.cmpsb .s32) && is16 [0xA7] (.cmpsv .s16 .s16) &&
    is32 [0xAE] (.scasb .s32) && is32 [0xAF] (.scasv .s32 .s32) && is32 [0xAC] (.lodsb .s32) && is32 [0xAD] (.lodsv .s32 .s32) &&
    is32 [0xAA] (.stosb .s32) && is32 [0xAB] (.stosv .s32 .s32) && is32 [0x6C] (.insb .s32) && is32 [0x6D] (.insv .s32 .s32) &&
    is32 [0x6E] (.outsb .s32) && is16 [0x6F] (.outsv .s16 .s16)) = true := by decide

/-- R510 to R568. -/
theorem test_decode_misc :
    (is32 [0xC8, 8, 0, 1] (.enter .s32 8 1) && is32 [0xC9] (.leave .s32) && is32 [0xF8] .clc && is32 [0xF9] .stc && is32 [0xF5] .cmc &&
    is32 [0xFC] .cld && is32 [0xFD] .std && is32 [0xFA] .cli && is32 [0xFB] .sti && is32 [0x9F] .lahf && is32 [0x9E] .sahf &&
    is32 [0x9C] (.pushf .s32) && is16 [0x9D] (.popf .s16) && is32 [0x8D, 0x04, 0x88] (.lea .s32 .ax (.sib (some .ax) (some .cx) 2 .none)) &&
    is32 [0x90] .nop && is32 [0xD7] (.xlat .s32) && is32 [0xD9, 0xC8] (.esc 1 1 (.reg .ax)) && is32 [0x9B] .wait &&
    is32 [0xC5, 0x00] (.lds .s32 .ax (.m32 .ax .none)) && is32 [0xC4, 0x00] (.les .s32 .ax (.m32 .ax .none)) &&
    is32 [0x0F, 0xB4, 0x00] (.lfs .s32 .ax (.m32 .ax .none)) && is32 [0x0F, 0xB5, 0x00] (.lgs .s32 .ax (.m32 .ax .none)) &&
    is32 [0x0F, 0xB2, 0x00] (.lss .s32 .ax (.m32 .ax .none)) && is32 [0xE4, 0x60] (.inp .b (.imm 0x60)) && is32 [0xEF] (.outp .d .dx)) = true := by decide

/-- R580 to R632, R256. -/
theorem test_decode_system :
    (is32 [0x0F, 0x01, 0x10] (.lgdt .s32 (.m32 .ax .none)) && is32 [0x0F, 0x01, 0x18] (.lidt .s32 (.m32 .ax .none)) &&
    is32 [0x0F, 0x01, 0x00] (.sgdt .s32 (.m32 .ax .none)) && is32 [0x0F, 0x01, 0x08] (.sidt .s32 (.m32 .ax .none)) &&
    is32 [0x0F, 0x00, 0xD0] (.lldt (.reg .ax)) && is32 [0x0F, 0x00, 0xC0] (.sldt (.reg .ax)) && is32 [0x0F, 0x00, 0xD8] (.ltr (.reg .ax)) &&
    is32 [0x0F, 0x00, 0xC8] (.str (.reg .ax)) && is32 [0x0F, 0x01, 0xF0] (.lmsw (.reg .ax)) && is32 [0x0F, 0x01, 0xE0] (.smsw (.reg .ax)) &&
    is32 [0x0F, 0x06] .clts && is32 [0xF4] .hlt && is32 [0x0F, 0x20, 0xD8] (.movFromCr .ax .cr3) && is32 [0x0F, 0x22, 0xC1] (.movToCr .cr0 .cx) &&
    is32 [0x0F, 0x21, 0xF8] (.movFromDr .ax .dr7) && is32 [0x0F, 0x23, 0xF1] (.movToDr .dr6 .cx) && is32 [0x0F, 0x24, 0xF0] (.movFromTr .ax .tr6) &&
    is32 [0x0F, 0x26, 0xF9] (.movToTr .tr7 .cx) && is32 [0x0F, 0x02, 0xC1] (.lar .s32 .ax (.reg .cx)) && is32 [0x0F, 0x03, 0xC1] (.lsl .s32 .ax (.reg .cx)) &&
    is32 [0x0F, 0x00, 0xE0] (.verr (.reg .ax)) && is32 [0x0F, 0x00, 0xE8] (.verw (.reg .ax)) && is32 [0x63, 0xC8] (.arpl (.reg .ax) .cx) &&
    is32 [0xD6] (.intelReserved .oD6) && is32 [0xF1] (.intelReserved .oF1)) = true := by decide

/-- What is undefined, and what is not yet whole (R255, R201). -/
theorem test_decode_refusals :
    decode .s32 .s32 [0x0F, 0xFF] = .undefined ∧ decode .s32 .s32 [0x8D, 0xC0] = .undefined ∧
    decode .s32 .s32 [0x8E, 0xC8] = .undefined ∧ decode .s32 .s32 [] = .more ∧ decode .s32 .s32 [0x0F] = .more ∧
    decode .s32 .s32 [0x81, 0xC0, 1, 2, 3] = .more := by decide

/-! One step of small programs. Lean's kernel evaluates each theorem in turn (at once, they ask for too many threads). -/

set_option Elab.async false

/-- Real-address mode, all segments at 0, at 0000:0100, a stack at 0000:0100. -/
def r0 : State :=
  { State.reset with
    eip := 0x100
    seg := { State.reset.seg with cs := { SegReg.resetData with ar := 0x9B } }
    gpr := { State.reset.gpr with esp := 0x100, edx := 0 }
    ilen := 2 }

/-- A flat segment of 4 GB. -/
def flatSeg (sel : Half) (ar : Byte) : SegReg :=
  { sel := sel, base := 0, limit := 0xFFFFFFFF, ar := ar, db := true, g := true, avl := false, valid := true }

/-- Doublewords stored from an address on. -/
def words : Nat → List Word → List Host.Cell → List Host.Cell
  | _, [], m => m
  | a, v :: rest, m => words (a + 4) rest (writeLE m a 4 v)

/-- A GDT at 400H: code, data, an LDT, an available TSS; its limit ends with the TSS. An IDT at 500H: one interrupt gate. -/
def tables : List Host.Cell :=
  words 0x408 [0x0000FFFF, 0x00CF9A00, 0x0000FFFF, 0x00CF9200, 0x06000007, 0x00008200, 0x07000067, 0x00008900]
    (words 0x500 [0x00080123, 0x00008E00] [])

/-- Protected mode, flat, CPL 0, 32-bit. -/
def p0 : State :=
  { r0 with
    cr := { r0.cr with cr0 := 1 }
    seg := { es := flatSeg 0x10 0x93, cs := flatSeg 8 0x9B, ss := flatSeg 0x10 0x93, ds := flatSeg 0x10 0x93,
             fs := flatSeg 0x10 0x93, gs := flatSeg 0x10 0x93 }
    gdtr := { base := 0x400, limit := 0x27 }
    idtr := { base := 0x500, limit := 7 }
    mem := tables }

/-- V86 mode with IOPL 3. -/
def v0 : State :=
  { p0 with
    eflags := 0x23002, cpl := 3
    seg := { es := .loadV86 0, cs := .loadV86 0, ss := .loadV86 0, ds := .loadV86 0, fs := .loadV86 0, gs := .loadV86 0 } }

/-- Bytes stored from an address on. -/
def load : State → Nat → List Byte → State
  | s, _, [] => s
  | s, a, b :: rest => load { s with mem := memSet s.mem a b } (a + 1) rest

/-- What is looked at after one step of the instruction at CS:EIP. -/
def run {α : Type} (s : State) (code : List Byte) (f : State → α) : Option α :=
  match step (load s (s.seg.cs.base + s.eip).toNat code) with
  | .next t => some (f t)
  | .fault _ => none
  | .refused _ => none

/-- CF, PF, AF, ZF, SF, OF. -/
def flags (s : State) : List Bool := [s.cf, s.pf, s.af, s.zf, s.sf, s.ofl]

/-- 95, B30: MOV EAX,[EBX+ESI*4+8]. -/
theorem test_mov_sib :
    run (load ((p0.setReg .bx 0x1000).setReg .si 0x10) 0x1048 [1, 2, 3, 4]) [0x8B, 0x44, 0xB3, 0x08]
      (fun t => (t.reg .ax, t.eip)) = some (0x04030201, 0x104) := by decide +kernel
/-- 95, B30: MOV [BX+SI] wraps within 16 bits. -/
theorem test_mov_wraps :
    run (load ((r0.setReg .bx 0xFFFF).setReg .si 2) 1 [7, 8]) [0x8B, 0x00] (·.reg .ax) = some 0x0807 := by decide +kernel
/-- 95, B40: PUSH ESP pushes the value before. -/
theorem test_push_esp :
    run p0 [0x54] (fun t => (t.reg .sp, readLE t.mem 0xFC 4)) = some (0xFC, 0x100) := by decide +kernel
/-- 95, B40: PUSH imm8 is sign-extended. -/
theorem test_push_imm8 :
    run r0 [0x6A, 0x80] (fun t => (t.reg .sp, readLE t.mem 0xFE 2)) = some (0xFE, 0xFF80) := by decide +kernel
/-- 95, B40: POP ESP. -/
theorem test_pop_esp :
    run (load p0 0x100 [0xFF]) [0x5C] (fun t => t.reg .sp) = some 0x5C := by decide +kernel
/-- 95, B40: XCHG AL,AH. -/
theorem test_xchg_bytes : run (p0.setReg .ax 0x1234) [0x86, 0xE0] (·.reg .ax) = some 0x3412 := by decide +kernel
/-- R325's example. -/
theorem test_cbw : run (r0.setReg .ax 0x12340080) [0x98] (·.reg .ax) = some 0x1234FF80 := by decide +kernel
/-- R326's example. -/
theorem test_cwd : run ((r0.setReg .ax 0x8000).setReg .dx 0x12345678) [0x99] (·.reg .dx) = some 0x1234FFFF := by decide +kernel
/-- 95, B40: MOVSX EAX,BX and MOVZX EAX,BX. -/
theorem test_extend :
    (run (p0.setReg .bx 0x8000) [0x0F, 0xBF, 0xC3] (·.reg .ax), run ((p0.setReg .bx 0x12348000)) [0x0F, 0xB7, 0xC3] (·.reg .ax))
      = (some 0xFFFF8000, some 0x8000) := by decide +kernel
/-- 95, B41: ADD AL,BL: FF + 1, 80 + 80. -/
theorem test_add :
    (run ((p0.setReg .ax 0xFF).setReg .bx 1) [0x00, 0xD8] (fun t => (t.reg .ax, flags t)),
     run ((p0.setReg .ax 0x80).setReg .bx 0x80) [0x00, 0xD8] (fun t => (t.reg .ax, flags t)))
      = (some (0, [true, true, true, true, false, false]), some (0, [true, true, false, true, false, true])) := by decide +kernel
/-- 95, B41: ADC with CF = 1. -/
theorem test_adc :
    run ({ p0 with eflags := 3 }.setReg .ax 0xFF) [0x10, 0xD8] (fun t => (t.reg .ax, flags t))
      = some (0, [true, true, true, true, false, false]) := by decide +kernel
/-- 95, B41: SUB 80 - 1; CMP 7F - FF. -/
theorem test_sub_cmp :
    (run ((p0.setReg .ax 0x80).setReg .bx 1) [0x28, 0xD8] (fun t => (t.reg .ax, flags t)),
     run ((p0.setReg .ax 0x7F).setReg .bx 0xFF) [0x38, 0xD8] (fun t => (t.reg .ax, flags t)))
      = (some (0x7F, [false, false, true, false, false, true]), some (0x7F, [true, false, false, false, true, true])) := by decide +kernel
/-- 95, B41: SBB 0 - FF - 1. -/
theorem test_sbb :
    run (({ p0 with eflags := 3 }).setReg .bx 0xFF) [0x18, 0xD8] (fun t => (t.reg .ax, flags t))
      = some (0, [true, true, true, true, false, false]) := by decide +kernel
/-- 95, B41: INC keeps CF. -/
theorem test_inc :
    run ({ p0 with eflags := 3 }.setReg .ax 0x7FFFFFFF) [0x40] (fun t => (t.reg .ax, flags t))
      = some (0x80000000, [true, true, true, false, true, true]) := by decide +kernel
/-- 95, B41: NEG of the most negative number. -/
theorem test_neg :
    run (p0.setReg .ax 0x80000000) [0xF7, 0xD8] (fun t => (t.reg .ax, flags t))
      = some (0x80000000, [true, true, false, false, true, true]) := by decide +kernel
/-- 95, B41: MUL and IMUL of bytes. -/
theorem test_multiply :
    (run ((r0.setReg .ax 0x10).setReg .bx 0x10) [0xF6, 0xE3] (·.reg .ax),
     run ((r0.setReg .ax 0x80).setReg .bx 0xFF) [0xF6, 0xEB] (·.reg .ax)) = (some 0x100, some 0x80) := by decide +kernel
/-- 95, B41: DIV and IDIV: quotient in AL, remainder in AH. -/
theorem test_divide :
    (run ((r0.setReg .ax 0x64).setReg .bx 7) [0xF6, 0xF3] (·.reg .ax),
     run ((r0.setReg .ax 0xFFF7).setReg .bx 4) [0xF6, 0xFB] (·.reg .ax)) = (some 0x020E, some 0xFFFE) := by decide +kernel
/-- R741: #DE goes through vector 0 with the address of DIV. -/
theorem test_divide_error :
    run (load r0 0 [0x34, 0x12, 0, 0]) [0xF6, 0xF3] (fun t => (t.eip, readLE t.mem 0xFA 2)) = some (0x1234, 0x100) := by decide +kernel
/-- 95, B42: DAA of AEH (with AF = CF = 0). -/
theorem test_daa : run (r0.setReg .ax 0xAE) [0x27] (·.reg .ax) = some 0x14 := by decide +kernel
/-- R374: AAM of 3FH; R375: AAD of 0607H. -/
theorem test_aam_aad :
    (run (r0.setReg .ax 0x3F) [0xD4, 0x0A] (·.reg .ax), run (r0.setReg .ax 0x0607) [0xD5, 0x0A] (·.reg .ax))
      = (some 0x0603, some 0x43) := by decide +kernel
/-- R397: BTS with a register offset reaches beyond the operand. -/
theorem test_bts_memory :
    run (r0.setReg .cx 33) [0x0F, 0xAB, 0x0E, 0, 0x20] (fun t => readLE t.mem 0x2004 4) = some 2 := by decide +kernel
/-- R401, R402: BSF and BSR of 00000050H. -/
theorem test_scan :
    (run (r0.setReg .bx 0x50) [0x0F, 0xBC, 0xC3] (·.reg .ax), run (r0.setReg .bx 0x50) [0x0F, 0xBD, 0xC3] (·.reg .ax))
      = (some 4, some 6) := by decide +kernel
/-- R406 to R415: shifts and rotates of 81H by one. -/
theorem test_shifts :
    [run (r0.setReg .ax 0x81) [0xD0, 0xC0] (·.reg .ax), run (r0.setReg .ax 0x81) [0xD0, 0xC8] (·.reg .ax),
     run (r0.setReg .ax 0x81) [0xD0, 0xD0] (·.reg .ax), run (r0.setReg .ax 0x81) [0xD0, 0xD8] (·.reg .ax),
     run (r0.setReg .ax 0x81) [0xD0, 0xE0] (·.reg .ax), run (r0.setReg .ax 0x81) [0xD0, 0xE8] (·.reg .ax),
     run (r0.setReg .ax 0x81) [0xD0, 0xF8] (·.reg .ax)]
      = [some 3, some 0xC0, some 2, some 0x40, some 2, some 0x40, some 0xC0] := by decide +kernel
/-- R409: SHLD AX,CX,4. -/
theorem test_shld :
    run ((r0.setReg .ax 0x1234).setReg .cx 0x5678) [0x0F, 0xA4, 0xC8, 4] (·.reg .ax) = some 0x2345 := by decide +kernel
/-- R435: JE back to itself, taken and not. -/
theorem test_jcc :
    (run { p0 with eflags := 0x42 } [0x74, 0xFE] (·.eip), run p0 [0x74, 0xFE] (·.eip)) = (some 0x100, some 0x102) := by decide +kernel
/-- R441, R447: CALL pushes the next address; RET 4 pops it. -/
theorem test_call_ret :
    (run p0 [0xE8, 0x10, 0, 0, 0] (fun t => (t.eip, readLE t.mem 0xFC 4)), run (load p0 0x101 [4, 0, 0]) [0xC2] (fun t => (t.eip, t.reg .sp)))
      = (some (0x115, 0x105), some (0x4C2, 0x108)) := by decide +kernel
/-- R434: far JMP in real-address mode. -/
theorem test_jmp_far :
    run r0 [0xEA, 0x34, 0x12, 0x00, 0xF0] (fun t => (t.seg.cs.sel, t.seg.cs.base, t.eip)) = some (0xF000, 0xF0000, 0x1234) := by decide +kernel
/-- R730: INT 0 through an interrupt gate at the same level. -/
theorem test_int_gate : run p0 [0xCD, 0x00] (fun t => (t.eip, t.seg.cs.sel, t.reg .sp)) = some (0x123, 8, 0xF4) := by decide +kernel
/-- R492: MOVSB copies and advances. -/
theorem test_movsb :
    run (load ((p0.setReg .si 0x2000).setReg .di 0x3000) 0x2000 [0x5A]) [0xA4]
      (fun t => (memGet t.mem 0x3000, t.reg .si, t.reg .di)) = some (0x5A, 0x2001, 0x3001) := by decide +kernel
/-- R510: ENTER 8,1; R512: LEAVE. -/
theorem test_enter_leave :
    (run (p0.setReg .bp 0x80) [0xC8, 8, 0, 1] (fun t => (t.reg .bp, t.reg .sp, readLE t.mem 0xF8 4)),
     run (load (p0.setReg .bp 0x80) 0x80 [0x44]) [0xC9] (fun t => (t.reg .bp, t.reg .sp)))
      = (some (0xFC, 0xF0, 0xFC), some (0x44, 0x84)) := by decide +kernel
/-- R565: IN tells the host of the port. -/
theorem test_in : run r0 [0xE4, 0x60] (fun t => t.events.length) = some 1 := by decide +kernel
/-- R551: MOV DS,AX in protected mode loads the descriptor and marks it accessed. -/
theorem test_mov_ds :
    run (p0.setReg .ax 8) [0x8E, 0xD8] (fun t => (t.seg.ds.sel, t.seg.ds.limit, memGet t.mem 0x40D))
      = some (8, 0xFFFFFFFF, 0x9B) := by decide +kernel
/-- R590: LMSW sets PE and does not clear it. -/
theorem test_lmsw :
    (run (r0.setReg .ax 1) [0x0F, 0x01, 0xF0] (·.cr.cr0), run p0 [0x0F, 0x01, 0xF0] (·.cr.cr0)) = (some 1, some 1) := by decide +kernel
/-- R591's example: SMSW AX with CR0 = 8000001BH (paging then on, the tables at 0 map page 0 to itself). -/
theorem test_smsw :
    run (p0.withCr0 0x1B) [0x0F, 0x01, 0xE0] (·.reg .ax) = some 0x1B := by decide +kernel
/-- R587: LTR marks the TSS busy. -/
theorem test_ltr :
    run (p0.setReg .ax 0x20) [0x0F, 0x00, 0xD8] (fun t => (t.tr.base, t.tr.limit, memGet t.mem 0x425)) = some (0x700, 0x67, 0x8B) := by decide +kernel
/-- R620, R622: LAR AX and LSL EAX of the code segment. -/
theorem test_lsl : run (p0.setReg .cx 8) [0x0F, 0x03, 0xC1] (fun t => (t.reg .ax, t.zf)) = some (0xFFFFFFFF, true) := by decide +kernel
/-- R258: LOCK before MOV is #UD. -/
theorem test_lock_ud :
    run { (load r0 0x18 [0x34, 0x12]) with pfx := { Latch.empty with lock := true, count := 1 }, eip := 0xFF } [0, 0x89, 0xD8] (·.eip)
      = some 0x1234 := by decide +kernel
/-- R632: HLT. -/
theorem test_hlt : run r0 [0xF4] (fun t => (t.activity, t.eip)) = some (.halted, 0x101) := by decide +kernel
/-- R256, R540, R250: what stops. -/
theorem test_stops :
    exec (.intelReserved .oD6) r0 = .refused .reservedOpcode ∧ exec (.esc 1 1 (.reg .ax)) r0 = .refused .coprocessor ∧
    exec (.aam 7) r0 = .refused .decimalBase := ⟨rfl, rfl, rfl⟩
/-- An instruction placed where it is fetched is run from reset: MOV AL,5A. -/
theorem test_withFetchWord :
    (match step (State.reset.withFetchWord 16 0x5AB0) with
     | .next t => t.reg8 .al == 0x5A
     | .fault _ => false
     | .refused _ => false) = true := by decide +kernel
theorem test_decodeTableWord : decodeTableWord 16 0x5AB0 = some (.mov (.ri8 .al 0x5A)) := by decide +kernel

/-! For each statement with hypotheses: states and operands that meet them, at the edge of what they allow. -/

/-- The last byte, word and doubleword below offset 10000H. -/
def atEnd (n : Width) : Mem := .abs16 (match n with
  | .b => 0xFFFF
  | .w => 0xFFFE
  | .d => 0xFFFC)
def end8 : Rm8 := .mem (atEnd .b)
def end16 : Rm := .mem (atEnd .w)
def end32 : Rm := .mem (atEnd .d)

/-- `r0` with a LOCK prefix. -/
def locked : State := { r0 with pfx := { Latch.empty with lock := true, count := 1 } }

/-- `r0` with a stack pointer, and with a repeat prefix and a count. -/
def stackAt (v : Word) : State := r0.setReg .sp v
def repeating (k : RepKind) (count : Word) : State :=
  { r0.setReg .cx count with pfx := { Latch.empty with rep := some k, count := 1 } }

/-- An answer is a next state. -/
def isNext (o : Host.Outcome State Fault Refusal) : Bool :=
  match o with
  | .next _ => true
  | .fault _ => false
  | .refused _ => false

/-- `p0` with more descriptors: code and data of level 3 (28H, 30H), call gates to offset FFFFFFFFH of 08H with one
parameter, to FFFFH with 31 words, and to the conforming segment 58H (38H, 40H, 48H), a task gate to the TSS 20H (50H), a
busy TSS (60H), a segment that is not present (68H); the IDT has an 80286 trap gate (1), a task gate (2), and a gate for
page faults (14); TR is at the TSS 20H, which holds a stack pointer for level 0. -/
def world (esp0 : Word) : State :=
  { p0 with
    gdtr := { base := 0x400, limit := 0x6F }
    idtr := { base := 0x500, limit := 0x77 }
    tr := { sel := 0x20, base := 0x700, limit := 0x67, is386 := true }
    mem := words 0x428 [0x0000FFFF, 0x00CFFA00, 0x0000FFFF, 0x00CFF200, 0x0008FFFF, 0xFFFFEC01, 0x0008FFFF, 0x0000E41F,
        0x0058FFFF, 0xFFFFEC00, 0x00200000, 0x0000E500, 0x0000FFFF, 0x00CF9E00, 0x07000067, 0x00008B00, 0x0000FFFF, 0x00CF1200]
      (words 0x508 [0x0008FFFF, 0x0000E700, 0x00200000, 0x0000E500]
        (words 0x570 [0x00080123, 0x00008E00] (words 0x704 [esp0, 0x10] tables))) }

/-- The same at level 3, and in V86 mode. -/
def userWorld (esp0 : Word) : State :=
  { world esp0 with
    cpl := 3
    seg := { (world esp0).seg with cs := flatSeg 0x2B 0xFB, ss := flatSeg 0x33 0xF3 } }
def v86World (esp0 : Word) : State := { world esp0 with eflags := 0x23002, cpl := 3, seg := v0.seg }

/-- The stack holds these doublewords, the last of them at the end of the address space. -/
def stacking (s : State) (items : List Word) : State :=
  { s.setReg .sp (0 - BitVec.ofNat 32 (4 * items.length)) with mem := words (2 ^ 32 - 4 * items.length) items s.mem }

theorem wit_ResetLeaves :
    ({ r0 with pinReset := some true }).pfx.count = 0 ∧ ({ r0 with pinReset := some true }).pinReset = some true := ⟨rfl, rfl⟩

/-- The reset state meets the invariant and has a next state. -/
theorem wit_InvariantKept : (State.reset.inv && isNext (step State.reset)) = true := by decide +kernel

theorem wit_DecodeEncode :
    (Instr.wf .s16 .s16 (.callFar (.ptr .s16 0xFFFF 0xFFFF)) &&
    Instr.wf .s32 .s32 (.mov (.mi .s32 (.mem (.sib (some .bp) (some .di) 3 (.d32 0xFFFFFFFF))) 0xFFFFFFFF)) &&
    Instr.wf .s32 .s16 (.mov (.loadA .s32 .s16 0xFFFF))) = true := by decide

/-- The last two bytes of the segment; and bytes 14 and 15 after 13 prefixes. -/
theorem wit_StepRunsInstruction :
    (let s := load { r0 with eip := 0xFFFE } 0xFFFE [0xB0, 0x5A]
     let t := { load r0 0x10D [0xB0, 0x5A] with pfx := { Latch.empty with count := 13 } }
     s.starts && isUnit s.opSz s.adSz [0xB0, 0x5A] (.mov (.ri8 .al 0x5A)) && s.codeAt 0 [0xB0, 0x5A] &&
     isUnit t.opSz t.adSz [0xB0, 0x5A] (.mov (.ri8 .al 0x5A)) && t.codeAt t.pfx.count [0xB0, 0x5A] && t.pfx.count + 2 == 15) = true := by
  decide +kernel

theorem wit_StoreThenLoad :
    ((Spot.mem .b .s16 .ds 0xFFFF).ok r0 .write && (Spot.mem .w .s16 .ss 0xFFFE).ok r0 .write && (Spot.mem .d .s16 .es 0xFFFC).ok r0 .write &&
    (Spot.mem .d .s16 .es 0xFFFC).ok r0 .read && (Spot.mem .d .s32 .ds 0xFFFFFFFC).ok p0 .write && !(Spot.mem .w .s16 .ds 0xFFFF).ok p0 .write) = true := by
  decide +kernel

/-- An expand-down stack segment of 16 bits with limit FFFH, not writable. -/
def down : State := { p0 with seg := { p0.seg with ss := { p0.seg.ss with ar := 0x95, limit := 0xFFF, db := false } } }

/-- A second byte past the greatest offset; one past the limit; below and above an expand-down segment, which allows the offset
between; a segment register that is null, and one that may not be written. -/
theorem wit_StoreThenLoad_refused :
    p0.outside .s16 .ds 0xFFFF 2 ∧ r0.outside .s32 .ss 0x10000 1 ∧ down.outside .s32 .ss 0xFFF 4 ∧ down.outside .s32 .ss 0xFFFF 2 ∧
    (down.seg.ss.inLimit 0x1000 4 = true) ∧
    ({ p0 with seg := { p0.seg with ds := p0.seg.ds.null 0 } }).forbids .ds arReadable ∧ down.forbids .ss arWritable ∧
    p0.pfx.lock = false ∧ (Mem.abs32 0xFFFFFFFE).isOpen = false ∧ p0.outside .s32 (p0.segOf (.abs32 0xFFFFFFFE)) 0xFFFFFFFE 4 := by
  refine ⟨⟨1, ?_⟩, ⟨0, ?_⟩, ⟨0, ?_⟩, ⟨1, ?_⟩, ?_, ⟨?_, .inl ?_⟩, ⟨?_, .inr ?_⟩, ?_, ?_, ⟨2, ?_⟩⟩ <;> decide +kernel

theorem wit_MovMoves :
    (r0.plain && [MovForm.mr8 end8 .al, .mr .s16 end16 .ax, .mr .s32 end32 .ax, .rm8 .al end8, .rm .s16 .ax end16, .loadA8 .s16 0xFFFF,
      .loadA .s16 .s16 0xFFFE, .storeA8 .s16 0xFFFF, .storeA .s32 .s16 0xFFFC, .ri8 .bh 0xFF, .ri .s32 .sp 0xFFFFFFFF, .mi8 end8 0xFF,
      .mi .s16 end16 0xFFFF, .mr8 (.reg .dh) .al].all (movOk · r0)) = true := by decide +kernel

theorem wit_XchgExchanges :
    (locked.lockOk true && (xchgParts (.rm .s16 end16 .ax)).1.isMem && (xchgParts (.rm .s16 end16 .ax)).1.ok locked .rmw &&
    r0.lockOk false && (xchgParts (.acc .s32 .di)).1.ok r0 .rmw && (xchgParts (.rm8 end8 .ah)).1.ok r0 .rmw) = true := by
  decide +kernel

theorem wit_PushStores :
    ([stackAt 2, stackAt 0].all fun s => s.plain && s.canPush .w 1 && pushOk (.rm .s16 end16) s && pushOk (.immb .s16 0x80) s) = true := by
  decide +kernel

theorem wit_PopLoads :
    (let s := stackAt 0xFFFE
     s.plain && (s.above .w 0).ok s .read && ((end16.place .s16).ok (s.popped 2) .write)) = true := by decide +kernel

theorem wit_AllRegistersPushedPopped :
    ((stackAt 16).plain && (stackAt 16).canPush .w 8 && (stackAt 32).canPush .d 8 &&
    (List.range 8).all (fun j => ((stackAt 0xFFF0).above .w (j * 2)).ok (stackAt 0xFFF0) .read) &&
    (List.range 8).all fun j => ((stackAt 0xFFE0).above .d (j * 4)).ok (stackAt 0xFFE0) .read) = true := by decide +kernel

theorem wit_Extensions : (r0.plain && end8.place.ok r0 .read && end16.place16.ok r0 .read) = true := by decide +kernel

theorem wit_SelectorStores :
    (r0.plain && (Place.mem .w (atEnd .w)).ok r0 .write && (stackAt 4).canPush .d 1 && (stackAt 4).plain) = true := by decide +kernel

theorem wit_SelectorLoadsFlat :
    ([r0.setReg .sp 0xFFFE, v0.setReg .sp 0xFFFE].all fun s => s.plain && s.mode != .prot && end16.place16.ok s .read && (s.above .w 0).ok s .read &&
      farOk .s16 (atEnd .d) s && farOk .s32 (.abs16 0xFFFA) s) = true := by decide +kernel

/-- A null selector; the last descriptor of the GDT, its limit ending there; a conforming segment; what each check refuses;
operands at the end of the segment. -/
theorem wit_SelectorLoadsProtected :
    (let s := { p0 with gdtr := { base := 0x400, limit := 0x17 } }
     let c := { s with mem := memSet s.mem 0x415 0x9E }
     let w := world 0
     let ax := fun v : Word => selectorOf (.reg .ax) (s.setReg .ax v)
     s.plain && s.mode == .prot && (Rm.mem (.abs32 0xFFFFFFFE)).place16.ok s .read && (stacking s [0x10]).plain &&
     ((stacking s [0x10]).above .d 0).ok (stacking s [0x10]) .read && farOk .s32 (.abs32 0xFFFFFFFA) s &&
     [(s, 3), (s, 0x10), (c, 0x10), (s, 0x18), (s, 0xFFFF)].all (fun (x : State × Half) => x.1.selReadable x.2) &&
     ax 0xFFFF0010 == 0x10 && s.loadFault .ds 3 == none && s.loadFault .ds 0x10 == none && s.loadFault .ss 0x10 == none &&
     c.loadFault .es 0x13 == none && s.loadFault .ss 3 == some (13, 0) && s.loadFault .gs 0x18 == some (13, 0x18) &&
     w.loadFault .ds 0x20 == some (13, 0x20) && w.loadFault .ss 8 == some (13, 8) && w.loadFault .ds 0x13 == some (13, 0x10) &&
     w.loadFault .ds 0x68 == some (11, 0x68) && w.loadFault .ss 0x68 == some (12, 0x68)) = true := by decide +kernel

theorem wit_AluResults :
    ([AluForm.mr8 end8 .al, .mr .s16 end16 .ax, .mi .s32 end32 1, .mib .s16 end16 0x80].all fun f =>
      locked.lockOk f.operands.dst.isMem && f.operands.ok locked .rmw) = true ∧
    ([AluForm.rm8 .al end8, .rm .s16 .ax end16, .ai8 1, .ai .s32 1].all fun f =>
      r0.lockOk f.operands.dst.isMem && f.operands.ok r0 .rmw) = true ∧
    (r0.plain && (AluForm.mr .s16 end16 .ax).operands.ok r0 .read && (TestForm.mi8 end8 1).operands.ok r0 .read) = true ∧
    ([IncForm.rm8 end8, .rm .s16 end16].all fun f => locked.lockOk (true && f.operand.dst.isMem) && f.operand.dst.ok locked .rmw) = true ∧
    ([UnForm.rm8 end8, .rm .s32 end32].all fun f => locked.lockOk (true && f.operand.dst.isMem) && f.operand.dst.ok locked .rmw) = true ∧
    r0.lockOk (true && (IncForm.r .s16 .sp).operand.dst.isMem) = true := by decide +kernel

/-- Both outcomes: a quotient of FFH fits a byte, 100H does not; no quotient by zero. -/
theorem wit_ProductsAndQuotients :
    (r0.plain && (UnForm.rm8 end8).operand.dst.ok r0 .read && (UnForm.rm .s16 end16).operand.dst.ok r0 .read &&
    (UnForm.rm .s32 (.reg .bx)).operand.dst.ok r0 .read && (end32.place .s32).ok r0 .read) = true ∧
    divRes .b 0 0xFF 1 = some (0xFF, 0) ∧ divRes .b 1 0 1 = none ∧ divRes .b 0 1 0 = none ∧
    idivRes .b 0xFF 0x80 1 = some (0x80, 0) ∧ idivRes .b 0 0x80 1 = none := by decide +kernel

theorem wit_DecimalAdjusts : r0.plain = true ∧ (11 : Byte) ≠ 10 := by decide +kernel

/-- The bit base and an offset that reaches the last word of the segment; a scan of zero, and of one bit. -/
theorem wit_BitTestsAndScans :
    (let f := BtForm.r .s16 (.mem (.abs16 0xFFF0)) .cx
     let s := r0.setReg .cx 0x7F
     let t := locked.setReg .cx 0x7F
     bitSpot f s == .mem .w .s16 .ds 0xFFFE && s.plain && bitOk f s .read && t.lockOk (f.base.place f.size).isMem && bitOk f t .rmw &&
     bitOk (.i .s32 (.reg .ax) 31) s .rmw) = true ∧
    (r0.plain && (end16.place .s16).ok r0 .read) = true ∧ ((end16.place .s16).spot r0).value r0 = 0 ∧
    ((end16.place .s16).spot (load r0 0xFFFF [0x80])).value (load r0 0xFFFF [0x80]) = 0x8000 := by decide +kernel

theorem wit_ShiftResults :
    ([ShiftForm.rm8 end8 (.imm 31), .rm .s16 end16 .one, .rm .s32 (.reg .ax) .cl].all fun f =>
      r0.lockOk (false && f.operand.dst.isMem) && f.operand.dst.ok r0 .rmw) = true ∧
    (r0.plain && (end16.place .s16).ok r0 .rmw) = true ∧ (0xFFFF : Word).toNat < 2 ^ Width.w.bits ∧ 15 < Width.w.bits := by decide +kernel

theorem wit_ArithmeticIsInteger :
    (0xFF : Word).toNat < 2 ^ Width.b.bits ∧ (0xFFFF : Word).toNat < 2 ^ Width.w.bits ∧ (0xFFFFFFFF : Word).toNat < 2 ^ Width.d.bits ∧
    31 < 32 ∧ (rclRes .b 9 0x81 true).flags.cf = .put true ∧ Width.b ≠ .d ∧ 9 = Width.b.bits + 1 := by decide

theorem wit_ConditionalJumps :
    (r0.plain && r0.inCode 0xFFFF && !r0.inCode 0x10000 && r0.inCode (relTarget r0.eipNext .s32 (.near 0xFEFD)) &&
    !r0.inCode (relTarget r0.eipNext .s32 (.near 0xFEFE))) = true := by decide +kernel

theorem wit_NearTransfers :
    (let s := load (stackAt 0xFFFE) 0xFFFE [0xFF, 0xFF]
     r0.plain && nearOk (.rm .s16 end16) r0 && r0.inCode (nearGoal (.rm .s16 end16) r0) && r0.inCode (nearGoal (.rel .s16 (.near 0xFEFD)) r0) &&
     (stackAt 2).canPush .w 1 && (s.above .w 0).ok s .read && s.inCode ((s.above .w 0).value s)) = true := by decide +kernel

theorem wit_FarTransfersFlat :
    ([stackAt 4, v0.setReg .sp 4].all fun s => s.plain && s.mode != .prot && farTargetOk (.ptr .s16 0xFFFF 0xFFFF) s && s.inCode 0xFFFF && s.canPush .w 2 &&
      farTargetOk (.mem .s16 (.abs16 0xFFFC)) s) = true ∧
    ([stackAt 0xFFFA, v0.setReg .sp 0xFFFA].all fun s => s.plain && (s.above .w 0).ok s .read && (s.above .w 2).ok s .read && (s.above .w 4).ok s .read &&
      s.inCode ((s.above .w 0).value s)) = true ∧ v0.mode = .v86 ∧ v0.iopl = 3 := by decide +kernel

/-- A code segment at the level, its selector the last of the GDT and its offset the last of the segment; a conforming one
from level 3; call gates to both. -/
theorem wit_FarTransfersProtected :
    (let s := { p0 with gdtr := { base := 0x400, limit := 0x0F } }
     let w := world 0
     let u := userWorld 0
     [s, u].all (fun s => s.plain && s.mode == .prot && farTargetOk (.ptr .s32 8 0xFFFFFFFF) s && s.canPush .d 2) &&
     farTargetOk (.mem .s32 (.abs32 0xFFFFFFFA)) s &&
     s.codeSeg 8 && !arConforming (s.desc 8).ar && decide (selRpl 8 ≤ s.cpl) && (s.desc 8).dpl == s.cpl &&
     decide ((0xFFFFFFFF : Word).toNat ≤ (s.desc 8).limit.toNat) &&
     u.codeSeg 0x5B && arConforming (u.desc 0x5B).ar && decide ((u.desc 0x5B).dpl ≤ u.cpl) &&
     [(w, 0x38), (w, 0x40), (u, 0x4B)].all (fun (x : State × Half) =>
       let g := x.1.desc x.2
       x.1.callGate x.2 && (x.1.desc g.gateSel).sameLevel x.1.cpl &&
       decide (g.gateOff.toNat ≤ (x.1.desc g.gateSel).limit.toNat) && x.1.canPush g.gateWidth 2)) = true := by decide +kernel

/-- From level 3 to level 0, with one parameter and with 31, on a stack of just that size. -/
theorem wit_GateCallsInner :
    ([((0x3B : Half), (20 : Word)), (0x43, 70)].all fun x =>
      let s := userWorld x.2
      let g := s.desc x.1
      let c := s.desc g.gateSel
      let n := g.gateWidth
      s.plain && s.mode == .prot && farTargetOk (.ptr .s32 x.1 0) s && s.callGate x.1 && c.innerLevel s.cpl &&
      decide (g.gateOff.toNat ≤ c.limit.toNat) && s.innerReady c.dpl n (4 + g.gateCount) &&
      BitVec.ofNat 32 (n.bytes * (4 + g.gateCount)) == x.2 &&
      (List.range g.gateCount).all fun j => (s.above n (j * n.bytes)).ok s .read) = true := by decide +kernel

/-- Return addresses at the end of the address space: offset FFFFFFFFH, CS 08H, an image. -/
theorem wit_FarReturnsProtected :
    (let s := stacking (world 0) [0xFFFFFFFF, 8, 0]
     let sel := lowHalf ((s.above .w 4).value s)
     s.plain && s.mode == .prot && (s.above .d 0).ok s .read && (s.above .w 4).ok s .read &&
     s.returnCode sel ((s.above .d 0).value s) && selRpl sel == s.cpl && !s.nt && s.stack.holds .prot 12 &&
     (s.above .d 8).ok s .read && !bit ((s.above .d 8).value s) 17) = true := by decide +kernel

/-- The same to level 3, by RET and by IRET. -/
theorem wit_FarReturnsOuter :
    ([(stacking (world 0) [0xFFFFFFFF, 0x2B, 0xFFFFFFFF, 0x33], 8), (stacking (world 0) [0xFFFFFFFF, 0x2B, 0, 0xFFFFFFFF, 0x33], 12)].all
      fun (x : State × Nat) =>
        let s := x.1
        let top := x.2
        let sel := lowHalf ((s.above .w 4).value s)
        s.plain && s.mode == .prot && !s.nt && s.stack.holds .prot (top + 8) && (s.above .d 0).ok s .read &&
        (s.above .w 4).ok s .read && (s.above .d 8).ok s .read && (s.above .d top).ok s .read && (s.above .d (top + 4)).ok s .read &&
        s.returnCode sel ((s.above .d 0).value s) && decide (s.cpl < selRpl sel) &&
        s.stackFor (lowHalf ((s.above .d (top + 4)).value s)) (selRpl sel) &&
        (top == 8 || !bit ((s.above .d 8).value s) 17)) = true := by decide +kernel

/-- In: a stack of ten doublewords, an external event, and a fault with an error code. Out: nine doublewords. -/
theorem wit_V86Transitions :
    (let s := v86World 40
     let t := stacking (world 0) [0xFFFF, 0x1000, 0x23002, 0, 0, 0, 0, 0, 0]
     [plainEvent 0 .external, faultOf 14 (some 4)].all s.leaveReady &&
     t.plain && t.mode == .prot && t.cpl == 0 && !t.nt && t.stack.holds .prot 36 &&
     (List.range 9).all (fun j => (t.above .d (4 * j)).ok t .read) && bit ((t.above .d 8).value t) 17 &&
     (t.above .d 0).value t == 0xFFFF) = true := by decide +kernel

/-- A state of `world` with a gate of DPL 3 for vectors 1, 3 and 4, and OF set. -/
def gated (s : State) : State :=
  { s with eflags := s.eflags ||| 0x800, mem := words 0x518 [0x0008FFFF, 0x0000E700, 0x0008FFFF, 0x0000E700] s.mem }

/-- Protected mode at the same and at an inner level, V86 mode, a task gate, a gate of DPL 0 at level 3. -/
theorem wit_SoftwareInterrupts_gates :
    ([(1 : Byte), 3, 4].all fun v =>
      (gated ((world 0).setReg .sp 6)).sameReady (softEvent v) && (gated (userWorld 10)).raiseReady (softEvent v) &&
      (gated (v86World 18)).leaveReady (softEvent v)) = true ∧
    ([gated (world 0), gated (userWorld 10), gated (v86World 18)].all fun s => s.plain && s.ofl && (s.mode != .v86 || s.iopl == 3)) = true ∧
    (let s := world 0
     s.gateOpen (softEvent 2) && (s.gate 2).isSystem 5 && s.tssReady (s.gate 2).gateSel) = true ∧
    (let s := userWorld 0
     let a := s.idtr.base + BitVec.ofNat 32 (8 * 14)
     s.plain && s.pe && decide (8 * 14 + 7 ≤ s.idtr.limit.toNat) && s.flat a 4 && s.flat (a + 4) 4 && (s.gate 14).isIdtGate &&
     decide ((s.gate 14).dpl < s.cpl)) = true := by decide +kernel

theorem wit_SoftwareInterrupts :
    ((stackAt 6).plain && (stackAt 6).realReady 255 && (stackAt 6).realReady 3 && ({ stackAt 6 with eflags := 0x802 }).realReady 4 &&
    ({ stackAt 6 with eflags := 0x802 }).ofl && !r0.ofl && !(atEnd .d).isOpen &&
    (Spot.mem .w .s16 .ds 0xFFFC).ok r0 .read && (Spot.mem .w .s16 .ds 0xFFFE).ok r0 .read && !(atEnd .w).isOpen &&
    decide (0xFFFC + 2 ≤ (atEnd .d).size.top) && decide ((atEnd .w).size.top < 0xFFFE + 2)) = true ∧
    (r0.regZ .s16 .ax = 0 ∧ (r0.setReg .ax 1).regZ .s16 .ax = 1) := by decide +kernel

/-- No repeat prefix; a count of 0, 1 and 2; elements at the end of the segment. -/
theorem wit_StringMoves :
    ([r0, repeating .rep 0, repeating .rep 1, repeating .rep 2].all fun s => s.plain &&
      (let t := (s.setReg .si 0xFFFF).setReg .di 0xFFFF
       (t.source .s16 .b).ok t .read && (t.dest .s16 .b).ok t .write) &&
      (let t := (s.setReg .si 0xFFFC).setReg .di 0xFFFC
       (t.source .s16 .d).ok t .read && (t.dest .s16 .d).ok t .write)) = true := by decide +kernel

theorem wit_StringCompares :
    ([r0, repeating .rep 2, repeating .repne 2, repeating .repne 0].all fun s => s.plain &&
      (let t := (s.setReg .si 0xFFFE).setReg .di 0xFFFE
       (t.source .s16 .w).ok t .read && (t.dest .s16 .w).ok t .read)) = true := by decide +kernel

/-- Level 3 with the I/O map at 68H of the TSS, of two bytes at most: its first byte is `bits`. -/
def mapped (limit : Word) (bits : Byte) : State :=
  { userWorld 0 with
    tr := { (userWorld 0).tr with limit := limit }
    mem := memSet (memSet (userWorld 0).mem 0x766 0x68) 0x768 bits }

/-- No repeat prefix; a count of 0, 1 and 2; a map that denies. -/
theorem wit_StringPorts :
    ([r0, repeating .rep 0, repeating .rep 1, repeating .rep 2, { p0 with seg := r0.seg }].all fun s => s.plain && s.ioOk 0xFFFF 1 &&
      (let t := (s.setReg .si 0xFFFF).setReg .di 0xFFFF
       (t.source .s16 .b).ok t .read && (t.dest .s16 .b).ok t .write)) = true ∧
    (let s := mapped 0x69 2
     let t := { s.setReg .cx 1 with pfx := { Latch.empty with rep := some .rep, count := 1 } }
     s.plain && t.plain && s.ioDenied 0 2 && t.ioDenied 0 2 && s.pfx.rep == none && t.regZ .s16 .cx != 0) = true := by decide +kernel

theorem wit_Frames :
    (let s := (stackAt 0x42).setReg .bp 0x80
     let t := stackAt 0
     let u := r0.setReg .bp 0xFFFE
     s.plain && s.canPush .w 1 && canDisplay .s16 31 (s.pushed .w [s.regZ .s16 .bp]) && t.canPush .w 1 && canDisplay .s16 0 (t.pushed .w [t.regZ .s16 .bp]) &&
     u.plain && (u.atFrame.above .w 0).ok u.atFrame .read) = true := by decide +kernel

theorem wit_CarryFlagControl : r0.plain = true := by decide +kernel

/-- IOPL at least CPL, and below it. -/
theorem wit_DirectionAndInterruptFlags :
    (let s : State := { p0 with cpl := 3, eflags := 0x2002 }
     let t : State := { p0 with cpl := 3, eflags := 0x3002 }
     s.plain && s.pe && decide (s.iopl < s.cpl.toNat) && t.plain && t.pe && !decide (t.iopl < t.cpl.toNat)) = true := by decide +kernel

theorem wit_FlagsThroughAh : r0.plain = true := by decide +kernel

theorem wit_FlagTransfers :
    ([stackAt 4, v0.setReg .sp 4].all fun s => s.plain && (!s.vm || s.iopl == 3) && s.canPush .w 1 && s.canPush .d 1) = true ∧
    ([stackAt 0xFFFC, v0.setReg .sp 0xFFFC].all fun s => (s.above .w 0).ok s .read && (s.above .d 0).ok s .read) = true := by decide +kernel

theorem wit_SetAndTranslate :
    (let s := (r0.setReg .bx 0xFFFF).setReg8 .al 0
     s.plain && !(atEnd .b).isOpen && (Mem.sib (some .ax) none 1 .none).isOpen && end8.place.ok s .write &&
     (Spot.mem .b .s16 (s.segOr .ds) (truncZ .s16 (s.regZ .s16 .bx + zext8 (s.reg8 .al)))).ok s .read) = true := by decide +kernel

theorem wit_CoprocessorAndReserved :
    (let w := fun cr0 busy error => ({ r0.withCr0 cr0 with busy := busy, error := error } : State)
     let a := w 0xA false false
     let b := w 2 true false
     let c := w 8 false true
     let d := w 0 false false
     a.plain && a.mp && a.ts && b.plain && !(b.mp && b.ts) && b.busy && c.plain && !(c.mp && c.ts) && !c.busy && c.error &&
     d.plain && !(d.mp && d.ts) && !d.busy && !d.error &&
     !a.pfx.lock && (a.em || a.ts) && (w 4 false false).em && !((w 0 false true).em || (w 0 false true).ts) && (w 0 false true).error &&
     !(d.em || d.ts) && (Place.mem .b (atEnd .b)).ok d .read) = true := by decide +kernel

/-- No look at the map; a map whose last bit but one is of the port; one that denies; one that its limit cuts off. -/
theorem wit_Ports :
    (r0.plain && r0.ioOk 0xFFFF 4 && (mapped 0x69 0xFE).plain && !(mapped 0x69 0xFE).ioFree && (mapped 0x69 0xFE).ioOk 0 1 &&
     (mapped 0x69 0x7F).ioOk 7 2 && (mapped 0x69 0xFE).ioDenied 1 1 && (mapped 0x69 2).ioDenied 0 2 && (mapped 0x68 0).ioDenied 0 1 &&
     (mapped 0x66 0).ioDenied 0 1) = true ∧
    portNumber .dx (r0.setReg .dx 0xFFFF) = 0xFFFF := by decide +kernel

theorem wit_TableRegisters :
    (r0.plain && r0.cpl == 0 && tableOk (.abs16 0xFFFA) r0 .read && tableOk (.abs16 0xFFFA) r0 .write && !tableOk (.abs16 0xFFFB) r0 .write) = true := by
  decide +kernel

/-- A null selector; the LDT at 18H; the TSS at 20H, the last of the GDT; what each check refuses. -/
theorem wit_LocalTables :
    (let at_ := fun v => p0.setReg .ax v
     let ax := Rm.reg .ax
     (at_ 0).plain && (at_ 0).mode == .prot && (at_ 0).cpl == 0 && ax.place16.ok (at_ 0) .read && selNull (selectorOf ax (at_ 0)) &&
     selectorOf ax (at_ 0x18) == 0x18 && selectorOf ax (at_ 0x20) == 0x20 &&
     ([0x18, 0x20].all fun x => !selNull x && !selLdt x && p0.descIn x && p0.descFlat x && (p0.desc x).present) && !p0.descIn 0x28 &&
     (p0.desc 0x18).isSystem 2 && (p0.desc 0x20).isAvailTss && (Rm.mem (.abs32 0xFFFFFFFE)).place16.ok p0 .write &&
     ([0, 4, 0x10, 0x28].all p0.selReadable) && p0.ldtFault 4 == some (13, 4) && p0.ldtFault 0x10 == some (13, 0x10) &&
     p0.ldtFault 0x28 == some (13, 0x28) && p0.tssFault 0 == some (13, 0) && p0.tssFault 0x18 == some (13, 0x18) &&
     { p0 with mem := memSet p0.mem 0x41D 2 }.ldtFault 0x18 == some (11, 0x18) &&
     { p0 with mem := memSet p0.mem 0x425 9 }.tssFault 0x20 == some (11, 0x20)) = true := by decide +kernel

theorem wit_StatusWord :
    (let s := r0.setReg .ax 0xFFFF
     s.plain && s.cpl == 0 && end16.place16.ok s .read && (Rm.reg .ax).place16.ok s .read && end16.place16.ok s .write &&
     !(s.withCr0 (mergeBits 0xE 0xFFFF s.cr.cr0 ||| 1)).eipOpen && !(s.withCr0 (mergeBits 0xE 0 s.cr.cr0 ||| 0)).eipOpen) = true := by decide +kernel

theorem wit_SpecialRegisters :
    (let v : Word := 0x80000001
     let s := r0.setReg .ax v
     { s with iceActive := true }.plain && { s with iceActive := true }.cpl == 0 && s.plain && s.cpl == 0 && !s.iceActive && s.reg .ax == v && bit v 31 && bit v 0 && !(s.withCr0 v).eipOpen && !bit (0 : Word) 31 &&
     bit (0x80000000 : Word) 31 && !bit (0x80000000 : Word) 0 &&
     !(s.withCr0 0).eipOpen) = true := by decide +kernel

/-- A write; one with PL clear and an undefined pair; a tag another entry has; a lookup that hits the last entry of the last
block; one that misses; one that matches two entries; one with V clear, an entry never written or all of them written. -/
theorem wit_TlbTest :
    (let v : Word := 0xFFFFFD40
     let e : TlbEntry := { valid := true, page := 0xFFFFF, dirty := true, user := true, writable := true, frame := 0, written := true }
     let s := { r0 with tregs := { r0.tregs with tr7 := 0x1C } }
     let t := { r0 with tlb := tlbPut emptyTlb 31 e }
     let two := { r0 with tlb := tlbPut (tlbPut emptyTlb 31 e) 23 { e with dirty := false } }
     let all := { r0 with tlb := List.replicate 32 { e with valid := false } }
     s.plain && s.cpl == 0 && !bit v 0 && bit s.tregs.tr7 4 && bit v 10 != bit v 9 && bit v 8 != bit v 7 && bit v 6 != bit v 5 &&
     s.tlb.all (fun e => !(e.valid && e.page == v.extractLsb' 12 20)) && !bit r0.tregs.tr7 4 && !bit (0xFFFFF920 : Word) 10 &&
     (testEntry v 0 0).valid && tagElsewhere (testEntry v 0 0) 7 0 t.tlb && !tagElsewhere (testEntry v 0 0) 31 0 t.tlb &&
     t.plain && t.cpl == 0 && bit (0xFFFFFD41 : Word) 0 && bit (0xFFFFFD41 : Word) 11 &&
     tlbMatches 0xFFFFFD41 0 t.tlb == [(31, e)] && tlbMatches 0xFFFFED41 0 t.tlb == [] &&
     (tlbMatches 0xFFFFFF41 0 two.tlb).length == 2 && !bit (0xFFFFF541 : Word) 11 && t.tlb.any (fun e => !e.written) &&
     !all.tlb.any (fun e => !e.written) && (tlbMatches 0xFFFFF541 0 all.tlb).length == 32) = true := by decide +kernel

/-- A null selector; one past the table; the last of the GDT; a code segment; both outcomes of ARPL. -/
theorem wit_PointerChecks :
    (p0.plain && p0.mode == .prot && ((Rm.reg .ax).place .s32).ok p0 .read && (Rm.mem (.abs32 0xFFFFFFFE)).place16.ok p0 .read &&
    ([0, 8, 0x20, 0x28].all p0.lookupOk) && p0.lookup 0 == none && p0.lookup 0x28 == none && (p0.lookup 0x20).isSome &&
    (p0.lookup 8).any (fun d => d.larType && d.lslType && d.visible p0.cpl 8 && arReadable d.ar) && (p0.lookup 0x10).any (fun d => arWritable d.ar) &&
    (Rm.mem (.abs32 0xFFFFFFFE)).place16.ok p0 .rmw) = true := by decide +kernel

theorem wit_LockRefused :
    (locked.pfx.lock && !isPrefix .nop && !lockable .nop && !lockable (.add (.mr .s16 (.reg .ax) .cx)) && !lockable (.cmp (.mr .s16 end16 .ax))) = true := by
  decide +kernel

theorem wit_LevelAndModeRefused :
    (let s := { p0 with cpl := 1 }
     let t := { v0 with eflags := 0x22002 }
     !s.pfx.lock && privileged .hlt && s.cpl != 0 && s.mode == .prot && privileged (.lldt (.reg .ax)) &&
     !t.pfx.lock && t.cpl != 0 && privileged .clts && !protectedOnly .clts && protectedOnly (.ltr (.reg .ax)) && t.mode != .prot && r0.mode != .prot &&
     iopl3 (.int 0x80) && t.mode == .v86 && t.iopl == 2) = true := by decide +kernel

/-- The last entry of the table, three words of stack; and a table that ends one byte before it. -/
theorem wit_RealDelivery :
    ((stackAt 6).realReady 255 && (stackAt 6).realReady 0 &&
    (let s := { stackAt 6 with idtr := { base := 0, limit := 0x3FE } }
     s.realReady 8 && decide (s.idtr.limit.toNat < 4 * (255 : Byte).toNat + 3) && (plainEvent 255 .external).kind != .abort)) = true := by decide +kernel

/-- Two gates of the IDT: an 80286 trap gate, and a page fault with its error code; a stack of just that size. -/
theorem wit_SameLevelDelivery :
    ([(plainEvent 1 .software, (6 : Word)), (faultOf 14 (some 7), 16)].all fun (x : Exc × Word) =>
      let s := (world 0).setReg .sp x.2
      let g := s.gate x.1.vec
      s.sameReady x.1 &&
      BitVec.ofNat 32 (g.gateWidth.bytes * (3 + x.1.items)) == x.2) = true := by decide +kernel

/-- The same from level 3 to level 0. -/
theorem wit_InnerLevelDelivery :
    ([(plainEvent 1 .software, (10 : Word)), (faultOf 14 (some 7), 24)].all fun (x : Exc × Word) =>
      let s := userWorld x.2
      let g := s.gate x.1.vec
      s.raiseReady x.1 &&
      BitVec.ofNat 32 (g.gateWidth.bytes * (5 + x.1.items)) == x.2) = true := by decide +kernel

theorem wit_EmptyTableShutsDown :
    p0.pe = true ∧ ({ p0 with idtr := { base := 0, limit := 6 } }).idtr.limit.toNat < 7 := by decide +kernel

theorem wit_Boundaries :
    (let a := { r0 with traps := { Traps.none with bs := true } }
     let b := { r0 with nmiPending := true }
     let c := { r0 with intr := some 255, eflags := 0x202 }
     let d := { r0 with activity := .halted, intr := some 255 }
     let e := { r0 with activity := .halted }
     let f := { r0 with activity := .shutdown, intr := some 255, eflags := 0x202 }
     let g := { r0 with dr := { r0.dr with dr3 := r0.seg.cs.base + r0.eip, dr7 := 0x80 } }
     a.pfx.count == 0 && a.pinReset == none && a.pendingExc == none && a.traps.due &&
     b.quiet && !breaksHere b && b.nmiPending && !b.nmiInService && !b.inhibit &&
     c.quiet && c.activity != .shutdown && !breaksHere c && !nmiTaken c && c.intr == some 255 && c.ifl && !c.inhibit && !c.stiDelay &&
     d.quiet && !nmiTaken d && !d.ifl && e.quiet && !nmiTaken e && e.intr == none && f.quiet && !nmiTaken f && f.activity == .shutdown &&
     [g, { g with eflags := 0x10002 }].all (fun s => s.quiet && s.activity == .running && !s.inhibit && !s.midRep &&
       s.breakpointAt 3 (s.seg.cs.base + s.eip) && dr7Enabled s.dr.dr7 3) && r0.plain) = true := by decide +kernel

/-- Paging on, the directory at 1000H, the table at 2000H, the last page of the address space: a state with these two entries. -/
def paged (pde pte : Word) : State :=
  { p0 with cr := { cr0 := 0x80000001, cr2 := 0, cr3 := 0x1000 }, mem := words 0x1FFC [pde] (words 0x2FFC [pte] []) }

/-- A page that a user may write; an entry that is not present; a page of the supervisor; one that may not be written. -/
theorem wit_PageWalk :
    (let lin : Word := 0xFFFFFFFF
     let a := paged 0x2007 0xFFFFF007
     let b := paged 0x2006 0xFFFFF007
     let c := paged 0x2007 0xFFFFF006
     let d := paged 0x2003 0xFFFFF007
     let e := paged 0x2007 0xFFFFF005
     a.walks lin && pageGrants (a.pde lin) (a.pte lin) true .rmw && b.walks lin && !bit (b.pde lin) 0 && c.walks lin && !bit (c.pte lin) 0 &&
     d.walks lin && bit (d.pde lin) 0 && bit (d.pte lin) 0 && !(bit (d.pde lin) 2 && bit (d.pte lin) 2) &&
     e.walks lin && bit (e.pde lin) 0 && bit (e.pte lin) 0 && bit (e.pde lin) 2 && bit (e.pte lin) 2 && Acc.write.writes && !(bit (e.pde lin) 1 && bit (e.pte lin) 1)) = true := by
  decide +kernel

/-- The old TSS in ROM, so that what is saved there leaves no trace; the new one all zero but for VM: a V86 task. -/
def switching : State :=
  { p0 with tr := { sel := 0x18, base := 0x8000, limit := 0x67, is386 := true },
            memMap := [{ base := 0x8000, size := 0x68, kind := .rom }], mem := memSet p0.mem 0x726 2 }

/-- The TSS 20H directly and through the task gate 50H; a back link to the busy TSS 60H, within a limit of TR of 1 and beyond
one of 0; the task gate of vector 2. -/
theorem wit_TaskTransfers :
    (let s := world 0
     let t := { s with eflags := 0x4002, mem := memSet s.mem 0x700 0x60, tr := { s.tr with limit := 1 } }
     let u := { t with tr := { t.tr with limit := 0 } }
     s.plain && s.mode == .prot && farTargetOk (.ptr .s32 0x50 0) s && s.taskTarget 0x20 == some 0x20 && s.taskTarget 0x50 == some 0x20 &&
     t.plain && t.mode == .prot && t.nt && t.backReady && u.plain && u.mode == .prot && u.nt && u.tr.limit == 0 &&
     (plainEvent 2 .external).vec == 2 && s.gateOpen (plainEvent 2 .external) &&
     (s.gate 2).isSystem 5 && s.tssReady (s.gate 2).gateSel) = true := by decide +kernel

/-- A TSS at the end of the address space, of the least size; one a byte too small. An old TSS that just holds what is saved;
one a byte too small, of each kind. -/
theorem wit_TaskSwitchSaves :
    (let d : Desc := { at_ := 0x420, lo := 0xFF980067, hi := 0xFF0089FF }
     let e : Desc := { d with lo := 0xFF980066 }
     let old := fun (is386 : Bool) (limit : Word) =>
       { world 0 with tr := { sel := 0x20, base := 0x700, limit := limit, is386 := is386 } }
     [SwitchKind.jmp, .call, .int, .iret].all (fun k => (old true 0x5D).switchable d k && (old false 0x29).switchable d k) &&
     decide (e.limit.toNat < tssLeast e.isTss386) && decide (tssLeast d.isTss386 ≤ d.limit.toNat) &&
     !(old true 0x5C).saveFits && !(old false 0x28).saveFits) = true := by
  decide +kernel

/-- Memory with a 386 DX TSS at 700H: EIP FFFFH, this EFLAGS, CS and SS. -/
def taskOf (fl cs ss : Word) : State :=
  { world 0 with mem := words 0x720 [0xFFFF, fl] (words 0x74C [cs, ss] (world 0).mem) }

/-- Each kind of switch completes; a 386 DX task, an 80286 one (its CS at 24H), and a V86 task can be entered. -/
theorem wit_TaskSwitchCommits :
    ([SwitchKind.jmp, .call, .int, .iret].all fun k =>
      match taskSwitch 0x20 (switching.desc 0x20) k 0x102 false false none switching with
      | .ok () _ => true
      | .error _ _ => false) = true ∧ SwitchKind.call.nests = true ∧
    ((taskOf 0 8 0x10).enterable true 0x700 .jmp && (taskOf 0 0x2B 0x33).enterable true 0x700 .call &&
     (taskOf 0x20000 0xFFFF 0xFFFF).enterable true 0x700 .int &&
     { taskOf 0 0 0 with mem := words 0x724 [0x100008] (world 0).mem }.enterable false 0x700 .iret &&
     (taskOf 0 8 0x10).flat 0x700 (tssLeast true + 1) && switching.flat 0x700 (tssLeast true + 1)) = true := by decide +kernel

end Sys2Proof.Tests
end

/-!
Settles O37 and O39: the instructions that move CF, and those that move the flags through AH (R515 to R517, R526, R527).
-/
namespace Sys2Proof.Machine

/-! A byte that is a whole instruction. -/

/-- An opcode byte that its row reads without another byte is a unit of length 1. -/
theorem decode_of_op {os as : Sz} {b : Byte} {i : Instr} (h : Reader.op os as b [] = .ok i []) :
    decode os as [b] = .unit i 1 := by
  have hu : Reader.unit os as [b] = .ok i [] := h
  simp [decode, hu]

/-! Instructions that leave another EFLAGS and nothing else. -/

/-- `Like` does not look at EFLAGS. -/
theorem Like.of_eflags (s : State) (fl : Word) : Like { s with eflags := fl } s where
  regs _ := rfl
  mem _ := rfl
  seg := rfl
  cpl := rfl
  gdtr := rfl
  idtr := rfl
  ldtr := rfl
  tr := rfl
  cr := rfl
  dr := rfl
  tregs := rfl
  tlb := rfl
  activity := rfl
  nmi := ⟨rfl, rfl⟩
  pins := ⟨rfl, rfl, rfl, rfl, rfl⟩
  memMap := rfl
  pendingExc := rfl
  events := rfl

/-- From the body to `DoneFlags`, for a body that only loads EFLAGS and keeps VM: at the boundary RF is cleared (R786), and
`EIP_next` is the one before the instruction since the mode is the same. -/
theorem doneFlags_of_body {i : Instr} {body : M Unit} {s : State} {fl : Word}
    (hi : exec i s = runInstr false (thenNext body) s) (hs : s.plain = true)
    (hb : body s = .ok () { s with eflags := fl }) (hvm : bit fl 17 = s.vm) :
    DoneFlags i s s s.eipNext (putBit fl 16 false) [] noByte := by
  have ht : thenNext body s = .ok .next { s with eflags := fl } := M.bind_ok _ hb
  have hlike : Like (finish .next s { s with eflags := fl }) s := finish_like (by decide) (Like.of_eflags s fl)
  refine ⟨_, hi.trans (runInstr_ok (State.plain_lock hs false) ht), hlike, ?_, ?_, ?_⟩
  · rw [finish_eip (by decide)]
    exact State.eipNext_congr (State.eipOpen_of_plain hs) rfl rfl rfl hvm rfl
  · exact finish_eflags (by decide)
  · exact ⟨fun r _ => hlike.regs r, fun a _ => hlike.mem a⟩

/-! CF. -/

theorem exec_stc (s : State) : exec .stc s = runInstr false (thenNext (putFlag 0 true)) s := rfl
theorem exec_clc (s : State) : exec .clc s = runInstr false (thenNext (putFlag 0 false)) s := rfl
theorem exec_cmc (s : State) : exec .cmc s = runInstr false (thenNext (upd fun t => t.setFlag 0 (!t.cf))) s := rfl

/-- A body that sets CF to some value leaves the other flags, VM among them. -/
theorem doneFlags_of_setCf {i : Instr} {body : M Unit} {s : State} {b : Bool}
    (hi : exec i s = runInstr false (thenNext body) s) (hs : s.plain = true) (hb : body s = .ok () (s.setFlag 0 b)) :
    DoneFlags i s s s.eipNext (putBit (putBit s.eflags 0 b) 16 false) [] noByte :=
  doneFlags_of_body hi hs hb (bit_putBit_ne _ _ (by decide))

/-- Settles O37: each body sets CF, to 1, to 0 and to its complement. -/
theorem carryFlagControl : Obligations.CarryFlagControl := by
  refine ⟨fun os as => ⟨decode_of_op rfl, decode_of_op rfl, decode_of_op rfl⟩, fun s hs => ⟨?stc, ?clc, ?cmc⟩⟩
  case stc => exact doneFlags_of_setCf (exec_stc s) hs rfl
  case clc => exact doneFlags_of_setCf (exec_clc s) hs rfl
  case cmc => exact doneFlags_of_setCf (exec_cmc s) hs rfl

/-! Flags through AH. -/

/-- What LAHF puts in AH: the flags at bits 7, 6, 4, 2 and 0 (R526), a free value's bits at 5, 3 and 1 (I13). -/
def ahImage (fl free : Word) : Byte := (mergeBits 0xD5 fl free).setWidth 8

theorem getLsbD_ahImage (fl free : Word) {k : Nat} (hk : k < 8) :
    (ahImage fl free).getLsbD k = bit (mergeBits 0xD5 fl free) k := by
  simp [ahImage, bit, hk]

/-- At a bit of the mask D5H the image has the flag. -/
theorem ahImage_flag (fl free : Word) {k : Nat} (hk : k < 8) (hm : bit 0xD5 k = true) :
    (ahImage fl free).getLsbD k = bit fl k := by
  rw [getLsbD_ahImage fl free hk, bit_mergeBits, hm]
  simp

/-- The body of LAHF. -/
def lahfBody : M Unit := do
  let fl ← look (·.eflags)
  let free ← drawWord
  putReg8 .ah (ahImage fl free)

/-- The body of SAHF. -/
def sahfBody : M Unit := do
  let ah ← getReg8 .ah
  upd fun t => t.loadFlags 0xD5 (zext8 ah)

theorem exec_lahf (s : State) : exec .lahf s = runInstr false (thenNext lahfBody) s := rfl
theorem exec_sahf (s : State) : exec .sahf s = runInstr false (thenNext sahfBody) s := rfl

/-- LAHF writes AH and draws one free value. -/
theorem lahfBody_apply (s : State) :
    lahfBody s = .ok () ({ s with draws := s.draws + 1 }.setReg8 .ah (ahImage s.eflags (Config.freeWord s.draws))) := rfl

theorem sahfBody_apply (s : State) :
    sahfBody s = .ok () { s with eflags := mergeBits 0xD5 (zext8 (s.reg8 .ah)) s.eflags } := rfl

theorem lahf_done {s : State} (hs : s.plain = true) :
    Done .lahf s (s.setReg8 .ah (ahImage s.eflags (Config.freeWord s.draws))) .same [.ax] noByte :=
  done_of_body (fl := s.eflags) (exec_lahf s) (State.plain_lock hs false) (State.eipOpen_of_plain hs) (lahfBody_apply s)
    ⟨s.traps, s.draws + 1, rfl⟩ (FlagsOut.same_allows s.eflags)
    (Spot.store_frame (.reg8 .ah) s _) rfl rfl rfl rfl rfl

/-- VM is outside the mask D5H, so a load of the five flags keeps it (R527). -/
theorem sahf_doneFlags {s : State} (hs : s.plain = true) :
    DoneFlags .sahf s s s.eipNext (putBit (mergeBits 0xD5 (zext8 (s.reg8 .ah)) s.eflags) 16 false) [] noByte := by
  refine doneFlags_of_body (exec_sahf s) hs (sahfBody_apply s) ?_
  have hm : bit 0xD5 17 = false := by decide
  rw [bit_mergeBits, hm]
  simp [State.vm]

/-- Settles O39: LAHF by the image its body stores, SAHF by the load of EFLAGS under the same mask. -/
theorem flagsThroughAh : Obligations.FlagsThroughAh := by
  refine ⟨fun os as => ⟨decode_of_op rfl, decode_of_op rfl⟩, fun s hs => ⟨⟨_, ⟨?sf, ?zf, ?af, ?pf, ?cf⟩, lahf_done hs⟩,
    sahf_doneFlags hs⟩⟩
  case sf => exact ahImage_flag _ _ (by decide) (by decide)
  case zf => exact ahImage_flag _ _ (by decide) (by decide)
  case af => exact ahImage_flag _ _ (by decide) (by decide)
  case pf => exact ahImage_flag _ _ (by decide) (by decide)
  case cf => exact ahImage_flag _ _ (by decide) (by decide)

end Sys2Proof.Machine

/-!
What every step keeps (10_state.md): the relation `Steady` between a state and a later one under which the invariant
survives, and the operations of an instruction that stay within it.
-/
namespace Sys2Proof.Machine

variable {α β : Type}

/-- The flags the invariant speaks of: the reserved ones (R19) and VM (R62). -/
def heldFlags : List Nat := [1, 3, 5, 15, 17]

/-- `t` has the mode, level and held flags of `s`, as many TLB entries, and memory as canonical. -/
structure Steady (s t : State) : Prop where
  mem : memWf s.mem = true → memWf t.mem = true
  tlb : t.tlb.length = s.tlb.length
  flags : ∀ i ∈ heldFlags, bit t.eflags i = bit s.eflags i
  cpl : t.cpl = s.cpl
  cr0 : t.cr.cr0 = s.cr.cr0

theorem Steady.refl (s : State) : Steady s s := ⟨id, rfl, fun _ _ => rfl, rfl, rfl⟩

theorem Steady.trans {s t u : State} (h : Steady s t) (k : Steady t u) : Steady s u :=
  ⟨fun x => k.mem (h.mem x), k.tlb.trans h.tlb, fun i hi => (k.flags i hi).trans (h.flags i hi), k.cpl.trans h.cpl,
    k.cr0.trans h.cr0⟩

/-- A change of what the relation does not look at. -/
theorem Steady.of_eq {s t : State} (hm : t.mem = s.mem) (ht : t.tlb = s.tlb) (hf : t.eflags = s.eflags)
    (hc : t.cpl = s.cpl) (h0 : t.cr.cr0 = s.cr.cr0) : Steady s t :=
  ⟨fun h => hm ▸ h, by rw [ht], fun _ _ => by rw [hf], hc, h0⟩

/-- A change of flags that are not held. -/
theorem Steady.of_flags {s : State} {fl : Word} (h : ∀ i ∈ heldFlags, bit fl i = bit s.eflags i) :
    Steady s { s with eflags := fl } := ⟨id, rfl, h, rfl, rfl⟩

theorem Touches.steady {s t : State} (h : Touches s t) : Steady s t := by
  obtain ⟨m, b, c, d, k, e, rfl, hm, hb⟩ := h
  exact ⟨hm, hb, fun _ _ => rfl, rfl, rfl⟩

theorem Steady.vm {s t : State} (h : Steady s t) : t.vm = s.vm := h.flags 17 (by decide)
theorem Steady.pe {s t : State} (h : Steady s t) : t.pe = s.pe := by unfold State.pe; rw [h.cr0]
theorem Steady.pg {s t : State} (h : Steady s t) : t.pg = s.pg := by unfold State.pg; rw [h.cr0]
theorem Steady.mode {s t : State} (h : Steady s t) : t.mode = s.mode := by unfold State.mode; rw [h.pe, h.vm]

/-- The reserved flags are as fixed where each of the four is. -/
theorem fixReserved_eq_iff (v : Word) :
    fixReserved v = v ↔ bit v 1 = true ∧ bit v 3 = false ∧ bit v 5 = false ∧ bit v 15 = false := by
  have key : ∀ i, (fixReserved v).getLsbD i =
      ((v.getLsbD i || (0x2 : Word).getLsbD i) && (decide (i < 32) && !(0x8028 : Word).getLsbD i)) := by
    intro i; simp [fixReserved, -BitVec.reduceNot]
  constructor
  · intro h
    have at_ : ∀ i, bit v i = (fixReserved v).getLsbD i := fun i => by rw [h]; rfl
    refine ⟨?_, ?_, ?_, ?_⟩ <;> rw [at_, key] <;> simp
  · rintro ⟨h1, h3, h5, h15⟩
    unfold bit at h1 h3 h5 h15
    apply BitVec.eq_of_getLsbD_eq
    intro i hi
    rw [key]
    by_cases e : i = 1 ∨ i = 3 ∨ i = 5 ∨ i = 15
    · rcases e with rfl | rfl | rfl | rfl <;> simp_all
    · have h2 : (0x2 : Word).getLsbD i = false ∧ (0x8028 : Word).getLsbD i = false := by
        revert e; revert i; decide
      rw [h2.1, h2.2, decide_eq_true hi]; simp

/-- The invariant, clause by clause. -/
theorem inv_iff (s : State) : s.inv = true ↔ memWf s.mem = true ∧ fixReserved s.eflags = s.eflags ∧ s.tlb.length = 32 ∧
    (s.vm = true → s.pe = true ∧ s.cpl = 3) ∧ (s.pe = true ∨ s.cpl = 0) ∧ (s.pg = true → s.pe = true) := by
  simp only [State.inv, Bool.and_eq_true, Bool.or_eq_true, Bool.not_eq_true', beq_iff_eq]
  constructor
  · rintro ⟨⟨⟨⟨⟨h1, h2⟩, h3⟩, h4⟩, h5⟩, h6⟩
    exact ⟨h1, h2, h3, fun v => h4.resolve_left (by simp [v]), h5, fun v => h6.resolve_left (by simp [v])⟩
  · rintro ⟨h1, h2, h3, h4, h5, h6⟩
    refine ⟨⟨⟨⟨⟨h1, h2⟩, h3⟩, ?_⟩, h5⟩, ?_⟩
    · cases h : s.vm
      · exact .inl rfl
      · exact .inr (h4 h)
    · cases h : s.pg
      · exact .inl rfl
      · exact .inr (h6 h)

/-- The reserved flags stay as fixed. -/
theorem Steady.reserved {s t : State} (h : Steady s t) (hs : fixReserved s.eflags = s.eflags) :
    fixReserved t.eflags = t.eflags := by
  rw [fixReserved_eq_iff] at hs ⊢
  rwa [h.flags 1 (by decide), h.flags 3 (by decide), h.flags 5 (by decide), h.flags 15 (by decide)]

theorem Steady.inv {s t : State} (h : Steady s t) (hs : s.inv = true) : t.inv = true := by
  obtain ⟨hm, hf, hb, hv, hc, hp⟩ := (inv_iff s).1 hs
  refine (inv_iff t).2 ⟨h.mem hm, h.reserved hf, h.tlb.trans hb, ?_, ?_, ?_⟩
  · rw [h.vm, h.pe, h.cpl]; exact hv
  · rw [h.pe, h.cpl]; exact hc
  · rw [h.pg, h.pe]; exact hp

/-! Computations that are steady, whether they answer or stop. -/

/-- A computation after which the state is steady. -/
def Mild (m : M α) : Prop := Leaves Steady m

theorem Mild.bind {m : M α} {f : α → M β} (h : Mild m) (k : ∀ a, Mild (f a)) : Mild (m >>= f) :=
  Leaves.bind (R := Steady) (fun h k => h.trans k) h k

theorem Mild.ite {b : Prop} [Decidable b] {m k : M α} (h : Mild m) (h' : Mild k) : Mild (if b then m else k) :=
  Leaves.ite h h'

/-- A continuation that branches share: it may be judged once. -/
theorem Mild.shared {γ : Type} {f : γ → M α} {body : (γ → M α) → M β} (hf : ∀ a, Mild (f a))
    (hb : ∀ g : γ → M α, (∀ a, Mild (g a)) → Mild (body g)) : Mild (have g := f; body g) := hb f hf

theorem Mild.pure (a : α) : Mild (Pure.pure a : M α) := Steady.refl
theorem Mild.look (f : State → α) : Mild (Machine.look f) := Steady.refl
theorem Mild.stop (x : Stop) : Mild (Machine.stop x : M α) := Steady.refl
theorem Mild.raise (v : Byte) (c : Option Half) : Mild (Machine.raise v c : M α) := Steady.refl
theorem Mild.upd {f : State → State} (h : ∀ s, Steady s (f s)) : Mild (Machine.upd f) := h
theorem Mild.draw : Mild drawWord := fun _ => .of_eq rfl rfl rfl rfl rfl

theorem Mild.require (b : Bool) (v : Byte) (c : Option Half) : Mild (Machine.require b v c) :=
  .ite (.pure ()) (.raise v c)

/-- What only touches memory is steady. -/
theorem Quiet.mild {m : M α} (h : Quiet m) : Mild m := by
  intro s
  have := h s
  cases e : m s <;> rw [e] at this <;> exact this.steady

theorem thenNext_mild {m : M Unit} (h : Mild m) : Mild (thenNext m) := h.bind fun _ => .pure _
theorem thenJump_mild {m : M Unit} (h : Mild m) : Mild (thenJump m) := h.bind fun _ => .pure _

/-! Registers and flags. -/

theorem putReg_mild (r : Gpr) (v : Word) : Mild (putReg r v) := .upd fun _ => .of_eq rfl rfl rfl rfl rfl
theorem putReg8_mild (r : Gpr8) (v : Byte) : Mild (putReg8 r v) := .upd fun _ => .of_eq rfl rfl rfl rfl rfl
theorem putRegZ_mild (z : Sz) (r : Gpr) (v : Word) : Mild (putRegZ z r v) :=
  .upd fun _ => .of_eq (by simp) (by simp) (by simp) (by simp) (by simp)
theorem setSreg_mild (f : State → Sreg) (g : State → SegReg) : Mild (upd fun s => s.setSreg (f s) (g s)) :=
  .upd fun _ => .of_eq rfl rfl rfl rfl rfl

/-- A flag that is not held. -/
theorem Steady.setFlag (s : State) {i : Nat} (b : Bool) (h : i ∉ heldFlags) : Steady s (s.setFlag i b) :=
  .of_flags fun _ hj => bit_putBit_ne _ _ fun e => h (e ▸ hj)

theorem putFlag_mild (i : Nat) (b : Bool) (h : i ∉ heldFlags) : Mild (putFlag i b) := .upd fun s => Steady.setFlag s b h

/-- A load under a mask without the held flags. -/
theorem Steady.loadFlags (s : State) (mask image : Word) (h : ∀ i ∈ heldFlags, bit mask i = false) :
    Steady s (s.loadFlags mask image) :=
  .of_flags fun i hi => by rw [bit_mergeBits, h i hi]; simp

/-- The status flags are none of the held ones. -/
theorem Steady.putFlags (s : State) (f : FlagsOut) : Steady s (s.putFlags f) := by
  refine ⟨id, rfl, fun i hi => ?_, rfl, rfl⟩
  have ne : ∀ k ∈ [0, 2, 4, 6, 7, 11], i ≠ k := by revert hi; revert i; decide
  show bit (f.image s.eflags _) i = _
  unfold FlagsOut.image
  simp only [bit_putBit_ne _ _ (ne 0 (by decide)), bit_putBit_ne _ _ (ne 2 (by decide)), bit_putBit_ne _ _ (ne 4 (by decide)),
    bit_putBit_ne _ _ (ne 6 (by decide)), bit_putBit_ne _ _ (ne 7 (by decide)), bit_putBit_ne _ _ (ne 11 (by decide))]

theorem putFlags_mild (f : FlagsOut) : Mild (Machine.putFlags f) := .upd fun s => .putFlags s f

theorem accW_mild (n : Width) : Mild (accW n) := by
  cases n
  · exact .bind (.look _) fun _ => .pure _
  · exact .look _
  · exact .look _

theorem putAccW_mild (n : Width) (v : Word) : Mild (putAccW n v) := by
  cases n
  · exact putReg8_mild _ _
  · exact putRegZ_mild _ _ _
  · exact putRegZ_mild _ _ _

/-! Operands. -/

theorem Loc.put_mild (l : Loc) (v : Word) : Mild (l.put v) := by
  cases l with
  | reg8 r => exact putReg8_mild _ _
  | reg z r => exact putRegZ_mild _ _ _
  | bytes as => exact (writeAddrs_quiet _ _).mild

theorem Place.write_mild (p : Place) (v : Word) : Mild (p.write v) := .bind (p.loc_quiet _).mild fun l => l.put_mild _

theorem combine_mild (op : Width → Word → Word → Bool → Res) (p : Pair) : Mild (combine op p) :=
  .bind p.src.get_quiet.mild fun _ => .bind (p.dst.loc_quiet _).mild fun l => .bind l.get_quiet.mild fun _ =>
    .bind (.look _) fun _ => .bind (l.put_mild _) fun _ => putFlags_mild _

theorem compare_mild (op : Width → Word → Word → Bool → Res) (p : Pair) : Mild (compare op p) :=
  .bind p.src.get_quiet.mild fun _ => .bind p.dst.read_quiet.mild fun _ => .bind (.look _) fun _ => putFlags_mild _

theorem modify_mild (op : Width → Word → Bool → Res) (p : Single) : Mild (modify op p) :=
  .bind (p.dst.loc_quiet _).mild fun l => .bind l.get_quiet.mild fun _ => .bind (.look _) fun _ =>
    .bind (l.put_mild _) fun _ => putFlags_mild _

theorem move_mild (p : Pair) : Mild (move p) := .bind p.src.get_quiet.mild fun _ => p.dst.write_mild _

/-! The stack. -/

theorem pushWith_mild (n : Width) (vs : List Word) (own : List LinStore) : Mild (pushWith n vs own) :=
  .bind (.look _) fun _ => .bind (pushItems_quiet _ _ _ _ _ _).mild fun _ => putReg_mild _ _
theorem push_mild (n : Width) (v : Word) : Mild (push n v) := pushWith_mild _ _ _
theorem popBytes_mild (d : Nat) : Mild (popBytes d) := .bind (.look _) fun _ => putReg_mild _ _
theorem pop_mild (n : Width) : Mild (pop n) :=
  .bind (peek_quiet _ _).mild fun _ => .bind (popBytes_mild _) fun _ => .pure _

/-! Segment registers. -/

theorem loadSeg_mild (r : Sreg) (sel : Half) (d : Desc) : Mild (loadSeg r sel d) :=
  .bind (setAccessed_quiet _).mild fun _ => setSreg_mild _ _

theorem loadSS_mild (sel : Half) : Mild (loadSS sel) :=
  .bind (.look _) fun _ => .bind (.require _ _ _) fun _ => .bind (needDesc_quiet _ _ _).mild fun _ =>
    .bind (.require _ _ _) fun _ => .bind (.require _ _ _) fun _ => .bind (.require _ _ _) fun _ =>
      .bind (.require _ _ _) fun _ => loadSeg_mild _ _ _

theorem loadDataSeg_mild (r : Sreg) (sel : Half) : Mild (loadDataSeg r sel) :=
  .bind (.look _) fun _ => .ite (setSreg_mild _ _) <| .bind (needDesc_quiet _ _ _).mild fun _ =>
    .bind (.require _ _ _) fun _ => .bind (.require _ _ _) fun _ => .bind (.require _ _ _) fun _ => loadSeg_mild _ _ _

theorem Steady.loadFlat (s : State) (r : Sreg) (sel : Half) : Steady s (s.loadFlat r sel) :=
  .of_eq (by simp) (by simp) (by simp) (by simp) (by simp)

theorem loadSreg_mild (r : Sreg) (sel : Half) : Mild (loadSreg r sel) := by
  refine .bind (.look _) fun mode => ?_
  cases mode with
  | prot => exact .ite (loadSS_mild _) (loadDataSeg_mild _ _)
  | real => exact .upd fun s => .loadFlat s r sel
  | v86 => exact .upd fun s => .loadFlat s r sel

end Sys2Proof.Machine

/-!
The shared operations that change mode or level: deliveries, task switches, far transfers and returns. Each takes states
of one kind to states of a kind (`Takes`); the kinds are those of the invariant, in protected mode, and outside V86 mode.
-/
namespace Sys2Proof.Machine

variable {α β : Type}

/-- From states with `P` a computation comes to states with `Q`, whether it answers or stops. -/
def Takes (P Q : State → Prop) (m : M α) : Prop := ∀ s, P s → Q (after (m s))

/-- A kind of states that steady changes do not leave. -/
def Lasting (P : State → Prop) : Prop := ∀ {s t}, Steady s t → P s → P t

/-- The states of the machine. -/
def Sound (s : State) : Prop := s.inv = true
/-- Those of protected mode, V86 mode among them. -/
def Protected (s : State) : Prop := s.inv = true ∧ s.pe = true
/-- Those of protected mode, not in V86 mode. -/
def Native (s : State) : Prop := s.inv = true ∧ s.pe = true ∧ s.vm = false

theorem Sound.lasting : Lasting Sound := fun h hs => h.inv hs
theorem Protected.lasting : Lasting Protected := fun h hs => ⟨h.inv hs.1, h.pe.trans hs.2⟩
theorem Native.lasting : Lasting Native := fun h hs => ⟨h.inv hs.1, h.pe.trans hs.2.1, h.vm.trans hs.2.2⟩
theorem Protected.sound {s : State} (h : Protected s) : Sound s := h.1
theorem Native.protected {s : State} (h : Native s) : Protected s := ⟨h.1, h.2.1⟩
theorem Native.sound {s : State} (h : Native s) : Sound s := h.1

theorem native_of_mode {s : State} (hs : s.inv = true) (h : s.mode = .prot) : Native s := by
  unfold State.mode at h
  cases hp : s.pe <;> cases hv : s.vm <;> simp [hp, hv] at h
  exact ⟨hs, hp, hv⟩

theorem Mild.takes {m : M α} {P : State → Prop} (h : Mild m) (hp : Lasting P) : Takes P P m := by
  intro s hs
  have := h s
  cases e : m s <;> rw [e] at this <;> exact hp this hs

theorem Takes.weaken {m : M α} {P P' Q Q' : State → Prop} (h : Takes P Q m) (hp : ∀ {s}, P' s → P s)
    (hq : ∀ {s}, Q s → Q' s) : Takes P' Q' m := fun s hs => hq (h s (hp hs))

theorem Takes.bind {m : M α} {f : α → M β} {P Q R : State → Prop} (h : Takes P R m) (k : ∀ a, Takes R Q (f a))
    (hq : ∀ {s}, R s → Q s) : Takes P Q (m >>= f) := by
  intro s hs
  have := h s hs
  cases e : m s with
  | ok a t => rw [e] at this; rw [M.bind_ok f e]; exact k a t this
  | error x t => rw [e] at this; rw [M.bind_stop f e]; exact hq this

/-- A sequence whose first part is steady. -/
theorem Takes.after_mild {m : M α} {f : α → M β} {P Q : State → Prop} (hp : Lasting P) (hq : ∀ {s}, P s → Q s)
    (h : Mild m) (k : ∀ a, Takes P Q (f a)) : Takes P Q (m >>= f) :=
  .bind (h.takes hp) k hq

/-- A sequence whose second part is steady. -/
theorem Takes.then_mild {m : M α} {f : α → M β} {P Q : State → Prop} (hq : Lasting Q) (h : Takes P Q m)
    (k : ∀ a, Mild (f a)) : Takes P Q (m >>= f) :=
  .bind h (fun a => (k a).takes hq) id

theorem Takes.ite {b : Prop} [Decidable b] {m k : M α} {P Q : State → Prop} (h : Takes P Q m) (h' : Takes P Q k) :
    Takes P Q (if b then m else k) := by
  split
  · exact h
  · exact h'

/-- A continuation that branches share: it may be judged once. -/
theorem Takes.shared {γ : Type} {f : γ → M α} {body : (γ → M α) → M β} {P Q R : State → Prop} (hf : ∀ a, Takes R Q (f a))
    (hb : ∀ g : γ → M α, (∀ a, Takes R Q (g a)) → Takes P Q (body g)) : Takes P Q (have g := f; body g) := hb f hf

/-- Steady first, then the rest, from one kind to the same. -/
theorem Protected.seq {m : M α} {f : α → M β} (h : Mild m) (k : ∀ a, Takes Protected Protected (f a)) :
    Takes Protected Protected (m >>= f) := .after_mild Protected.lasting id h k

theorem Native.seq {m : M α} {f : α → M β} (h : Mild m) (k : ∀ a, Takes Native Native (f a)) :
    Takes Native Native (m >>= f) := .after_mild Native.lasting id h k

/-- What is looked at may say more of the state. -/
theorem Takes.look_bind {f : State → α} {k : α → M β} {P Q : State → Prop} (h : ∀ s, P s → Q (Machine.after (k (f s) s))) :
    Takes P Q (Machine.look f >>= k) := h

theorem Takes.upd {f : State → State} {P Q : State → Prop} (h : ∀ s, P s → Q (f s)) : Takes P Q (Machine.upd f) := h

theorem after_asNewTask (m : M α) (s : State) : after (asNewTask m s) = after (m s) := by
  unfold asNewTask
  cases m s with
  | ok a t => rfl
  | error x t => cases x <;> rfl

/-- In protected mode and outside V86 mode the level may be any. -/
theorem native_cpl {s : State} (h : Native s) (c : BitVec 2) : Native { s with cpl := c } := by
  obtain ⟨hi, hp, hv⟩ := h
  obtain ⟨h1, h2, h3, -, -, h6⟩ := (inv_iff s).1 hi
  exact ⟨(inv_iff _).2 ⟨h1, h2, h3, fun h => absurd (h.symm.trans hv) (by decide), .inl hp, h6⟩, hp, hv⟩

/-! Delivery. -/

theorem Steady.gateFlags (isInt : Bool) (s : State) : Steady s (gateFlags isInt s) := by
  have h := (Steady.setFlag s false (i := 8) (by decide)).trans (.setFlag _ false (i := 14) (by decide))
  unfold Machine.gateFlags
  cases isInt
  · exact h
  · exact h.trans (.setFlag _ false (i := 9) (by decide))

theorem deliverSame_mild (g : GateCall) (rf : Bool) (ret : Word) (err : Option Word) : Mild (deliverSame g rf ret err) :=
  .bind (.look _) fun _ => .bind (.require _ _ _) fun _ => .bind (.require _ _ _) fun _ => .bind (flagImage_quiet _).mild fun _ =>
    .bind (selItem_quiet _ _).mild fun _ => .bind (pushItems_quiet _ _ _ _ _ _).mild fun _ => .bind (putReg_mild _ _) fun _ =>
      .upd fun s => .trans (t := { s with seg := _, eip := g.off }) (.of_eq rfl rfl rfl rfl rfl) (.gateFlags _ _)

theorem deliverInner_native (g : GateCall) (rf : Bool) (ret : Word) (err : Option Word) :
    Takes Native Native (deliverInner g rf ret err) := by
  refine Native.seq (.look _) fun s => Native.seq (innerStack_quiet _ _).mild fun p => Native.seq (checkInnerSS_quiet _ _ _).mild fun d =>
    Native.seq (.require _ _ _) fun _ => Native.seq (.require _ _ _) fun _ => Native.seq (flagImage_quiet _).mild fun _ =>
    Native.seq (selItem_quiet _ _).mild fun _ => Native.seq (selItem_quiet _ _).mild fun _ => Native.seq (pushItems_quiet _ _ _ _ _ _).mild fun _ =>
    Native.seq (setSreg_mild _ _) fun _ => Native.seq (putReg_mild _ _) fun _ => .upd fun t ht => ?_
  exact Native.lasting (.gateFlags _ _) (native_cpl (s := { t with seg := _, eip := g.off })
    (Native.lasting (.of_eq rfl rfl rfl rfl rfl) ht) _)

/-- Leaving V86 mode for level 0. -/
theorem protected_leave {s : State} (h : Protected s) : Protected { s.setFlag 17 false with cpl := 0 } := by
  obtain ⟨hi, hp⟩ := h
  obtain ⟨h1, h2, h3, -, -, h6⟩ := (inv_iff s).1 hi
  refine ⟨(inv_iff _).2 ⟨h1, ?_, h3, fun h => ?_, .inl hp, h6⟩, hp⟩
  · rw [fixReserved_eq_iff] at h2 ⊢
    have e : ∀ i, i ≠ 17 → bit (putBit s.eflags 17 false) i = bit s.eflags i := fun i hi => bit_putBit_ne _ _ hi
    exact ⟨(e 1 (by decide)).trans h2.1, (e 3 (by decide)).trans h2.2.1, (e 5 (by decide)).trans h2.2.2.1,
      (e 15 (by decide)).trans h2.2.2.2⟩
  · exact absurd (h.symm.trans (bit_putBit_same s.eflags false (by decide : 17 < 32))) (by decide)

theorem nullSreg_mild (r : Sreg) : Mild (nullSreg r) := setSreg_mild _ _

theorem deliverFromV86_protected (g : GateCall) (rf : Bool) (ret : Word) (err : Option Word) :
    Takes Protected Protected (deliverFromV86 g rf ret err) := by
  refine Protected.seq (.look _) fun s => Protected.seq (innerStack_quiet _ _).mild fun p => Protected.seq (checkInnerSS_quiet _ _ _).mild fun d =>
    Protected.seq (.require _ _ _) fun _ => Protected.seq (.require _ _ _) fun _ => Protected.seq (flagImage_quiet _).mild fun _ =>
    Protected.seq (selItem_quiet _ _).mild fun _ => Protected.seq (selItem_quiet _ _).mild fun _ => Protected.seq (selItem_quiet _ _).mild fun _ =>
    Protected.seq (selItem_quiet _ _).mild fun _ => Protected.seq (selItem_quiet _ _).mild fun _ => Protected.seq (selItem_quiet _ _).mild fun _ =>
    .bind (.upd fun _ h => protected_leave h) (fun _ => Protected.seq (pushItems_quiet _ _ _ _ _ _).mild fun _ =>
    Protected.seq (setSreg_mild _ _) fun _ => Protected.seq (putReg_mild _ _) fun _ => Protected.seq (nullSreg_mild _) fun _ => Protected.seq (nullSreg_mild _) fun _ =>
    Protected.seq (nullSreg_mild _) fun _ => Protected.seq (nullSreg_mild _) fun _ => Mild.takes (.upd fun t => ?_) Protected.lasting) id
  exact .trans (t := { t with seg := _, eip := g.off }) (.of_eq rfl rfl rfl rfl rfl) (.gateFlags _ _)

/-! The task switch. -/

theorem tssReadOr_quiet (b : Word) (off : Nat) (n : Width) : Quiet (tssReadOr b off n) := by
  intro s
  have h := tssRead_quiet b off n s
  unfold tssReadOr
  cases e : tssRead b off n s with
  | ok v t => rw [e] at h; exact h
  | error x t =>
    rw [e] at h
    cases x with
    | exc e =>
      obtain ⟨m, l, c, d, k, ev, rfl, hm, hl⟩ := h
      exact ⟨m, l, _, _, k, ev, rfl, hm, hl⟩
    | fault f => exact h
    | refusal r => exact h

/-- Placed in the new task, a V86 task keeps its level. -/
theorem placeInTask_protected (is386 : Bool) (base : Word) : Takes Protected Protected (placeInTask is386 base) := by
  refine .after_mild Protected.lasting id (tssReadOr_quiet _ _ _).mild fun eip =>
    .after_mild Protected.lasting id (tssReadOr_quiet _ _ _).mild fun cs => .upd fun s hs => ?_
  cases hv : s.vm with
  | true =>
    have e : { s.setSreg .cs (s.seg.cs.null (lowHalf cs)) with
        eip := eip, cpl := if true then s.cpl else selRpl (lowHalf cs) } =
      { s.setSreg .cs (s.seg.cs.null (lowHalf cs)) with eip := eip } := rfl
    rw [e]
    exact Protected.lasting (.of_eq rfl rfl rfl rfl rfl) hs
  | false =>
    exact (native_cpl (s := { s.setSreg .cs (s.seg.cs.null (lowHalf cs)) with eip := eip })
      (Native.lasting (.of_eq rfl rfl rfl rfl rfl) ⟨hs.1, hs.2, hv⟩) _).protected

theorem readTss_protected (is386 : Bool) (base : Word) : Takes Protected Protected (readTss is386 base) := by
  intro s hs
  have hq : Quiet (if is386 then readTss386 base else readTss286 base) := .ite (readTss386_quiet _) (readTss286_quiet _)
  have h := hq s
  unfold readTss
  cases e : (if is386 then readTss386 base else readTss286 base) s with
  | ok t u => rw [e] at h; exact Protected.lasting h.steady hs
  | error x u =>
    rw [e] at h
    have hu := Protected.lasting h.steady hs
    cases x with
    | exc x => exact Takes.then_mild Protected.lasting (placeInTask_protected _ _) (fun _ => .stop _) u hu
    | fault x => exact hu
    | refusal x => exact hu

theorem loadTaskLdt_mild (sel : Half) (ext : Bool) : Mild (loadTaskLdt sel ext) :=
  .ite (.pure ()) <| .bind (.require _ _ _) fun _ => .bind (needDesc_quiet _ _ _).mild fun _ => .bind (.require _ _ _) fun _ =>
    .bind (.require _ _ _) fun _ => .upd fun _ => .of_eq rfl rfl rfl rfl rfl

theorem loadTaskCS_mild (sel : Half) (ext : Bool) : Mild (loadTaskCS sel ext) :=
  .bind (.require _ _ _) fun _ => .bind (needDesc_quiet _ _ _).mild fun _ => .bind (.require _ _ _) fun _ =>
    .bind (.require _ _ _) fun _ => .bind (.require _ _ _) fun _ => loadSeg_mild _ _ _

theorem loadTaskSS_mild (sel : Half) (ext : Bool) : Mild (loadTaskSS sel ext) :=
  .bind (.look _) fun _ => .bind (.require _ _ _) fun _ => .bind (needDesc_quiet _ _ _).mild fun _ =>
    .bind (.require _ _ _) fun _ => .bind (.require _ _ _) fun _ => .bind (.require _ _ _) fun _ =>
      .bind (.require _ _ _) fun _ => loadSeg_mild _ _ _

theorem loadTaskData_mild (r : Sreg) (sel : Half) (ext : Bool) : Mild (loadTaskData r sel ext) :=
  .ite (.pure ()) <| .bind (.look _) fun _ => .bind (needDesc_quiet _ _ _).mild fun _ => .bind (.require _ _ _) fun _ =>
    .bind (.require _ _ _) fun _ => .bind (.require _ _ _) fun _ => loadSeg_mild _ _ _

theorem pushTaskCode_mild (is386 ext : Bool) (code : Option Word) : Mild (pushTaskCode is386 ext code) := by
  cases code with
  | none => exact .pure ()
  | some c => exact .bind (.look _) fun _ => .bind (pushItems_quiet _ _ _ _ _ _).mild fun _ => putReg_mild _ _

theorem checkTaskEip_mild (ext : Bool) : Mild (checkTaskEip ext) := .bind (.look _) fun _ => .require _ _ _

/-- EFLAGS of the new task have the reserved bits as fixed. -/
theorem TaskImage.load_reserved (t : TaskImage) (kind : SwitchKind) (s : State) :
    fixReserved (t.load kind s).eflags = (t.load kind s).eflags := by
  have fixed : ∀ v, fixReserved (fixReserved v) = fixReserved v := by
    intro v; simp only [fixReserved]; ext i hi; simp; grind
  have nt : ∀ b, fixReserved (putBit (fixReserved t.eflags) 14 b) = putBit (fixReserved t.eflags) 14 b := fun b =>
    (Steady.of_flags (s := { s with eflags := fixReserved t.eflags }) fun i hi =>
      bit_putBit_ne _ b (by revert hi; revert i; decide)).reserved (fixed _)
  unfold TaskImage.load
  cases kind
  · exact nt false
  · exact nt true
  · exact nt true
  · exact fixed _

/-- The new task loaded, but for the level of a V86 task, which its segment registers bring (R777). -/
theorem loadTask_protected (t : TaskImage) (kind : SwitchKind) (ext : Bool) {s : State} (hs : Protected s) :
    Protected (after (loadTaskSegs t ext (t.load kind s))) := by
  obtain ⟨hi, hp⟩ := hs
  obtain ⟨h1, -, h3, -, -, h6⟩ := (inv_iff s).1 hi
  have hb : (t.load kind s).tlb.length = 32 := by
    show (if t.cr3 == s.cr.cr3 then s.tlb else tlbClear s.tlb).length = 32
    split
    · exact h3
    · exact (tlbClear_length _).trans h3
  have hp' : (t.load kind s).pe = true := hp
  have loaded : ∀ u : State, u.mem = s.mem → u.eflags = (t.load kind s).eflags → u.tlb = (t.load kind s).tlb →
      u.cr.cr0 = s.cr.cr0 → (u.vm = true → u.cpl = 3) → Protected u := by
    intro u em ef eb ec hv
    have hpe : u.pe = true := by unfold State.pe; rw [ec]; exact hp
    exact ⟨(inv_iff u).2 ⟨em ▸ h1, by rw [ef]; exact t.load_reserved kind s, eb ▸ hb, fun h => ⟨hpe, hv h⟩, .inl hpe,
      fun _ => hpe⟩, hpe⟩
  unfold loadTaskSegs
  rw [M.look_bind]
  cases hv : (t.load kind s).vm with
  | true =>
    exact Mild.takes (loadTaskLdt_mild _ _) Protected.lasting _ (loaded _ rfl rfl rfl rfl fun _ => rfl)
  | false =>
    have rest : Mild (do
        loadTaskLdt t.ldt ext
        loadTaskCS t.cs ext
        loadTaskSS t.ss ext
        loadTaskData .ds t.ds ext
        loadTaskData .es t.es ext
        loadTaskData .fs t.fs ext
        loadTaskData .gs t.gs ext) :=
      .bind (loadTaskLdt_mild _ _) fun _ => .bind (loadTaskCS_mild _ _) fun _ => .bind (loadTaskSS_mild _ _) fun _ =>
        .bind (loadTaskData_mild _ _ _) fun _ => .bind (loadTaskData_mild _ _ _) fun _ =>
          .bind (loadTaskData_mild _ _ _) fun _ => loadTaskData_mild _ _ _
    exact rest.takes Protected.lasting _ (loaded _ rfl rfl rfl rfl fun h => absurd (h.symm.trans hv) (by decide))

theorem enterTask_protected (is386 : Bool) (base : Word) (kind : SwitchKind) (ext : Bool) (code : Option Word) :
    Takes Protected Protected (enterTask is386 base kind ext code) := by
  refine .bind (readTss_protected _ _) (fun t s hs => ?_) id
  have tail : ∀ _ : Unit, Mild (do
      pushTaskCode is386 ext code
      checkTaskEip ext
      if t.trap then upd fun s => { s with traps := { s.traps with bt := true } }) := fun _ =>
    .bind (pushTaskCode_mild _ _ _) fun _ => .bind (checkTaskEip_mild _) fun _ =>
      .ite (.upd fun _ => .of_eq rfl rfl rfl rfl rfl) (.pure ())
  exact Takes.then_mild (P := (· = t.load kind s)) Protected.lasting (fun u hu => hu ▸ loadTask_protected t kind ext hs) tail _ rfl

/-- CR0 with TS set keeps PE and PG. -/
theorem protected_taskRegister {s : State} (h : Protected s) (tr : TaskReg) :
    Protected { s with tr := tr, cr := { s.cr with cr0 := putBit s.cr.cr0 3 true } } := by
  obtain ⟨hi, hp⟩ := h
  obtain ⟨h1, h2, h3, h4, -, -⟩ := (inv_iff s).1 hi
  have hp' : bit (putBit s.cr.cr0 3 true) 0 = true := (bit_putBit_ne _ _ (by decide)).trans hp
  exact ⟨(inv_iff _).2 ⟨h1, h2, h3, fun v => ⟨hp', (h4 v).2⟩, .inl hp', fun _ => hp'⟩, hp'⟩

theorem taskSwitch_protected (tsel : Half) (d : Desc) (kind : SwitchKind) (eip : Word) (rf ext : Bool) (code : Option Word) :
    Takes Protected Protected (taskSwitch tsel d kind eip rf ext code) := by
  refine Protected.seq (.require _ _ _) fun _ => Protected.seq (.look _) fun s => Protected.seq (needTss_quiet _ _).mild fun _ =>
    Protected.seq (flagImage_quiet _).mild fun _ => Protected.seq (storeAddrs_quiet _).mild fun _ =>
    .shared (R := Protected) (fun _ => Protected.seq (storeAddrs_quiet _).mild fun _ =>
    .shared (R := Protected) (fun _ => Protected.seq (performStores_quiet _).mild fun _ =>
    .shared (R := Protected) (fun _ => Protected.seq (performStores_quiet _).mild fun _ =>
    .shared (R := Protected) (fun _ => .bind (.upd fun _ h => protected_taskRegister h _) (fun _ s hs => ?_) id)
    fun _ hg => .ite (hg ()) (Protected.seq (putBusy_quiet _ _).mild hg))
    fun _ hg => .ite (hg ()) (Protected.seq (putBusy_quiet _ _).mild hg))
    fun _ hg => .ite (Protected.seq (.pure _) hg) (Protected.seq (linAddrs_quiet _ _ _ _).mild hg))
    fun _ hg => .ite (Protected.seq (.pure _) hg) (Protected.seq (linAddrs_quiet _ _ _ _).mild hg)
  rw [after_asNewTask]
  exact enterTask_protected _ _ _ _ _ s hs

/-! Events. -/

theorem deliverTask_protected (gate : Desc) (rf ext : Bool) (ret : Word) (err : Option Word) :
    Takes Protected Protected (deliverTask gate rf ext ret err) := by
  exact Protected.seq (.require _ _ _) fun _ => Protected.seq (needDesc_quiet _ _ _).mild fun _ => Protected.seq (.require _ _ _) fun _ =>
    Protected.seq (.require _ _ _) fun _ => taskSwitch_protected _ _ _ _ _ _ _

theorem deliverGate_protected (gate : Desc) (rf ext : Bool) (ret : Word) (err : Option Word) :
    Takes Protected Protected (deliverGate gate rf ext ret err) := by
  refine Protected.seq (.require _ _ _) fun _ => Protected.seq (needDesc_quiet _ _ _).mild fun c => Protected.seq (.require _ _ _) fun _ =>
    Protected.seq (.require _ _ _) fun _ => .look_bind fun s hs => ?_
  cases hv : s.vm with
  | true =>
    rw [if_pos (by exact hv)]
    exact Takes.after_mild (P := Protected) Protected.lasting id (.require _ _ _)
      (fun _ => deliverFromV86_protected _ _ _ _) s hs
  | false =>
    rw [if_neg (by simp [hv])]
    exact Takes.ite (P := Native) ((deliverInner_native _ _ _ _).weaken id (·.protected))
      (.ite (((deliverSame_mild _ _ _ _).takes Native.lasting).weaken id (·.protected))
        (((Mild.raise _ _).takes Native.lasting).weaken id (·.protected))) s ⟨hs.1, hs.2, hv⟩

theorem deliverProtected_protected (e : Exc) (ret : Word) : Takes Protected Protected (deliverProtected e ret) := by
  exact Protected.seq (.look _) fun _ => Protected.seq (.require _ _ _) fun _ => Protected.seq (readDesc_quiet _).mild fun _ => Protected.seq (.require _ _ _) fun _ =>
    Protected.seq (.require _ _ _) fun _ => Protected.seq (.require _ _ _) fun _ => Protected.seq (codeItem_quiet _).mild fun _ =>
    .ite (.then_mild Protected.lasting (deliverTask_protected _ _ _ _ _) fun _ => .pure _)
      (.then_mild Protected.lasting (deliverGate_protected _ _ _ _ _) fun _ => .pure _)

theorem deliverReal_mild (e : Exc) (ret : Word) : Mild (deliverReal e ret) :=
  .bind (.look _) fun _ => .ite (.stop _) <| .bind (pushItems_quiet _ _ _ _ _ _).mild fun _ => .bind (putReg_mild _ _) fun _ =>
    .bind (.upd fun s => (Steady.setFlag s false (i := 9) (by decide)).trans (.setFlag _ false (i := 8) (by decide))) fun _ =>
    .bind (linRead_quiet _ _).mild fun _ => .bind (linRead_quiet _ _).mild fun _ => .upd fun _ => .of_eq rfl rfl rfl rfl rfl

theorem deliver_sound (e : Exc) (ret : Word) : Takes Sound Sound (deliver e ret) := by
  refine .look_bind fun s hs => ?_
  cases hp : s.pe with
  | true => exact (deliverProtected_protected e ret s ⟨hs, hp⟩).1
  | false => exact Mild.takes (.bind (deliverReal_mild e ret) fun _ => .pure _) Sound.lasting s hs

theorem rollback_sound {s t : State} (hs : Sound s) (ht : Sound t) : Sound (rollback s t) :=
  rollback_inv hs ((inv_iff t).1 ht).1 ((inv_iff t).1 ht).2.2.1

/-- An event delivered, or what its failure makes of it (R735): by induction on the exceptions that may follow. -/
theorem deliverEvent_sound {fuel : Nat} {e : Exc} {ret : Word} {s t : State} (hs : Sound s)
    (h : deliverEvent fuel e ret s = .next t) : Sound t := by
  induction fuel generalizing e s with
  | zero => cases h; exact hs
  | succ fuel ih =>
    have hd := deliver_sound e ret s hs
    unfold deliverEvent at h
    cases hr : deliver e ret s with
    | ok b u => rw [hr] at h hd; cases h; exact hd
    | error x u =>
      rw [hr] at h hd
      cases x with
      | fault x => cases h
      | refusal x => cases h
      | exc f =>
        dsimp only at h
        split at h
        · cases h; exact hd
        · split at h
          · cases h; exact (rollback_sound hs hd : Sound (rollback s u))
          · split at h
            · exact ih (rollback_sound hs hd) h
            · exact ih (rollback_sound hs hd) h

theorem takeEvent_sound {e : Exc} {ret : Word} {s t : State} (hs : Sound s) (h : takeEvent e ret s = .next t) : Sound t :=
  deliverEvent_sound (s := { s with traps := .none }) hs h

/-! Far transfers. -/

theorem checkTarget_mild (t : Word) : Mild (checkTarget t) := .bind (.look _) fun _ => .require _ _ _

theorem farFlat_mild (kind : FarKind) (z : Sz) (sel : Half) (off : Word) : Mild (farFlat kind z sel off) := by
  have load : Mild (upd fun s => { s.loadFlat .cs sel with eip := off }) := .upd fun s =>
    (Steady.loadFlat s .cs sel).trans (.of_eq rfl rfl rfl rfl rfl)
  exact .bind (.look _) fun _ => .ite (.bind (.require _ _ _) fun _ => .bind (checkTarget_mild _) fun _ =>
    .bind (selItem_quiet _ _).mild fun _ => .bind nextEip_quiet.mild fun _ => .bind (pushWith_mild _ _ _) fun _ => load)
    (.bind (checkTarget_mild _) fun _ => load)

theorem farCommit_mild (kind : FarKind) (n : Width) (sel : Half) (d : Desc) (off : Word) : Mild (farCommit kind n sel d off) := by
  have load : ∀ c, Mild (upd fun t => { t.enterCS sel d c with eip := off }) := fun _ => .upd fun s =>
    .of_eq rfl rfl rfl rfl rfl
  exact .bind (.look _) fun s => .shared (fun _ => .bind (.require _ _ _) fun _ =>
      .ite (.bind (selItem_quiet _ _).mild fun _ => .bind nextEip_quiet.mild fun _ => .bind (pushWith_mild _ _ _) fun _ =>
        load s.cpl) (.bind (setAccessed_quiet _).mild fun _ => load s.cpl))
    fun _ hg => .ite (.bind (.require _ _ _) hg) (hg ())

theorem farCode_mild (kind : FarKind) (z : Sz) (sel : Half) (d : Desc) (off : Word) : Mild (farCode kind z sel d off) :=
  .bind (.look _) fun _ => .shared (fun _ => .bind (.require _ _ _) fun _ => farCommit_mild _ _ _ _ _)
    fun _ hg => .ite (.bind (.require _ _ _) hg) (.bind (.require _ _ _) fun _ => .bind (.require _ _ _) hg)

theorem readParams_quiet (k : Stack) (mode : Mode) (n : Width) (c : Nat) : Quiet (readParams k mode n c) := by
  induction c with
  | zero => exact .pure _
  | succ c ih =>
    exact .bind ih fun _ => .bind (.require _ _ _) fun _ => .bind (noteAccess_quiet _ _ _) fun _ =>
      .bind (linAddrs_quiet _ _ _ _) fun _ => .bind (readAddrs_quiet _) fun _ => .pure _

theorem callInner_native (gate : Desc) (csel : Half) (c : Desc) (n : Width) (off : Word) :
    Takes Native Native (callInner gate csel c n off) :=
  Native.seq (.look _) fun _ => Native.seq (innerStack_quiet _ _).mild fun _ => Native.seq (checkInnerSS_quiet _ _ _).mild fun _ =>
    Native.seq (.require _ _ _) fun _ => Native.seq (.require _ _ _) fun _ => Native.seq (readParams_quiet _ _ _ _).mild fun _ =>
    Native.seq (selItem_quiet _ _).mild fun _ => Native.seq nextEip_quiet.mild fun _ =>
    Native.seq (pushItems_quiet _ _ _ _ _ _).mild fun _ => Native.seq (setSreg_mild _ _) fun _ => Native.seq (putReg_mild _ _)
    fun _ => .upd fun t ht => native_cpl (s := { t with seg := _, eip := off }) (Native.lasting (.of_eq rfl rfl rfl rfl rfl) ht) _

theorem farGate_native (kind : FarKind) (gsel : Half) (gate : Desc) : Takes Native Native (farGate kind gsel gate) :=
  Native.seq (.look _) fun _ => Native.seq (.require _ _ _) fun _ => Native.seq (.require _ _ _) fun _ =>
    Native.seq (.require _ _ _) fun _ => Native.seq (.require _ _ _) fun _ => Native.seq (needDesc_quiet _ _ _).mild fun _ =>
    Native.seq (.require _ _ _) fun _ => .shared (R := Native) (fun _ => Native.seq (.require _ _ _) fun _ =>
      .ite (callInner_native _ _ _ _ _) ((farCommit_mild _ _ _ _ _).takes Native.lasting))
    fun _ hg => .ite (Native.seq (.require _ _ _) hg) (Native.seq (.require _ _ _) hg)

theorem farTss_protected (kind : FarKind) (tsel : Half) (d : Desc) : Takes Protected Protected (farTss kind tsel d) :=
  Protected.seq (.look _) fun _ => Protected.seq nextEip_quiet.mild fun _ => taskSwitch_protected _ _ _ _ _ _ _

theorem farTaskGate_protected (kind : FarKind) (gsel : Half) (gate : Desc) :
    Takes Protected Protected (farTaskGate kind gsel gate) :=
  Protected.seq (.look _) fun _ => Protected.seq (.require _ _ _) fun _ => Protected.seq (.require _ _ _) fun _ =>
    Protected.seq (.require _ _ _) fun _ => Protected.seq (.require _ _ _) fun _ => Protected.seq (needDesc_quiet _ _ _).mild
    fun _ => Protected.seq (.require _ _ _) fun _ => Protected.seq (.require _ _ _) fun _ => farTss_protected _ _ _

theorem farTssDirect_protected (kind : FarKind) (tsel : Half) (d : Desc) :
    Takes Protected Protected (farTssDirect kind tsel d) :=
  Protected.seq (.look _) fun _ => Protected.seq (.require _ _ _) fun _ => Protected.seq (.require _ _ _) fun _ =>
    Protected.seq (.require _ _ _) fun _ => Protected.seq (.require _ _ _) fun _ => farTss_protected _ _ _

theorem farProtected_native (kind : FarKind) (z : Sz) (sel : Half) (off : Word) :
    Takes Native Protected (farProtected kind z sel off) := by
  have start : ∀ {m : M Unit} {f : Unit → M Ending}, Takes Native Native m → (∀ a, Mild (f a)) →
      Takes Native Protected (m >>= f) := fun h k => (Takes.then_mild Native.lasting h k).weaken id (·.protected)
  have switch : ∀ {m : M Unit} {f : Unit → M Ending}, Takes Protected Protected m → (∀ a, Mild (f a)) →
      Takes Native Protected (m >>= f) := fun h k => (Takes.then_mild Protected.lasting h k).weaken (·.protected) id
  exact .after_mild Native.lasting (·.protected) (.require _ _ _) fun _ =>
    .after_mild Native.lasting (·.protected) (needDesc_quiet _ _ _).mild fun _ =>
    .ite (start ((farCode_mild _ _ _ _ _).takes Native.lasting) fun _ => .pure _) <|
    .ite (start (farGate_native _ _ _) fun _ => .pure _) <|
    .ite (switch (farTaskGate_protected _ _ _) fun _ => .pure _) <|
    .ite (switch (farTssDirect_protected _ _ _) fun _ => .pure _) <|
    ((Mild.raise _ _).takes Native.lasting).weaken id (·.protected)

theorem farTransfer_sound (kind : FarKind) (z : Sz) (sel : Half) (off : Word) :
    Takes Sound Sound (farTransfer kind z sel off) := by
  refine .look_bind fun s hs => ?_
  cases hm : s.mode with
  | prot => exact (farProtected_native kind z sel off s (native_of_mode hs hm)).sound
  | real => exact (thenJump_mild (farFlat_mild kind z sel off)).takes Sound.lasting s hs
  | v86 => exact (thenJump_mild (farFlat_mild kind z sel off)).takes Sound.lasting s hs

/-! Far returns. -/

theorem dropInner_mild (level : BitVec 2) (r : Sreg) : Mild (dropInner level r) := by
  refine .upd fun s => ?_
  dsimp only
  split
  · exact .of_eq rfl rfl rfl rfl rfl
  · exact .refl s

/-- The flags a load of flags may change are none of the held ones (R31). -/
theorem flagMask_held (s : State) : ∀ i ∈ heldFlags, bit s.flagMask i = false := by
  unfold State.flagMask
  split <;> split <;> decide

theorem returnMask_held (s : State) (z : Sz) : ∀ i ∈ heldFlags, bit (returnMask s z) i = false := by
  cases z
  · exact flagMask_held s
  · intro i hi
    have h16 : bit 0x10000 i = false := by revert hi; revert i; decide
    have := flagMask_held s i hi
    simp only [returnMask, bit, BitVec.getLsbD_or] at this h16 ⊢
    rw [this, h16]; rfl

theorem loadReturned_mild (s : State) (z : Sz) (image : Word) : Mild (upd fun t => t.loadFlags (returnMask s z) image) :=
  .upd fun t => .loadFlags t _ _ (returnMask_held s z)

theorem outerEsp_quiet (z : Sz) (ss : Desc) (old popped imm : Word) : Quiet (outerEsp z ss old popped imm) := by
  refine .ite (.pure _) ?_
  cases z
  · exact .bind .draw fun _ => .pure _
  · exact .pure _

theorem farReturn_native (z : Sz) (withFlags : Bool) (imm : Nat) : Takes Native Native (farReturn z withFlags imm) := by
  have same : ∀ d sel off, Mild (upd fun t => { t.setSreg .cs (Desc.toSeg d sel) with eip := off }) := fun _ _ _ =>
    .upd fun _ => .of_eq rfl rfl rfl rfl rfl
  have outer : ∀ d sel off level, Takes Native Native
      (upd fun t => { t.setSreg .cs (Desc.toSeg d sel) with eip := off, cpl := level }) := fun d sel off level =>
    .upd fun t ht => native_cpl (s := { t.setSreg .cs (Desc.toSeg d sel) with eip := off })
      (Native.lasting (.of_eq rfl rfl rfl rfl rfl) ht) _
  refine Native.seq (.look _) fun s => Native.seq (.require _ _ _) fun _ => Native.seq (peek_quiet _ _).mild fun _ =>
    Native.seq (.require _ _ _) fun _ => .ite (Mild.takes ?same Native.lasting) ?outer
  case same =>
    exact .shared (fun _ => .bind (checkReturnCS_quiet _).mild fun _ => .bind (.require _ _ _) fun _ =>
        .bind (peek_quiet _ _).mild fun _ => .bind (.require _ _ _) fun _ => .shared (fun _ =>
          .bind (setAccessed_quiet _).mild fun _ => .bind (same _ _ _) fun _ => .shared (fun _ => popBytes_mild _)
            fun _ hg => .ite (.bind (loadReturned_mild _ _ _) hg) (hg ()))
          fun _ hg => .ite (.bind (peek_quiet _ _).mild hg) (.bind (.pure _) hg))
      fun _ hg => .ite (.bind (.require _ _ _) hg) (hg ())
  case outer =>
    exact Native.seq (.require _ _ _) fun _ => Native.seq (checkReturnCS_quiet _).mild fun _ => Native.seq (peek_quiet _ _).mild
      fun _ => Native.seq (peek_quiet _ _).mild fun _ => Native.seq (checkReturnSS_quiet _ _).mild fun _ =>
      Native.seq (peek_quiet _ _).mild fun _ => Native.seq (.require _ _ _) fun _ => .shared (R := Native) (fun _ =>
        Native.seq (outerEsp_quiet _ _ _ _ _).mild fun _ => Native.seq (linWriteAll_quiet _).mild fun _ =>
        .then_mild Native.lasting (outer _ _ _ _) fun _ => .shared (fun _ => .bind (setSreg_mild _ _) fun _ =>
          .bind (putReg_mild _ _) fun _ => .bind (dropInner_mild _ _) fun _ => .bind (dropInner_mild _ _) fun _ =>
          .bind (dropInner_mild _ _) fun _ => dropInner_mild _ _)
          fun _ hg => .ite (.bind (loadReturned_mild _ _ _) hg) (hg ()))
      fun _ hg => .ite (Native.seq (peek_quiet _ _).mild hg) (Native.seq (.pure _) hg)

theorem iretFlat_mild (z : Sz) : Mild (iretFlat z) :=
  .bind (.look _) fun _ => .bind (peek_quiet _ _).mild fun _ => .bind (peek_quiet _ _).mild fun _ =>
    .bind (peek_quiet _ _).mild fun _ => .bind (.require _ _ _) fun _ =>
    .bind (.upd fun s => (Steady.loadFlat s .cs _).trans (.of_eq rfl rfl rfl rfl rfl)) fun _ =>
    .bind (loadReturned_mild _ _ _) fun _ => popBytes_mild _

theorem iretTask_protected : Takes Protected Protected iretTask :=
  Protected.seq (.look _) fun _ => Protected.seq (needTss_quiet _ _).mild fun _ => Protected.seq (tssSel_quiet _ _).mild fun _ =>
    Protected.seq (.require _ _ _) fun _ => Protected.seq (needDesc_quiet _ _ _).mild fun _ => Protected.seq (.require _ _ _)
    fun _ => Protected.seq (.require _ _ _) fun _ => Protected.seq nextEip_quiet.mild fun _ => taskSwitch_protected _ _ _ _ _ _ _

/-- V86 mode entered, at level 3 (R480). -/
theorem protected_toV86 {s : State} (h : Native s) (image off : Word) (g : SegRegs) :
    Protected { s.loadFlags (s.flagMask ||| 0x30000) image with cpl := 3, eip := off, seg := g } := by
  obtain ⟨hi, hp, -⟩ := h
  obtain ⟨h1, h2, h3, -, -, -⟩ := (inv_iff s).1 hi
  refine ⟨(inv_iff _).2 ⟨h1, ?_, h3, fun _ => ⟨hp, rfl⟩, .inl hp, fun _ => hp⟩, hp⟩
  rw [fixReserved_eq_iff] at h2 ⊢
  have e : ∀ i, i ∈ heldFlags → i ≠ 17 → bit (mergeBits (s.flagMask ||| 0x30000) image s.eflags) i = bit s.eflags i := by
    intro i hi hn
    have hm : bit 0x30000 i = false := by revert hi hn; revert i; decide
    have hf := flagMask_held s i hi
    have hk : bit (s.flagMask ||| 0x30000) i = false := by
      unfold bit at hm hf ⊢
      rw [BitVec.getLsbD_or, hm, hf]; rfl
    rw [bit_mergeBits, hk]; simp
  exact ⟨(e 1 (by decide) (by decide)).trans h2.1, (e 3 (by decide) (by decide)).trans h2.2.1,
    (e 5 (by decide) (by decide)).trans h2.2.2.1, (e 15 (by decide) (by decide)).trans h2.2.2.2⟩

theorem iretToV86_native : Takes Native Protected iretToV86 := by
  have seq : ∀ {γ δ : Type} {m : M γ} {f : γ → M δ}, Mild m → (∀ a, Takes Native Protected (f a)) →
      Takes Native Protected (m >>= f) := .after_mild Native.lasting (·.protected)
  exact seq (.look _) fun _ => seq (.require _ _ _) fun _ => seq (peek_quiet _ _).mild fun _ => seq (.require _ _ _) fun _ =>
    seq (peek_quiet _ _).mild fun _ => seq (peek_quiet _ _).mild fun _ => seq (peek_quiet _ _).mild fun _ =>
    seq (peek_quiet _ _).mild fun _ => seq (peek_quiet _ _).mild fun _ => seq (peek_quiet _ _).mild fun _ =>
    seq (peek_quiet _ _).mild fun _ => seq (peek_quiet _ _).mild fun _ =>
    .then_mild Protected.lasting (.upd fun _ h => protected_toV86 h _ _ _) fun _ => putReg_mild _ _

theorem iretProtected_native (z : Sz) : Takes Native Protected (iretProtected z) := by
  have ret : Takes Native Protected (farReturn z true 0) := (farReturn_native z true 0).weaken id (·.protected)
  have seq : ∀ {γ δ : Type} {m : M γ} {f : γ → M δ}, Mild m → (∀ a, Takes Native Protected (f a)) →
      Takes Native Protected (m >>= f) := .after_mild Native.lasting (·.protected)
  exact seq (.look _) fun _ => .ite (iretTask_protected.weaken (·.protected) id) <|
    .ite (seq (.require _ _ _) fun _ => seq (peek_quiet _ _).mild fun _ => .ite iretToV86_native ret) ret

theorem returnFromEvent_sound (z : Sz) : Takes Sound Sound (returnFromEvent z) := by
  have last : Mild (upd fun s => { s with nmiInService := false }) := .upd fun _ => .of_eq rfl rfl rfl rfl rfl
  refine .look_bind fun s hs => ?_
  cases hm : s.mode with
  | prot =>
    exact Takes.then_mild Sound.lasting ((iretProtected_native z).weaken id (·.sound)) (fun _ => last) s (native_of_mode hs hm)
  | real => exact Mild.takes (.bind (iretFlat_mild z) fun _ => last) Sound.lasting s hs
  | v86 =>
    exact Mild.takes (.bind (.look id) fun _ => .bind (.require _ _ _) fun _ => .bind (iretFlat_mild z) fun _ => last)
      Sound.lasting s hs

theorem softwareInterrupt_sound (v : Byte) : Takes Sound Sound (softwareInterrupt v) :=
  .after_mild Sound.lasting id nextEip_quiet.mild fun _ => .then_mild Sound.lasting (deliver_sound _ _) fun _ =>
    .pure _

end Sys2Proof.Machine

/-!
Settles O3 (InvariantKept): each instruction's body keeps the invariant, so does the boundary, so does a step.
-/
namespace Sys2Proof.Machine

/-! Bodies that are steady. -/

theorem moffsRead_quiet (n : Width) (a : Sz) (off : Word) : Quiet (moffsRead n a off) :=
  .bind (.look _) fun _ => memRead_quiet _ _ _ _

theorem moffsWrite_quiet (n : Width) (a : Sz) (off v : Word) : Quiet (moffsWrite n a off v) :=
  .bind (.look _) fun _ => memWrite_quiet _ _ _ _ _

theorem movBody_mild (f : MovForm) : Mild (movBody f) := by
  cases f with
  | loadA8 a off => exact .bind (moffsRead_quiet _ _ _).mild fun _ => Place.write_mild _ _
  | loadA z a off => exact .bind (moffsRead_quiet _ _ _).mild fun _ => Place.write_mild _ _
  | storeA8 a off => exact .bind (Place.read_quiet _).mild fun _ => (moffsWrite_quiet _ _ _ _).mild
  | storeA z a off => exact .bind (Place.read_quiet _).mild fun _ => (moffsWrite_quiet _ _ _ _).mild
  | _ => exact move_mild _

theorem exchange_mild (p : Place) (r : Loc) : Mild (exchange p r) :=
  .bind r.get_quiet.mild fun _ => .bind (p.loc_quiet _).mild fun l => .bind l.get_quiet.mild fun _ =>
    .bind (l.put_mild _) fun _ => r.put_mild _

theorem peekItems_quiet (n : Width) (d : Nat) (rs : List (Option Gpr)) : Quiet (peekItems n d rs) := by
  induction rs generalizing d with
  | nil => exact .pure _
  | cons r rs ih => exact .bind (peek_quiet _ _) fun _ => .bind (ih _) fun _ => .pure _

theorem putItems_mild (z : Sz) (vs : List (Option Gpr × Word)) : Mild (putItems z vs) := by
  induction vs with
  | nil => exact .pure ()
  | cons v vs ih =>
    obtain ⟨_ | r, v⟩ := v
    · exact ih
    · exact .bind (putRegZ_mild _ _ _) fun _ => ih

theorem getHigh_mild (n : Width) : Mild (getHigh n) := by
  cases n
  · exact .bind (.look _) fun _ => .pure _
  · exact .look _
  · exact .look _

theorem putHigh_mild (n : Width) (v : Word) : Mild (putHigh n v) := by
  cases n
  · exact putReg8_mild _ _
  · exact putRegZ_mild _ _ _
  · exact putRegZ_mild _ _ _

theorem putProduct_mild (n : Width) (p : Nat) : Mild (putProduct n p) := .bind (putHigh_mild _ _) fun _ => putAccW_mild _ _

theorem putTruncated_mild (z : Sz) (r : Gpr) (a b : Word) : Mild (putTruncated z r a b) :=
  .bind (putRegZ_mild _ _ _) fun _ => putFlags_mild _

theorem divide_mild (op : Width → Word → Word → Word → Option (Word × Word)) (p : Single) : Mild (divide op p) := by
  refine .bind p.dst.read_quiet.mild fun d => .bind (getHigh_mild _) fun hi => .bind (accW_mild _) fun lo => ?_
  cases op p.width hi lo d with
  | none => exact .raise _ _
  | some x => exact .bind (putAccW_mild _ _) fun _ => .bind (putHigh_mild _ _) fun _ => putFlags_mild _

theorem asciiAdjust_mild (six one : Byte) : Mild (asciiAdjust six one) :=
  .bind (.look _) fun _ => .bind (.look _) fun _ => .bind (.look _) fun _ => .bind (putReg8_mild _ _) fun _ =>
    .bind (putReg8_mild _ _) fun _ => putFlags_mild _

theorem requireTen_mild (imm : Byte) : Mild (requireTen imm) := .ite (.pure ()) (.stop _)

theorem bitLoc_quiet (z : Sz) (o : Rm) (k : Int) (acc : Acc) : Quiet (bitLoc z o k acc) := by
  cases o with
  | reg r => exact .pure _
  | mem m => exact .bind (effAddr_quiet _) fun _ => .bind (.look _) fun _ => .bind (memAddrs_quiet _ _ _ _ _) fun _ => .pure _

theorem bitModify_mild (op : Bool → Bool) (f : BtForm) : Mild (bitModify op f) :=
  .bind (.look _) fun _ => .bind (bitLoc_quiet _ _ _ _).mild fun l => .bind l.get_quiet.mild fun _ =>
    .bind (l.put_mild _) fun _ => putFlags_mild _

theorem scan_mild (find : Word → Nat) (z : Sz) (r : Gpr) (o : Rm) : Mild (scan find z r o) :=
  .bind (Place.read_quiet _).mild fun _ => .ite (.bind .draw fun _ => .bind (putRegZ_mild _ _ _) fun _ => putFlags_mild _)
    (.bind (putRegZ_mild _ _ _) fun _ => putFlags_mild _)

theorem shiftBy_mild (op : Width → Nat → Word → Bool → Res) (f : ShiftForm) : Mild (shiftBy op f) :=
  .bind (.look _) fun _ => modify_mild _ _

theorem shiftPair_mild (op : Width → Nat → Word → Word → Word → Res) (z : Sz) (o : Rm) (r : Gpr) (c : DCount) :
    Mild (shiftPair op z o r c) :=
  .bind (.look _) fun _ => .bind (.look _) fun _ => .shared (fun _ => modify_mild _ _)
    fun _ hg => .ite (.bind .draw hg) (.bind (.pure _) hg)

theorem jumpNear_mild (t : Word) : Mild (jumpNear t) :=
  .bind (checkTarget_mild _) fun _ => .upd fun _ => .of_eq rfl rfl rfl rfl rfl

theorem jumpIf_mild (c : Bool) (z : Sz) (r : Rel) : Mild (jumpIf c z r) :=
  .ite (.bind (.bind nextEip_quiet.mild fun _ => jumpNear_mild _) fun _ => .pure _) (.pure _)

theorem countAndJump_mild (agrees : Bool → Bool) (z a : Sz) (v : Byte) : Mild (countAndJump agrees z a v) :=
  .bind (.look _) fun _ => .bind (putRegZ_mild _ _ _) fun _ => .bind (.look _) fun _ => jumpIf_mild _ _ _

theorem nearTarget_mild (next : Word) (f : NearForm) : Mild (nearTarget next f) := by
  cases f
  · exact .pure _
  · exact (Place.read_quiet _).mild

theorem farPointer_mild (f : FarForm) : Mild (farPointer f) := by
  cases f
  · exact .pure _
  · exact .bind (readPointer_quiet _ _).mild fun _ => .pure _

theorem retFarFlat_mild (z : Sz) (imm : Nat) : Mild (retFarFlat z imm) :=
  .bind (peek_quiet _ _).mild fun _ => .bind (peek_quiet _ _).mild fun _ => .bind (checkTarget_mild _) fun _ =>
    .bind (.upd fun s => (Steady.loadFlat s .cs _).trans (.of_eq rfl rfl rfl rfl rfl)) fun _ => popBytes_mild _

theorem loadPointer_mild (r : Sreg) (z : Sz) (g : Gpr) (m : Mem) : Mild (loadPointer r z g m) :=
  .bind (readPointer_quiet _ _).mild fun _ => .bind (loadSreg_mild _ _) fun _ => putRegZ_mild _ _ _

theorem copyDisplay_mild (z : Sz) (k : Nat) : Mild (copyDisplay z k) := by
  induction k with
  | zero => exact .pure ()
  | succ k ih =>
    exact .bind (.look _) fun _ => .bind (putRegZ_mild _ _ _) fun _ => .bind (memRead_quiet _ _ _ _).mild fun _ =>
      .bind (push_mild _ _) fun _ => ih

theorem pushDisplay_mild (z : Sz) (level : Nat) (frame : Word) : Mild (pushDisplay z level frame) := by
  cases level
  · exact .pure ()
  · exact .bind (copyDisplay_mild _ _) fun _ => push_mild _ _

/-! String instructions and ports. -/

theorem repeated_mild {once : M Unit} (a : Sz) (zf : Bool) (h : Mild once) : Mild (repeated a zf once) := by
  refine .bind (.look _) fun k => ?_
  cases k with
  | none => exact .bind h fun _ => .pure _
  | some k =>
    exact .bind (.look _) fun _ => .ite (.pure _) <| .bind h fun _ => .bind (putRegZ_mild _ _ _) fun _ =>
      .bind (.look _) fun _ => .pure _

theorem stepIndex_mild (a : Sz) (r : Gpr) (n : Width) : Mild (stepIndex a r n) :=
  .bind (.look _) fun _ => .bind (.look _) fun _ => putRegZ_mild _ _ _

theorem readSource_mild (a : Sz) (n : Width) : Mild (readSource a n) :=
  .bind (.look _) fun _ => .bind (.look _) fun _ => (memRead_quiet _ _ _ _).mild
theorem readDest_mild (a : Sz) (n : Width) : Mild (readDest a n) := .bind (.look _) fun _ => (memRead_quiet _ _ _ _).mild
theorem writeDest_mild (a : Sz) (n : Width) (v : Word) : Mild (writeDest a n v) :=
  .bind (.look _) fun _ => (memWrite_quiet _ _ _ _ _).mild

theorem ioPermission_quiet (port n : Nat) : Quiet (ioPermission port n) :=
  .bind (.look _) fun _ => .ite (.pure _) <| .bind (linRead_quiet _ _) fun _ => .ite (.pure _) <|
    .bind (linRead_quiet _ _) fun _ => .pure _

theorem checkIo_mild (port n : Nat) : Mild (checkIo port n) :=
  .bind (.look _) fun _ => .ite (.bind (ioPermission_quiet _ _).mild fun _ => .require _ _ _) (.pure ())

theorem portRead_mild (port : Nat) (n : Width) : Mild (portRead port n) := fun _ => .of_eq rfl rfl rfl rfl rfl
theorem portWrite_mild (port : Nat) (n : Width) (v : Word) : Mild (portWrite port n v) :=
  .upd fun _ => .of_eq rfl rfl rfl rfl rfl
theorem portDx_mild : Mild portDx := .bind (.look _) fun _ => .pure _
theorem portOf_mild (p : Port) : Mild (portOf p) := by
  cases p
  · exact .pure _
  · exact portDx_mild

theorem movsOnce_mild (a : Sz) (n : Width) : Mild (movsOnce a n) :=
  .bind (readSource_mild _ _) fun _ => .bind (writeDest_mild _ _ _) fun _ => .bind (stepIndex_mild _ _ _) fun _ =>
    stepIndex_mild _ _ _
theorem cmpsOnce_mild (a : Sz) (n : Width) : Mild (cmpsOnce a n) :=
  .bind (readSource_mild _ _) fun _ => .bind (readDest_mild _ _) fun _ => .bind (putFlags_mild _) fun _ =>
    .bind (stepIndex_mild _ _ _) fun _ => stepIndex_mild _ _ _
theorem scasOnce_mild (a : Sz) (n : Width) : Mild (scasOnce a n) :=
  .bind (readDest_mild _ _) fun _ => .bind (accW_mild _) fun _ => .bind (putFlags_mild _) fun _ => stepIndex_mild _ _ _
theorem lodsOnce_mild (a : Sz) (n : Width) : Mild (lodsOnce a n) :=
  .bind (readSource_mild _ _) fun _ => .bind (putAccW_mild _ _) fun _ => stepIndex_mild _ _ _
theorem stosOnce_mild (a : Sz) (n : Width) : Mild (stosOnce a n) :=
  .bind (accW_mild _) fun _ => .bind (writeDest_mild _ _ _) fun _ => stepIndex_mild _ _ _
theorem insOnce_mild (a : Sz) (n : Width) : Mild (insOnce a n) :=
  .bind portDx_mild fun _ => .bind (checkIo_mild _ _) fun _ => .bind (portRead_mild _ _) fun _ =>
    .bind (writeDest_mild _ _ _) fun _ => stepIndex_mild _ _ _
theorem outsOnce_mild (a : Sz) (n : Width) : Mild (outsOnce a n) :=
  .bind portDx_mild fun _ => .bind (checkIo_mild _ _) fun _ => .bind (readSource_mild _ _) fun _ =>
    .bind (portWrite_mild _ _ _) fun _ => stepIndex_mild _ _ _

/-! System instructions. -/

theorem requireCpl0_mild : Mild requireCpl0 := .bind (.look _) fun _ => .require _ _ _
theorem requireProtected_mild : Mild requireProtected := .bind (.look _) fun _ => .ite (.pure ()) (.raise _ _)
theorem requireIopl_mild : Mild requireIopl := .bind (.look _) fun _ => .require _ _ _
theorem requireV86Iopl_mild : Mild requireV86Iopl := .bind (.look _) fun _ => .require _ _ _
theorem requireDebugFree_mild : Mild requireDebugFree :=
  .bind (.look _) fun _ => .ite (.bind (.upd fun _ => .of_eq rfl rfl rfl rfl rfl) fun _ => .raise _ _) (.pure ())

theorem readTable_quiet (z : Sz) (m : Mem) : Quiet (readTable z m) :=
  .bind (effAddr_quiet _) fun _ => .bind (.look _) fun _ => .bind (memRead_quiet _ _ _ _) fun _ =>
    .bind (memRead_quiet _ _ _ _) fun _ => .pure _

theorem writeTable_quiet (z : Sz) (m : Mem) (t : TableReg) : Quiet (writeTable z m t) :=
  .bind (effAddr_quiet _) fun _ => .bind (.look _) fun _ => .bind (memAddrs_quiet _ _ _ _ _) fun _ =>
    .bind (memAddrs_quiet _ _ _ _ _) fun _ => .bind (writeAddrs_quiet _ _) fun _ => writeAddrs_quiet _ _

theorem needGdt_quiet (sel : Half) : Quiet (needGdt sel) := .bind (.require _ _ _) fun _ => needDesc_quiet _ _ _

theorem lookupDesc_quiet (sel : Half) : Quiet (lookupDesc sel) := .ite (.pure _) (fetchDesc_quiet _)

theorem visibleDesc_quiet (accepts : Desc → Bool) (sel : Half) : Quiet (visibleDesc accepts sel) := by
  refine .bind (.look _) fun _ => .bind (lookupDesc_quiet _) fun d => ?_
  cases d <;> exact .pure _

theorem rightsOf_quiet (z : Sz) (d : Desc) : Quiet (rightsOf z d) := by
  cases z
  · exact .pure _
  · exact .bind .draw fun _ => .pure _

theorem zf_mild (b : Bool) : Mild (putFlag 6 b) := putFlag_mild _ _ (by decide)

theorem verify_mild (test : Desc → BitVec 2 → Half → Bool) (o : Rm) : Mild (verify test o) := by
  refine .bind requireProtected_mild fun _ => .bind (Place.read_quiet _).mild fun _ => .bind (.look _) fun _ =>
    .bind (lookupDesc_quiet _).mild fun d => ?_
  cases d <;> exact zf_mild _

theorem tlbTestWrite_mild (v : Word) : Mild (tlbTestWrite v) :=
  .bind .draw fun _ => .bind (.look _) fun _ => .ite (.stop _) <|
    .upd fun _ => ⟨id, tlbPut_length _ _ _, fun _ _ => rfl, rfl, rfl⟩

theorem lookupAny_mild : Mild lookupAny := .bind .draw fun _ => .bind .draw fun _ => .upd fun _ => .of_eq rfl rfl rfl rfl rfl

theorem tlbTestLookup_mild (v : Word) : Mild (tlbTestLookup v) := by
  refine .bind (.look _) fun s => .ite lookupAny_mild ?_
  show Mild (match tlbMatches v 0 s.tlb with | [] => _ | [(k, e)] => _ | _ :: _ :: _ => _)
  split
  · exact .bind .draw fun _ => .upd fun _ => .of_eq rfl rfl rfl rfl rfl
  · exact .upd fun _ => .of_eq rfl rfl rfl rfl rfl
  · exact lookupAny_mild

theorem putTreg_mild (t : Treg) (v : Word) : Mild (putTreg t v) := by
  cases t
  · exact .bind (.upd fun _ => .of_eq rfl rfl rfl rfl rfl) fun _ => .ite (tlbTestLookup_mild _) (tlbTestWrite_mild _)
  · exact .upd fun _ => .of_eq rfl rfl rfl rfl rfl

theorem checkEscOperand_mild (o : Rm) : Mild (checkEscOperand o) := by
  cases o
  · exact .pure ()
  · exact .bind (Place.loc_quiet _ _).mild fun _ => .pure _

/-! Writes of CR0. -/

/-- CR0 may gain PE and lose nothing the invariant needs. -/
theorem sound_putCr0 {s : State} (h : Sound s) {v : Word} (hp : s.pe = true → bit v 0 = true) (hg : bit v 31 = s.pg) :
    Sound { s with cr := { s.cr with cr0 := v } } := by
  obtain ⟨h1, h2, h3, h4, h5, h6⟩ := (inv_iff s).1 h
  refine (inv_iff _).2 ⟨h1, h2, h3, fun hv => ⟨hp (h4 hv).1, (h4 hv).2⟩, h5.imp hp id, fun hv => hp (h6 (hg ▸ hv))⟩

theorem lmsw_bits (v w : Word) : (bit w 0 = true → bit (mergeBits 0xE v w ||| (v &&& 1)) 0 = true) ∧
    bit (mergeBits 0xE v w ||| (v &&& 1)) 31 = bit w 31 := by
  simp [bit, mergeBits]
  grind

/-- At CPL 0 the machine is not in V86 mode, so that PE may be cleared (R600). -/
theorem sound_movToCr0 {s : State} (h : Sound s) (hc : s.cpl = 0) {v : Word} (hv : (bit v 31 && !bit v 0) = false) :
    Sound { s with cr := { s.cr with cr0 := v } } := by
  obtain ⟨h1, h2, h3, h4, -, -⟩ := (inv_iff s).1 h
  refine (inv_iff _).2 ⟨h1, h2, h3, fun hv => absurd ((h4 hv).2.symm.trans hc) (by decide), .inr hc, fun hg => ?_⟩
  change bit v 31 = true at hg
  show bit v 0 = true
  simpa [hg] using hv

theorem putCreg_sound (c : Creg) (v : Word) {s : State} (h : Sound s) (hc : s.cpl = 0) : Sound (after (putCreg c v s)) := by
  cases c with
  | cr0 =>
    unfold putCreg
    cases hv : bit v 31 && !bit v 0 with
    | true => exact h
    | false => exact sound_movToCr0 h hc hv
  | cr2 => exact h
  | cr3 =>
    have k : Steady s { s with cr := { s.cr with cr3 := v }, tlb := tlbClear s.tlb } :=
      ⟨id, tlbClear_length _, fun _ _ => rfl, rfl, rfl⟩
    exact k.inv h

theorem requireCpl0_ok {s : State} (h : s.cpl = 0) : requireCpl0 s = .ok () s := by
  unfold requireCpl0
  rw [M.look_bind, beq_iff_eq.2 h]
  rfl

theorem requireCpl0_fail {s : State} (h : s.cpl ≠ 0) : requireCpl0 s = .error (.exc (faultOf 13 (some 0))) s := by
  unfold requireCpl0
  rw [M.look_bind, beq_eq_false_iff_ne.2 h]
  rfl

theorem movToCr_sound (c : Creg) (r : Gpr) : Takes Sound Sound (thenNext do
    requireCpl0
    let v ← getReg r
    putCreg c v
    putFlags .undefined) := by
  refine .then_mild Sound.lasting (fun s hs => ?_) fun _ => .pure _
  by_cases hc : s.cpl = 0
  · rw [M.bind_ok _ (requireCpl0_ok hc)]
    exact Takes.then_mild (P := (· = s)) Sound.lasting (fun u hu => by subst hu; exact putCreg_sound c _ hs hc) (fun _ => putFlags_mild _) s rfl
  · rw [M.bind_stop _ (requireCpl0_fail hc)]
    exact hs

/-! Every instruction. -/

/-- What a state in which an instruction ended leaves at the boundary: the flags but RF, the level, CR0 and memory stay. -/
theorem finish_steady {e : Ending} (s t : State) (he : e ≠ .hold) : Steady t (finish e s t) := by
  have hb : (e == Ending.hold) = false := beq_false_of_ne he
  have adv : Steady t t.advance := by unfold State.advance; split <;> exact .of_eq rfl rfl rfl rfl rfl
  have place : Steady t (e.place t) := by
    have h : Steady t (if e.advances then t.advance else t) := by split <;> [exact adv; exact .refl t]
    unfold Ending.place
    dsimp only
    split
    · exact h.trans (.setFlag _ _ (by decide))
    · exact h
  have debug : ∀ u, Steady u (e.debug s.tf (dr7Exact s.dr.dr7) u) := by
    intro u
    unfold Ending.debug
    dsimp only
    split <;> split <;> exact .of_eq rfl rfl rfl rfl rfl
  unfold finish
  rw [hb]
  exact (place.trans (debug _)).trans (.of_eq rfl rfl rfl rfl rfl)

theorem finish_sound {e : Ending} {s t : State} (hs : Sound s) (ht : Sound t) : Sound (finish e s t) := by
  by_cases he : e = .hold
  · subst he; exact hs
  · exact (finish_steady s t he).inv ht

/-- An instruction whose body keeps the invariant keeps it (R703, R716, R774). -/
theorem runInstr_sound {l : Bool} {body : M Ending} {s t : State} (hb : Takes Sound Sound body) (hs : Sound s)
    (h : runInstr l body s = .next t) : Sound t := by
  have hu := hb s hs
  rcases runInstr_next h with ⟨e, u, -, e1, rfl⟩ | ⟨f, u, -, e1, -, rfl⟩ | ⟨f, u, h1, -, h3⟩
  · rw [e1] at hu; exact finish_sound hs hu
  · rw [e1] at hu; exact hu
  · rcases h1 with ⟨-, e1⟩ | ⟨-, rfl⟩
    · rw [e1] at hu; exact takeEvent_sound (rollback_sound hs hu) h3
    · exact takeEvent_sound (rollback_sound hs hs) h3

/-- The instruction runs a body that keeps the invariant, with LOCK where the table lets it stand. -/
def Runs (i : Instr) : Prop := ∃ body, Takes Sound Sound body ∧ ∀ s, exec i s = runInstr (lockable i) body s

theorem Runs.mild {i : Instr} {body : M Ending} (hi : ∀ s, exec i s = runInstr (lockable i) body s) (h : Mild body) :
    Runs i := ⟨body, h.takes Sound.lasting, hi⟩

theorem Runs.next {i : Instr} {body : M Unit} (hi : ∀ s, exec i s = runInstr (lockable i) (thenNext body) s)
    (h : Mild body) : Runs i := .mild hi (thenNext_mild h)

theorem Runs.jump {i : Instr} {body : M Unit} (hi : ∀ s, exec i s = runInstr (lockable i) (thenJump body) s)
    (h : Mild body) : Runs i := .mild hi (thenJump_mild h)

/-- MOV to a segment register: CS is #UD (R551). -/
theorem movToSreg_mild (r : Sreg) {m : M Word} (h : Mild m) : Mild (do
    if r == .cs then raiseUD
    let v ← m
    loadSreg r (lowHalf v)
    return endOfLoad r) :=
  .shared (fun _ => .bind h fun _ => .bind (loadSreg_mild _ _) fun _ => .pure _)
    fun _ hg => .ite (.bind (.raise _ _) hg) (hg ())

/-- Every instruction but the prefixes: its body, taken apart along its `do` block. -/
theorem exec_runs (i : Instr) (h : isPrefix i = false) : Runs i := by
  cases i with
  | segEs | segCs | segSs | segDs | segFs | segGs | opsize | adrsize | lock | repne | rep => cases h
  | mov f => exact .next (fun _ => rfl) (movBody_mild f)
  | movFromSreg z d r =>
    refine .next (fun _ => rfl) (.bind (.look _) fun _ => ?_)
    cases d with
    | reg g => cases z <;> [exact putRegZ_mild _ _ _; exact .bind .draw fun _ => putReg_mild _ _]
    | mem m => exact Place.write_mild _ _
  | movToSreg r o => exact .mild (fun _ => rfl) (movToSreg_mild r (Place.read_quiet _).mild)
  | push f =>
    cases f with
    | r z g => exact .next (fun _ => rfl) (.bind (.look _) fun _ => push_mild _ _)
    | immv z v => exact .next (fun _ => rfl) (push_mild _ _)
    | immb z v => exact .next (fun _ => rfl) (push_mild _ _)
    | rm z o => exact .next (fun _ => rfl) (.bind (Place.read_quiet _).mild fun _ => push_mild _ _)
  | pushSreg z r => exact .next (fun _ => rfl) (.bind (.look _) fun _ => .bind (selItem_quiet _ _).mild fun _ => push_mild _ _)
  | pop f =>
    cases f with
    | r z g => exact .next (fun _ => rfl) (.bind (pop_mild _) fun _ => putRegZ_mild _ _ _)
    | rm z o => exact .next (fun _ => rfl) (.bind (pop_mild _) fun _ => Place.write_mild _ _)
  | popSreg z r => exact .mild (fun _ => rfl) (movToSreg_mild r (pop_mild _))
  | pusha z => exact .next (fun _ => rfl) (.bind (.look _) fun _ => pushWith_mild _ _ _)
  | popa z =>
    exact .next (fun _ => rfl) (.bind (peekItems_quiet _ _ _).mild fun _ => .bind (putItems_mild _ _) fun _ => popBytes_mild _)
  | xchg f => cases f <;> exact .next (fun _ => rfl) (exchange_mild _ _)
  | movsx f => cases f <;> exact .next (fun _ => rfl) (.bind (Place.read_quiet _).mild fun _ => putRegZ_mild _ _ _)
  | movzx f => cases f <;> exact .next (fun _ => rfl) (.bind (Place.read_quiet _).mild fun _ => putRegZ_mild _ _ _)
  | cbw z => cases z <;> exact .next (fun _ => rfl) (.bind (.look _) fun _ => putRegZ_mild _ _ _)
  | cwd z => exact .next (fun _ => rfl) (.bind (.look _) fun _ => putRegZ_mild _ _ _)
  | add f | adc f | sub f | sbb f | and f | or f | xor f => exact .next (fun _ => rfl) (combine_mild _ _)
  | cmp f | test f => exact .next (fun _ => rfl) (compare_mild _ _)
  | inc f | dec f | neg f | not f => exact .next (fun _ => rfl) (modify_mild _ _)
  | mul f | imul1 f =>
    exact .next (fun _ => rfl) (.bind (Place.read_quiet _).mild fun _ => .bind (accW_mild _) fun _ =>
      .bind (putProduct_mild _ _) fun _ => putFlags_mild _)
  | div f | idiv f => exact .next (fun _ => rfl) (divide_mild _ _)
  | imul2 z r o =>
    exact .next (fun _ => rfl) (.bind (Place.read_quiet _).mild fun _ => .bind (.look _) fun _ => putTruncated_mild _ _ _ _)
  | imul3 f => cases f <;> exact .next (fun _ => rfl) (.bind (Place.read_quiet _).mild fun _ => putTruncated_mild _ _ _ _)
  | daa | das =>
    exact .next (fun _ => rfl) (.bind (.look _) fun _ => .bind (.look _) fun _ => .bind (putReg8_mild _ _) fun _ => putFlags_mild _)
  | aaa | aas => exact .next (fun _ => rfl) (asciiAdjust_mild _ _)
  | aam imm =>
    exact .next (fun _ => rfl) (.bind (requireTen_mild _) fun _ => .bind (.look _) fun _ => .bind (putReg8_mild _ _) fun _ =>
      .bind (putReg8_mild _ _) fun _ => putFlags_mild _)
  | aad imm =>
    exact .next (fun _ => rfl) (.bind (requireTen_mild _) fun _ => .bind (.look _) fun _ => .bind (.look _) fun _ =>
      .bind (putReg8_mild _ _) fun _ => .bind (putReg8_mild _ _) fun _ => putFlags_mild _)
  | bt f =>
    exact .next (fun _ => rfl) (.bind (.look _) fun _ => .bind (bitLoc_quiet _ _ _ _).mild fun l => .bind l.get_quiet.mild
      fun _ => putFlags_mild _)
  | bts f | btr f | btc f => exact .next (fun _ => rfl) (bitModify_mild _ _)
  | bsf z r o | bsr z r o => exact .next (fun _ => rfl) (scan_mild _ _ _ _)
  | rol f | ror f | rcl f | rcr f | shl f | shr f | sar f => exact .next (fun _ => rfl) (shiftBy_mild _ _)
  | shld z o r c | shrd z o r c => exact .next (fun _ => rfl) (shiftPair_mild _ _ _ _ _)
  | setcc c d => exact .next (fun _ => rfl) (.bind (.look _) fun _ => Place.write_mild _ _)
  | jcc z c r => exact .mild (fun _ => rfl) (.bind (.look _) fun _ => jumpIf_mild _ _ _)
  | jmpNear f =>
    cases f with
    | rel z r => exact .jump (fun _ => rfl) (.bind nextEip_quiet.mild fun _ => .bind (nearTarget_mild _ _) fun _ => jumpNear_mild _)
    | rm z o => exact .jump (fun _ => rfl) (.bind (.pure _) fun _ => .bind (nearTarget_mild _ _) fun _ => jumpNear_mild _)
  | jmpFar f | callFar f =>
    exact ⟨_, .after_mild Sound.lasting id (farPointer_mild f) fun _ => farTransfer_sound _ _ _ _, fun _ => rfl⟩
  | callNear f =>
    exact .jump (fun _ => rfl) (.bind nextEip_quiet.mild fun _ => .bind (nearTarget_mild _ _) fun _ => .bind (.look _) fun _ =>
      .bind (.require _ _ _) fun _ => .bind (checkTarget_mild _) fun _ => .bind (push_mild _ _) fun _ =>
      .upd fun _ => .of_eq rfl rfl rfl rfl rfl)
  | retNear z n => exact .jump (fun _ => rfl) (.bind (pop_mild _) fun _ => .bind (jumpNear_mild _) fun _ => popBytes_mild _)
  | retFar z n =>
    refine ⟨thenJump _, .then_mild Sound.lasting (.look_bind fun s hs => ?_) fun _ => .pure _, fun _ => rfl⟩
    cases hm : s.mode with
    | prot => exact (farReturn_native _ _ _ s (native_of_mode hs hm)).sound
    | real | v86 => exact (retFarFlat_mild _ _).takes Sound.lasting s hs
  | loop z a v | loope z a v | loopne z a v => exact .mild (fun _ => rfl) (countAndJump_mild _ _ _ _)
  | jcxz z a v => exact .mild (fun _ => rfl) (.bind (.look _) fun _ => jumpIf_mild _ _ _)
  | int3 => exact ⟨_, softwareInterrupt_sound 3, fun _ => rfl⟩
  | int v =>
    exact ⟨_, .after_mild Sound.lasting id (.look _) fun _ => .after_mild Sound.lasting id (.require _ _ _) fun _ =>
      softwareInterrupt_sound v, fun _ => rfl⟩
  | into =>
    exact ⟨_, .after_mild Sound.lasting id (.look _) fun _ => .ite (softwareInterrupt_sound 4)
      ((Mild.pure _).takes Sound.lasting), fun _ => rfl⟩
  | iret z => exact ⟨_, .then_mild Sound.lasting (returnFromEvent_sound z) fun _ => .pure _, fun _ => rfl⟩
  | bound z r m =>
    exact .next (fun _ => rfl) (.bind (effAddr_quiet _).mild fun _ => .bind (.look _) fun _ => .bind (memRead_quiet _ _ _ _).mild
      fun _ => .bind (.require _ _ _) fun _ => .bind (memRead_quiet _ _ _ _).mild fun _ => .bind (.look _) fun _ =>
      .require _ _ _)
  | movsb a => exact .mild (fun _ => rfl) (repeated_mild _ _ (movsOnce_mild _ _))
  | movsv z a => exact .mild (fun _ => rfl) (repeated_mild _ _ (movsOnce_mild _ _))
  | cmpsb a => exact .mild (fun _ => rfl) (repeated_mild _ _ (cmpsOnce_mild _ _))
  | cmpsv z a => exact .mild (fun _ => rfl) (repeated_mild _ _ (cmpsOnce_mild _ _))
  | scasb a => exact .mild (fun _ => rfl) (repeated_mild _ _ (scasOnce_mild _ _))
  | scasv z a => exact .mild (fun _ => rfl) (repeated_mild _ _ (scasOnce_mild _ _))
  | lodsb a => exact .mild (fun _ => rfl) (repeated_mild _ _ (lodsOnce_mild _ _))
  | lodsv z a => exact .mild (fun _ => rfl) (repeated_mild _ _ (lodsOnce_mild _ _))
  | stosb a => exact .mild (fun _ => rfl) (repeated_mild _ _ (stosOnce_mild _ _))
  | stosv z a => exact .mild (fun _ => rfl) (repeated_mild _ _ (stosOnce_mild _ _))
  | insb a => exact .mild (fun _ => rfl) (repeated_mild _ _ (insOnce_mild _ _))
  | insv z a => exact .mild (fun _ => rfl) (repeated_mild _ _ (insOnce_mild _ _))
  | outsb a => exact .mild (fun _ => rfl) (repeated_mild _ _ (outsOnce_mild _ _))
  | outsv z a => exact .mild (fun _ => rfl) (repeated_mild _ _ (outsOnce_mild _ _))
  | enter z size level =>
    exact .next (fun _ => rfl) (.bind (.look _) fun _ => .bind (push_mild _ _) fun _ => .bind (.look _) fun _ =>
      .bind (pushDisplay_mild _ _ _) fun _ => .bind (putRegZ_mild _ _ _) fun _ => .bind (.look _) fun _ => putReg_mild _ _)
  | leave z =>
    exact .next (fun _ => rfl) (.bind (.look _) fun _ => .bind (putReg_mild _ _) fun _ => .bind (pop_mild _) fun _ =>
      putRegZ_mild _ _ _)
  | clc | stc | cld | std => exact .next (fun _ => rfl) (putFlag_mild _ _ (by decide))
  | cmc => exact .next (fun _ => rfl) (.upd fun s => .setFlag s _ (by decide))
  | cli => exact .next (fun _ => rfl) (.bind requireIopl_mild fun _ => putFlag_mild _ _ (by decide))
  | sti =>
    exact .mild (fun _ => rfl) (.bind requireIopl_mild fun _ => .bind (.look _) fun _ => .bind (putFlag_mild _ _ (by decide))
      fun _ => .pure _)
  | lahf => exact .next (fun _ => rfl) (.bind (.look _) fun _ => .bind .draw fun _ => putReg8_mild _ _)
  | sahf => exact .next (fun _ => rfl) (.bind (.look _) fun _ => .upd fun s => .loadFlags s _ _ (by decide))
  | pushf z =>
    refine .next (fun _ => rfl) (.bind requireV86Iopl_mild fun _ => ?_)
    cases z
    · exact .bind (.look _) fun _ => push_mild _ _
    · exact .bind (flagImage_quiet _).mild fun _ => push_mild _ _
  | popf z =>
    exact .mild (fun _ => rfl) (.bind requireV86Iopl_mild fun _ => .bind (pop_mild _) fun _ =>
      .bind (.upd fun s => .loadFlags s _ _ (flagMask_held s)) fun _ => .pure _)
  | lea z r m => exact .next (fun _ => rfl) (.bind (effAddr_quiet _).mild fun _ => putRegZ_mild _ _ _)
  | nop => exact .next (fun _ => rfl) (.pure ())
  | xlat a =>
    exact .next (fun _ => rfl) (.bind (.look _) fun _ => .bind (.look _) fun _ => .bind (.look _) fun _ =>
      .bind (memRead_quiet _ _ _ _).mild fun _ => putReg8_mild _ _)
  | esc opc ext o =>
    exact .next (fun _ => rfl) (.bind (.look _) fun _ => .bind (.require _ _ _) fun _ => .bind (.require _ _ _) fun _ =>
      .bind (checkEscOperand_mild _) fun _ => .stop _)
  | wait =>
    exact .mild (fun _ => rfl) (.bind (.look _) fun _ => .bind (.require _ _ _) fun _ => .ite (.pure _)
      (.bind (.require _ _ _) fun _ => .pure _))
  | lds z r m | les z r m | lfs z r m | lgs z r m | lss z r m => exact .next (fun _ => rfl) (loadPointer_mild _ _ _ _)
  | inp n p =>
    exact .next (fun _ => rfl) (.bind (portOf_mild _) fun _ => .bind (checkIo_mild _ _) fun _ => .bind (portRead_mild _ _)
      fun _ => putAccW_mild _ _)
  | outp n p =>
    exact .next (fun _ => rfl) (.bind (portOf_mild _) fun _ => .bind (checkIo_mild _ _) fun _ => .bind (accW_mild _)
      fun _ => portWrite_mild _ _ _)
  | lgdt z m | lidt z m =>
    exact .next (fun _ => rfl) (.bind requireCpl0_mild fun _ => .bind (readTable_quiet _ _).mild fun _ =>
      .upd fun _ => .of_eq rfl rfl rfl rfl rfl)
  | sgdt z m | sidt z m => exact .next (fun _ => rfl) (.bind (.look _) fun _ => (writeTable_quiet _ _ _).mild)
  | lldt o =>
    exact .next (fun _ => rfl) (.bind requireProtected_mild fun _ => .bind requireCpl0_mild fun _ =>
      .bind (Place.read_quiet _).mild fun _ => .ite (.upd fun _ => .of_eq rfl rfl rfl rfl rfl) <|
      .bind (needGdt_quiet _).mild fun _ => .bind (.require _ _ _) fun _ => .bind (.require _ _ _) fun _ =>
      .upd fun _ => .of_eq rfl rfl rfl rfl rfl)
  | sldt d | str d =>
    exact .next (fun _ => rfl) (.bind requireProtected_mild fun _ => .bind (.look _) fun _ => Place.write_mild _ _)
  | ltr o =>
    exact .next (fun _ => rfl) (.bind requireProtected_mild fun _ => .bind requireCpl0_mild fun _ =>
      .bind (Place.read_quiet _).mild fun _ => .bind (.require _ _ _) fun _ => .bind (needGdt_quiet _).mild fun _ =>
      .bind (.require _ _ _) fun _ => .bind (.require _ _ _) fun _ => .bind (writeRights_quiet _ _).mild fun _ =>
      .upd fun _ => .of_eq rfl rfl rfl rfl rfl)
  | lmsw o =>
    refine ⟨thenNext _, .then_mild Sound.lasting ?_ fun _ => .pure _, fun _ => rfl⟩
    exact .after_mild Sound.lasting id requireCpl0_mild fun _ => .after_mild Sound.lasting id (Place.read_quiet _).mild
      fun v s hs => sound_putCr0 hs (lmsw_bits v _).1 (lmsw_bits v _).2
  | smsw d => exact .next (fun _ => rfl) (.bind (.look _) fun _ => Place.write_mild _ _)
  | clts =>
    refine ⟨thenNext _, .then_mild Sound.lasting ?_ fun _ => .pure _, fun _ => rfl⟩
    exact .after_mild Sound.lasting id requireCpl0_mild fun _ s hs =>
      sound_putCr0 hs (fun h => (bit_putBit_ne _ _ (by decide)).trans h) (bit_putBit_ne _ _ (by decide))
  | hlt => exact .next (fun _ => rfl) (.bind requireCpl0_mild fun _ => .upd fun _ => .of_eq rfl rfl rfl rfl rfl)
  | movFromCr r c =>
    exact .next (fun _ => rfl) (.bind requireCpl0_mild fun _ => .bind (.look _) fun _ => .bind (putReg_mild _ _) fun _ =>
      putFlags_mild _)
  | movToCr c r => exact ⟨_, movToCr_sound c r, fun _ => rfl⟩
  | movFromDr r d =>
    exact .next (fun _ => rfl) (.bind requireCpl0_mild fun _ => .bind requireDebugFree_mild fun _ => .bind (.look _) fun _ =>
      .bind (putReg_mild _ _) fun _ => putFlags_mild _)
  | movToDr d r =>
    exact .next (fun _ => rfl) (.bind requireCpl0_mild fun _ => .bind requireDebugFree_mild fun _ => .bind (.look _) fun _ =>
      .bind (.upd fun _ => .of_eq rfl rfl rfl rfl rfl) fun _ => putFlags_mild _)
  | movFromTr r t =>
    exact .next (fun _ => rfl) (.bind requireCpl0_mild fun _ => .bind (.look _) fun _ => .bind (putReg_mild _ _) fun _ =>
      putFlags_mild _)
  | movToTr t r =>
    exact .next (fun _ => rfl) (.bind requireCpl0_mild fun _ => .bind (.look _) fun _ => .bind (putTreg_mild _ _) fun _ =>
      putFlags_mild _)
  | lar z r o =>
    refine .next (fun _ => rfl) (.bind requireProtected_mild fun _ => .bind (Place.read_quiet _).mild fun _ =>
      .bind (visibleDesc_quiet _ _).mild fun d => ?_)
    cases d
    · exact zf_mild _
    · exact .bind (rightsOf_quiet _ _).mild fun _ => .bind (putRegZ_mild _ _ _) fun _ => zf_mild _
  | lsl z r o =>
    refine .next (fun _ => rfl) (.bind requireProtected_mild fun _ => .bind (Place.read_quiet _).mild fun _ =>
      .bind (visibleDesc_quiet _ _).mild fun d => ?_)
    cases d
    · exact zf_mild _
    · exact .bind (putRegZ_mild _ _ _) fun _ => zf_mild _
  | verr o | verw o => exact .next (fun _ => rfl) (verify_mild _ _)
  | arpl d r =>
    exact .next (fun _ => rfl) (.bind requireProtected_mild fun _ => .bind (.look _) fun _ => .bind (Place.loc_quiet _ _).mild
      fun l => .bind l.get_quiet.mild fun _ => .ite (.bind (l.put_mild _) fun _ => zf_mild _) (zf_mild _))
  | intelReserved k => exact .mild (fun _ => rfl) (.stop _)

/-- Prefixes only record themselves. -/
theorem exec_prefix {i : Instr} (h : isPrefix i = true) (s : State) :
    ∃ p : Latch, exec i s = .next { s with pfx := p } := by
  cases i with
  | segEs | segCs | segSs | segDs | segFs | segGs | opsize | adrsize | lock | repne | rep => exact ⟨_, rfl⟩
  | _ => cases h

theorem exec_sound {i : Instr} {s t : State} (hs : Sound s) (h : exec i s = .next t) : Sound t := by
  cases hp : isPrefix i with
  | true =>
    obtain ⟨f, e⟩ := exec_prefix hp s
    rw [e] at h; cases h; exact hs
  | false =>
    obtain ⟨body, hb, e⟩ := exec_runs i hp
    exact runInstr_sound hb hs ((e s).symm.trans h)

/-! The boundary and the step. -/

theorem fetchByte_quiet (k : Nat) : Quiet (fetchByte k) :=
  .bind (.bind (.look _) fun _ => .bind (.require _ _ _) fun _ => translate_quiet _ _ _) fun _ => physRead_quiet _

theorem fetchUnit_quiet (os as : Sz) (start room : Nat) (bytes : List Byte) : Quiet (fetchUnit os as start room bytes) := by
  induction room generalizing bytes with
  | zero => unfold fetchUnit; cases decode os as bytes <;> [exact .pure _; exact .raise _ _; exact .raise _ _]
  | succ room ih =>
    unfold fetchUnit
    cases decode os as bytes
    · exact .pure _
    · exact .bind (fetchByte_quiet _) fun _ => ih _
    · exact .raise _ _

theorem fetch_quiet : Quiet fetch := .bind (.look _) fun _ => fetchUnit_quiet _ _ _ _ _

theorem runUnit_sound {s t : State} (hs : Sound s) (h : runUnit s = .next t) : Sound t := by
  have hf := fetch_quiet.mild.takes Sound.lasting s hs
  unfold runUnit at h
  cases e : fetch s with
  | ok a u => rw [e] at h hf; exact exec_sound (s := u.fetched a.2) hf h
  | error x u =>
    rw [e] at h hf
    cases x with
    | exc x => exact takeEvent_sound (rollback_sound hs hf) h
    | fault x => cases h
    | refusal x => cases h

theorem takeNmi_sound {s t : State} (hs : Sound s) (h : takeNmi s = .next t) : Sound t :=
  takeEvent_sound (s := { s with nmiPending := false, nmiInService := true }) hs h

theorem activeBoundary_sound {s t : State} (hs : Sound s) (h : activeBoundary s = .next t) : Sound t := by
  unfold activeBoundary at h
  cases ha : s.activity <;> rw [ha] at h
  case running =>
    change runBoundary s = _ at h
    unfold runBoundary at h
    split at h
    · exact takeEvent_sound (s := { afterMatch s with dr := _ }) hs h
    · split at h
      · exact takeNmi_sound hs h
      · split at h
        · exact takeEvent_sound hs h
        · exact runUnit_sound (s := afterMatch s) hs h
  case halted =>
    change haltedBoundary s = _ at h
    unfold haltedBoundary at h
    split at h
    · exact takeNmi_sound hs h
    · split at h
      · exact takeEvent_sound hs h
      · cases h; exact hs
  case shutdown =>
    change shutdownBoundary s = _ at h
    unfold shutdownBoundary at h
    split at h
    · exact takeNmi_sound hs h
    · cases h; exact hs

/-- Reset leaves memory, and every register as after power-up (R830). -/
theorem resetEvent_sound {s : State} (b : Bool) (hs : Sound s) : Sound (s.resetEvent b) := by
  have h0 := (inv_iff State.reset).1 (by decide)
  exact (inv_iff _).2 ⟨((inv_iff s).1 hs).1, h0.2⟩

theorem step_sound {s t : State} (hs : Sound s) (h : step s = .next t) : Sound t := by
  unfold step cycle boundary at h
  split at h
  · split at h
    · cases h; exact resetEvent_sound _ hs
    · split at h
      · exact takeEvent_sound (s := { s with pendingExc := none }) hs h
      · split at h
        · exact takeEvent_sound (s := { s with dr := _, traps := .none }) hs h
        · exact activeBoundary_sound hs h
  · exact runUnit_sound hs h

/-- Settles O3: by what each boundary and each instruction's body keeps. -/
theorem invariantKept : Obligations.InvariantKept := fun _ _ hs h => step_sound hs h

end Sys2Proof.Machine

/-!
The encoder and the decoder agree (obligation O4). `Reads p bs a` says that the reader takes exactly the bytes `bs`,
whatever follows. The parts of an instruction first (words, displacements, ModR/M operands), then each form, then the
instructions.
-/
namespace Sys2Proof

/-- The reader takes the bytes `bs`, whatever follows them, and answers `a`. -/
def Reads {α : Type} (p : Reader α) (bs : List Byte) (a : α) : Prop :=
  ∀ rest, p (bs ++ rest) = .ok a rest

namespace Reads

variable {α β : Type}

theorem pure (a : α) : Reads (Pure.pure a) [] a := fun _ => rfl

theorem bind {p : Reader α} {f : α → Reader β} {bs cs : List Byte} {a : α} {b : β}
    (hp : Reads p bs a) (hf : Reads (f a) cs b) : Reads (p >>= f) (bs ++ cs) b := by
  intro rest
  have hb : (p >>= f) ((bs ++ cs) ++ rest) = f a (cs ++ rest) := by
    rw [List.append_assoc]
    simp only [Bind.bind, EStateM.bind, hp (cs ++ rest)]
  rw [hb, hf rest]

/-- The last thing read, wrapped up. -/
theorem last {p : Reader α} {f : α → β} {bs : List Byte} {a : α} (hp : Reads p bs a) :
    Reads (p >>= fun x => Pure.pure (f x)) bs (f a) := by
  have h := hp.bind (f := fun x => Pure.pure (f x)) (.pure (f a))
  rwa [List.append_nil] at h

theorem byte (b : Byte) : Reads Reader.byte [b] b := fun _ => rfl

/-- A byte and what is read after it. -/
theorem cons {f : Byte → Reader β} {b : Byte} {cs : List Byte} {c : β} (h : Reads (f b) cs c) :
    Reads (Reader.byte >>= f) (b :: cs) c := (byte b).bind h

theorem half (v : Half) : Reads Reader.half (Half.bytes v) v := by
  have hv : v.extractLsb' 8 8 ++ v.extractLsb' 0 8 = v := by
    apply BitVec.eq_of_getLsbD_eq; intro i hi
    simp only [BitVec.getLsbD_append, BitVec.getLsbD_extractLsb']
    grind
  intro rest
  simp [Reader.half, Reader.byte, Half.bytes, Bind.bind, EStateM.bind, Pure.pure, EStateM.pure, hv]

theorem word (v : Word) : Reads Reader.word (Word.bytes v) v := by
  have hv : v.extractLsb' 16 16 ++ v.extractLsb' 0 16 = v := by
    apply BitVec.eq_of_getLsbD_eq; intro i hi
    simp only [BitVec.getLsbD_append, BitVec.getLsbD_extractLsb']
    grind
  have hb : Word.bytes v = Half.bytes (v.extractLsb' 0 16) ++ Half.bytes (v.extractLsb' 16 16) := by
    have h8 : v.extractLsb' 16 8 = (v.extractLsb' 16 16).extractLsb' 0 8 := by
      apply BitVec.eq_of_getLsbD_eq; intro i hi; simp; grind
    have h24 : v.extractLsb' 24 8 = (v.extractLsb' 16 16).extractLsb' 8 8 := by
      apply BitVec.eq_of_getLsbD_eq; intro i hi; simp; grind
    simp [Word.bytes, Half.bytes, h8, h24]
  have h := (half (v.extractLsb' 0 16)).bind (f := fun h0 => Reader.half >>= fun h1 => Pure.pure (h1 ++ h0))
    (half (v.extractLsb' 16 16)).last
  rw [hv] at h
  rw [hb]
  exact h

theorem sized {z : Sz} {v : Word} (hv : z.fits v = true) : Reads (Reader.sized z) (z.bytesOf v) v := by
  cases z with
  | s32 => exact word v
  | s16 =>
    have hz : (v.extractLsb' 0 16).zeroExtend 32 = v := by
      have : v.toNat < 65536 := by simpa [Sz.fits] using hv
      apply BitVec.eq_of_toNat_eq
      simp [BitVec.extractLsb'_toNat]
      omega
    have h := (half (v.extractLsb' 0 16)).last (f := fun h => BitVec.zeroExtend 32 h)
    rw [hz] at h
    exact h

end Reads

/-! Register codes name their registers. -/

@[simp] theorem Gpr.ofCode_code (r : Gpr) : Gpr.ofCode r.code = r := by cases r <;> rfl
@[simp] theorem Gpr8.ofCode_code (r : Gpr8) : Gpr8.ofCode r.code = r := by cases r <;> rfl
@[simp] theorem Sreg.ofCode_code (r : Sreg) : Sreg.ofCode r.code = some r := by cases r <;> rfl
@[simp] theorem Creg.ofCode_code (r : Creg) : Creg.ofCode r.code = some r := by cases r <;> rfl
@[simp] theorem Dreg.ofCode_code (r : Dreg) : Dreg.ofCode r.code = some r := by cases r <;> rfl
@[simp] theorem Treg.ofCode_code (r : Treg) : Treg.ofCode r.code = some r := by cases r <;> rfl
@[simp] theorem Cond.ofCode_code (c : Cond) : Cond.ofCode c.code = c := by cases c <;> rfl
@[simp] theorem Base16.ofCode_code (b : Base16) : Base16.ofCode b.code = b := by cases b <;> rfl

/-! The three fields of a ModR/M or SIB byte. -/

@[simp] theorem modOf_fields (m : BitVec 2) (r l : BitVec 3) : modOf (fields233 m r l) = m := by
  revert m r l; decide
@[simp] theorem regOf_fields (m : BitVec 2) (r l : BitVec 3) : regOf (fields233 m r l) = r := by
  revert m r l; decide
@[simp] theorem rmOf_fields (m : BitVec 2) (r l : BitVec 3) : rmOf (fields233 m r l) = l := by
  revert m r l; decide

theorem fields_high (m : BitVec 2) (r l : BitVec 3) : (fields233 m r l).extractLsb' 6 2 = m := modOf_fields m r l
theorem fields_middle (m : BitVec 2) (r l : BitVec 3) : (fields233 m r l).extractLsb' 3 3 = r := regOf_fields m r l
theorem fields_low (m : BitVec 2) (r l : BitVec 3) : (fields233 m r l).extractLsb' 0 3 = l := rmOf_fields m r l

/-! Displacements and memory operands. -/

theorem reads_disp16 (d : Disp16) : Reads (Reader.disp16 d.mod) d.bytes d := by
  cases d with
  | none => exact .pure _
  | d8 v => exact (Reads.byte v).last
  | d16 v => exact (Reads.half v).last

theorem reads_disp32 (d : Disp32) : Reads (Reader.disp32 d.mod) d.bytes d := by
  cases d with
  | none => exact .pure _
  | d8 v => exact (Reads.byte v).last
  | d32 v => exact (Reads.word v).last

/-- mod of a memory operand's ModR/M byte. -/
def Mem.modBits : Mem → BitVec 2
  | .m16 _ d => d.mod
  | .abs16 _ => 0
  | .m32 _ d => d.mod
  | .abs32 _ => 0
  | .sib none _ _ _ => 0
  | .sib (some _) _ _ d => d.mod

/-- r/m of a memory operand's ModR/M byte. -/
def Mem.rmBits : Mem → BitVec 3
  | .m16 base _ => base.code
  | .abs16 _ => 6
  | .m32 base _ => base.code
  | .abs32 _ => 5
  | .sib _ _ _ _ => 4

/-- The bytes of a memory operand after its ModR/M byte. -/
def Mem.after (m : Mem) : List Byte := (m.encode 0).tail

theorem Mem.encode_eq (m : Mem) (reg : BitVec 3) :
    m.encode reg = fields233 m.modBits reg m.rmBits :: m.after := by
  cases m with
  | sib base _ _ _ => cases base <;> rfl
  | _ => rfl

theorem Disp16.mod_ne (d : Disp16) : d.mod ≠ 3 := by
  cases d <;> simp [Disp16.mod]

theorem Disp32.mod_ne (d : Disp32) : d.mod ≠ 3 := by
  cases d <;> simp [Disp32.mod]

theorem Mem.modBits_ne (m : Mem) : m.modBits ≠ 3 := by
  match m with
  | .m16 _ d => exact d.mod_ne
  | .m32 _ d => exact d.mod_ne
  | .sib (some _) _ _ d => exact d.mod_ne
  | .abs16 _ | .abs32 _ | .sib none _ _ _ => exact (by decide : (0 : BitVec 2) ≠ 3)

theorem Disp16.mod_eq_zero {d : Disp16} : d.mod = 0 ↔ d = .none := by
  cases d <;> simp [Disp16.mod]

theorem Disp32.mod_eq_zero {d : Disp32} : d.mod = 0 ↔ d = .none := by
  cases d <;> simp [Disp32.mod]

theorem Gpr.code_eq_four {r : Gpr} : r.code = 4 ↔ r = .sp := by
  cases r <;> decide

theorem Gpr.code_eq_five {r : Gpr} : r.code = 5 ↔ r = .bp := by
  cases r <;> decide

theorem Base16.code_eq_six {b : Base16} : b.code = 6 ↔ b = .bp := by
  cases b <;> decide

/-- The index field of an SIB byte: 100 names no register. -/
def indexBits : Option Gpr → BitVec 3
  | none => 4
  | some r => r.code

theorem index_of_bits {index : Option Gpr} (h : index ≠ some .sp) :
    (if indexBits index == 4 then none else some (Gpr.ofCode (indexBits index))) = index := by
  cases index with
  | none => rfl
  | some r =>
    have hr : r.code ≠ 4 := fun hc => h (by rw [Gpr.code_eq_four.1 hc])
    rw [if_neg (by simpa [indexBits] using hr), indexBits, Gpr.ofCode_code]

theorem reads_sib_word {index : Option Gpr} (hi : index ≠ some .sp) (scale : BitVec 2) (v : Word) :
    Reads (Reader.sib 0) (fields233 scale (indexBits index) 5 :: Word.bytes v) (.sib none index scale (.d32 v)) := by
  refine Reads.cons ?_
  have hr := (Reads.word v).last (f := fun w => Mem.sib none index scale (.d32 w))
  simpa only [fields_high, fields_middle, fields_low, index_of_bits hi, BEq.rfl, Bool.and_self, if_true] using hr

theorem reads_sib_base {index : Option Gpr} (hi : index ≠ some .sp) (scale : BitVec 2) {b : Gpr} {d : Disp32}
    (hb : ¬ (b = .bp ∧ d = .none)) :
    Reads (Reader.sib d.mod) (fields233 scale (indexBits index) b.code :: d.bytes) (.sib (some b) index scale d) := by
  refine Reads.cons ?_
  have hr := (reads_disp32 d).last (f := fun e => Mem.sib (some b) index scale e)
  have hc : (b.code == 5 && d.mod == 0) = false := by
    rw [Bool.eq_false_iff, Ne, Bool.and_eq_true, beq_iff_eq, beq_iff_eq, Gpr.code_eq_five, Disp32.mod_eq_zero]
    exact hb
  simpa only [fields_high, fields_middle, fields_low, index_of_bits hi, hc, Gpr.ofCode_code, Bool.false_eq_true,
    if_false] using hr

/-- A memory operand is read from the bytes after its ModR/M byte. -/
theorem reads_mem {as : Sz} {m : Mem} (h : m.wf as = true) : Reads (Reader.mem as m.modBits m.rmBits) m.after m := by
  match m with
  | .m16 base d =>
    simp only [Mem.wf, Bool.and_eq_true, beq_iff_eq, Bool.not_eq_true', Bool.and_eq_false_iff, beq_eq_false_iff_ne] at h
    obtain ⟨rfl, hb⟩ := h
    have hc : (d.mod == 0 && base.code == 6) = false := by
      rw [Bool.eq_false_iff, Ne, Bool.and_eq_true, beq_iff_eq, beq_iff_eq, Base16.code_eq_six, Disp16.mod_eq_zero]
      grind
    have hr := (reads_disp16 d).last (f := fun e => Mem.m16 base e)
    show Reads _ d.bytes _
    simpa only [Reader.mem, Mem.modBits, Mem.rmBits, hc, Base16.ofCode_code, Bool.false_eq_true, if_false] using hr
  | .abs16 a =>
    simp only [Mem.wf, beq_iff_eq] at h
    subst h
    exact (Reads.half a).last
  | .m32 base d =>
    simp only [Mem.wf, Bool.and_eq_true, beq_iff_eq, Bool.not_eq_true', Bool.and_eq_false_iff, beq_eq_false_iff_ne,
      bne_iff_ne] at h
    obtain ⟨⟨rfl, hsp⟩, hb⟩ := h
    have h4 : (base.code == 4) = false := by
      rw [beq_eq_false_iff_ne, Ne, Gpr.code_eq_four]
      exact hsp
    have hc : (d.mod == 0 && base.code == 5) = false := by
      rw [Bool.eq_false_iff, Ne, Bool.and_eq_true, beq_iff_eq, beq_iff_eq, Gpr.code_eq_five, Disp32.mod_eq_zero]
      grind
    have hr := (reads_disp32 d).last (f := fun e => Mem.m32 base e)
    show Reads _ d.bytes _
    simpa only [Reader.mem, Mem.modBits, Mem.rmBits, h4, hc, Gpr.ofCode_code, Bool.false_eq_true, if_false] using hr
  | .abs32 a =>
    simp only [Mem.wf, beq_iff_eq] at h
    subst h
    exact (Reads.word a).last
  | .sib base index scale d =>
    simp only [Mem.wf, Bool.and_eq_true, beq_iff_eq, bne_iff_ne] at h
    obtain ⟨⟨rfl, hi⟩, hb⟩ := h
    match base, d, hb with
    | none, .d32 v, _ => exact reads_sib_word hi scale v
    | some b, d, hb => exact reads_sib_base hi scale (by rintro ⟨rfl, rfl⟩; exact absurd hb (by decide))

/-! Operands named by ModR/M: their first byte, the bytes after it, and how they are read back. -/

/-- The ModR/M byte of a memory operand. -/
def Mem.lead (reg : BitVec 3) (m : Mem) : Byte := fields233 m.modBits reg m.rmBits

def Rm8.lead (reg : BitVec 3) : Rm8 → Byte
  | .reg r => fields233 3 reg r.code
  | .mem m => m.lead reg

def Rm8.after : Rm8 → List Byte
  | .reg _ => []
  | .mem m => m.after

def Rm.lead (reg : BitVec 3) : Rm → Byte
  | .reg r => fields233 3 reg r.code
  | .mem m => m.lead reg

def Rm.after : Rm → List Byte
  | .reg _ => []
  | .mem m => m.after

theorem Rm8.encode_eq (d : Rm8) (reg : BitVec 3) : d.encode reg = d.lead reg :: d.after := by
  cases d with
  | reg r => rfl
  | mem m => exact m.encode_eq reg

theorem Rm.encode_eq (d : Rm) (reg : BitVec 3) : d.encode reg = d.lead reg :: d.after := by
  cases d with
  | reg r => rfl
  | mem m => exact m.encode_eq reg

@[simp] theorem Mem.regOf_lead (m : Mem) (reg : BitVec 3) : regOf (m.lead reg) = reg := regOf_fields _ _ _

@[simp] theorem Rm8.regOf_lead (d : Rm8) (reg : BitVec 3) : regOf (d.lead reg) = reg := by
  cases d <;> exact regOf_fields _ _ _

@[simp] theorem Rm.regOf_lead (d : Rm) (reg : BitVec 3) : regOf (d.lead reg) = reg := by
  cases d <;> exact regOf_fields _ _ _

theorem Mem.modOf_lead (m : Mem) (reg : BitVec 3) : (modOf (m.lead reg) == 3) = false := by
  rw [beq_eq_false_iff_ne, Mem.lead, modOf_fields]
  exact m.modBits_ne

theorem Mem.reads_lead {as : Sz} {m : Mem} (h : m.wf as = true) (reg : BitVec 3) :
    Reads (Reader.mem as (modOf (m.lead reg)) (rmOf (m.lead reg))) m.after m := by
  rw [Mem.lead, modOf_fields, rmOf_fields]
  exact reads_mem h

theorem reads_memOnly {as : Sz} {m : Mem} (h : m.wf as = true) (reg : BitVec 3) :
    Reads (Reader.memOnly as (m.lead reg)) m.after m := by
  rw [Reader.memOnly, m.modOf_lead]
  exact m.reads_lead h reg

theorem reads_rm8 {as : Sz} {d : Rm8} (h : d.wf as = true) (reg : BitVec 3) :
    Reads (Reader.rm8 as (d.lead reg)) d.after d := by
  cases d with
  | reg r =>
    rw [Reader.rm8, Rm8.lead, modOf_fields, rmOf_fields, Gpr8.ofCode_code]
    exact .pure _
  | mem m =>
    rw [Reader.rm8, Rm8.lead, m.modOf_lead]
    exact (m.reads_lead h reg).last

theorem reads_rm {as : Sz} {d : Rm} (h : d.wf as = true) (reg : BitVec 3) :
    Reads (Reader.rm as (d.lead reg)) d.after d := by
  cases d with
  | reg r =>
    rw [Reader.rm, Rm.lead, modOf_fields, rmOf_fields, Gpr.ofCode_code]
    exact .pure _
  | mem m =>
    rw [Reader.rm, Rm.lead, m.modOf_lead]
    exact (m.reads_lead h reg).last

end Sys2Proof

/-!
The reader on the encodings of the forms (O4): an operand with its ModR/M byte, then each form of an instruction.
-/
namespace Sys2Proof

/-! Reading an operand together with its ModR/M byte. -/

section
variable {β : Type} {os as z : Sz} {m : Mem} {e : Rm8} {d : Rm} {v : Word} {reg : BitVec 3} {tail : List Byte} {a : β}

theorem reads_unit {b : Byte} {bs : List Byte} {i : Instr} (h : Reads (Reader.op os as b) bs i) :
    Reads (Reader.unit os as) (b :: bs) i := h.cons

theorem reads_op0F {b : Byte} {bs : List Byte} {i : Instr} {p : Reader Instr} (hp : ∀ r, Reader.op0F os as (b :: r) = p r)
    (h : Reads p bs i) : Reads (Reader.unit os as) (0x0F :: b :: bs) i :=
  reads_unit fun rest => (hp (bs ++ rest)).trans (h rest)

/-- A memory operand, where the reader looks at the ModR/M byte first. -/
theorem reads_mem_cons {k : Byte → Reader β} (h : Reads (k (m.lead reg)) m.after a) :
    Reads (Reader.byte >>= k) (m.encode reg) a := by
  rw [m.encode_eq]
  exact h.cons

theorem reads_rm8_cons {k : Byte → Reader β} (h : Reads (k (e.lead reg)) e.after a) :
    Reads (Reader.byte >>= k) (e.encode reg) a := by
  rw [e.encode_eq]
  exact h.cons

theorem reads_rm_cons {k : Byte → Reader β} (h : Reads (k (d.lead reg)) d.after a) :
    Reads (Reader.byte >>= k) (d.encode reg) a := by
  rw [d.encode_eq]
  exact h.cons

theorem reads_rm8_cons_append {k : Byte → Reader β} (h : Reads (k (e.lead reg)) (e.after ++ tail) a) :
    Reads (Reader.byte >>= k) (e.encode reg ++ tail) a := by
  rw [e.encode_eq]
  exact h.cons

theorem reads_rm_cons_append {k : Byte → Reader β} (h : Reads (k (d.lead reg)) (d.after ++ tail) a) :
    Reads (Reader.byte >>= k) (d.encode reg ++ tail) a := by
  rw [d.encode_eq]
  exact h.cons

/-- A memory operand at the end of an instruction. -/
theorem reads_mem_last {f : Byte → Mem → β} (h : m.wf as = true) (ha : f (m.lead reg) m = a) :
    Reads (Reader.byte >>= fun b => Reader.memOnly as b >>= fun x => pure (f b x)) (m.encode reg) a :=
  ha ▸ reads_mem_cons (reads_memOnly h reg).last

theorem reads_rm8_last {f : Byte → Rm8 → β} (h : e.wf as = true) (ha : f (e.lead reg) e = a) :
    Reads (Reader.byte >>= fun b => Reader.rm8 as b >>= fun x => pure (f b x)) (e.encode reg) a :=
  ha ▸ reads_rm8_cons (reads_rm8 h reg).last

theorem reads_rm_last {f : Byte → Rm → β} (h : d.wf as = true) (ha : f (d.lead reg) d = a) :
    Reads (Reader.byte >>= fun b => Reader.rm as b >>= fun x => pure (f b x)) (d.encode reg) a :=
  ha ▸ reads_rm_cons (reads_rm h reg).last

/-- An operand and what is read after it. -/
theorem reads_rm8_then {k : Byte → Rm8 → Reader β} (h : e.wf as = true) (hk : Reads (k (e.lead reg) e) tail a) :
    Reads (Reader.byte >>= fun b => Reader.rm8 as b >>= k b) (e.encode reg ++ tail) a := by
  rw [e.encode_eq]
  exact ((reads_rm8 h reg).bind hk).cons

theorem reads_rm_then {k : Byte → Rm → Reader β} (h : d.wf as = true) (hk : Reads (k (d.lead reg) d) tail a) :
    Reads (Reader.byte >>= fun b => Reader.rm as b >>= k b) (d.encode reg ++ tail) a := by
  rw [d.encode_eq]
  exact ((reads_rm h reg).bind hk).cons

end

/-! The forms. -/

variable {os as : Sz}

/-- What well-formedness says of an operand size, and the rest of it. -/
theorem eq_and_of_wf {z : Sz} {b : Bool} (h : (z == os && b) = true) : z = os ∧ b = true := by
  rwa [Bool.and_eq_true, beq_iff_eq] at h

theorem eq_and_and_of_wf {z : Sz} {b c : Bool} (h : (z == os && b && c) = true) : z = os ∧ b = true ∧ c = true := by
  rwa [Bool.and_eq_true, Bool.and_eq_true, beq_iff_eq, and_assoc] at h

theorem TestForm.reads {f : TestForm} (h : f.wf os as = true) : Reads (Reader.unit os as) f.encode (.test f) := by
  cases f with
  | mr8 d r => exact reads_unit (reads_rm8_last h (by simp))
  | mr z d r =>
    obtain ⟨rfl, hd⟩ := eq_and_of_wf h
    exact reads_unit (reads_rm_last hd (by simp))
  | ai8 imm => exact reads_unit (Reads.byte imm).last
  | ai z imm =>
    obtain ⟨rfl, hv⟩ := eq_and_of_wf h
    exact reads_unit (Reads.sized hv).last
  | mi8 d imm =>
    refine reads_unit (reads_rm8_cons_append ?_)
    simp only [Rm8.regOf_lead]
    exact (reads_rm8 h _).bind (Reads.byte imm).last
  | mi z d imm =>
    obtain ⟨rfl, hd, hv⟩ := eq_and_and_of_wf h
    refine reads_unit (reads_rm_cons_append ?_)
    simp only [Rm.regOf_lead]
    exact (reads_rm hd _).bind (Reads.sized hv).last

theorem MovForm.reads {f : MovForm} (h : f.wf os as = true) : Reads (Reader.unit os as) f.encode (.mov f) := by
  cases f with
  | mr8 d r => exact reads_unit (reads_rm8_last h (by simp))
  | mr z d r =>
    obtain ⟨rfl, hd⟩ := eq_and_of_wf h
    exact reads_unit (reads_rm_last hd (by simp))
  | rm8 r o => exact reads_unit (reads_rm8_last h (by simp))
  | rm z r o =>
    obtain ⟨rfl, hd⟩ := eq_and_of_wf h
    exact reads_unit (reads_rm_last hd (by simp))
  | loadA8 a off =>
    obtain ⟨rfl, hv⟩ := eq_and_of_wf h
    exact reads_unit (Reads.sized hv).last
  | storeA8 a off =>
    obtain ⟨rfl, hv⟩ := eq_and_of_wf h
    exact reads_unit (Reads.sized hv).last
  | loadA z a off =>
    obtain ⟨rfl, ha, hv⟩ := eq_and_and_of_wf h
    obtain rfl := eq_of_beq ha
    exact reads_unit (Reads.sized hv).last
  | storeA z a off =>
    obtain ⟨rfl, ha, hv⟩ := eq_and_and_of_wf h
    obtain rfl := eq_of_beq ha
    exact reads_unit (Reads.sized hv).last
  | ri8 r imm =>
    refine reads_unit ?_
    cases r <;> exact (Reads.byte imm).last
  | ri z r imm =>
    obtain ⟨rfl, hv⟩ := eq_and_of_wf h
    refine reads_unit ?_
    cases r <;> exact (Reads.sized hv).last
  | mi8 d imm =>
    refine reads_unit (reads_rm8_cons_append ?_)
    simp only [Rm8.regOf_lead]
    exact (reads_rm8 h _).bind (Reads.byte imm).last
  | mi z d imm =>
    obtain ⟨rfl, hd, hv⟩ := eq_and_and_of_wf h
    refine reads_unit (reads_rm_cons_append ?_)
    simp only [Rm.regOf_lead]
    exact (reads_rm hd _).bind (Reads.sized hv).last

/-- The arithmetic rows: the row is the operation, the column the form. -/
theorem op_of_row {row col : Nat} (hr : row < 8) (hc : col < 6) :
    Reader.op os as (BitVec.ofNat 8 (8 * row + col)) =
      (Reader.aluForm os as col >>= fun f => pure (aluInstr row f)) := by
  interval_cases row <;> interval_cases col <;> rfl

theorem AluForm.reads {row : Nat} (hrow : row < 8) {f : AluForm} (h : f.wf os as = true) :
    Reads (Reader.unit os as) (f.encode row) (aluInstr row f) := by
  have hdigit : (BitVec.ofNat 3 row).toNat = row := by
    rw [BitVec.toNat_ofNat]
    exact Nat.mod_eq_of_lt hrow
  have hrows {col : Nat} (hc : col < 6) {bs : List Byte} {g : AluForm} (hf : Reads (Reader.aluForm os as col) bs g) :
      Reads (Reader.unit os as) (BitVec.ofNat 8 (8 * row + col) :: bs) (aluInstr row g) :=
    reads_unit (by rw [op_of_row hrow hc]; exact hf.last)
  cases f with
  | mr8 d r => exact hrows (col := 0) (by decide) (reads_rm8_last h (by simp))
  | mr z d r =>
    obtain ⟨rfl, hd⟩ := eq_and_of_wf h
    exact hrows (col := 1) (by decide) (reads_rm_last hd (by simp))
  | rm8 r o => exact hrows (col := 2) (by decide) (reads_rm8_last h (by simp))
  | rm z r o =>
    obtain ⟨rfl, hd⟩ := eq_and_of_wf h
    exact hrows (col := 3) (by decide) (reads_rm_last hd (by simp))
  | ai8 imm => exact hrows (col := 4) (by decide) (Reads.byte imm).last
  | ai z imm =>
    obtain ⟨rfl, hv⟩ := eq_and_of_wf h
    exact hrows (col := 5) (by decide) (Reads.sized hv).last
  | mi8 d imm =>
    refine reads_unit (reads_rm8_then h ?_)
    simp only [Rm8.regOf_lead, hdigit]
    exact (Reads.byte imm).last
  | mi z d imm =>
    obtain ⟨rfl, hd, hv⟩ := eq_and_and_of_wf h
    refine reads_unit (reads_rm_then hd ?_)
    simp only [Rm.regOf_lead, hdigit]
    exact (Reads.sized hv).last
  | mib z d imm =>
    obtain ⟨rfl, hd⟩ := eq_and_of_wf h
    refine reads_unit (reads_rm_then hd ?_)
    simp only [Rm.regOf_lead, hdigit]
    exact (Reads.byte imm).last

/-- The /digits of group 3 with one operand. -/
def unaryOps : List (BitVec 3 × (UnForm → Instr)) :=
  [(2, .not), (3, .neg), (4, .mul), (5, .imul1), (6, .div), (7, .idiv)]

theorem UnForm.reads {digit : BitVec 3} {op : UnForm → Instr} (hop : (digit, op) ∈ unaryOps) {f : UnForm}
    (h : f.wf os as = true) : Reads (Reader.unit os as) (f.encode digit) (op f) := by
  simp only [unaryOps, List.mem_cons, Prod.mk.injEq, List.not_mem_nil, or_false] at hop
  cases f with
  | rm8 d =>
    refine reads_unit (reads_rm8_cons ?_)
    simp only [Rm8.regOf_lead]
    rcases hop with ⟨rfl, rfl⟩ | ⟨rfl, rfl⟩ | ⟨rfl, rfl⟩ | ⟨rfl, rfl⟩ | ⟨rfl, rfl⟩ | ⟨rfl, rfl⟩ <;>
      exact (reads_rm8 h _).last
  | rm z d =>
    obtain ⟨rfl, hd⟩ := eq_and_of_wf h
    refine reads_unit (reads_rm_cons ?_)
    simp only [Rm.regOf_lead]
    rcases hop with ⟨rfl, rfl⟩ | ⟨rfl, rfl⟩ | ⟨rfl, rfl⟩ | ⟨rfl, rfl⟩ | ⟨rfl, rfl⟩ | ⟨rfl, rfl⟩ <;>
      exact (reads_rm hd _).last

theorem inc_reads {f : IncForm} (h : f.wf os as = true) : Reads (Reader.unit os as) (f.encode 0x40 0) (.inc f) := by
  cases f with
  | r z g =>
    obtain rfl := eq_of_beq h
    cases g <;> exact reads_unit (.pure _)
  | rm8 d =>
    refine reads_unit (reads_rm8_cons ?_)
    simp only [Rm8.regOf_lead]
    exact (reads_rm8 h _).last
  | rm z d =>
    obtain ⟨rfl, hd⟩ := eq_and_of_wf h
    refine reads_unit (reads_rm_cons ?_)
    simp only [Rm.regOf_lead]
    exact (reads_rm hd _).last

theorem dec_reads {f : IncForm} (h : f.wf os as = true) : Reads (Reader.unit os as) (f.encode 0x48 1) (.dec f) := by
  cases f with
  | r z g =>
    obtain rfl := eq_of_beq h
    cases g <;> exact reads_unit (.pure _)
  | rm8 d =>
    refine reads_unit (reads_rm8_cons ?_)
    simp only [Rm8.regOf_lead]
    exact (reads_rm8 h _).last
  | rm z d =>
    obtain ⟨rfl, hd⟩ := eq_and_of_wf h
    refine reads_unit (reads_rm_cons ?_)
    simp only [Rm.regOf_lead]
    exact (reads_rm hd _).last

theorem shiftInstr_of_ne {n : Nat} (hn : n ≠ 6) (f : ShiftForm) (k l : Reserved) :
    shiftInstr n f k = shiftInstr n f l := by
  match n, hn with
  | 0, _ | 1, _ | 2, _ | 3, _ | 4, _ | 5, _ => rfl
  | n + 7, _ => rfl

/-- The rows of group 2 with an 8-bit operand, whatever the count is read from. -/
theorem reads_shift8 {d : Rm8} (h : d.wf as = true) {digit : BitVec 3} (hd : digit ≠ 6) {count : Reader Count}
    {bs : List Byte} {c : Count} (hc : Reads count bs c) (reserved : BitVec 2 → BitVec 3 → Reserved) (k : Reserved) :
    Reads (Reader.shift8 as count reserved) (d.encode digit ++ bs) (shiftInstr digit.toNat (.rm8 d c) k) := by
  have hn : digit.toNat ≠ 6 := fun hn => hd (BitVec.eq_of_toNat_eq hn)
  refine reads_rm8_cons_append ?_
  simp only [Rm8.regOf_lead, beq_eq_false_iff_ne.2 hd, Bool.false_eq_true, if_false]
  rw [shiftInstr_of_ne hn _ k]
  exact (reads_rm8 h _).bind hc.last

theorem reads_shiftV {d : Rm} (h : d.wf as = true) {digit : BitVec 3} (hd : digit ≠ 6) {count : Reader Count}
    {bs : List Byte} {c : Count} (hc : Reads count bs c) (reserved : BitVec 2 → BitVec 3 → Reserved) (k : Reserved) :
    Reads (Reader.shiftV os as count reserved) (d.encode digit ++ bs) (shiftInstr digit.toNat (.rm os d c) k) := by
  have hn : digit.toNat ≠ 6 := fun hn => hd (BitVec.eq_of_toNat_eq hn)
  refine reads_rm_cons_append ?_
  simp only [Rm.regOf_lead, beq_eq_false_iff_ne.2 hd, Bool.false_eq_true, if_false]
  rw [shiftInstr_of_ne hn _ k]
  exact (reads_rm h _).bind hc.last

theorem ShiftForm.reads {digit : BitVec 3} (hdigit : digit ≠ 6) {f : ShiftForm} (h : f.wf os as = true) (k : Reserved) :
    Reads (Reader.unit os as) (f.encode digit) (shiftInstr digit.toNat f k) := by
  cases f with
  | rm8 d c =>
    cases c with
    | imm v => exact reads_unit (reads_shift8 h hdigit (Reads.byte v).last _ k)
    | one => exact reads_unit (List.append_nil (d.encode digit) ▸ reads_shift8 h hdigit (.pure _) .d0 k)
    | cl => exact reads_unit (List.append_nil (d.encode digit) ▸ reads_shift8 h hdigit (.pure _) .d2 k)
  | rm z d c =>
    obtain ⟨rfl, hd⟩ := eq_and_of_wf h
    cases c with
    | imm v => exact reads_unit (reads_shiftV hd hdigit (Reads.byte v).last _ k)
    | one => exact reads_unit (List.append_nil (d.encode digit) ▸ reads_shiftV hd hdigit (.pure _) .d1 k)
    | cl => exact reads_unit (List.append_nil (d.encode digit) ▸ reads_shiftV hd hdigit (.pure _) .d3 k)

end Sys2Proof

/-!
The reader on the encodings of the instructions (O4).
-/
namespace Sys2Proof

variable {os as : Sz}

theorem BtForm.reads {op : Byte} {digit : BitVec 3} {mk : BtForm → Instr}
    (hop : (op, digit, mk) ∈ [((0xA3 : Byte), (4 : BitVec 3), Instr.bt), (0xAB, 5, .bts), (0xB3, 6, .btr), (0xBB, 7, .btc)])
    {f : BtForm} (h : f.wf os as = true) : Reads (Reader.unit os as) (f.encode op digit) (mk f) := by
  simp only [List.mem_cons, Prod.mk.injEq, List.not_mem_nil, or_false] at hop
  cases f with
  | r z o g =>
    obtain ⟨rfl, ho⟩ := eq_and_of_wf h
    rcases hop with ⟨rfl, rfl, rfl⟩ | ⟨rfl, rfl, rfl⟩ | ⟨rfl, rfl, rfl⟩ | ⟨rfl, rfl, rfl⟩ <;>
      exact reads_op0F (fun _ => rfl) (reads_rm_last ho (by simp))
  | i z o imm =>
    obtain ⟨rfl, ho⟩ := eq_and_of_wf h
    refine reads_op0F (fun _ => rfl) (reads_rm_cons_append ?_)
    simp only [Rm.regOf_lead]
    rcases hop with ⟨rfl, rfl, rfl⟩ | ⟨rfl, rfl, rfl⟩ | ⟨rfl, rfl, rfl⟩ | ⟨rfl, rfl, rfl⟩ <;>
      exact (reads_rm ho _).bind (Reads.byte imm).last

theorem movsx_reads {f : ExtForm} (h : f.wf os as = true) :
    Reads (Reader.unit os as) (f.encode 0xBE 0xBF) (.movsx f) := by
  cases f with
  | b z r o =>
    obtain ⟨rfl, ho⟩ := eq_and_of_wf h
    exact reads_op0F (fun _ => rfl) (reads_rm8_last ho (by simp))
  | w z r o =>
    obtain ⟨rfl, ho⟩ := eq_and_of_wf h
    exact reads_op0F (fun _ => rfl) (reads_rm_last ho (by simp))

theorem movzx_reads {f : ExtForm} (h : f.wf os as = true) :
    Reads (Reader.unit os as) (f.encode 0xB6 0xB7) (.movzx f) := by
  cases f with
  | b z r o =>
    obtain ⟨rfl, ho⟩ := eq_and_of_wf h
    exact reads_op0F (fun _ => rfl) (reads_rm8_last ho (by simp))
  | w z r o =>
    obtain ⟨rfl, ho⟩ := eq_and_of_wf h
    exact reads_op0F (fun _ => rfl) (reads_rm_last ho (by simp))

theorem push_reads {f : PushForm} (h : f.wf os as = true) : Reads (Reader.unit os as) (encode (.push f)) (.push f) := by
  cases f with
  | r z g =>
    obtain rfl := eq_of_beq h
    cases g <;> exact reads_unit (.pure _)
  | immv z imm =>
    obtain ⟨rfl, hv⟩ := eq_and_of_wf h
    exact reads_unit (Reads.sized hv).last
  | immb z imm =>
    obtain rfl := eq_of_beq h
    exact reads_unit (Reads.byte imm).last
  | rm z o =>
    obtain ⟨rfl, ho⟩ := eq_and_of_wf h
    refine reads_unit (reads_rm_cons ?_)
    simp only [Rm.regOf_lead]
    exact (reads_rm ho _).last

theorem pop_reads {f : PopForm} (h : f.wf os as = true) : Reads (Reader.unit os as) (encode (.pop f)) (.pop f) := by
  cases f with
  | r z g =>
    obtain rfl := eq_of_beq h
    cases g <;> exact reads_unit (.pure _)
  | rm z o =>
    obtain ⟨rfl, ho⟩ := eq_and_of_wf h
    refine reads_unit (reads_rm_cons ?_)
    simp only [Rm.regOf_lead]
    exact (reads_rm ho _).last

theorem xchg_reads {f : XchgForm} (h : f.wf os as = true) : Reads (Reader.unit os as) (encode (.xchg f)) (.xchg f) := by
  cases f with
  | rm8 o r => exact reads_unit (reads_rm8_last h (by simp))
  | rm z o r =>
    obtain ⟨rfl, ho⟩ := eq_and_of_wf h
    exact reads_unit (reads_rm_last ho (by simp))
  | acc z r =>
    obtain ⟨rfl, hr⟩ := eq_and_of_wf h
    cases r with
    | ax => exact absurd hr (by decide)
    | _ => exact reads_unit (.pure _)

theorem imul3_reads {f : Imul3Form} (h : f.wf os as = true) :
    Reads (Reader.unit os as) (encode (.imul3 f)) (.imul3 f) := by
  cases f with
  | immv z r o imm =>
    obtain ⟨rfl, ho, hv⟩ := eq_and_and_of_wf h
    refine reads_unit (reads_rm_then ho ?_)
    simp only [Rm.regOf_lead, Gpr.ofCode_code]
    exact (Reads.sized hv).last
  | immb z r o imm =>
    obtain ⟨rfl, ho⟩ := eq_and_of_wf h
    refine reads_unit (reads_rm_then ho ?_)
    simp only [Rm.regOf_lead, Gpr.ofCode_code]
    exact (Reads.byte imm).last

theorem pushSreg_reads (s : Sreg) : Reads (Reader.unit os as) (encode (.pushSreg os s)) (.pushSreg os s) := by
  cases s <;> exact reads_unit fun _ => rfl

theorem popSreg_reads {s : Sreg} (hs : s ≠ .cs) :
    Reads (Reader.unit os as) (encode (.popSreg os s)) (.popSreg os s) := by
  cases s with
  | cs => exact absurd rfl hs
  | _ => exact reads_unit fun _ => rfl

theorem movFromSreg_reads (s : Sreg) {d : Rm} (hd : d.wf as = true) :
    Reads (Reader.unit os as) (encode (.movFromSreg os d s)) (.movFromSreg os d s) := by
  refine reads_unit (reads_rm_cons ?_)
  simp only [Rm.regOf_lead, Sreg.ofCode_code]
  exact (reads_rm hd _).last

theorem movToSreg_reads {s : Sreg} (hs : s ≠ .cs) {o : Rm} (ho : o.wf as = true) :
    Reads (Reader.unit os as) (encode (.movToSreg s o)) (.movToSreg s o) := by
  refine reads_unit (reads_rm_cons ?_)
  simp only [Rm.regOf_lead, Sreg.ofCode_code]
  cases s with
  | cs => exact absurd rfl hs
  | _ => exact (reads_rm ho _).last

theorem shld_reads {o : Rm} (ho : o.wf as = true) (r : Gpr) (c : DCount) :
    Reads (Reader.unit os as) (encode (.shld os o r c)) (.shld os o r c) := by
  cases c with
  | imm v =>
    refine reads_op0F (fun _ => rfl) (reads_rm_then ho ?_)
    simp only [Rm.regOf_lead, Gpr.ofCode_code]
    exact (Reads.byte v).last
  | cl => exact reads_op0F (fun _ => rfl) (reads_rm_last ho (by simp))

theorem shrd_reads {o : Rm} (ho : o.wf as = true) (r : Gpr) (c : DCount) :
    Reads (Reader.unit os as) (encode (.shrd os o r c)) (.shrd os o r c) := by
  cases c with
  | imm v =>
    refine reads_op0F (fun _ => rfl) (reads_rm_then ho ?_)
    simp only [Rm.regOf_lead, Gpr.ofCode_code]
    exact (Reads.byte v).last
  | cl => exact reads_op0F (fun _ => rfl) (reads_rm_last ho (by simp))

theorem setcc_reads (c : Cond) {d : Rm8} (hd : d.wf as = true) :
    Reads (Reader.unit os as) (encode (.setcc c d)) (.setcc c d) := by
  cases c <;> exact reads_op0F (fun _ => rfl) (reads_rm8_last hd rfl)

theorem jcc_reads (c : Cond) {r : Rel} (hr : r.wf os = true) :
    Reads (Reader.unit os as) (encode (.jcc os c r)) (.jcc os c r) := by
  cases r with
  | short v =>
    refine reads_unit ?_
    cases c <;> exact (Reads.byte v).last
  | near v => cases c <;> exact reads_op0F (fun _ => rfl) (Reads.sized hr).last

theorem jmpNear_reads {f : NearForm} (h : f.wf os as = true) :
    Reads (Reader.unit os as) (encode (.jmpNear f)) (.jmpNear f) := by
  cases f with
  | rel z r =>
    obtain ⟨rfl, hr⟩ := eq_and_of_wf h
    cases r with
    | short v => exact reads_unit (Reads.byte v).last
    | near v => exact reads_unit (Reads.sized hr).last
  | rm z o =>
    obtain ⟨rfl, ho⟩ := eq_and_of_wf h
    refine reads_unit (reads_rm_cons ?_)
    simp only [Rm.regOf_lead]
    exact (reads_rm ho _).last

theorem callNear_reads {f : NearForm} (h : (Instr.callNear f).wf os as = true) :
    Reads (Reader.unit os as) (encode (.callNear f)) (.callNear f) := by
  match f, h with
  | .rel z (.near v), h =>
    obtain ⟨rfl, hv, -⟩ := eq_and_and_of_wf h
    exact reads_unit (Reads.sized hv).last
  | .rel z (.short v), h => nomatch (eq_and_and_of_wf h).2.2
  | .rm z o, h =>
    obtain ⟨rfl, ho⟩ := eq_and_of_wf h
    refine reads_unit (reads_rm_cons ?_)
    simp only [Rm.regOf_lead]
    exact (reads_rm ho _).last

theorem jmpFar_reads {f : FarForm} (h : f.wf os as = true) :
    Reads (Reader.unit os as) (encode (.jmpFar f)) (.jmpFar f) := by
  cases f with
  | ptr z sel off =>
    obtain ⟨rfl, hv⟩ := eq_and_of_wf h
    exact reads_unit ((Reads.sized hv).bind (Reads.half sel).last)
  | mem z m =>
    obtain ⟨rfl, hm⟩ := eq_and_of_wf h
    refine reads_unit (reads_mem_cons ?_)
    simp only [Mem.regOf_lead]
    exact (reads_memOnly hm _).last

theorem callFar_reads {f : FarForm} (h : f.wf os as = true) :
    Reads (Reader.unit os as) (encode (.callFar f)) (.callFar f) := by
  cases f with
  | ptr z sel off =>
    obtain ⟨rfl, hv⟩ := eq_and_of_wf h
    exact reads_unit ((Reads.sized hv).bind (Reads.half sel).last)
  | mem z m =>
    obtain ⟨rfl, hm⟩ := eq_and_of_wf h
    refine reads_unit (reads_mem_cons ?_)
    simp only [Mem.regOf_lead]
    exact (reads_memOnly hm _).last

theorem retNear_reads (n : Option Half) : Reads (Reader.unit os as) (encode (.retNear os n)) (.retNear os n) := by
  cases n with
  | none => exact reads_unit (.pure _)
  | some v => exact reads_unit (Reads.half v).last

theorem retFar_reads (n : Option Half) : Reads (Reader.unit os as) (encode (.retFar os n)) (.retFar os n) := by
  cases n with
  | none => exact reads_unit (.pure _)
  | some v => exact reads_unit (Reads.half v).last

theorem eq_b_or_of_wf {n : Width} (h : (n == .b || n == os.width) = true) : n = .b ∨ n = os.width := by
  rwa [Bool.or_eq_true, beq_iff_eq, beq_iff_eq] at h

theorem inp_reads {n : Width} (h : n = .b ∨ n = os.width) (p : Port) :
    Reads (Reader.unit os as) (encode (.inp n p)) (.inp n p) := by
  cases p with
  | imm v => rcases h with rfl | rfl <;> cases os <;> exact reads_unit (Reads.byte v).last
  | dx => rcases h with rfl | rfl <;> cases os <;> exact reads_unit (.pure _)

theorem outp_reads {n : Width} (h : n = .b ∨ n = os.width) (p : Port) :
    Reads (Reader.unit os as) (encode (.outp n p)) (.outp n p) := by
  cases p with
  | imm v => rcases h with rfl | rfl <;> cases os <;> exact reads_unit (Reads.byte v).last
  | dx => rcases h with rfl | rfl <;> cases os <;> exact reads_unit (.pure _)

theorem esc_reads (opc ext : BitVec 3) {o : Rm} (ho : o.wf as = true) :
    Reads (Reader.unit os as) (encode (.esc opc ext o)) (.esc opc ext o) := by
  have hop : Reader.op os as (BitVec.ofNat 8 (0xD8 + opc.toNat)) =
      (Reader.byte >>= fun m => Reader.rm as m >>= fun x => pure (.esc opc (regOf m) x)) := by
    have hopc : opc = 0 ∨ opc = 1 ∨ opc = 2 ∨ opc = 3 ∨ opc = 4 ∨ opc = 5 ∨ opc = 6 ∨ opc = 7 := by
      revert opc
      decide
    rcases hopc with rfl | rfl | rfl | rfl | rfl | rfl | rfl | rfl <;> rfl
  refine reads_unit ?_
  rw [hop]
  exact reads_rm_last ho (by simp)

/-- Group 6: the operand's /digit is the operation. -/
theorem grp6_reads {digit : BitVec 3} {op : Rm → Instr}
    (hop : (digit, op) ∈ [((0 : BitVec 3), Instr.sldt), (1, .str), (2, .lldt), (3, .ltr), (4, .verr), (5, .verw)])
    {o : Rm} (ho : o.wf as = true) : Reads (Reader.unit os as) (0x0F :: 0x00 :: o.encode digit) (op o) := by
  simp only [List.mem_cons, Prod.mk.injEq, List.not_mem_nil, or_false] at hop
  refine reads_op0F (fun _ => rfl) (reads_rm_cons ?_)
  simp only [Rm.regOf_lead]
  rcases hop with ⟨rfl, rfl⟩ | ⟨rfl, rfl⟩ | ⟨rfl, rfl⟩ | ⟨rfl, rfl⟩ | ⟨rfl, rfl⟩ | ⟨rfl, rfl⟩ <;>
    exact (reads_rm ho _).last

/-- Group 7 with a memory operand. -/
theorem grp7_reads {digit : BitVec 3} {op : Sz → Mem → Instr}
    (hop : (digit, op) ∈ [((0 : BitVec 3), Instr.sgdt), (1, .sidt), (2, .lgdt), (3, .lidt)])
    {m : Mem} (hm : m.wf as = true) : Reads (Reader.unit os as) (0x0F :: 0x01 :: m.encode digit) (op os m) := by
  simp only [List.mem_cons, Prod.mk.injEq, List.not_mem_nil, or_false] at hop
  refine reads_op0F (fun _ => rfl) (reads_mem_cons ?_)
  simp only [Mem.regOf_lead]
  rcases hop with ⟨rfl, rfl⟩ | ⟨rfl, rfl⟩ | ⟨rfl, rfl⟩ | ⟨rfl, rfl⟩ <;> exact (reads_memOnly hm _).last

/-- Group 7: the status word. -/
theorem grp7_word_reads {digit : BitVec 3} {op : Rm → Instr}
    (hop : (digit, op) ∈ [((4 : BitVec 3), Instr.smsw), (6, .lmsw)]) {o : Rm} (ho : o.wf as = true) :
    Reads (Reader.unit os as) (0x0F :: 0x01 :: o.encode digit) (op o) := by
  simp only [List.mem_cons, Prod.mk.injEq, List.not_mem_nil, or_false] at hop
  refine reads_op0F (fun _ => rfl) (reads_rm_cons ?_)
  simp only [Rm.regOf_lead]
  rcases hop with ⟨rfl, rfl⟩ | ⟨rfl, rfl⟩ <;> exact (reads_rm ho _).last

/-- MOV of a special register: one ModR/M byte whose fields name the two registers. -/
theorem special_reads {reg rm : BitVec 3} {b : Byte} {k : Byte → Reader Instr} {i : Instr}
    (hk : ∀ r, Reader.op0F os as (b :: r) = (Reader.byte >>= k) r)
    (h : k (fields233 3 reg rm) = pure i) : Reads (Reader.unit os as) [0x0F, b, fields233 3 reg rm] i := by
  refine reads_op0F hk (Reads.cons ?_)
  rw [h]
  exact .pure i

theorem reserved_reads (k : Reserved) : Reads (Reader.unit os as) (encode (.intelReserved k)) (.intelReserved k) := by
  cases k with
  | o82 | oD6 | oF1 => exact reads_unit (.pure _)
  | o0F07 | o0F10 | o0F11 | o0F12 | o0F13 => exact reads_op0F (fun _ => rfl) (.pure _)
  | c0 m r | c1 m r | d0 m r | d1 m r | d2 m r | d3 m r | f6 m r | f7 m r =>
    refine reads_unit (Reads.cons ?_)
    simp only [regOf_fields, modOf_fields, rmOf_fields]
    exact .pure _

/-- Every well-formed instruction is read back from its encoding. -/
theorem encode_reads {i : Instr} (h : i.wf os as = true) : Reads (Reader.unit os as) (encode i) i := by
  cases i with
  | segEs | segCs | segSs | segDs | segFs | segGs | opsize | adrsize | lock | repne | rep | daa | das | aaa | aas | int3 | into | clc
  | stc | cmc | cld | std | cli | sti | lahf | sahf | nop | wait | hlt => exact reads_unit (.pure _)
  | clts => exact reads_op0F (fun _ => rfl) (.pure _)
  | mov f => exact MovForm.reads h
  | movFromSreg z d s =>
    obtain ⟨rfl, hd⟩ := eq_and_of_wf h
    exact movFromSreg_reads s hd
  | movToSreg s o =>
    obtain ⟨hs, ho⟩ := Bool.and_eq_true_iff.1 h
    exact movToSreg_reads (bne_iff_ne.1 hs) ho
  | push f => exact push_reads h
  | pushSreg z s =>
    obtain rfl := eq_of_beq h
    exact pushSreg_reads s
  | pop f => exact pop_reads h
  | popSreg z s =>
    obtain ⟨rfl, hs⟩ := eq_and_of_wf h
    exact popSreg_reads (bne_iff_ne.1 hs)
  | pusha z | popa z | cbw z | cwd z | iret z | leave z | pushf z | popf z =>
    obtain rfl := eq_of_beq h
    exact reads_unit (.pure _)
  | movsb a | cmpsb a | scasb a | lodsb a | stosb a | insb a | outsb a | xlat a =>
    obtain rfl := eq_of_beq h
    exact reads_unit (.pure _)
  | movsv z a | cmpsv z a | scasv z a | lodsv z a | stosv z a | insv z a | outsv z a =>
    obtain ⟨rfl, ha⟩ := eq_and_of_wf h
    obtain rfl := eq_of_beq ha
    exact reads_unit (.pure _)
  | loop z a v | loope z a v | loopne z a v | jcxz z a v =>
    obtain ⟨rfl, ha⟩ := eq_and_of_wf h
    obtain rfl := eq_of_beq ha
    exact reads_unit (Reads.byte v).last
  | xchg f => exact xchg_reads h
  | movsx f => exact movsx_reads h
  | movzx f => exact movzx_reads h
  | add f => exact AluForm.reads (row := 0) (by decide) h
  | or f => exact AluForm.reads (row := 1) (by decide) h
  | adc f => exact AluForm.reads (row := 2) (by decide) h
  | sbb f => exact AluForm.reads (row := 3) (by decide) h
  | and f => exact AluForm.reads (row := 4) (by decide) h
  | sub f => exact AluForm.reads (row := 5) (by decide) h
  | xor f => exact AluForm.reads (row := 6) (by decide) h
  | cmp f => exact AluForm.reads (row := 7) (by decide) h
  | inc f => exact inc_reads h
  | dec f => exact dec_reads h
  | not f => exact UnForm.reads (by simp [unaryOps]) h
  | neg f => exact UnForm.reads (by simp [unaryOps]) h
  | mul f => exact UnForm.reads (by simp [unaryOps]) h
  | imul1 f => exact UnForm.reads (by simp [unaryOps]) h
  | div f => exact UnForm.reads (by simp [unaryOps]) h
  | idiv f => exact UnForm.reads (by simp [unaryOps]) h
  | rol f => exact ShiftForm.reads (digit := 0) (by decide) h .o82
  | ror f => exact ShiftForm.reads (digit := 1) (by decide) h .o82
  | rcl f => exact ShiftForm.reads (digit := 2) (by decide) h .o82
  | rcr f => exact ShiftForm.reads (digit := 3) (by decide) h .o82
  | shl f => exact ShiftForm.reads (digit := 4) (by decide) h .o82
  | shr f => exact ShiftForm.reads (digit := 5) (by decide) h .o82
  | sar f => exact ShiftForm.reads (digit := 7) (by decide) h .o82
  | bt f => exact BtForm.reads (by simp) h
  | bts f => exact BtForm.reads (by simp) h
  | btr f => exact BtForm.reads (by simp) h
  | btc f => exact BtForm.reads (by simp) h
  | imul2 z r o =>
    obtain ⟨rfl, ho⟩ := eq_and_of_wf h
    exact reads_op0F (fun _ => rfl) (reads_rm_last ho (by simp))
  | bsf z r o =>
    obtain ⟨rfl, ho⟩ := eq_and_of_wf h
    exact reads_op0F (fun _ => rfl) (reads_rm_last ho (by simp))
  | bsr z r o =>
    obtain ⟨rfl, ho⟩ := eq_and_of_wf h
    exact reads_op0F (fun _ => rfl) (reads_rm_last ho (by simp))
  | lar z r o =>
    obtain ⟨rfl, ho⟩ := eq_and_of_wf h
    exact reads_op0F (fun _ => rfl) (reads_rm_last ho (by simp))
  | lsl z r o =>
    obtain ⟨rfl, ho⟩ := eq_and_of_wf h
    exact reads_op0F (fun _ => rfl) (reads_rm_last ho (by simp))
  | imul3 f => exact imul3_reads h
  | aam v | aad v | int v => exact reads_unit (Reads.byte v).last
  | test f => exact TestForm.reads h
  | shld z o r c =>
    obtain ⟨rfl, ho⟩ := eq_and_of_wf h
    exact shld_reads ho r c
  | shrd z o r c =>
    obtain ⟨rfl, ho⟩ := eq_and_of_wf h
    exact shrd_reads ho r c
  | setcc c d => exact setcc_reads c h
  | jcc z c r =>
    obtain ⟨rfl, hr⟩ := eq_and_of_wf h
    exact jcc_reads c hr
  | jmpNear f => exact jmpNear_reads h
  | jmpFar f => exact jmpFar_reads h
  | callNear f => exact callNear_reads h
  | callFar f => exact callFar_reads h
  | retNear z n =>
    obtain rfl := eq_of_beq h
    exact retNear_reads n
  | retFar z n =>
    obtain rfl := eq_of_beq h
    exact retFar_reads n
  | bound z r m =>
    obtain ⟨rfl, hm⟩ := eq_and_of_wf h
    exact reads_unit (reads_mem_last hm (by simp))
  | lea z r m =>
    obtain ⟨rfl, hm⟩ := eq_and_of_wf h
    exact reads_unit (reads_mem_last hm (by simp))
  | lds z r m =>
    obtain ⟨rfl, hm⟩ := eq_and_of_wf h
    exact reads_unit (reads_mem_last hm (by simp))
  | les z r m =>
    obtain ⟨rfl, hm⟩ := eq_and_of_wf h
    exact reads_unit (reads_mem_last hm (by simp))
  | lfs z r m =>
    obtain ⟨rfl, hm⟩ := eq_and_of_wf h
    exact reads_op0F (fun _ => rfl) (reads_mem_last hm (by simp))
  | lgs z r m =>
    obtain ⟨rfl, hm⟩ := eq_and_of_wf h
    exact reads_op0F (fun _ => rfl) (reads_mem_last hm (by simp))
  | lss z r m =>
    obtain ⟨rfl, hm⟩ := eq_and_of_wf h
    exact reads_op0F (fun _ => rfl) (reads_mem_last hm (by simp))
  | enter z n l =>
    obtain rfl := eq_of_beq h
    exact reads_unit ((Reads.half n).bind (Reads.byte l).last)
  | esc opc ext o => exact esc_reads opc ext h
  | inp n p => exact inp_reads (eq_b_or_of_wf h) p
  | outp n p => exact outp_reads (eq_b_or_of_wf h) p
  | sgdt z m =>
    obtain ⟨rfl, hm⟩ := eq_and_of_wf h
    exact grp7_reads (op := .sgdt) (by simp) hm
  | sidt z m =>
    obtain ⟨rfl, hm⟩ := eq_and_of_wf h
    exact grp7_reads (op := .sidt) (by simp) hm
  | lgdt z m =>
    obtain ⟨rfl, hm⟩ := eq_and_of_wf h
    exact grp7_reads (op := .lgdt) (by simp) hm
  | lidt z m =>
    obtain ⟨rfl, hm⟩ := eq_and_of_wf h
    exact grp7_reads (op := .lidt) (by simp) hm
  | smsw o => exact grp7_word_reads (by simp) h
  | lmsw o => exact grp7_word_reads (by simp) h
  | sldt o => exact grp6_reads (by simp) h
  | str o => exact grp6_reads (by simp) h
  | lldt o => exact grp6_reads (by simp) h
  | ltr o => exact grp6_reads (by simp) h
  | verr o => exact grp6_reads (by simp) h
  | verw o => exact grp6_reads (by simp) h
  | movFromCr r c => exact special_reads (fun _ => rfl) (by simp)
  | movToCr c r => exact special_reads (fun _ => rfl) (by simp)
  | movFromDr r c => exact special_reads (fun _ => rfl) (by simp)
  | movToDr c r => exact special_reads (fun _ => rfl) (by simp)
  | movFromTr r c => exact special_reads (fun _ => rfl) (by simp)
  | movToTr c r => exact special_reads (fun _ => rfl) (by simp)
  | arpl d r => exact reads_unit (reads_rm_last h (by simp))
  | intelReserved k => exact reserved_reads k

/-- Settles O4: what the reader takes of an encoding is exactly the encoding (`encode_reads`), so the length that
`decode` answers, the bytes before less the bytes left, is the encoding's. -/
theorem decodeEncode : Obligations.DecodeEncode := by
  unfold Obligations.DecodeEncode
  intro os as i rest h
  have hr := encode_reads h rest
  simp only [decode, hr, List.length_append, Nat.add_sub_cancel]

end Sys2Proof

/-!
Reset, the decoder's fixed words, the prefixes as units of their own (O1, O2, O5, O8), and the step at an instruction
(O6).
-/
namespace Sys2Proof.Machine

/-- Settles O2. -/
theorem invariantAtReset : Obligations.InvariantAtReset := by
  unfold Obligations.InvariantAtReset
  decide +kernel

/-- Settles O5: each word is decoded. -/
theorem decodeWords : Obligations.DecodeWords := by
  unfold Obligations.DecodeWords
  refine ⟨?_, ?_, ?_, ?_, ?_, ?_, ?_, ?_⟩ <;> decide +kernel

/-- Settles O8: the meaning of each of the eleven prefixes is to record itself. -/
theorem prefixesRecord : Obligations.PrefixesRecord := by
  unfold Obligations.PrefixesRecord
  intro s
  exact ⟨rfl, rfl, rfl, rfl, rfl, rfl, rfl, rfl, rfl, rfl, rfl⟩

/-! Reset. -/

/-- DH of the reset EDX does not depend on the revision in DL. -/
theorem dh_of_edx (r : Byte) : ((0x03 : BitVec 24) ++ r).extractLsb' 8 8 = 3 := by
  apply BitVec.eq_of_getLsbD_eq
  intro i hi
  rw [BitVec.getLsbD_extractLsb', BitVec.getLsbD_append, if_neg (by omega), Nat.add_sub_cancel_left]
  interval_cases i <;> rfl

theorem cr0Reset_low : cr0Reset &&& 0xFFEF = 0 := by
  unfold cr0Reset
  split <;> decide

theorem cr0Reset_mode : bit cr0Reset 0 = false ∧ bit cr0Reset 31 = false := by
  unfold cr0Reset
  split <;> decide

theorem reset_pg : State.reset.pg = false := cr0Reset_mode.2

theorem reset_mode : State.reset.mode = .real := by
  have h : State.reset.pe = false := cr0Reset_mode.1
  simp [State.mode, h]

theorem reset_dh : State.reset.reg8 .dh = 3 := dh_of_edx _
theorem resetEvent_dh (u : State) (b : Bool) : (u.resetEvent b).reg8 .dh = 3 := by
  cases b <;> exact dh_of_edx _

/-- Settles O1. -/
theorem resetLeaves : Obligations.ResetLeaves := by
  unfold Obligations.ResetLeaves
  refine ⟨?_, ?_, fun _ _ => rfl, fun _ => rfl⟩
  · rintro s (rfl | ⟨u, b, rfl⟩)
    · exact ⟨rfl, by decide, rfl, rfl, rfl, rfl, rfl, rfl, rfl, rfl, rfl, rfl, rfl, rfl, reset_pg, rfl, rfl, rfl,
        cr0Reset_low, by decide, reset_dh, rfl, reset_mode, rfl⟩
    · exact ⟨rfl, (by decide : (0x2 : Word) &&& 0x3FFFF = 0x2), rfl, rfl, rfl, rfl, rfl, rfl, rfl, rfl, rfl, rfl, rfl, rfl,
        reset_pg, rfl, rfl, rfl, cr0Reset_low, BitVec.zero_and, resetEvent_dh u b, rfl, reset_mode, rfl⟩
  · intro s b hp hr
    simp [step, cycle, boundary, hp, hr]

/-! Fetching an instruction that stands at CS:EIP. -/

/-- One byte, where it stands. -/
theorem fetchByte_of_codeAt {s : State} {k : Nat} {b : Byte} {bs : List Byte} (h : s.codeAt k (b :: bs) = true) :
    fetchByte k s = .ok b s := by
  simp only [State.codeAt, State.flat, State.isRam, Bool.and_eq_true, decide_eq_true_eq, beq_iff_eq, List.all_eq_true,
    List.mem_range, Bool.not_eq_true'] at h
  obtain ⟨⟨⟨hlim, ⟨hpg, -⟩, hram⟩, hb⟩, -⟩ := h
  have hk := hram 0 (by decide)
  have haddr : fetchAddr k s = .ok (s.seg.cs.base + BitVec.ofNat 32 (s.fetchOffset k)).toNat s := by
    unfold fetchAddr
    rw [M.look_bind]
    simp only [id, decide_eq_true hlim]
    rw [M.require_true, translate_flat _ _ _ hpg]
  rw [fetchByte, M.bind_ok _ haddr]
  simp only [physRead, Nat.add_zero] at hk ⊢
  rw [hk, hb]


/-- The rest of a unit, where it stands: no beginning of the unit decodes, so its bytes are read one by one. -/
theorem fetchUnit_of_codeAt {s : State} {os as : Sz} {i : Instr} (start : Nat) :
    ∀ (todo done : List Byte) (room : Nat), todo.length ≤ room →
      decode os as (done ++ todo) = .unit i (done ++ todo).length →
      (∀ k, k < todo.length → decode os as (done ++ todo.take k) = .more) →
      s.codeAt (start + done.length) todo = true →
      fetchUnit os as start room done s = .ok (i, (done ++ todo).length) s
  | [], done, room, _, hd, _, _ => by
    rw [List.append_nil] at hd ⊢
    unfold fetchUnit
    rw [hd]
    rfl
  | b :: todo, done, 0, hr, _, _, _ => absurd hr (by simp)
  | b :: todo, done, room + 1, hr, hd, hm, hc => by
    have hmore : decode os as done = .more := by simpa using hm 0 (by simp)
    have hsplit : done ++ b :: todo = (done ++ [b]) ++ todo := by simp
    have hrest : s.codeAt (start + (done ++ [b]).length) todo = true := by
      simp only [State.codeAt, Bool.and_eq_true] at hc
      rw [List.length_append, List.length_singleton, ← Nat.add_assoc]
      exact hc.2
    have ih := fetchUnit_of_codeAt start todo (done ++ [b]) room (by simpa using hr) (hsplit ▸ hd)
      (fun k hk => by simpa using hm (k + 1) (by simpa using hk)) hrest
    unfold fetchUnit
    rw [hmore]
    simp only
    rw [M.bind_ok _ (fetchByte_of_codeAt hc), ih, hsplit]

/-- The unit whose bytes stand at CS:EIP is fetched, and nothing changes. -/
theorem fetch_of_codeAt {s : State} {bs : List Byte} {i : Instr} (hu : isUnit s.opSz s.adSz bs i = true)
    (hl : s.pfx.count + bs.length ≤ 15) (hc : s.codeAt s.pfx.count bs = true) : fetch s = .ok (i, bs.length) s := by
  simp only [isUnit, Bool.and_eq_true, beq_iff_eq, List.all_eq_true, List.mem_range] at hu
  obtain ⟨hd, hm⟩ := hu
  unfold fetch
  rw [M.look_bind]
  exact fetchUnit_of_codeAt s.pfx.count bs [] (15 - s.pfx.count) (by omega) hd hm hc

theorem runUnit_of_codeAt {s : State} {bs : List Byte} {i : Instr} (hu : isUnit s.opSz s.adSz bs i = true)
    (hl : s.pfx.count + bs.length ≤ 15) (hc : s.codeAt s.pfx.count bs = true) :
    runUnit s = exec i (s.fetched bs.length) := by
  rw [runUnit, fetch_of_codeAt hu hl hc]

/-- Where an instruction starts, the boundary does nothing but note the breakpoints that match. -/
theorem boundary_of_starts {s : State} (h : s.starts = true) : s.pfx.count = 0 ∧ boundary s = runUnit (afterMatch s) := by
  simp only [State.starts, State.quiet, Bool.and_eq_true, beq_iff_eq, Bool.not_eq_true'] at h
  obtain ⟨⟨⟨⟨⟨⟨⟨hp, hr⟩, hx⟩, ht⟩, ha⟩, hb⟩, hn⟩, hi⟩ := h
  refine ⟨hp, ?_⟩
  simp only [boundary, hr, hx, ht, activeBoundary, ha, runBoundary, hb, hn, hi, Bool.false_eq_true, if_false]

theorem codeAt_afterMatch (s : State) (k : Nat) (bs : List Byte) : (afterMatch s).codeAt k bs = s.codeAt k bs := by
  induction bs generalizing k with
  | nil => rfl
  | cons b bs ih => simp only [State.codeAt, ih]; rfl

/-- Settles O6: the bytes that stand at CS:EIP are fetched one by one. -/
theorem stepRunsInstruction : Obligations.StepRunsInstruction := by
  unfold Obligations.StepRunsInstruction
  constructor
  · intro s bs i hs hu hl hc
    obtain ⟨hp, hb⟩ := boundary_of_starts hs
    rw [step, cycle, if_pos hp, hb]
    have hpm : (afterMatch s).pfx.count = 0 := hp
    exact runUnit_of_codeAt hu (by omega) (by rw [hpm, codeAt_afterMatch]; exact hc)
  · intro s bs i hp hu hl hc
    rw [step, cycle, if_neg hp]
    exact runUnit_of_codeAt hu hl hc

end Sys2Proof.Machine

/-!
Rules for the bodies of instructions whose operands can be accessed: what a computation answers and the state it leaves,
but for the records of the model (`Gives`), composed along `>>=`, and from there to `Done`.
-/
namespace Sys2Proof.Machine

section
variable {α β : Type} {s u v : State} {a : α} {b : β}

/-- From every state that is `s` but for the records, `m` answers `a` and leaves `u` but for the records. -/
def Gives (m : M α) (s : State) (a : α) (u : State) : Prop := ∀ t, Noted s t → ∃ w, m t = .ok a w ∧ Noted u w

/-- The same where the status flags are left too, free ones with any value. -/
def GivesFlags (m : M Unit) (s u : State) (f : FlagsOut) : Prop :=
  ∀ t, Noted s t → ∃ w k, m t = .ok () w ∧ Noted { u with eflags := f.image u.eflags (Config.freeWord k) } w

theorem Gives.bind {m : M α} {f : α → M β} (h : Gives m s a u) (k : Gives (f a) u b v) : Gives (m >>= f) s b v := by
  intro t ht
  obtain ⟨w, hm, hw⟩ := h t ht
  rw [M.bind_ok f hm]
  exact k w hw

theorem Gives.bind_flags {m : M α} {k : α → M Unit} {f : FlagsOut} (h : Gives m s a u) (hk : GivesFlags (k a) u v f) :
    GivesFlags (m >>= k) s v f := by
  intro t ht
  obtain ⟨w, hm, hw⟩ := h t ht
  rw [M.bind_ok k hm]
  exact hk w hw

/-- A computation that may be run from `s` itself is run there. -/
theorem Gives.run {m : M α} (h : Gives m s a u) : ∃ w, m s = .ok a w ∧ Noted u w := h s (.refl s)

theorem Gives.pure (a : α) (s : State) : Gives (pure a) s a s := fun t ht => ⟨t, rfl, ht⟩

/-- A look at what does not depend on the records. -/
theorem Gives.look {f : State → α} (s : State) (hf : ∀ (s : State) tr k, f { s with traps := tr, draws := k } = f s) :
    Gives (look f) s (f s) s := fun t ht => ⟨t, by rw [← ht.look f hf]; rfl, ht⟩

/-- A look and what is computed from it. -/
theorem Gives.look_bind {f : State → α} {k : α → M β}
    (hf : ∀ (s : State) tr k, f { s with traps := tr, draws := k } = f s) (h : Gives (k (f s)) s b u) :
    Gives (Machine.look f >>= k) s b u := (Gives.look s hf).bind h

theorem Gives.upd {g : State → State}
    (hg : ∀ (s : State) tr k, g { s with traps := tr, draws := k } = { g s with traps := tr, draws := k }) (s : State) :
    Gives (upd g) s () (g s) := fun _ ht => ⟨_, rfl, ht.map g hg⟩

theorem Gives.require {c : Bool} {x : Byte} {code : Option Half} (hc : c = true) (s : State) :
    Gives (require c x code) s () s := fun t ht => ⟨t, M.require_pass hc, ht⟩

theorem Gives.putReg (r : Gpr) (x : Word) (s : State) : Gives (putReg r x) s () (s.setReg r x) :=
  .upd (fun _ _ _ => rfl) s

theorem Gives.putRegZ (z : Sz) (r : Gpr) (x : Word) (s : State) : Gives (putRegZ z r x) s () (s.setRegZ z r x) :=
  .upd (fun _ _ _ => by cases z <;> rfl) s

theorem Gives.putReg8 (r : Gpr8) (x : Byte) (s : State) : Gives (putReg8 r x) s () (s.setReg8 r x) :=
  .upd (fun _ _ _ => rfl) s

theorem Gives.getReg (r : Gpr) (s : State) : Gives (getReg r) s (s.reg r) s := .look s fun _ _ _ => rfl

theorem Gives.getReg8 (r : Gpr8) (s : State) : Gives (getReg8 r) s (s.reg8 r) s := .look s fun _ _ _ => rfl

theorem regZ_records (s : State) (z : Sz) (r : Gpr) (tr : Traps) (k : Nat) :
    ({ s with traps := tr, draws := k } : State).regZ z r = s.regZ z r := by cases z <;> rfl

theorem Gives.getRegZ (z : Sz) (r : Gpr) (s : State) : Gives (getRegZ z r) s (s.regZ z r) s :=
  .look s fun s tr k => regZ_records s z r tr k

/-! Accesses. -/

theorem Gives.memRead {n : Width} {z : Sz} {r : Sreg} {off : Word} (h : (Spot.mem n z r off).ok s .read = true) :
    Gives (memRead z r off n) s ((Spot.mem n z r off).value s) s := by
  intro t ht
  obtain ⟨w, hw, hn⟩ := memRead_ok (s := t) (by rwa [Spot.ok_noted _ _ ht])
  exact ⟨w, by rw [hw, Spot.value_noted _ ht], ht.trans hn⟩

theorem Gives.memWrite {n : Width} {z : Sz} {r : Sreg} {off : Word} (x : Word)
    (h : (Spot.mem n z r off).ok s .write = true) :
    Gives (memWrite z r off n x) s () ((Spot.mem n z r off).store s x) := by
  intro t ht
  obtain ⟨w, hw, hn⟩ := memWrite_ok (s := t) x (by rwa [Spot.ok_noted _ _ ht])
  exact ⟨w, hw, (Spot.store_noted _ _ ht).trans hn⟩

theorem Gives.read {p : Place} (h : p.ok s .read = true) : Gives p.read s ((p.spot s).value s) s := by
  intro t ht
  obtain ⟨hp, hs⟩ := Place.ok_noted p .read ht h
  obtain ⟨w, hw, hn⟩ := Place.read_ok hp
  exact ⟨w, by rw [hw, hs, Spot.value_noted _ ht], ht.trans hn⟩

theorem Gives.write {p : Place} (x : Word) (h : p.ok s .write = true) : Gives (p.write x) s () ((p.spot s).store s x) := by
  intro t ht
  obtain ⟨hp, hs⟩ := Place.ok_noted p .write ht h
  obtain ⟨w, hw, hn⟩ := Place.write_ok x hp
  exact ⟨w, hw, (Spot.store_noted _ _ ht).trans (hs ▸ hn)⟩

theorem Gives.get {o : Operand} (h : o.ok s = true) : Gives o.get s (o.value s) s := by
  cases o with
  | at_ p => exact .read h
  | imm x => exact .pure x s

theorem Pair.ok_iff (p : Pair) (s : State) (acc : Acc) :
    p.ok s acc = true ↔ p.src.ok s = true ∧ p.dst.ok s acc = true := by
  rw [Pair.ok, Bool.and_eq_true]

theorem Gives.move {p : Pair} (h : p.ok s .write = true) :
    Gives (move p) s () ((p.dst.spot s).store s (p.src.value s)) := by
  obtain ⟨hs, hd⟩ := (Pair.ok_iff p s .write).1 h
  exact (Gives.get hs).bind (.write _ hd)

theorem Gives.memAddrs {n : Width} {z : Sz} {r : Sreg} {off : Word} {acc : Acc}
    (h : (Spot.mem n z r off).ok s acc = true) :
    Gives (memAddrs z r off n.bytes acc) s (addrsFrom (s.physAt r off) n.bytes) s := by
  intro t ht
  obtain ⟨w, hw, hn⟩ := memAddrs_ok (s := t) (by rwa [Spot.ok_noted _ _ ht])
  have hp : t.physAt r off = s.physAt r off := ht.look (·.physAt r off) fun _ _ _ => rfl
  exact ⟨w, by rw [hw, hp], ht.trans hn⟩

theorem State.isRam_noted {t : State} (h : Noted s t) (a n : Nat) : t.isRam a n = s.isRam a n :=
  h.look (·.isRam a n) fun _ _ _ => rfl

theorem Gives.readAddrs {at_ n : Nat} (h : s.isRam at_ n = true) :
    Gives (readAddrs (addrsFrom at_ n)) s (readLE s.mem at_ n) s := by
  intro t ht
  have hm : t.mem = s.mem := ht.look State.mem fun _ _ _ => rfl
  exact ⟨t, by rw [readAddrs_ram (by rwa [State.isRam_noted ht]), hm], ht⟩

theorem Gives.writeAddrs {at_ n : Nat} (x : Word) (h : s.isRam at_ n = true) :
    Gives (writeAddrs (addrsFrom at_ n) x) s () { s with mem := writeLE s.mem at_ n x } := by
  intro t ht
  have hm : t.mem = s.mem := ht.look State.mem fun _ _ _ => rfl
  refine ⟨_, writeAddrs_ram x (by rwa [State.isRam_noted ht]), ?_⟩
  rw [hm]
  exact ht.map (fun t => { t with mem := writeLE s.mem at_ n x }) fun _ _ _ => rfl

theorem Gives.effAddr {m : Mem} (h : m.isOpen = false) (s : State) : Gives (effAddr m) s (s.offsetOf m) s := by
  intro t ht
  have ho : t.offsetOf m = s.offsetOf m := by
    obtain ⟨tr, k, rfl⟩ := ht
    simp [State.offsetOf, h]
  exact ⟨t, by rw [← ho]; simp [Machine.effAddr, h], ht⟩

theorem Gives.segOf (m : Mem) (s : State) : Gives (Machine.look (·.segOf m)) s (s.segOf m) s := .look s fun _ _ _ => rfl

theorem Place.ok_mem {n : Width} {m : Mem} {acc : Acc} (h : (Place.mem n m).ok s acc = true) :
    m.isOpen = false ∧ (Spot.mem n m.size (s.segOf m) (s.offsetOf m)).ok s acc = true := by
  rwa [Place.ok, Bool.and_eq_true, Bool.not_eq_true'] at h

/-- A place whose access has been checked is read and written as its spot. -/
theorem Gives.loc {p : Place} {acc : Acc} (h : p.ok s acc = true) : ∃ l, Gives (p.loc acc) s l s ∧
    Gives l.get s ((p.spot s).value s) s ∧ ∀ x, Gives (l.put x) s () ((p.spot s).store s x) := by
  cases p with
  | reg8 r =>
    exact ⟨.reg8 r, .pure _ s, (Gives.getReg8 r s).bind (.pure _ s), fun x => .putReg8 r _ s⟩
  | reg z r => exact ⟨.reg z r, .pure _ s, .getRegZ z r s, fun x => .putRegZ z r x s⟩
  | mem n m =>
    obtain ⟨ho, hk⟩ := Place.ok_mem h
    have hr := Spot.isRam_of_ok hk
    exact ⟨.bytes (addrsFrom (s.physAt (s.segOf m) (s.offsetOf m)) n.bytes),
      (Gives.effAddr ho s).bind ((Gives.segOf m s).bind ((Gives.memAddrs hk).bind (.pure _ s))),
      .readAddrs hr, fun x => .writeAddrs x hr⟩

/-! The stack. -/

theorem Gives.pushAll {n : Width} {vs : List Word} (h : s.canPush n vs.length = true) :
    Gives (pushAll n vs) s () (s.pushed n vs) := by
  intro t ht
  have hc : t.canPush n vs.length = s.canPush n vs.length := by
    obtain ⟨tr, k, rfl⟩ := ht
    rfl
  obtain ⟨w, hw, hn⟩ := pushAll_ok (s := t) (n := n) (vs := vs) (by rwa [hc])
  refine ⟨w, hw, Noted.trans (ht.map (fun s => s.pushed n vs) fun s tr k => ?_) hn⟩
  have hst : ∀ (d : Nat) (vs : List Word) (m : List Host.Cell),
      ({ s with traps := tr, draws := k } : State).stacked n d vs m = s.stacked n d vs m := by
    intro d vs
    induction vs generalizing d with
    | nil => exact fun _ => rfl
    | cons x rest ih => exact fun m => ih _ _
  simp only [State.pushed, hst]
  rfl

theorem Gives.peek {n : Width} {d : Nat} (h : (s.above n d).ok s .read = true) :
    Gives (peek n d) s ((s.above n d).value s) s :=
  .look_bind (fun _ _ _ => rfl) (.memRead h)

theorem Gives.popBytes (d : Nat) (s : State) : Gives (popBytes d) s () (s.popped d) :=
  fun _ ht => ⟨_, rfl, ht.popped d⟩

theorem Gives.pop {n : Width} (h : (s.above n 0).ok s .read = true) :
    Gives (pop n) s ((s.above n 0).value s) (s.popped n.bytes) :=
  (Gives.peek h).bind ((Gives.popBytes _ s).bind (.pure _ _))

/-! Flags. -/

theorem GivesFlags.putFlags (f : FlagsOut) (s : State) : GivesFlags (putFlags f) s s f := by
  intro t ht
  refine ⟨_, t.draws, rfl, ?_⟩
  obtain ⟨tr, k, rfl⟩ := ht
  exact ⟨tr, _, rfl⟩

theorem FlagsOut.same_image (v free : Word) : FlagsOut.same.image v free = v := by
  have hput : ∀ i, i < 32 → putBit v i (bit v i) = v := fun i hi => by
    apply BitVec.eq_of_getLsbD_eq
    intro k hk
    show bit _ k = bit v k
    by_cases h : k = i
    · rw [h, bit_putBit_same _ _ hi]
    · rw [bit_putBit_ne _ _ h]
  simp only [FlagsOut.image, FlagsOut.same, FlagVal.resolve]
  rw [hput 11 (by decide), hput 7 (by decide), hput 6 (by decide), hput 4 (by decide), hput 2 (by decide),
    hput 0 (by decide)]

/-- Flags that are kept need no mention. -/
theorem Gives.flags {m : M Unit} (h : Gives m s () u) : GivesFlags m s u .same := by
  intro t ht
  obtain ⟨w, hm, hw⟩ := h t ht
  exact ⟨w, 0, hm, by rwa [FlagsOut.same_image]⟩

theorem GivesFlags.combine {op : Width → Word → Word → Bool → Res} {p : Pair} (h : p.ok s .rmw = true) :
    let x := op p.width ((p.dst.spot s).value s) (p.src.value s) s.cf
    GivesFlags (combine op p) s ((p.dst.spot s).store s x.val) x.flags := by
  obtain ⟨hs, hd⟩ := (Pair.ok_iff p s .rmw).1 h
  obtain ⟨l, hl, hget, hput⟩ := Gives.loc hd
  exact (Gives.get hs).bind_flags (hl.bind_flags (hget.bind_flags ((Gives.look s fun _ _ _ => rfl).bind_flags
    ((hput _).bind_flags (.putFlags _ _)))))

theorem GivesFlags.compare {op : Width → Word → Word → Bool → Res} {p : Pair} (h : p.ok s .read = true) :
    let x := op p.width ((p.dst.spot s).value s) (p.src.value s) s.cf
    GivesFlags (compare op p) s s x.flags := by
  obtain ⟨hs, hd⟩ := (Pair.ok_iff p s .read).1 h
  exact (Gives.get hs).bind_flags ((Gives.read hd).bind_flags ((Gives.look s fun _ _ _ => rfl).bind_flags
    (.putFlags _ _)))

theorem GivesFlags.modify {op : Width → Word → Bool → Res} {p : Single} (h : p.dst.ok s .rmw = true) :
    let x := op p.width ((p.dst.spot s).value s) s.cf
    GivesFlags (modify op p) s ((p.dst.spot s).store s x.val) x.flags := by
  obtain ⟨l, hl, hget, hput⟩ := Gives.loc h
  exact hl.bind_flags (hget.bind_flags ((Gives.look s fun _ _ _ => rfl).bind_flags
    ((hput _).bind_flags (.putFlags _ _))))

end

/-! From the body to `Done`. -/

/-- What a body that completes leaves alone, whatever it writes: EIP and the length, EFLAGS, and what says how EIP
advances. -/
structure Still (s u : State) : Prop where
  eip : u.eip = s.eip
  ilen : u.ilen = s.ilen
  eflags : u.eflags = s.eflags
  cr0 : u.cr.cr0 = s.cr.cr0
  db : u.seg.cs.db = s.seg.cs.db

namespace Still

variable {s u v : State}

theorem refl (s : State) : Still s s := ⟨rfl, rfl, rfl, rfl, rfl⟩

theorem trans (h : Still s u) (k : Still u v) : Still s v :=
  ⟨k.eip.trans h.eip, k.ilen.trans h.ilen, k.eflags.trans h.eflags, k.cr0.trans h.cr0, k.db.trans h.db⟩

theorem store (k : Spot) (s : State) (x : Word) : Still s (k.store s x) :=
  ⟨k.store_eip s x, k.store_ilen s x, k.store_eflags s x, by rw [k.store_cr], by rw [k.store_seg]⟩

theorem setReg (r : Gpr) (x : Word) (s : State) : Still s (s.setReg r x) := ⟨rfl, rfl, rfl, rfl, rfl⟩
theorem setReg8 (r : Gpr8) (x : Byte) (s : State) : Still s (s.setReg8 r x) := ⟨rfl, rfl, rfl, rfl, rfl⟩
theorem setRegZ (z : Sz) (r : Gpr) (x : Word) (s : State) : Still s (s.setRegZ z r x) := by
  cases z <;> exact .setReg r _ s
theorem pushed (n : Width) (vs : List Word) (s : State) : Still s (s.pushed n vs) := ⟨rfl, rfl, rfl, rfl, rfl⟩
theorem popped (d : Nat) (s : State) : Still s (s.popped d) := ⟨rfl, rfl, rfl, rfl, rfl⟩

end Still

section
variable {s u v : State} {regs regs' : List Gpr} {stored stored' : Nat → Bool}

theorem Frame.refl (s : State) : Frame s s regs stored := ⟨fun _ _ => rfl, fun _ _ => rfl⟩

theorem Frame.trans (h : Frame s u regs stored) (k : Frame u v regs stored) : Frame s v regs stored :=
  ⟨fun r hr => (k.regs r hr).trans (h.regs r hr), fun a ha => (k.mem a ha).trans (h.mem a ha)⟩

theorem Frame.mono (h : Frame s u regs stored) (hr : regs ⊆ regs') (hm : ∀ a, stored' a = false → stored a = false) :
    Frame s u regs' stored' := ⟨fun r h' => h.regs r fun hc => h' (hr hc), fun a ha => h.mem a (hm a ha)⟩

theorem Frame.setReg (r : Gpr) (x : Word) (s : State) : Frame s (s.setReg r x) [r] stored :=
  ⟨fun _ h => State.reg_setReg_ne _ _ (by simpa using h), fun _ _ => rfl⟩

theorem Frame.setRegZ (z : Sz) (r : Gpr) (x : Word) (s : State) : Frame s (s.setRegZ z r x) [r] stored :=
  ⟨fun _ h => State.reg_setRegZ_ne _ z _ (by simpa using h), fun _ _ => by cases z <;> rfl⟩

theorem Frame.setReg8 (r : Gpr8) (x : Byte) (s : State) : Frame s (s.setReg8 r x) [Gpr8.home r] stored :=
  ⟨fun _ h => State.reg_setReg8_ne _ _ (by simpa using h), fun _ _ => rfl⟩

variable {i : Instr} {l : Bool} {body : M Unit} {f : FlagsOut}

theorem done_of_givesFlags (hi : exec i s = runInstr l (thenNext body) s) (hl : s.lockOk l = true)
    (hb : GivesFlags body s u f) (hst : Still s u) (hfr : Frame s u regs stored) : Done i s u f regs stored := by
  obtain ⟨w, k, hw, hn⟩ := hb s (.refl s)
  refine done_of_body hi (State.lockOk_lock hl) (State.eipOpen_of_lockOk hl) hw hn ?_ hfr hst.eip hst.ilen hst.cr0 ?_ hst.db
  · rw [hst.eflags]
    exact FlagsOut.image_allows f _ _
  · rw [FlagsOut.image_vm, hst.eflags]
    rfl

theorem done_of_gives (hi : exec i s = runInstr l (thenNext body) s) (hl : s.lockOk l = true) (hb : Gives body s () u)
    (hst : Still s u) (hfr : Frame s u regs stored) : Done i s u .same regs stored :=
  done_of_givesFlags hi hl hb.flags hst hfr

theorem State.lockOk_of_plain (h : s.plain = true) (l : Bool) : s.lockOk l = true := by
  simp only [State.plain, State.lockOk, Bool.and_eq_true, Bool.or_eq_true] at h ⊢
  exact ⟨.inl h.1, h.2⟩

end

end Sys2Proof.Machine

/-!
Data movement (O9 to O14).
-/
namespace Sys2Proof.Machine

variable {s : State}

/-! MOV. -/

theorem Gives.moffsRead {n : Width} {a : Sz} {off : Word}
    (h : (Spot.mem n a (s.segOr .ds) (truncZ a off)).ok s .read = true) :
    Gives (moffsRead n a off) s ((Spot.mem n a (s.segOr .ds) (truncZ a off)).value s) s :=
  .look_bind (fun _ _ _ => rfl) (.memRead h)

theorem Gives.moffsWrite {n : Width} {a : Sz} {off : Word} (x : Word)
    (h : (Spot.mem n a (s.segOr .ds) (truncZ a off)).ok s .write = true) :
    Gives (moffsWrite n a off x) s () ((Spot.mem n a (s.segOr .ds) (truncZ a off)).store s x) :=
  .look_bind (fun _ _ _ => rfl) (.memWrite x h)

theorem accPlace_read (z : Sz) (s : State) : Gives (accPlace z.width).read s (s.regZ z .ax) s := by
  cases z <;> exact Gives.read rfl

theorem accPlace_write (z : Sz) (x : Word) (s : State) : Gives ((accPlace z.width).write x) s () (s.setRegZ z .ax x) := by
  cases z <;> exact Gives.write x rfl

/-- Every form of MOV stores the value of its source in its destination. -/
theorem movBody_gives {f : MovForm} (h : movOk f s = true) :
    Gives (movBody f) s () ((movSpots f s).1.store s (movSpots f s).2) := by
  cases f with
  | mr8 d r | mr z d r | mi8 d imm | mi z d imm => exact .move ((Pair.ok_iff _ _ _).2 ⟨rfl, h⟩)
  | rm8 r o | rm z r o => exact .move ((Pair.ok_iff _ _ _).2 ⟨h, rfl⟩)
  | ri8 r imm | ri z r imm => exact .move rfl
  | loadA8 a off => exact (Gives.moffsRead h).bind (Gives.write _ rfl)
  | loadA z a off => exact (Gives.moffsRead h).bind (accPlace_write z _ s)
  | storeA8 a off => exact (Gives.read (p := .reg8 .al) rfl).bind (.moffsWrite _ h)
  | storeA z a off => exact (accPlace_read z s).bind (.moffsWrite _ h)

/-- Settles O9. -/
theorem movMoves : Obligations.MovMoves := by
  unfold Obligations.MovMoves
  intro f s hs hok
  exact done_of_gives rfl (State.lockOk_of_plain hs _) (movBody_gives hok) (.store _ _ _) (Spot.store_frame _ _ _)

/-! XCHG. -/

theorem exchange_gives {p : Place} {r : Loc} {k : Spot} (h : p.ok s .rmw = true)
    (hget : Gives r.get s (k.value s) s) (hput : ∀ (u : State) x, Gives (r.put x) u () (k.store u x)) :
    Gives (exchange p r) s () (k.store ((p.spot s).store s (k.value s)) ((p.spot s).value s)) := by
  obtain ⟨l, hl, hlget, hlput⟩ := Gives.loc h
  exact hget.bind (hl.bind (hlget.bind ((hlput _).bind (hput _ _))))

/-- Settles O10. -/
theorem xchgExchanges : Obligations.XchgExchanges := by
  unfold Obligations.XchgExchanges
  intro f s hl hok
  have still : ∀ (k d : Spot) (x y : Word), Still s (k.store (d.store s x) y) :=
    fun k d x y => (Still.store d s x).trans (.store k _ y)
  have frame : ∀ (k d : Spot) (x y : Word), (∀ u a, k.covers u a = false) →
      Frame s (k.store (d.store s x) y) (k.regs ++ d.regs) (d.covers s) := fun k d x y hk =>
    ((Spot.store_frame d s x).mono (by simp) fun _ h => h).trans
      ((Spot.store_frame k (d.store s x) y).mono (by simp) fun _ _ => hk _ _)
  cases f with
  | rm8 o r =>
    exact done_of_gives rfl hl
      (exchange_gives (k := .reg8 r) hok ((Gives.getReg8 r s).bind (.pure _ s)) fun u x => .putReg8 r _ u)
      (still _ _ _ _) (frame _ _ _ _ fun _ _ => rfl)
  | rm z o r =>
    exact done_of_gives rfl hl (exchange_gives (k := .reg z r) hok (.getRegZ z r s) fun u x => .putRegZ z r _ u)
      (still _ _ _ _) (frame _ _ _ _ fun _ _ => rfl)
  | acc z r =>
    exact done_of_gives rfl hl (exchange_gives (p := .reg z r) (k := .reg z .ax) hok (.getRegZ z .ax s)
      fun u x => .putRegZ z .ax _ u) (still _ _ _ _) (frame _ _ _ _ fun _ _ => rfl)

/-! PUSH, POP, PUSHA, POPA. -/

theorem Gives.push {n : Width} (v : Word) (h : s.canPush n 1 = true) : Gives (push n v) s () (s.pushed n [v]) :=
  Gives.pushAll h

/-- Settles O11. -/
theorem pushStores : Obligations.PushStores := by
  unfold Obligations.PushStores
  intro f s n hs hok hpush
  have still := Still.pushed n [(pushItem f s).2] s
  have frame := State.pushed_frame s n [(pushItem f s).2]
  have hl := State.lockOk_of_plain hs false
  cases f with
  | r z g => exact done_of_gives rfl hl ((Gives.getRegZ z g s).bind (.push _ hpush)) still frame
  | immv z imm => exact done_of_gives rfl hl (.push _ hpush) still frame
  | immb z imm => exact done_of_gives rfl hl (.push _ hpush) still frame
  | rm z o => exact done_of_gives rfl hl ((Gives.read hok).bind (.push _ hpush)) still frame

/-- Settles O12. -/
theorem popLoads : Obligations.PopLoads := by
  unfold Obligations.PopLoads
  constructor
  · intro z g s hs hok
    exact done_of_gives rfl (State.lockOk_of_plain hs false) ((Gives.pop hok).bind (.putRegZ z g _ _))
      ((Still.popped _ s).trans (.setRegZ z g _ _))
      (((State.popped_frame s _).mono (by simp) fun _ h => h).trans ((Frame.setRegZ z g _ _).mono (by simp) fun _ h => h))
  · intro z o s hs hok u hu d
    exact done_of_gives rfl (State.lockOk_of_plain hs false) ((Gives.pop hok).bind (.write _ hu))
      ((Still.popped _ s).trans (.store d u _))
      (((State.popped_frame s _).mono (by simp) fun _ _ => rfl).trans
        ((Spot.store_frame d u _).mono (by simp) fun _ h => h))

/-- The items POPA reads are on the stack, and are loaded in order, the fourth left out. -/
theorem popa_reads (z : Sz) (h : ∀ j, j < 8 → (s.above z.width (j * z.width.bytes)).ok s .read = true) :
    ∃ vs, Gives (peekItems z.width 0 popaOrder) s vs s ∧ ∀ u, Gives (putItems z vs) u () (s.loadItems z popaItems u) := by
  have peeks : ∀ (n : Nat) (order : List (Option Gpr)), n + order.length ≤ 8 →
      Gives (peekItems z.width (n * z.width.bytes) order) s
        (order.zipIdx n |>.map fun (r, j) => (r, (s.above z.width (j * z.width.bytes)).value s)) s := by
    intro n order
    induction order generalizing n with
    | nil => exact fun _ => .pure _ s
    | cons r rest ih =>
      intro hn
      rw [List.length_cons] at hn
      have hrest := ih (n + 1) (by omega)
      rw [Nat.add_mul, Nat.one_mul] at hrest
      exact (Gives.peek (h n (by omega))).bind (hrest.bind (.pure _ s))
  refine ⟨_, Nat.zero_mul z.width.bytes ▸ peeks 0 popaOrder (by decide), fun u => ?_⟩
  refine (Gives.putRegZ z _ _ _).bind ((Gives.putRegZ z _ _ _).bind ((Gives.putRegZ z _ _ _).bind ?_))
  exact (Gives.putRegZ z _ _ _).bind ((Gives.putRegZ z _ _ _).bind ((Gives.putRegZ z _ _ _).bind
    ((Gives.putRegZ z _ _ _).bind (.pure _ _))))

theorem loadItems_still (z : Sz) (items : List (Gpr × Nat)) (u : State) : Still u (s.loadItems z items u) := by
  induction items generalizing u with
  | nil => exact .refl u
  | cons i rest ih => exact (Still.setRegZ z _ _ u).trans (ih _)

theorem loadItems_frame (z : Sz) (items : List (Gpr × Nat)) (u : State) {stored : Nat → Bool} :
    Frame u (s.loadItems z items u) (items.map (·.1)) stored := by
  induction items generalizing u with
  | nil => exact .refl u
  | cons i rest ih =>
    exact ((Frame.setRegZ z _ _ u).mono (by simp) fun _ h => h).trans ((ih _).mono (by simp) fun _ h => h)

/-- Settles O13. -/
theorem allRegistersPushedPopped : Obligations.AllRegistersPushedPopped := by
  unfold Obligations.AllRegistersPushedPopped
  constructor
  · intro z s hs hpush
    refine done_of_gives rfl (State.lockOk_of_plain hs false) ?_ (.pushed _ _ s) (State.pushed_frame s _ _)
    intro t ht
    have hr : ∀ r, t.regZ z r = s.regZ z r := fun r => ht.look (·.regZ z r) fun s tr k => regZ_records s z r tr k
    obtain ⟨w, hw, hn⟩ := Gives.pushAll (n := z.width) (vs := [Gpr.ax, .cx, .dx, .bx, .sp, .bp, .si, .di].map (s.regZ z))
      hpush t ht
    refine ⟨w, ?_, hn⟩
    rw [M.look_bind, ← hw]
    simp only [id, List.map, hr]
  · intro z s hs hok
    simp only [List.all_eq_true, List.mem_range] at hok
    obtain ⟨vs, hread, hput⟩ := popa_reads z hok
    exact done_of_gives rfl (State.lockOk_of_plain hs false) (hread.bind ((hput s).bind (.popBytes _ _)))
      ((loadItems_still z _ s).trans (.popped _ _))
      (((loadItems_frame z popaItems s).mono (by decide) fun _ h => h).trans
        ((State.popped_frame _ _).mono (by decide) fun _ h => h))

/-! Conversions. -/

theorem signBit_iff_neg {n : Width} {v : Word} (h : v.toNat < 2 ^ n.bits) : signBit n v = true ↔ signedW n v < 0 := by
  rw [signBit_eq h, decide_eq_true_eq, signedW_eq h]
  by_cases hk : v.toNat < 2 ^ (n.bits - 1)
  · rw [if_pos hk]
    omega
  · rw [if_neg hk]
    cases n <;> simp only [Width.bits] at h hk ⊢ <;> omega

theorem regZ_lt (s : State) (z : Sz) (r : Gpr) : (s.regZ z r).toNat < 2 ^ z.width.bits := by
  cases z with
  | s32 => exact (s.reg r).isLt
  | s16 =>
    have h := (lowHalf (s.reg r)).isLt
    simp only [State.regZ, zext16, BitVec.toNat_setWidth, Sz.width, Width.bits]
    omega

/-- Settles O14. -/
theorem extensions : Obligations.Extensions := by
  unfold Obligations.Extensions
  refine ⟨?_, ?_, fun os as => ⟨rfl, rfl⟩, ?_, ?_⟩
  · intro z r o s hs hok v
    exact ⟨done_of_gives rfl (State.lockOk_of_plain hs false) ((Gives.read hok).bind (.putRegZ z r _ s)) (.setRegZ _ _ _ _)
      (.setRegZ _ _ _ _), done_of_gives rfl (State.lockOk_of_plain hs false) ((Gives.read hok).bind (.putRegZ z r _ s))
      (.setRegZ _ _ _ _) (.setRegZ _ _ _ _)⟩
  · intro z r o s hs hok v
    exact ⟨done_of_gives rfl (State.lockOk_of_plain hs false) ((Gives.read hok).bind (.putRegZ z r _ s)) (.setRegZ _ _ _ _)
      (.setRegZ _ _ _ _), done_of_gives rfl (State.lockOk_of_plain hs false) ((Gives.read hok).bind (.putRegZ z r _ s))
      (.setRegZ _ _ _ _) (.setRegZ _ _ _ _)⟩
  · intro s hs
    exact ⟨done_of_gives rfl (State.lockOk_of_plain hs false) ((Gives.getReg .ax s).bind (.putRegZ .s16 .ax _ s))
      (.setRegZ _ _ _ _) (.setRegZ _ _ _ _),
      done_of_gives rfl (State.lockOk_of_plain hs false) ((Gives.getReg .ax s).bind (.putRegZ .s32 .ax _ s))
      (.setRegZ .s32 _ _ _) (.setRegZ .s32 _ _ _)⟩
  · intro z s hs
    have hv := signBit_iff_neg (regZ_lt s z .ax)
    refine done_of_gives rfl (State.lockOk_of_plain hs false) ((Gives.getRegZ z .ax s).bind ?_) (.setRegZ _ _ _ _) (.setRegZ _ _ _ _)
    simp only [hv]
    exact .putRegZ z .dx _ s

end Sys2Proof.Machine

/-!
Stores and loads, and the accesses their segment refuses (O7).
-/
namespace Sys2Proof.Machine

variable {s : State}

theorem Width.bytes_pos (n : Width) : 0 < n.bytes := by cases n <;> decide

/-! What a segment refuses. -/

/-- A byte outside the limit or the address size (R142, R143, D7). -/
theorem allows_of_outside {a : Sz} {r : Sreg} {off : Word} {n : Nat} (acc : Acc) (h : s.outside a r off n) :
    (s.sreg r).allows s.mode a off n acc = false := by
  obtain ⟨k, hk, h⟩ := h
  simp only [SegReg.allows, Bool.and_eq_false_iff, decide_eq_false_iff_not]
  rcases h with h | h
  · left; omega
  · right
    cases hm : s.mode with
    | real | v86 =>
      rw [hm, if_neg (by simp)] at h
      simp only [decide_eq_false_iff_not]
      omega
    | prot =>
      rw [hm] at h
      by_cases he : arExpandDown (s.sreg r).ar = true
      · rw [if_pos ⟨rfl, he⟩] at h
        simp only [SegReg.inLimit, he, if_true, Bool.and_eq_false_iff, decide_eq_false_iff_not]
        omega
      · rw [if_neg (by simp [he])] at h
        simp only [SegReg.inLimit, he, if_false, Bool.and_eq_false_iff, decide_eq_false_iff_not, Bool.false_eq_true]
        omega

/-- What the rights of a segment must have for an access. -/
def Acc.need : Acc → Byte → Bool
  | .read, ar => arReadable ar
  | .write, ar => arWritable ar
  | .rmw, ar => arReadable ar && arWritable ar

/-- A segment register that is null, or without the rights (R22, R140). -/
theorem allows_of_forbids {a : Sz} {r : Sreg} {off : Word} {n : Nat} {acc : Acc} (h : s.forbids r acc.need) :
    (s.sreg r).allows s.mode a off n acc = false := by
  obtain ⟨hm, hr⟩ := h
  have ht : (s.sreg r).typeAllows acc = acc.need (s.sreg r).ar := by cases acc <;> rfl
  simp only [SegReg.allows, hm, ht]
  rcases hr with hr | hr <;> simp [hr]

theorem violation_eq (r : Sreg) : Sreg.violation r = if r = .ss then 12 else 13 := by
  cases r <;> decide

/-- The access is refused before anything is read or written. -/
theorem memAddrs_refused {a : Sz} {r : Sreg} {off : Word} {n : Nat} {acc : Acc}
    (h : (s.sreg r).allows s.mode a off n acc = false) :
    memAddrs a r off n acc s = .error (.exc (faultOf (if r = .ss then 12 else 13) (some 0))) s := by
  unfold memAddrs
  rw [M.look_bind, M.look_bind, h, violation_eq]
  rfl

theorem memRead_refused {a : Sz} {r : Sreg} {off : Word} {n : Width}
    (h : (s.sreg r).allows s.mode a off n.bytes .read = false) :
    memRead a r off n s = .error (.exc (faultOf (if r = .ss then 12 else 13) (some 0))) s :=
  M.bind_stop _ (memAddrs_refused h)

theorem memWrite_refused {a : Sz} {r : Sreg} {off : Word} {n : Width} (v : Word)
    (h : (s.sreg r).allows s.mode a off n.bytes .write = false) :
    memWrite a r off n v s = .error (.exc (faultOf (if r = .ss then 12 else 13) (some 0))) s :=
  M.bind_stop _ (memAddrs_refused h)

theorem refused_iff {a : Sz} {r : Sreg} {off : Word} {n : Nat} {acc : Acc}
    (h : s.outside a r off n ∨ s.forbids r acc.need) : (s.sreg r).allows s.mode a off n acc = false :=
  h.elim (allows_of_outside acc) allows_of_forbids

/-- Looking at a refused memory operand raises the fault, with the state as it is. -/
theorem Place.loc_refused {n : Width} {m : Mem} {acc : Acc} (ho : m.isOpen = false)
    (h : (s.sreg (s.segOf m)).allows s.mode m.size (s.offsetOf m) n.bytes acc = false) :
    (Place.mem n m).loc acc s = .error (.exc (faultOf (if s.segOf m = .ss then 12 else 13) (some 0))) s := by
  have he : effAddr m s = .ok (s.offsetOf m) s := by simp [effAddr, ho]
  show (effAddr m >>= fun off => look (·.segOf m) >>= fun seg => memAddrs m.size seg off n.bytes acc >>= fun as =>
    pure (Loc.bytes as)) s = _
  rw [M.bind_ok _ he, M.look_bind]
  exact M.bind_stop _ (memAddrs_refused h)

/-- A fault of the body that leaves the state as it is. -/
theorem exec_fault {i : Instr} {l : Bool} {body : M Unit} {f : Exc} (hi : exec i s = runInstr l (thenNext body) s)
    (hl : (s.pfx.lock && !l) = false) (hf : f.committed = false) (h : body s = .error (.exc f) s) :
    exec i s = takeEvent f s.eip s :=
  hi.trans (runInstr_fault hl hf (M.bind_stop _ h))

/-! Stores and loads. -/

/-- Settles O7. -/
theorem storeThenLoad : Obligations.StoreThenLoad := by
  unfold Obligations.StoreThenLoad
  refine ⟨?_, ?_, ?_⟩
  · intro s a r off n v h
    obtain ⟨t, ht, hn⟩ := (Gives.memWrite v h).run
    have hmem : t.mem = writeLE s.mem (s.physAt r off) n.bytes v := hn.look State.mem fun _ _ _ => rfl
    refine ⟨t, ht, fun k hk => ?_, fun j hj => ?_, fun hwf => ?_, fun hread => ?_⟩
    · rw [hmem, memGet_writeLE _ _ _ _ hk]
    · rw [hmem]
      exact (Spot.store_frame (.mem n a r off) s v).mem j hj
    · rw [hmem]
      exact memWf_writeLE _ _ _ hwf
    · obtain ⟨u, hu, hnu⟩ := Gives.memRead (s := (Spot.mem n a r off).store s v) (n := n) (z := a) (r := r) (off := off)
        hread t hn
      refine ⟨u, by rw [hu, Spot.value_store], ?_⟩
      rw [hmem]
      exact hnu.look State.mem fun _ _ _ => rfl
  · intro s a r off n fault
    exact ⟨fun h v => memWrite_refused v (refused_iff (acc := .write) h), fun h => memRead_refused (refused_iff (acc := .read) h)⟩
  · intro s z m g hl ho r fault out
    have hlock : (s.pfx.lock && !false) = false := by rw [hl]; rfl
    constructor
    · intro h
      refine exec_fault rfl hlock rfl ?_
      have hget : (Operand.at_ (.reg z g)).get s = .ok (s.regZ z g) s := rfl
      exact (M.bind_ok _ hget).trans (M.bind_stop _ (Place.loc_refused ho (refused_iff (acc := .write) h)))
    · intro h
      refine exec_fault rfl hlock rfl ?_
      exact M.bind_stop _ (M.bind_stop _ (Place.loc_refused ho (refused_iff (acc := .read) h)))

end Sys2Proof.Machine

/-!
Arithmetic and logic: the instructions (O18 to O20).
-/
namespace Sys2Proof.Machine

section
variable {α β : Type} {s u v : State} {a : α} {b : β}

/-- From every state that is `s` but for the records, `m` stops with the exception `f`, leaving `u` but for the records. -/
def Raises (m : M α) (s : State) (f : Exc) (u : State) : Prop :=
  ∀ t, Noted s t → ∃ w, m t = .error (.exc f) w ∧ Noted u w

theorem Gives.bind_raises {m : M α} {k : α → M β} {f : Exc} (h : Gives m s a u) (hk : Raises (k a) u f v) :
    Raises (m >>= k) s f v := by
  intro t ht
  obtain ⟨w, hm, hw⟩ := h t ht
  rw [M.bind_ok k hm]
  exact hk w hw

theorem Raises.bind {m : M α} {k : α → M β} {f : Exc} (h : Raises m s f u) : Raises (m >>= k) s f u := by
  intro t ht
  obtain ⟨w, hm, hw⟩ := h t ht
  exact ⟨w, M.bind_stop k hm, hw⟩

theorem Raises.raise (x : Byte) (c : Option Half) (s : State) : Raises (raise x c : M α) s (faultOf x c) s :=
  fun t ht => ⟨t, rfl, ht⟩

theorem Raises.require {c : Bool} {x : Byte} {code : Option Half} (hc : c = false) (s : State) :
    Raises (require c x code) s (faultOf x code) s := fun t ht => ⟨t, M.require_fail hc, ht⟩

/-- A look at the whole state whose use does not depend on the records. -/
theorem Gives.look_id {k : State → M β} (hk : ∀ tr n, k { s with traps := tr, draws := n } = k s) (h : Gives (k s) s b u) :
    Gives (Machine.look id >>= k) s b u := by
  intro t ht
  have hkt : k t = k s := by
    obtain ⟨tr, n, rfl⟩ := ht
    exact hk tr n
  rw [M.look_bind, id, hkt]
  exact h t ht

theorem GivesFlags.look_id {k : State → M Unit} {f : FlagsOut}
    (hk : ∀ tr n, k { s with traps := tr, draws := n } = k s) (h : GivesFlags (k s) s u f) :
    GivesFlags (Machine.look id >>= k) s u f := by
  intro t ht
  have hkt : k t = k s := by
    obtain ⟨tr, n, rfl⟩ := ht
    exact hk tr n
  rw [M.look_bind, id, hkt]
  exact h t ht

/-- A fault that rolls back what the instruction changed of the registers: only the count of draws is left. -/
theorem exec_raises {i : Instr} {l : Bool} {body : M Unit} {f : Exc} (hi : exec i s = runInstr l (thenNext body) s)
    (hl : s.lockOk l = true) (hf : f.committed = false) (h : Raises body s f u)
    (hu : rollback s u = { s with draws := u.draws }) : ∃ k, exec i s = takeEvent f s.eip { s with draws := k } := by
  obtain ⟨w, hw, tr, k, rfl⟩ := h s (.refl s)
  have hb : thenNext body s = .error (.exc f) { u with traps := tr, draws := k } := M.bind_stop _ hw
  have hr : rollback s { u with traps := tr, draws := k } = { s with draws := k } :=
    congrArg (fun t : State => { t with draws := k }) hu
  exact ⟨k, by rw [hi, runInstr_fault (State.lockOk_lock hl) hf hb, hr]⟩

end

variable {s : State}

/-! ADD to NOT. -/

theorem combines_of_exec {ins : AluForm → Instr} {op : Width → Word → Word → Bool → Res}
    (h : ∀ f s, exec (ins f) s = runInstr f.operands.dst.isMem (thenNext (combine op f.operands)) s) : Combines ins op :=
  fun f s hl hok => done_of_givesFlags (h f s) hl (GivesFlags.combine hok) (.store _ _ _) (Spot.store_frame _ _ _)

theorem modifies_of_exec {F : Type} {ins : F → Instr} {operand : F → Single} {op : Width → Word → Bool → Res}
    (h : ∀ f s, exec (ins f) s = runInstr (operand f).dst.isMem (thenNext (modify op (operand f))) s) :
    Modifies ins operand (fun _ _ => op) true :=
  fun f s hl hok => done_of_givesFlags (h f s) hl (GivesFlags.modify hok) (.store _ _ _) (Spot.store_frame _ _ _)

/-- Settles O18. -/
theorem aluResults : Obligations.AluResults := by
  unfold Obligations.AluResults
  exact ⟨combines_of_exec fun _ _ => rfl, combines_of_exec fun _ _ => rfl, combines_of_exec fun _ _ => rfl,
    combines_of_exec fun _ _ => rfl, combines_of_exec fun _ _ => rfl, combines_of_exec fun _ _ => rfl,
    combines_of_exec fun _ _ => rfl,
    fun f s hs hok => done_of_givesFlags rfl (State.lockOk_of_plain hs false)
      (GivesFlags.compare (op := fun n a b _ => subRes n a b false) hok) (.refl s) (.refl s),
    fun f s hs hok => done_of_givesFlags rfl (State.lockOk_of_plain hs false)
      (GivesFlags.compare (op := fun n a b _ => logicRes n (a &&& b)) hok) (.refl s) (.refl s),
    modifies_of_exec fun _ _ => rfl, modifies_of_exec fun _ _ => rfl, modifies_of_exec fun _ _ => rfl,
    modifies_of_exec fun _ _ => rfl⟩

/-! The accumulator pair. -/

theorem accW_gives (n : Width) (s : State) : Gives (accW n) s (s.pairLow n) s := by
  cases n with
  | b => exact (Gives.getReg8 .al s).bind (.pure _ s)
  | w | d => exact .getRegZ _ .ax s

theorem getHigh_gives (n : Width) (s : State) : Gives (getHigh n) s (s.pairHigh n) s := by
  cases n with
  | b => exact (Gives.getReg8 .ah s).bind (.pure _ s)
  | w | d => exact .getRegZ _ .dx s

theorem putAccW_gives (n : Width) (x : Word) (s : State) : Gives (putAccW n x) s () (s.setAcc n x) := by
  cases n with
  | b => exact .putReg8 .al _ s
  | w | d => exact .putRegZ _ .ax x s

/-- The state with the upper half of the pair replaced. -/
def State.setHigh (s : State) (n : Width) (x : Word) : State :=
  match n with
  | .b => s.setReg8 .ah (x.setWidth 8)
  | .w => s.setRegZ .s16 .dx x
  | .d => s.setRegZ .s32 .dx x

theorem putHigh_gives (n : Width) (x : Word) (s : State) : Gives (putHigh n x) s () (s.setHigh n x) := by
  cases n with
  | b => exact .putReg8 .ah _ s
  | w | d => exact .putRegZ _ .dx x s

theorem State.setAcc_setHigh (s : State) (n : Width) (hi lo : Word) : (s.setHigh n hi).setAcc n lo = s.setPair n hi lo := by
  cases n <;> rfl

/-- AL and AH are written in either order. -/
theorem setReg8_ah_al (s : State) (h l : Byte) : (s.setReg8 .ah h).setReg8 .al l = (s.setReg8 .al l).setReg8 .ah h := by
  have hbits : ∀ w : Word,
      ((w.extractLsb' 16 16 ++ h ++ w.extractLsb' 0 8).extractLsb' 8 24 ++ l : BitVec (24 + 8))
        = (w.extractLsb' 8 24 ++ l).extractLsb' 16 16 ++ h ++ (w.extractLsb' 8 24 ++ l).extractLsb' 0 8 := by
    intro w
    apply BitVec.eq_of_getLsbD_eq
    intro i hi
    simp only [BitVec.getLsbD_append, BitVec.getLsbD_extractLsb']
    grind
  exact congrArg (s.setReg .ax) (hbits (s.reg .ax))

theorem State.setHigh_setAcc (s : State) (n : Width) (hi lo : Word) : (s.setAcc n lo).setHigh n hi = s.setPair n hi lo := by
  cases n with
  | b => exact (setReg8_ah_al s _ _).symm
  | w | d => rfl

theorem Still.setPair (n : Width) (hi lo : Word) (s : State) : Still s (s.setPair n hi lo) := by
  cases n <;> exact ⟨rfl, rfl, rfl, rfl, rfl⟩

theorem frame_dx_ax (z : Sz) (hi lo : Word) (s : State) :
    Frame s ((s.setRegZ z .dx hi).setRegZ z .ax lo) [.ax, .dx] noByte :=
  ((Frame.setRegZ z .dx hi s).mono (by simp) fun _ h => h).trans
    ((Frame.setRegZ z .ax lo _).mono (by simp) fun _ h => h)

theorem Frame.setPair (n : Width) (hi lo : Word) (s : State) : Frame s (s.setPair n hi lo) (pairRegs n) noByte := by
  cases n with
  | b => exact (Frame.setReg8 .ah _ s).trans (.setReg8 .al _ _)
  | w => exact frame_dx_ax .s16 hi lo s
  | d => exact frame_dx_ax .s32 hi lo s

theorem putProduct_gives (n : Width) (p : Nat) (s : State) :
    Gives (putProduct n p) s () (s.setPair n (highPart n p) (lowPart n p)) :=
  State.setAcc_setHigh s n _ _ ▸ (putHigh_gives n _ s).bind (putAccW_gives n _ _)

theorem putTruncated_gives (z : Sz) (r : Gpr) (a b : Word) (s : State) :
    GivesFlags (putTruncated z r a b) s (s.setRegZ z r (lowPart z.width (imulNat z.width a b)))
      (mulFlags (imulBig z.width a b)) :=
  (Gives.putRegZ z r _ s).bind_flags (.putFlags _ _)

/-- What DIV and IDIV leave, or that they raise #DE. -/
theorem divide_results {op : Width → Word → Word → Word → Option (Word × Word)} {p : Single} {i : Instr} (hs : s.plain = true)
    (hi : exec i s = runInstr false (thenNext (divide op p)) s) (hok : p.dst.ok s .read = true) :
    match op p.width (s.pairHigh p.width) (s.pairLow p.width) ((p.dst.spot s).value s) with
    | some (q, r) => Done i s (s.setPair p.width r q) .undefined (pairRegs p.width) noByte
    | none => ∃ k, exec i s = takeEvent (faultOf 0 none) s.eip { s with draws := k } := by
  have hl := State.lockOk_of_plain hs false
  cases hop : op p.width (s.pairHigh p.width) (s.pairLow p.width) ((p.dst.spot s).value s) with
  | none =>
    have hb : Raises (divide op p) s (faultOf 0 none) s :=
      (Gives.read hok).bind_raises ((getHigh_gives _ s).bind_raises ((accW_gives _ s).bind_raises (by
        rw [hop]
        exact .raise 0 none s)))
    exact exec_raises hi hl rfl hb rfl
  | some qr =>
    have hb : GivesFlags (divide op p) s (s.setPair p.width qr.2 qr.1) .undefined :=
      (Gives.read hok).bind_flags ((getHigh_gives _ s).bind_flags ((accW_gives _ s).bind_flags (by
        rw [hop]
        refine (putAccW_gives _ _ s).bind_flags ((putHigh_gives _ _ _).bind_flags ?_)
        rw [State.setHigh_setAcc]
        exact .putFlags _ _)))
    exact done_of_givesFlags hi hl hb (.setPair _ _ _ s) (.setPair _ _ _ s)

/-- Settles O19. -/
theorem productsAndQuotients : Obligations.ProductsAndQuotients := by
  unfold Obligations.ProductsAndQuotients
  refine ⟨?_, ?_, ?_⟩
  · intro f s hs hok n b a
    have hl := State.lockOk_of_plain hs false
    have product : ∀ (p : Nat) (fl : FlagsOut),
        GivesFlags (putProduct n p >>= fun _ => putFlags fl) s (s.setPair n (highPart n p) (lowPart n p)) fl :=
      fun p fl => (putProduct_gives n p s).bind_flags (.putFlags _ _)
    exact ⟨done_of_givesFlags rfl hl ((Gives.read hok).bind_flags ((accW_gives n s).bind_flags (product _ _)))
        (.setPair _ _ _ s) (.setPair _ _ _ s),
      done_of_givesFlags rfl hl ((Gives.read hok).bind_flags ((accW_gives n s).bind_flags (product _ _)))
        (.setPair _ _ _ s) (.setPair _ _ _ s)⟩
  · intro z r o imm imm8 s hs hok v i8 done
    have hl := State.lockOk_of_plain hs false
    exact ⟨done_of_givesFlags rfl hl ((Gives.read hok).bind_flags ((Gives.getRegZ z r s).bind_flags
        (putTruncated_gives z r _ _ s))) (.setRegZ _ _ _ s) (.setRegZ _ _ _ s),
      done_of_givesFlags rfl hl ((Gives.read hok).bind_flags (putTruncated_gives z r _ _ s))
        (.setRegZ _ _ _ s) (.setRegZ _ _ _ s),
      done_of_givesFlags rfl hl ((Gives.read hok).bind_flags (putTruncated_gives z r _ _ s))
        (.setRegZ _ _ _ s) (.setRegZ _ _ _ s)⟩
  · intro f s hs hok n d one
    exact ⟨divide_results hs rfl hok, divide_results hs rfl hok⟩

/-! Decimal adjustment. -/

theorem Still.setAlAh (s : State) (l h : Byte) : Still s ((s.setReg8 .al l).setReg8 .ah h) := ⟨rfl, rfl, rfl, rfl, rfl⟩

theorem Frame.setAlAh (s : State) (l h : Byte) : Frame s ((s.setReg8 .al l).setReg8 .ah h) [.ax] noByte :=
  (Frame.setReg8 .al l s).trans (.setReg8 .ah h _)

theorem asciiAdjust_gives (six one : Byte) (s : State) :
    let carry := decide (9 < (s.reg8 .al).toNat % 16) || s.af
    GivesFlags (asciiAdjust six one) s
      ((s.setReg8 .al ((if carry then s.reg8 .al + six else s.reg8 .al) &&& 0x0F)).setReg8 .ah
        (if carry then s.reg8 .ah + one else s.reg8 .ah)) (asciiFlags carry) :=
  (Gives.getReg8 .al s).bind_flags ((Gives.getReg8 .ah s).bind_flags ((Gives.look s fun _ _ _ => rfl).bind_flags
    ((Gives.putReg8 .al _ s).bind_flags ((Gives.putReg8 .ah _ _).bind_flags (.putFlags _ _)))))

theorem byte_div_ten (a : Byte) : a / 10 = BitVec.ofNat 8 (a.toNat / 10) := by
  have ha := a.isLt
  have h10 : (10 : Byte).toNat = 10 := rfl
  apply BitVec.eq_of_toNat_eq
  rw [BitVec.toNat_udiv, BitVec.toNat_ofNat, h10]
  omega

theorem byte_mod_ten (a : Byte) : a % 10 = BitVec.ofNat 8 (a.toNat % 10) := by
  have h10 : (10 : Byte).toNat = 10 := rfl
  apply BitVec.eq_of_toNat_eq
  rw [BitVec.toNat_umod, BitVec.toNat_ofNat, h10]
  omega

theorem byte_times_ten (a b : Byte) : a * 10 + b = BitVec.ofNat 8 (a.toNat * 10 + b.toNat) := by
  apply BitVec.eq_of_toNat_eq
  simp [BitVec.toNat_add, BitVec.toNat_mul]

theorem exec_refused {i : Instr} {l : Bool} {body : M Unit} {x : Refusal} {t : State}
    (hi : exec i s = runInstr l (thenNext body) s) (hl : s.lockOk l = true) (h : body s = .error (.refusal x) t) :
    exec i s = .refused x := by
  have hb : thenNext body s = .error (.refusal x) t := M.bind_stop _ h
  rw [hi, runInstr, State.lockOk_lock hl, if_neg (by decide), hb]

/-- Settles O20. -/
theorem decimalAdjusts : Obligations.DecimalAdjusts := by
  unfold Obligations.DecimalAdjusts
  intro s hs al ah carry
  have hl := State.lockOk_of_plain hs false
  refine ⟨?_, ?_, ?_, ?_, ?_, ?_, fun imm himm => ?_⟩
  · exact done_of_givesFlags rfl hl ((Gives.getReg8 .al s).bind_flags (.look_id (fun _ _ => rfl)
      ((Gives.putReg8 .al _ s).bind_flags (.putFlags _ _)))) (.setReg8 _ _ s) (.setReg8 .al _ s)
  · exact done_of_givesFlags rfl hl ((Gives.getReg8 .al s).bind_flags (.look_id (fun _ _ => rfl)
      ((Gives.putReg8 .al _ s).bind_flags (.putFlags _ _)))) (.setReg8 _ _ s) (.setReg8 .al _ s)
  · exact done_of_givesFlags rfl hl (asciiAdjust_gives 6 1 s) (.setAlAh s _ _) (.setAlAh s _ _)
  · have hsub : ∀ a b : Byte, a - b = a + -b := fun a b => BitVec.sub_eq_add_neg a b
    rw [hsub al 6, hsub ah 1]
    exact done_of_givesFlags rfl hl (asciiAdjust_gives (-6) (-1) s) (.setAlAh s _ _) (.setAlAh s _ _)
  · rw [← byte_mod_ten, ← byte_div_ten]
    refine done_of_givesFlags rfl hl ?_ (.setAlAh s _ _) (.setAlAh s _ _)
    rw [← setReg8_ah_al]
    exact (Gives.pure () s).bind_flags ((Gives.getReg8 .al s).bind_flags ((Gives.putReg8 .ah _ s).bind_flags
      ((Gives.putReg8 .al _ _).bind_flags (.putFlags _ _))))
  · rw [← byte_times_ten]
    exact done_of_givesFlags rfl hl ((Gives.pure () s).bind_flags ((Gives.getReg8 .al s).bind_flags
      ((Gives.getReg8 .ah s).bind_flags ((Gives.putReg8 .al _ s).bind_flags ((Gives.putReg8 .ah _ _).bind_flags
      (.putFlags _ _)))))) (.setAlAh s _ _) (.setAlAh s _ _)
  · have hten : requireTen imm s = .error (.refusal .decimalBase) s := by
      rw [requireTen, if_neg (by simpa using himm)]
      rfl
    exact ⟨exec_refused rfl hl (M.bind_stop _ hten), exec_refused rfl hl (M.bind_stop _ hten)⟩

end Sys2Proof.Machine

/-!
Bit tests, scans, shifts and rotates: the instructions (O21, O22).
-/
namespace Sys2Proof.Machine

section
variable {s u : State} {i : Instr} {l : Bool} {body : M Unit} {f : FlagsOut} {regs : List Gpr} {stored : Nat → Bool}

/-- From what a body leaves when it runs, free values drawn, to `Done`. -/
theorem done_of_run (hi : exec i s = runInstr l (thenNext body) s) (hl : s.lockOk l = true)
    (hb : ∃ w k, body s = .ok () w ∧ Noted { u with eflags := f.image u.eflags (Config.freeWord k) } w)
    (hst : Still s u) (hfr : Frame s u regs stored) : Done i s u f regs stored := by
  obtain ⟨w, k, hw, hn⟩ := hb
  refine done_of_body hi (State.lockOk_lock hl) (State.eipOpen_of_lockOk hl) hw hn ?_ hfr hst.eip hst.ilen hst.cr0 ?_ hst.db
  · rw [hst.eflags]
    exact FlagsOut.image_allows f _ _
  · rw [FlagsOut.image_vm, hst.eflags]
    rfl

end

variable {s : State}

/-! BT, BTS, BTR, BTC. -/

/-- The unit that holds the bit is read and written as its spot. -/
theorem bitLoc_gives {f : BtForm} {acc : Acc} (h : bitOk f s acc = true) :
    ∃ l, Gives (bitLoc f.size f.base (bitOffset f s) acc) s l s ∧ Gives l.get s ((bitSpot f s).value s) s ∧
      ∀ x, Gives (l.put x) s () ((bitSpot f s).store s x) := by
  unfold bitOk bitSpot at *
  cases hb : f.base with
  | reg r => exact ⟨.reg f.size r, .pure _ s, .getRegZ _ r s, fun x => .putRegZ _ r x s⟩
  | mem m =>
    rw [hb] at h
    obtain ⟨ho, hk⟩ := Bool.and_eq_true_iff.1 h
    have hr := Spot.isRam_of_ok hk
    exact ⟨_, (Gives.effAddr (by simpa using ho) s).bind ((Gives.segOf m s).bind ((Gives.memAddrs hk).bind (.pure _ s))),
      .readAddrs hr, fun x => .writeAddrs x hr⟩

theorem bitOffset_records (f : BtForm) (s : State) (tr : Traps) (k : Nat) :
    bitOffset f { s with traps := tr, draws := k } = bitOffset f s := by
  cases f with
  | r z o g => simp only [bitOffset, regZ_records]
  | i z o imm => rfl

theorem bitModify_gives (op : Bool → Bool) {f : BtForm} (h : bitOk f s .rmw = true) :
    let v := (bitSpot f s).value s
    let k := bitNumber f.size (bitOffset f s)
    GivesFlags (bitModify op f) s ((bitSpot f s).store s (putBit v k (op (bit v k)))) (bitFlags (bit v k)) := by
  obtain ⟨l, hl, hget, hput⟩ := bitLoc_gives h
  refine GivesFlags.look_id (fun tr n => ?_) ?_
  · simp only [bitOffset_records]
  · exact hl.bind_flags (hget.bind_flags ((hput _).bind_flags (.putFlags _ _)))

/-! BSF, BSR. -/

theorem scanUp_least {v : Word} : ∀ {k i j : Nat}, j < i + k → i ≤ j → bit v j = true →
    scanUp v i k < i + k ∧ bit v (scanUp v i k) = true ∧ ∀ m, i ≤ m → m < scanUp v i k → bit v m = false
  | 0, i, j, hlt, hle, _ => absurd hlt (by omega)
  | k + 1, i, j, hlt, hle, hj => by
    by_cases hi : bit v i = true
    · rw [scanUp, if_pos hi]
      exact ⟨by omega, hi, fun m h1 h2 => absurd h1 (by omega)⟩
    · have hne : i ≠ j := fun h => hi (h ▸ hj)
      obtain ⟨h1, h2, h3⟩ := scanUp_least (k := k) (i := i + 1) (j := j) (by omega) (by omega) hj
      rw [scanUp, if_neg hi]
      refine ⟨by omega, h2, fun m hm hlt' => ?_⟩
      by_cases hmi : m = i
      · rw [hmi]
        exact Bool.eq_false_iff.2 hi
      · exact h3 m (by omega) hlt'

theorem scanDown_greatest {v : Word} : ∀ {k j : Nat}, j < k → bit v j = true →
    scanDown v k < k ∧ bit v (scanDown v k) = true ∧ ∀ m, scanDown v k < m → m < k → bit v m = false
  | 0, j, hlt, _ => absurd hlt (by omega)
  | k + 1, j, hlt, hj => by
    by_cases hk : bit v k = true
    · rw [scanDown, if_pos hk]
      exact ⟨by omega, hk, fun m h1 h2 => absurd h1 (by omega)⟩
    · have hne : j ≠ k := fun h => hk (h ▸ hj)
      obtain ⟨h1, h2, h3⟩ := scanDown_greatest (k := k) (j := j) (by omega) hj
      rw [scanDown, if_neg hk]
      refine ⟨by omega, h2, fun m hm hlt' => ?_⟩
      by_cases hmk : m = k
      · rw [hmk]
        exact Bool.eq_false_iff.2 hk
      · exact h3 m hm (by omega)

/-- A value that is not zero has a bit set below its width. -/
theorem exists_bit {n : Width} {v : Word} (hlt : v.toNat < 2 ^ n.bits) (hv : v ≠ 0) : ∃ j, j < n.bits ∧ bit v j = true := by
  by_contra hno
  push Not at hno
  apply hv
  apply BitVec.eq_of_getLsbD_eq
  intro i hi
  have hz : (0 : Word).getLsbD i = false := BitVec.getLsbD_zero
  rw [hz]
  by_cases hin : i < n.bits
  · exact Bool.eq_false_iff.2 (hno i hin)
  · exact Nat.testBit_lt_two_pow (lt_of_lt_of_le hlt (Nat.pow_le_pow_right (by decide) (by omega)))

theorem scan_found {find : Word → Nat} {z : Sz} {r : Gpr} {o : Rm} (hok : (o.place z).ok s .read = true)
    (hv : ((o.place z).spot s).value s ≠ 0) :
    GivesFlags (scan find z r o) s (s.setRegZ z r (BitVec.ofNat 32 (find (((o.place z).spot s).value s)))) (scanFlags false) := by
  refine (Gives.read hok).bind_flags ?_
  rw [if_neg (by simpa using hv)]
  exact (Gives.putRegZ z r _ s).bind_flags (.putFlags _ _)

/-- Of zero, the destination gets a free value. -/
theorem scan_absent {find : Word → Nat} {z : Sz} {r : Gpr} {o : Rm} (hok : (o.place z).ok s .read = true)
    (hv : ((o.place z).spot s).value s = 0) :
    ∃ w t n, scan find z r o s = .ok () t ∧
      Noted { s.setRegZ z r w with eflags := (scanFlags true).image (s.setRegZ z r w).eflags (Config.freeWord n) } t := by
  obtain ⟨t, ht, hn⟩ := (Gives.read hok).run
  have hz : ((((o.place z).spot s).value s) == 0) = true := beq_iff_eq.2 hv
  have hput : GivesFlags (putRegZ z r (Config.freeWord t.draws) >>= fun _ => putFlags (scanFlags true)) s _ _ :=
    (Gives.putRegZ z r _ s).bind_flags (.putFlags _ _)
  obtain ⟨u, n, hu, hnu⟩ := hput _ (hn.draw (t.draws + 1))
  refine ⟨Config.freeWord t.draws, u, n, ?_, hnu⟩
  unfold scan
  rw [M.bind_ok _ ht, if_pos hz, ← hu]
  rfl

theorem Rm.value_lt (o : Rm) (z : Sz) (s : State) : (((o.place z).spot s).value s).toNat < 2 ^ z.width.bits := by
  cases o with
  | reg r => exact regZ_lt s z r
  | mem m =>
    exact readLE_lt s.mem (s.physAt (s.segOf m) (s.offsetOf m)) z.width

/-- Settles O21. -/
theorem bitTestsAndScans : Obligations.BitTestsAndScans := by
  unfold Obligations.BitTestsAndScans
  constructor
  · intro f s d v k
    refine ⟨fun hs hok => ?_, fun hl hok => ⟨?_, ?_, ?_⟩⟩
    · obtain ⟨l, hloc, hget, -⟩ := bitLoc_gives hok
      refine done_of_givesFlags rfl (State.lockOk_of_plain hs false) (GivesFlags.look_id (fun tr n => ?_) ?_) (.refl s) (.refl s)
      · simp only [bitOffset_records]
      · exact hloc.bind_flags (hget.bind_flags (.putFlags _ s))
    · exact done_of_givesFlags rfl hl (bitModify_gives _ hok) (.store d s _) (Spot.store_frame d s _)
    · exact done_of_givesFlags rfl hl (bitModify_gives _ hok) (.store d s _) (Spot.store_frame d s _)
    · exact done_of_givesFlags rfl hl (bitModify_gives _ hok) (.store d s _) (Spot.store_frame d s _)
  · intro z r o s hs hok v found absent
    have hl := State.lockOk_of_plain hs false
    refine ⟨fun hv => ?_, fun hv => ?_⟩
    · have zero : ∀ (i : Instr) (find : Word → Nat), exec i s = runInstr false (thenNext (scan find z r o)) s → absent i := by
        intro i find hi
        obtain ⟨w, hb⟩ := scan_absent (find := find) hok hv
        exact ⟨w, done_of_run hi hl hb (.setRegZ z r w s) (.setRegZ z r w s)⟩
      exact ⟨zero _ _ rfl, zero _ _ rfl⟩
    · obtain ⟨j, hj, hbit⟩ := exists_bit (Rm.value_lt o z s) hv
      have one : ∀ (i : Instr) (find : Word → Nat), exec i s = runInstr false (thenNext (scan find z r o)) s →
          found i (find v) := fun i find hi =>
        done_of_givesFlags hi hl (scan_found hok hv) (.setRegZ z r _ s) (.setRegZ z r _ s)
      obtain ⟨hlt, hset, hleast⟩ := scanUp_least (i := 0) (k := z.width.bits) (by omega) (Nat.zero_le j) hbit
      obtain ⟨hlt', hset', hgreatest⟩ := scanDown_greatest hj hbit
      exact ⟨⟨scanUp v 0 z.width.bits, hlt.trans_eq (Nat.zero_add _), hset, fun m hm => hleast m (Nat.zero_le m) hm,
          one (.bsf z r o) (fun v => scanUp v 0 z.width.bits) rfl⟩,
        ⟨scanDown v z.width.bits, hlt', hset', hgreatest, one (.bsr z r o) (fun v => scanDown v z.width.bits) rfl⟩⟩

/-! Shifts and rotates. -/

theorem count_records (f : ShiftForm) (s : State) (tr : Traps) (k : Nat) :
    f.count { s with traps := tr, draws := k } = f.count s := by
  rcases f with ⟨d, _ | _ | _⟩ | ⟨z, d, _ | _ | _⟩ <;> rfl

theorem shiftBy_modifies {ins : ShiftForm → Instr} {op : Width → Nat → Word → Bool → Res}
    (h : ∀ f s, exec (ins f) s = runInstr false (thenNext (shiftBy op f)) s) :
    Modifies ins ShiftForm.operand (fun f s n a cf => op n (f.count s) a cf) false :=
  fun f s hl hok => done_of_givesFlags (h f s) hl
    ((Gives.look s (count_records f)).bind_flags (GivesFlags.modify hok)) (.store _ _ _) (Spot.store_frame _ _ _)

theorem shiftPair_leaves (op : Width → Nat → Word → Word → Word → Res) {z : Sz} {o : Rm} (r : Gpr) (c : DCount)
    (hok : (o.place z).ok s .rmw = true) :
    ∃ w, let d := (o.place z).spot s
      let x := op z.width (c.masked s) (d.value s) (s.regZ z r) w
      ∃ t n, shiftPair op z o r c s = .ok () t ∧
        Noted { d.store s x.val with eflags := x.flags.image (d.store s x.val).eflags (Config.freeWord n) } t := by
  have rest : ∀ w, GivesFlags
      (modify (fun n a _ => op n (c.masked s) a (s.regZ z r) w) { width := z.width, dst := o.place z }) s _ _ :=
    fun w => GivesFlags.modify hok
  by_cases hc : z.width.bits ≤ c.masked s
  · refine ⟨Config.freeWord s.draws, ?_⟩
    obtain ⟨t, n, ht, hn⟩ := rest (Config.freeWord s.draws) _ ((Noted.refl s).draw (s.draws + 1))
    refine ⟨t, n, ?_, hn⟩
    unfold shiftPair
    rw [M.look_bind]
    have hreg : getRegZ z r s = .ok (s.regZ z r) s := rfl
    rw [M.bind_ok _ hreg, if_pos hc, ← ht]
    rfl
  · refine ⟨0, ?_⟩
    obtain ⟨t, n, ht, hn⟩ := rest 0 s (.refl s)
    refine ⟨t, n, ?_, hn⟩
    unfold shiftPair
    rw [M.look_bind]
    have hreg : getRegZ z r s = .ok (s.regZ z r) s := rfl
    rw [M.bind_ok _ hreg, if_neg hc, ← ht]
    rfl

/-! SHLD and SHRD on numbers of twice the width. -/

theorem or_eq_add {a b k : Nat} (hb : b < 2 ^ k) : 2 ^ k * a ||| b = 2 ^ k * a + b := by
  rw [Nat.two_pow_add_eq_or_of_lt hb]

theorem mul_pow_mod {x k n : Nat} (hk : k ≤ n) : x * 2 ^ k % 2 ^ n = 2 ^ k * (x % 2 ^ (n - k)) := by
  obtain ⟨m, rfl⟩ := Nat.exists_eq_add_of_le hk
  rw [Nat.add_sub_cancel_left, Nat.pow_add, Nat.mul_comm x, Nat.mul_mod_mul_left]

theorem truncW_shl (n : Width) (x : Word) (k : Nat) : (truncW n (x <<< k)).toNat = x.toNat * 2 ^ k % 2 ^ n.bits := by
  rw [truncW_toNat, BitVec.toNat_shiftLeft, Nat.shiftLeft_eq]
  exact Nat.mod_mod_of_dvd _ (Nat.pow_dvd_pow 2 (by cases n <;> decide))

/-- Two parts of a word of `k + m` bits, put together by OR. -/
theorem join_parts {x q k m : Nat} (hq : q < 2 ^ k) :
    x * 2 ^ k % 2 ^ (k + m) ||| q = (x * 2 ^ k + q) % 2 ^ (k + m) := by
  have hx : x * 2 ^ k % 2 ^ (k + m) = 2 ^ k * (x % 2 ^ m) := by
    rw [mul_pow_mod (Nat.le_add_right k m), Nat.add_sub_cancel_left]
  have hlt : 2 ^ k * (x % 2 ^ m) + q < 2 ^ (k + m) := by
    have hm : x % 2 ^ m < 2 ^ m := Nat.mod_lt _ (Nat.two_pow_pos m)
    calc 2 ^ k * (x % 2 ^ m) + q < 2 ^ k * (x % 2 ^ m) + 2 ^ k := by omega
      _ = 2 ^ k * (x % 2 ^ m + 1) := by ring
      _ ≤ 2 ^ k * 2 ^ m := Nat.mul_le_mul_left _ hm
      _ = 2 ^ (k + m) := (Nat.pow_add 2 k m).symm
  have hq' : q % 2 ^ (k + m) = q := Nat.mod_eq_of_lt (by omega)
  rw [Nat.add_mod, hx, hq', or_eq_add hq, Nat.mod_eq_of_lt hlt]

theorem shldRes_toNat {n : Width} {k : Nat} {d s : Word} (w : Word) (hd : d.toNat < 2 ^ n.bits) (hs : s.toNat < 2 ^ n.bits)
    (hk : k < n.bits) :
    (shldRes n k d s w).val.toNat = (d.toNat * 2 ^ n.bits + s.toNat) * 2 ^ k / 2 ^ n.bits % 2 ^ n.bits := by
  obtain ⟨m, hm⟩ := Nat.exists_eq_add_of_le hk.le
  have hpos : 0 < 2 ^ n.bits := Nat.two_pow_pos _
  have hsplit : (d.toNat * 2 ^ n.bits + s.toNat) * 2 ^ k / 2 ^ n.bits = d.toNat * 2 ^ k + s.toNat / 2 ^ m := by
    have hs' : s.toNat * 2 ^ k / 2 ^ n.bits = s.toNat / 2 ^ m := by
      rw [hm, Nat.pow_add, Nat.mul_comm, Nat.mul_div_mul_left _ _ (Nat.two_pow_pos k)]
    rw [← hs', Nat.add_mul, Nat.mul_right_comm, Nat.add_comm, Nat.add_mul_div_right _ _ hpos, Nat.add_comm]
  have hq : s.toNat / 2 ^ m < 2 ^ k := by
    rw [Nat.div_lt_iff_lt_mul (Nat.two_pow_pos m), ← Nat.pow_add, ← hm]
    exact hs
  rw [hsplit]
  by_cases h0 : k = 0
  · subst h0
    have hzero : s.toNat / 2 ^ m = 0 := Nat.lt_one_iff.1 hq
    rw [shldRes, if_pos rfl, hzero, Nat.pow_zero, Nat.mul_one, Nat.add_zero, Nat.mod_eq_of_lt hd]
  · rw [shldRes, if_neg h0, if_neg (by omega)]
    have hsub : n.bits - k = m := by omega
    show (truncW n (d <<< k) ||| s >>> (n.bits - k)).toNat = _
    rw [BitVec.toNat_or, truncW_shl, BitVec.toNat_ushiftRight, Nat.shiftRight_eq_div_pow, hsub, hm, join_parts hq]

theorem shrdRes_toNat {n : Width} {k : Nat} {d s : Word} (w : Word) (hd : d.toNat < 2 ^ n.bits)
    (hk : k < n.bits) :
    (shrdRes n k d s w).val.toNat = (s.toNat * 2 ^ n.bits + d.toNat) / 2 ^ k % 2 ^ n.bits := by
  obtain ⟨m, hm⟩ := Nat.exists_eq_add_of_le hk.le
  have hsplit : (s.toNat * 2 ^ n.bits + d.toNat) / 2 ^ k = s.toNat * 2 ^ m + d.toNat / 2 ^ k := by
    rw [hm, Nat.pow_add, Nat.mul_comm (2 ^ k), ← Nat.mul_assoc, Nat.add_comm,
      Nat.add_mul_div_right _ _ (Nat.two_pow_pos k), Nat.add_comm]
  have hq : d.toNat / 2 ^ k < 2 ^ m := by
    rw [Nat.div_lt_iff_lt_mul (Nat.two_pow_pos k), ← Nat.pow_add, Nat.add_comm, ← hm]
    exact hd
  rw [hsplit]
  by_cases h0 : k = 0
  · subst h0
    have hmn : m = n.bits := by omega
    rw [shrdRes, if_pos rfl, Nat.pow_zero, Nat.div_one, hmn, Nat.mul_comm, Nat.mul_add_mod, Nat.mod_eq_of_lt hd]
  · rw [shrdRes, if_neg h0, if_neg (by omega)]
    have hsub : n.bits - k = m := by omega
    show (d >>> k ||| truncW n (s <<< (n.bits - k))).toNat = _
    rw [BitVec.toNat_or, truncW_shl, BitVec.toNat_ushiftRight, Nat.shiftRight_eq_div_pow, hsub, Nat.or_comm,
      show n.bits = m + k by omega, join_parts hq]

/-- Settles O22. -/
theorem shiftResults : Obligations.ShiftResults := by
  unfold Obligations.ShiftResults
  refine ⟨shiftBy_modifies fun _ _ => rfl, shiftBy_modifies fun _ _ => rfl, shiftBy_modifies fun _ _ => rfl,
    shiftBy_modifies fun _ _ => rfl, shiftBy_modifies fun _ _ => rfl, shiftBy_modifies fun _ _ => rfl,
    shiftBy_modifies fun _ _ => rfl, ?_, fun n k d s w hd hs hk => ⟨shldRes_toNat w hd hs hk, shrdRes_toNat w hd hk⟩⟩
  intro z o r c s hs hok d v src
  have hl := State.lockOk_of_plain hs false
  constructor
  · obtain ⟨w, hb⟩ := shiftPair_leaves shldRes r c hok
    exact ⟨w, done_of_run rfl hl hb (.store d s _) (Spot.store_frame d s _)⟩
  · obtain ⟨w, hb⟩ := shiftPair_leaves shrdRes r c hok
    exact ⟨w, done_of_run rfl hl hb (.store d s _) (Spot.store_frame d s _)⟩

end Sys2Proof.Machine

/-!
What the operations on words mean as integers (O23): sums and differences, products and quotients, shifts, rotates.
-/
namespace Sys2Proof.Machine

variable {n : Width} {a b c x : Word}

theorem toNat_ofNat_mod (n : Width) (k : Nat) : (BitVec.ofNat 32 (k % 2 ^ n.bits)).toNat = k % 2 ^ n.bits := by
  have h : k % 2 ^ n.bits < 2 ^ n.bits := Nat.mod_lt _ (Nat.two_pow_pos _)
  rw [BitVec.toNat_ofNat]
  exact Nat.mod_eq_of_lt (lt_of_lt_of_le h (Nat.pow_le_pow_right (by decide) (by cases n <;> decide)))

theorem ofNat_mod_lt (n : Width) (k : Nat) : (BitVec.ofNat 32 (k % 2 ^ n.bits)).toNat < 2 ^ n.bits := by
  rw [toNat_ofNat_mod]
  exact Nat.mod_lt _ (Nat.two_pow_pos _)

theorem beq_zero_eq (v : Word) : (v == 0) = decide (v.toNat = 0) := by
  rw [Bool.eq_iff_iff, beq_iff_eq, decide_eq_true_eq, ← BitVec.toNat_inj]
  rfl

theorem signBit_eq_neg (h : x.toNat < 2 ^ n.bits) : signBit n x = decide (signedW n x < 0) := by
  rw [Bool.eq_iff_iff, signBit_iff_neg h, decide_eq_true_eq]

/-! Sums and differences. -/

/-- The integer fits `n` bits, signed. -/
def fitsSigned (n : Width) (v : Int) : Bool := decide (-(2 ^ (n.bits - 1) : Int) ≤ v ∧ v < 2 ^ (n.bits - 1))

/-- The signs of operands and sum tell whether the signed sum fits. -/
theorem add_overflow {r : Word} (k : Bool) (ha : a.toNat < 2 ^ n.bits) (hb : b.toNat < 2 ^ n.bits)
    (hr : r.toNat = (a.toNat + b.toNat + k.toNat) % 2 ^ n.bits) :
    (signBit n a == signBit n b && signBit n r != signBit n a) =
      !fitsSigned n (signedW n a + signedW n b + k.toNat) := by
  have hrlt : r.toNat < 2 ^ n.bits := hr ▸ Nat.mod_lt _ (Nat.two_pow_pos _)
  have hk : k.toNat ≤ 1 := Bool.toNat_le k
  rw [signBit_eq ha, signBit_eq hb, signBit_eq hrlt, signedW_eq ha, signedW_eq hb, fitsSigned]
  rw [Bool.eq_iff_iff]
  simp only [Bool.and_eq_true, beq_iff_eq, bne_iff_ne, ne_eq, decide_eq_decide, Bool.not_eq_true', decide_eq_false_iff_not]
  cases n <;> simp only [Width.bits] at * <;> split_ifs <;> omega

theorem sub_overflow {r : Word} (k : Bool) (ha : a.toNat < 2 ^ n.bits) (hb : b.toNat < 2 ^ n.bits)
    (hr : r.toNat = (2 ^ (n.bits + 1) + a.toNat - b.toNat - k.toNat) % 2 ^ n.bits) :
    (signBit n a != signBit n b && signBit n r != signBit n a) =
      !fitsSigned n (signedW n a - signedW n b - k.toNat) := by
  have hrlt : r.toNat < 2 ^ n.bits := hr ▸ Nat.mod_lt _ (Nat.two_pow_pos _)
  have hk : k.toNat ≤ 1 := Bool.toNat_le k
  rw [signBit_eq ha, signBit_eq hb, signBit_eq hrlt, signedW_eq ha, signedW_eq hb, fitsSigned]
  rw [Bool.eq_iff_iff]
  simp only [Bool.and_eq_true, bne_iff_ne, ne_eq, decide_eq_decide, Bool.not_eq_true', decide_eq_false_iff_not]
  cases n <;> simp only [Width.bits] at * <;> split_ifs <;> omega

theorem sub_toNat (k : Bool) (ha : a.toNat < 2 ^ n.bits) (hb : b.toNat < 2 ^ n.bits) :
    (((2 ^ (n.bits + 1) + a.toNat - b.toNat - k.toNat) % 2 ^ n.bits : Nat) : Int)
      = ((a.toNat : Int) - b.toNat - k.toNat) % 2 ^ n.bits := by
  have hk : k.toNat ≤ 1 := Bool.toNat_le k
  cases n <;> simp only [Width.bits] at * <;> omega

/-! Products. -/

/-- A product of two signed numbers of `n` bits fits twice the bits. -/
theorem signed_product_range (ha : a.toNat < 2 ^ n.bits) (hb : b.toNat < 2 ^ n.bits) :
    -(2 ^ (2 * n.bits - 2) : Int) ≤ signedW n a * signedW n b ∧ signedW n a * signedW n b ≤ 2 ^ (2 * n.bits - 2) := by
  obtain ⟨ha1, ha2⟩ := signedW_range ha
  obtain ⟨hb1, hb2⟩ := signedW_range hb
  have h1 : |signedW n a| ≤ 2 ^ (n.bits - 1) := abs_le.2 ⟨ha1, ha2.le⟩
  have h2 : |signedW n b| ≤ 2 ^ (n.bits - 1) := abs_le.2 ⟨hb1, hb2.le⟩
  have hmul : |signedW n a * signedW n b| ≤ 2 ^ (2 * n.bits - 2) := by
    have hpow : (2 ^ (2 * n.bits - 2) : Int) = 2 ^ (n.bits - 1) * 2 ^ (n.bits - 1) := by
      rw [← pow_add]
      congr 1
      cases n <;> rfl
    rw [abs_mul, hpow]
    exact mul_le_mul h1 h2 (abs_nonneg _) (by positivity)
  exact abs_le.1 hmul

theorem product_parts (ha : a.toNat < 2 ^ n.bits) (hb : b.toNat < 2 ^ n.bits) :
    (highPart n (mulNat a b)).toNat * 2 ^ n.bits + (lowPart n (mulNat a b)).toNat = a.toNat * b.toNat := by
  have hlt : a.toNat * b.toNat / 2 ^ n.bits < 2 ^ n.bits := by
    rw [Nat.div_lt_iff_lt_mul (Nat.two_pow_pos _)]
    exact Nat.mul_lt_mul'' ha hb
  rw [highPart, lowPart, toNat_ofNat_mod, toNat_ofNat_mod, mulNat, Nat.mod_eq_of_lt hlt, Nat.mul_comm, Nat.div_add_mod]

theorem signed_product_parts (ha : a.toNat < 2 ^ n.bits) (hb : b.toNat < 2 ^ n.bits) :
    signedPair n (highPart n (imulNat n a b)) (lowPart n (imulNat n a b)) = signedW n a * signedW n b := by
  have hr := signed_product_range ha hb
  have hp : imulNat n a b = ((signedW n a * signedW n b) % (2 ^ (2 * n.bits) : Int)).toNat := rfl
  rw [signedPair, highPart, lowPart, signedW_eq (ofNat_mod_lt n _), toNat_ofNat_mod, toNat_ofNat_mod, hp]
  generalize signedW n a * signedW n b = v at *
  cases n <;> simp only [Width.bits] at * <;> split_ifs <;> omega

theorem imulBig_iff (ha : a.toNat < 2 ^ n.bits) (hb : b.toNat < 2 ^ n.bits) :
    imulBig n a b = false ↔
      -(2 ^ (n.bits - 1) : Int) ≤ signedW n a * signedW n b ∧ signedW n a * signedW n b < 2 ^ (n.bits - 1) := by
  have hr := signed_product_range ha hb
  have hp : imulNat n a b = ((signedW n a * signedW n b) % (2 ^ (2 * n.bits) : Int)).toNat := rfl
  rw [imulBig, lowPart, signedW_eq (ofNat_mod_lt n _), toNat_ofNat_mod, hp, bne_eq_false_iff_eq]
  generalize signedW n a * signedW n b = v at *
  cases n <;> simp only [Width.bits] at * <;> split_ifs <;> omega

/-! Quotients. -/

theorem divRes_meaning (hc : c.toNat < 2 ^ n.bits) :
    match divRes n a b c with
    | some (q, r) => a.toNat * 2 ^ n.bits + b.toNat = q.toNat * c.toNat + r.toNat ∧ r.toNat < c.toNat ∧ q.toNat < 2 ^ n.bits
    | none => c.toNat = 0 ∨ 2 ^ n.bits * c.toNat ≤ a.toNat * 2 ^ n.bits + b.toNat := by
  have h32 : 2 ^ n.bits ≤ 2 ^ 32 := Nat.pow_le_pow_right (by decide) (by cases n <;> decide)
  generalize hx : a.toNat * 2 ^ n.bits + b.toNat = x
  by_cases h0 : c.toNat = 0
  · simp only [divRes, hx, if_pos h0]
    exact .inl h0
  have hpos : 0 < c.toNat := Nat.pos_of_ne_zero h0
  by_cases hq : 2 ^ n.bits ≤ x / c.toNat
  · simp only [divRes, hx, if_neg h0, if_pos hq]
    exact .inr ((Nat.le_div_iff_mul_le hpos).1 hq)
  · simp only [divRes, hx, if_neg h0, if_neg hq]
    have hr : x % c.toNat < c.toNat := Nat.mod_lt _ hpos
    have hqt : (BitVec.ofNat 32 (x / c.toNat)).toNat = x / c.toNat := by
      rw [BitVec.toNat_ofNat]
      exact Nat.mod_eq_of_lt (by omega)
    have hrt : (BitVec.ofNat 32 (x % c.toNat)).toNat = x % c.toNat := by
      rw [BitVec.toNat_ofNat]
      exact Nat.mod_eq_of_lt (by omega)
    rw [hqt, hrt]
    exact ⟨(Nat.div_add_mod' x c.toNat).symm, hr, by omega⟩

/-- An integer that fits is stored without loss. -/
theorem signedW_ofInt {v : Int} (h : -(2 ^ (n.bits - 1) : Int) ≤ v ∧ v < 2 ^ (n.bits - 1)) :
    signedW n (truncW n (BitVec.ofInt 32 v)) = v := by
  rw [signedW_eq (truncW_lt n _), truncW_toNat, BitVec.toNat_ofInt]
  cases n <;> simp only [Width.bits] at * <;> split_ifs <;> omega

theorem idivRes_meaning (hc : c.toNat < 2 ^ n.bits) :
    match idivRes n a b c with
    | some (q, r) =>
      signedPair n a b = signedW n q * signedW n c + signedW n r ∧ (signedW n r).natAbs < (signedW n c).natAbs ∧
      (signedW n r = 0 ∨ (signedW n r < 0 ↔ signedPair n a b < 0))
    | none => signedW n c = 0 ∨ (signedPair n a b).tdiv (signedW n c) < -(2 ^ (n.bits - 1) : Int) ∨
      (2 ^ (n.bits - 1) : Int) ≤ (signedPair n a b).tdiv (signedW n c) := by
  have hcr := signedW_range hc
  generalize hx : signedPair n a b = x
  generalize hy : signedW n c = y at *
  by_cases h0 : y = 0
  · simp only [idivRes, hx, hy, if_pos h0]
    exact .inl h0
  by_cases hq : ((2 ^ (n.bits - 1) : Int) ≤ x.tdiv y || x.tdiv y < -(2 ^ (n.bits - 1) : Int)) = true
  · simp only [idivRes, hx, hy, if_neg h0, if_pos hq]
    simp only [Bool.or_eq_true, decide_eq_true_eq] at hq
    exact .inr hq.symm
  · simp only [idivRes, hx, hy, if_neg h0, if_neg hq]
    simp only [Bool.or_eq_true, decide_eq_true_eq, not_or, not_le, not_lt] at hq
    have habs : (x.tmod y).natAbs < y.natAbs := by
      rw [Int.natAbs_tmod]
      exact Nat.mod_lt _ (Int.natAbs_pos.2 h0)
    have hrr : -(2 ^ (n.bits - 1) : Int) ≤ x.tmod y ∧ x.tmod y < 2 ^ (n.bits - 1) := by
      cases n <;> simp only [Width.bits] at * <;> omega
    rw [signedW_ofInt ⟨hq.2, hq.1⟩, signedW_ofInt hrr]
    refine ⟨(Int.tdiv_mul_add_tmod x y).symm, habs, ?_⟩
    rcases lt_or_ge x 0 with hneg | hpos
    · have hle : x.tmod y ≤ 0 := by
        have := Int.tmod_nonneg y (show 0 ≤ -x by omega)
        rw [Int.neg_tmod] at this
        omega
      by_cases hz : x.tmod y = 0
      · exact .inl hz
      · exact .inr ⟨fun _ => hneg, fun _ => by omega⟩
    · have hge := Int.tmod_nonneg y hpos
      exact .inr ⟨fun h => absurd h (by omega), fun h => absurd h (by omega)⟩

end Sys2Proof.Machine

/-!
What the shifts and rotates mean as integers (O23).
-/
namespace Sys2Proof.Machine

variable {n : Width} {x : Word}

/-! Steps repeated. -/

theorem iterate_succ {α : Type} (f : α → α) (k : Nat) (y : α) : iterate f (k + 1) y = f (iterate f k y) := by
  induction k generalizing y with
  | zero => rfl
  | succ k ih => exact ih (f y)

/-- What a step undoes, its repetition undoes. -/
theorem iterate_inverse {α : Type} {f g : α → α} {P : α → Prop} (hP : ∀ y, P y → P (f y)) (hg : ∀ y, P y → g (f y) = y)
    (k : Nat) {y : α} (hy : P y) : iterate g k (iterate f k y) = y := by
  induction k generalizing y with
  | zero => rfl
  | succ k ih =>
    have hPk : ∀ j, P (iterate f j y) := fun j => by
      induction j with
      | zero => exact hy
      | succ j ihj => exact iterate_succ f j y ▸ hP _ ihj
    rw [iterate_succ f, iterate, hg _ (hPk k), ih hy]

theorem iterate_keeps {α : Type} {f : α → α} {P : α → Prop} (hP : ∀ y, P y → P (f y)) (k : Nat) {y : α} (hy : P y) :
    P (iterate f k y) := by
  induction k generalizing y with
  | zero => exact hy
  | succ k ih => exact ih (hP y hy)

/-! One step, as a number. -/

/-- The operand of a ring is one of the width. -/
def Ring.Fits (n : Width) (g : Ring) : Prop := g.x.toNat < 2 ^ n.bits

theorem bits_pos (n : Width) : 0 < n.bits := by cases n <;> decide

theorem shlStep_toNat (n : Width) (g : Ring) : (shlStep n g).x.toNat = g.x.toNat * 2 % 2 ^ n.bits := by
  rw [shlStep, truncW_shl, Nat.pow_one]

theorem shrStep_toNat (g : Ring) : (shrStep g).x.toNat = g.x.toNat / 2 := by
  rw [shrStep, BitVec.toNat_ushiftRight, Nat.shiftRight_eq_div_pow, Nat.pow_one]

theorem ofBool_toNat (b : Bool) : (ofBool b).toNat = b.toNat := by cases b <;> rfl

theorem topBit_toNat (n : Width) (b : Bool) : (topBit n b).toNat = 2 ^ (n.bits - 1) * b.toNat := by
  cases n <;> cases b <;> rfl

theorem signBit_toNat (h : x.toNat < 2 ^ n.bits) : (signBit n x).toNat = x.toNat / 2 ^ (n.bits - 1) := by
  rw [signBit_eq h]
  by_cases hk : 2 ^ (n.bits - 1) ≤ x.toNat
  · rw [decide_eq_true hk, Bool.toNat_true]
    cases n <;> simp only [Width.bits] at * <;> omega
  · rw [decide_eq_false hk, Bool.toNat_false, Nat.div_eq_of_lt (by omega)]

theorem bit_zero_toNat (v : Word) : (bit v 0).toNat = v.toNat % 2 := by
  rw [bit, BitVec.getLsbD, Nat.testBit_zero]
  rcases Nat.mod_two_eq_zero_or_one v.toNat with h | h <;> simp [h]

/-- A shift left that takes a bit in. -/
theorem shl_in_toNat (n : Width) (v : Word) (b : Bool) :
    (truncW n (v <<< 1) ||| ofBool b).toNat = v.toNat * 2 % 2 ^ n.bits + b.toNat := by
  have h := join_parts (x := v.toNat) (q := b.toNat) (k := 1) (m := n.bits - 1) (Bool.toNat_lt b)
  have hn : 1 + (n.bits - 1) = n.bits := Nat.add_sub_of_le (bits_pos n)
  have heven : v.toNat * 2 % 2 ^ n.bits + b.toNat = (v.toNat * 2 + b.toNat) % 2 ^ n.bits := by
    have hb := Bool.toNat_le b
    cases n <;> simp only [Width.bits] <;> omega
  rw [hn, Nat.pow_one] at h
  rw [BitVec.toNat_or, truncW_shl, ofBool_toNat, Nat.pow_one, heven, h]

/-- A shift right that takes a bit in at the top. -/
theorem shr_in_toNat (h : x.toNat < 2 ^ n.bits) (b : Bool) :
    (x >>> 1 ||| topBit n b).toNat = x.toNat / 2 + 2 ^ (n.bits - 1) * b.toNat := by
  have hlt : x.toNat / 2 < 2 ^ (n.bits - 1) := by
    cases n <;> simp only [Width.bits] at * <;> omega
  rw [BitVec.toNat_or, BitVec.toNat_ushiftRight, Nat.shiftRight_eq_div_pow, Nat.pow_one, topBit_toNat, Nat.or_comm,
    or_eq_add hlt, Nat.add_comm]

theorem shlRes_toNat (c : Nat) (cf : Bool) (hx : x.toNat < 2 ^ n.bits) :
    (shlRes n c x cf).val.toNat = x.toNat * 2 ^ c % 2 ^ n.bits := by
  have key : ∀ g : Ring, g.Fits n → (iterate (shlStep n) c g).x.toNat = g.x.toNat * 2 ^ c % 2 ^ n.bits := by
    intro g hg
    induction c with
    | zero => rw [iterate, Nat.pow_zero, Nat.mul_one, Nat.mod_eq_of_lt hg]
    | succ c ih => rw [iterate_succ, shlStep_toNat, ih, Nat.mod_mul_mod, Nat.mul_assoc, Nat.pow_succ]
  exact key _ hx

theorem shrRes_toNat (c : Nat) (cf : Bool) : (shrRes n c x cf).val.toNat = x.toNat / 2 ^ c := by
  have key : ∀ g : Ring, (iterate shrStep c g).x.toNat = g.x.toNat / 2 ^ c := by
    intro g
    induction c with
    | zero => rw [iterate, Nat.pow_zero, Nat.div_one]
    | succ c ih => rw [iterate_succ, shrStep_toNat, ih, Nat.div_div_eq_div_mul, Nat.pow_succ]
  exact key _

/-- SAR by one halves, rounding down. -/
theorem sarStep_signedW {g : Ring} (hg : g.Fits n) :
    (sarStep n g).Fits n ∧ signedW n (sarStep n g).x = signedW n g.x / 2 := by
  have hv : (sarStep n g).x.toNat = g.x.toNat / 2 + 2 ^ (n.bits - 1) * (signBit n g.x).toNat := shr_in_toNat hg _
  have hf : (sarStep n g).Fits n := by
    have hb := Bool.toNat_le (signBit n g.x)
    rw [signBit_toNat hg] at hb hv
    unfold Ring.Fits at *
    rw [hv]
    cases n <;> simp only [Width.bits] at * <;> omega
  refine ⟨hf, ?_⟩
  rw [signedW_eq hf, signedW_eq hg, hv, signBit_toNat hg]
  unfold Ring.Fits at hg
  cases n <;> simp only [Width.bits] at * <;> split_ifs <;> omega

theorem sarRes_signedW (c : Nat) (cf : Bool) (hx : x.toNat < 2 ^ n.bits) :
    signedW n (sarRes n c x cf).val = (signedW n x).fdiv (2 ^ c) := by
  have key : ∀ g : Ring, g.Fits n → signedW n (iterate (sarStep n) c g).x = signedW n g.x / 2 ^ c := by
    intro g hg
    induction c with
    | zero => rw [iterate, pow_zero, Int.ediv_one]
    | succ c ih =>
      have hc : (iterate (sarStep n) c g).Fits n := iterate_keeps (P := Ring.Fits n) (fun y hy => (sarStep_signedW hy).1) c hg
      rw [iterate_succ, (sarStep_signedW hc).2, ih, Int.ediv_ediv_of_nonneg (by positivity), pow_succ]
  rw [Int.fdiv_eq_ediv_of_nonneg _ (by positivity)]
  exact key _ hx

/-! Rotation of a number of `m` bits. -/

/-- The number rotated left by `k` of its `m` bits. -/
def rotated (m k v : Nat) : Nat := v * 2 ^ k % 2 ^ m + v / 2 ^ (m - k)

/-- The bit that leaves at the top comes in at the bottom. -/
theorem rotated_step {m k v : Nat} (hv : v < 2 ^ m) (hk : k < m) :
    rotated m k v * 2 % 2 ^ m + rotated m k v / 2 ^ (m - 1) = rotated m (k + 1) v := by
  obtain ⟨j, rfl⟩ : ∃ j, m = k + 1 + j := ⟨m - (k + 1), by omega⟩
  have hA : 0 < 2 ^ k := Nat.two_pow_pos k
  have hB : 0 < 2 ^ j := Nat.two_pow_pos j
  have e1 : k + 1 + j - k = j + 1 := by omega
  have e2 : k + 1 + j - (k + 1) = j := by omega
  have e3 : k + 1 + j - 1 = k + j := by omega
  have hr : rotated (k + 1 + j) k v = 2 ^ k * (v % 2 ^ (j + 1)) + v / 2 ^ (j + 1) := by
    rw [rotated, mul_pow_mod (by omega), e1]
  have hr' : rotated (k + 1 + j) (k + 1) v = 2 ^ (k + 1) * (v % 2 ^ j) + v / 2 ^ j := by
    rw [rotated, mul_pow_mod (by omega), e2]
  rw [hr, hr', e3, Nat.pow_add 2 (k + 1) j, Nat.pow_add 2 k j, Nat.pow_succ 2 k, Nat.pow_succ 2 j]
  have hh : v / (2 ^ j * 2) < 2 ^ k := by
    rw [Nat.div_lt_iff_lt_mul (by omega)]
    calc v < 2 ^ (k + 1 + j) := hv
      _ = 2 ^ k * (2 ^ j * 2) := by ring
  generalize 2 ^ k = A at *
  generalize 2 ^ j = B at *
  -- `v` is `h` above one bit `t` above `l`
  obtain ⟨h, hhdef⟩ : ∃ h, v / (B * 2) = h := ⟨_, rfl⟩
  obtain ⟨t, htdef⟩ : ∃ t, v % (B * 2) / B = t := ⟨_, rfl⟩
  obtain ⟨l, hldef⟩ : ∃ l, v % (B * 2) % B = l := ⟨_, rfl⟩
  have hlow : v % (B * 2) = B * t + l := by rw [← htdef, ← hldef, Nat.div_add_mod]
  have hl : l < B := hldef ▸ Nat.mod_lt _ hB
  have hvl : v % B = l := by rw [← hldef, Nat.mod_mod_of_dvd _ (Nat.dvd_mul_right B 2)]
  have hvh : v / B = h * 2 + t := by
    have hval : v = B * (h * 2 + t) + l := by
      rw [← Nat.div_add_mod v (B * 2), hlow, hhdef]
      ring
    rw [hval, Nat.mul_add_div hB, Nat.div_eq_of_lt hl, Nat.add_zero]
  have hrest : A * l + h < A * B := by
    calc A * l + h < A * l + A := by omega
      _ = A * (l + 1) := by ring
      _ ≤ A * B := Nat.mul_le_mul_left A hl
  have hy : A * (B * t + l) + h = A * B * t + (A * l + h) := by ring
  rw [hlow, hhdef, hvl, hvh, hy, Nat.mul_add_div (by positivity), Nat.div_eq_of_lt hrest]
  have hdouble : (A * B * t + (A * l + h)) * 2 = A * 2 * B * t + (A * l + h) * 2 := by ring
  have hrest' : (A * l + h) * 2 < A * 2 * B := by
    calc (A * l + h) * 2 < A * B * 2 := by omega
      _ = A * 2 * B := by ring
  rw [hdouble, Nat.mul_add_mod, Nat.mod_eq_of_lt hrest']
  ring

theorem rotated_zero {m v : Nat} (hv : v < 2 ^ m) : rotated m 0 v = v := by
  rw [rotated, Nat.pow_zero, Nat.mul_one, Nat.mod_eq_of_lt hv, Nat.sub_zero, Nat.div_eq_of_lt hv, Nat.add_zero]

theorem rotated_full (m v : Nat) : rotated m m v = v := by
  rw [rotated, Nat.mul_mod_left, Nat.zero_add, Nat.sub_self, Nat.pow_zero, Nat.div_one]

/-- Rotation by one, repeated, is rotation by the number of steps modulo `m`. -/
theorem rotated_iterate {m v : Nat} (hv : v < 2 ^ m) (hm : 0 < m) (c : Nat) :
    iterate (fun y => y * 2 % 2 ^ m + y / 2 ^ (m - 1)) c v = rotated m (c % m) v := by
  induction c with
  | zero => rw [iterate, Nat.zero_mod, rotated_zero hv]
  | succ c ih =>
    have hlt := Nat.mod_lt c hm
    rw [iterate_succ, ih, rotated_step hv hlt]
    have hmod : (c + 1) % m = (c % m + 1) % m := (Nat.mod_add_mod c m 1).symm
    by_cases hfull : c % m + 1 = m
    · rw [hmod, hfull, rotated_full, Nat.mod_self, rotated_zero hv]
    · rw [hmod, Nat.mod_eq_of_lt (show c % m + 1 < m by omega)]

/-! ROL and ROR. -/

/-- One step of ROL and of ROR on the operand; CF has no part in it. -/
def rolWord (n : Width) (v : Word) : Word := (rolStep n { x := v, cf := false }).x
def rorWord (n : Width) (v : Word) : Word := (rorStep n { x := v, cf := false }).x

theorem iterate_rolStep (n : Width) (c : Nat) (g : Ring) : (iterate (rolStep n) c g).x = iterate (rolWord n) c g.x := by
  induction c generalizing g with
  | zero => rfl
  | succ c ih => exact ih _

theorem iterate_rorStep (n : Width) (c : Nat) (g : Ring) : (iterate (rorStep n) c g).x = iterate (rorWord n) c g.x := by
  induction c generalizing g with
  | zero => rfl
  | succ c ih => exact ih _

theorem double_mod (n : Width) (v : Nat) : v * 2 % 2 ^ n.bits = 2 * (v % 2 ^ (n.bits - 1)) := by
  have h := mul_pow_mod (x := v) (bits_pos n)
  rwa [Nat.pow_one] at h

theorem rolWord_toNat (h : x.toNat < 2 ^ n.bits) :
    (rolWord n x).toNat = x.toNat * 2 % 2 ^ n.bits + x.toNat / 2 ^ (n.bits - 1) := by
  rw [rolWord, rolStep, shl_in_toNat, signBit_toNat h]

theorem rolWord_lt (h : x.toNat < 2 ^ n.bits) : (rolWord n x).toNat < 2 ^ n.bits := by
  rw [rolWord_toNat h]
  cases n <;> simp only [Width.bits] at * <;> omega

theorem rorWord_rolWord (h : x.toNat < 2 ^ n.bits) : rorWord n (rolWord n x) = x := by
  apply BitVec.eq_of_toNat_eq
  rw [rorWord, rorStep, shr_in_toNat (rolWord_lt h), bit_zero_toNat, rolWord_toNat h, double_mod]
  cases n <;> simp only [Width.bits] at * <;> omega

theorem rolRes_toNat (c : Nat) (cf : Bool) (hx : x.toNat < 2 ^ n.bits) :
    (rolRes n c x cf).val.toNat = x.toNat * 2 ^ (c % n.bits) % 2 ^ n.bits + x.toNat / 2 ^ (n.bits - c % n.bits) := by
  have key : (iterate (rolWord n) c x).toNat = iterate (fun y => y * 2 % 2 ^ n.bits + y / 2 ^ (n.bits - 1)) c x.toNat := by
    induction c with
    | zero => rfl
    | succ c ih =>
      have hlt := iterate_keeps (P := fun y : Word => y.toNat < 2 ^ n.bits) (fun y hy => rolWord_lt hy) c hx
      rw [iterate_succ, iterate_succ, rolWord_toNat hlt, ih]
  show (iterate (rolStep n) c { x := x, cf := cf }).x.toNat = _
  rw [iterate_rolStep, key, rotated_iterate hx (bits_pos n), rotated]

theorem rorRes_rolRes (c : Nat) (cf : Bool) (hx : x.toNat < 2 ^ n.bits) :
    (rorRes n c (rolRes n c x cf).val cf).val = x := by
  show (iterate (rorStep n) c { x := (iterate (rolStep n) c { x := x, cf := cf }).x, cf := cf }).x = x
  rw [iterate_rorStep, iterate_rolStep]
  exact iterate_inverse (P := fun y : Word => y.toNat < 2 ^ n.bits) (fun y hy => rolWord_lt hy)
    (fun y hy => rorWord_rolWord hy) c hx

/-! RCL and RCR: CF and the operand rotate together. -/

theorem Ring.eq_of_parts {g h : Ring} (hx : g.x = h.x) (hc : g.cf = h.cf) : g = h := by
  cases g
  cases h
  simp_all

theorem rclStep_x {g : Ring} : (rclStep n g).x.toNat = g.x.toNat * 2 % 2 ^ n.bits + g.cf.toNat := shl_in_toNat n _ _

theorem rclStep_fits {g : Ring} (hg : g.Fits n) : (rclStep n g).Fits n := by
  have hc := Bool.toNat_le g.cf
  unfold Ring.Fits at *
  rw [rclStep_x]
  cases n <;> simp only [Width.bits] at * <;> omega

theorem rcrStep_rclStep {g : Ring} (hg : g.Fits n) : rcrStep n (rclStep n g) = g := by
  have hc := Bool.toNat_le g.cf
  have hx : (rcrStep n (rclStep n g)).x = g.x := by
    apply BitVec.eq_of_toNat_eq
    have htop : (rclStep n g).cf = signBit n g.x := rfl
    rw [rcrStep, shr_in_toNat (rclStep_fits hg), rclStep_x, htop, signBit_toNat hg, double_mod]
    unfold Ring.Fits at hg
    cases n <;> simp only [Width.bits] at * <;> omega
  have hcf : (rcrStep n (rclStep n g)).cf = g.cf := by
    have hinj : ∀ a b : Bool, a.toNat = b.toNat → a = b := by decide
    refine hinj _ _ ?_
    show (bit (rclStep n g).x 0).toNat = _
    rw [bit_zero_toNat, rclStep_x, double_mod]
    cases n <;> simp only [Width.bits] at * <;> omega
  exact Ring.eq_of_parts hx hcf

theorem rcr_undoes_rcl (c : Nat) (cf : Bool) (hx : x.toNat < 2 ^ n.bits) {b : Bool}
    (hb : (rclRes n c x cf).flags.cf = .put b) :
    (rcrRes n c (rclRes n c x cf).val b).val = x ∧ (rcrRes n c (rclRes n c x cf).val b).flags.cf = .put cf := by
  have hcf : (iterate (rclStep n) c { x := x, cf := cf }).cf = b := by
    have h : FlagVal.put (iterate (rclStep n) c { x := x, cf := cf }).cf = .put b := hb
    injection h
  have hundo : iterate (rcrStep n) c { x := (rclRes n c x cf).val, cf := b } = { x := x, cf := cf } := by
    rw [← hcf]
    exact iterate_inverse (P := Ring.Fits n) (fun y hy => rclStep_fits hy) (fun y hy => rcrStep_rclStep hy) c
      (y := { x := x, cf := cf }) hx
  exact ⟨congrArg Ring.x hundo, congrArg (fun g : Ring => FlagVal.put g.cf) hundo⟩

/-- CF above the operand, as one number. -/
def Ring.whole (n : Width) (g : Ring) : Nat := g.cf.toNat * 2 ^ n.bits + g.x.toNat

theorem Ring.whole_lt {g : Ring} (hg : g.Fits n) : g.whole n < 2 ^ (n.bits + 1) := by
  have hc := Bool.toNat_le g.cf
  unfold Ring.Fits Ring.whole at *
  cases n <;> simp only [Width.bits] at * <;> omega

theorem rclStep_whole {g : Ring} (hg : g.Fits n) :
    (rclStep n g).whole n = g.whole n * 2 % 2 ^ (n.bits + 1) + g.whole n / 2 ^ (n.bits + 1 - 1) := by
  have hc := Bool.toNat_le g.cf
  have htop : (rclStep n g).cf = signBit n g.x := rfl
  rw [Ring.whole, rclStep_x, htop, signBit_toNat hg]
  unfold Ring.Fits Ring.whole at *
  cases n <;> simp only [Width.bits] at * <;> omega

theorem rclRes_period (cf : Bool) (hx : x.toNat < 2 ^ n.bits) : (rclRes n (n.bits + 1) x cf).val = x := by
  have key : ∀ (c : Nat) (g : Ring), g.Fits n → (iterate (rclStep n) c g).whole n =
      iterate (fun y => y * 2 % 2 ^ (n.bits + 1) + y / 2 ^ (n.bits + 1 - 1)) c (g.whole n) := by
    intro c g hg
    induction c with
    | zero => rfl
    | succ c ih =>
      rw [iterate_succ, iterate_succ, rclStep_whole (iterate_keeps (P := Ring.Fits n) (fun y hy => rclStep_fits hy) c hg), ih]
  have hg : Ring.Fits n { x := x, cf := cf } := hx
  have hend := iterate_keeps (P := Ring.Fits n) (fun y hy => rclStep_fits hy) (n.bits + 1) hg
  have hw := key (n.bits + 1) _ hg
  rw [rotated_iterate (Ring.whole_lt hg) (Nat.succ_pos _), Nat.mod_self, rotated_zero (Ring.whole_lt hg)] at hw
  apply BitVec.eq_of_toNat_eq
  show (iterate (rclStep n) (n.bits + 1) { x := x, cf := cf }).x.toNat = x.toNat
  generalize iterate (rclStep n) (n.bits + 1) { x := x, cf := cf } = g at *
  unfold Ring.whole Ring.Fits at *
  have hc1 := Bool.toNat_le g.cf
  have hc2 := Bool.toNat_le cf
  cases n <;> simp only [Width.bits] at * <;> omega

/-! The statement. -/

theorem addRes_meaning {a b : Word} (c : Bool) (ha : a.toNat < 2 ^ n.bits) (hb : b.toNat < 2 ^ n.bits) :
    (addRes n a b c).val.toNat = (a.toNat + b.toNat + c.toNat) % 2 ^ n.bits ∧
    (addRes n a b c).flags.ofl = .put (!fitsSigned n (signedW n a + signedW n b + c.toNat)) ∧
    (addRes n a b c).flags.sf = .put (decide (signedW n (addRes n a b c).val < 0)) ∧
    (addRes n a b c).flags.zf = .put (decide ((addRes n a b c).val.toNat = 0)) :=
  ⟨toNat_ofNat_mod n _, congrArg FlagVal.put (add_overflow c ha hb (toNat_ofNat_mod n _)),
    congrArg FlagVal.put (signBit_eq_neg (ofNat_mod_lt n _)), congrArg FlagVal.put (beq_zero_eq _)⟩

theorem subRes_meaning {a b : Word} (c : Bool) (ha : a.toNat < 2 ^ n.bits) (hb : b.toNat < 2 ^ n.bits) :
    ((subRes n a b c).val.toNat : Int) = ((a.toNat : Int) - b.toNat - c.toNat) % 2 ^ n.bits ∧
    (subRes n a b c).flags.ofl = .put (!fitsSigned n (signedW n a - signedW n b - c.toNat)) ∧
    (subRes n a b c).flags.sf = .put (decide (signedW n (subRes n a b c).val < 0)) ∧
    (subRes n a b c).flags.zf = .put (decide ((subRes n a b c).val.toNat = 0)) :=
  ⟨(congrArg Nat.cast (toNat_ofNat_mod n _)).trans (sub_toNat c ha hb),
    congrArg FlagVal.put (sub_overflow c ha hb (toNat_ofNat_mod n _)),
    congrArg FlagVal.put (signBit_eq_neg (ofNat_mod_lt n _)), congrArg FlagVal.put (beq_zero_eq _)⟩

/-- Settles O23. -/
theorem arithmeticIsInteger : Obligations.ArithmeticIsInteger := by
  unfold Obligations.ArithmeticIsInteger
  refine ⟨?_, ?_, ?_⟩
  · intro n a b c ha hb x y sum dif fits
    obtain ⟨hav, hao, has, haz⟩ := addRes_meaning c ha hb
    obtain ⟨hsv, hso, hss, hsz⟩ := subRes_meaning c ha hb
    exact ⟨hav, rfl, hao, has, haz, hsv, rfl, hso, hss, hsz⟩
  · intro n a b c ha hb hc
    exact ⟨product_parts ha hb, signed_product_parts ha hb, imulBig_iff ha hb, divRes_meaning hc, idivRes_meaning hc⟩
  · intro n c x cf hc hx
    refine ⟨shlRes_toNat c cf hx, shrRes_toNat c cf, sarRes_signedW c cf hx, rolRes_toNat c cf hx, rorRes_rolRes c cf hx,
      fun b hb => rcr_undoes_rcl c cf hx hb, ?_⟩
    rintro - rfl
    exact rclRes_period cf hx

end Sys2Proof.Machine

/-!
Control transfers: what a body that sets EIP leaves, and the near transfers (O24, O25).
-/
namespace Sys2Proof.Machine

section
variable {α β : Type} {s u v : State} {a : α} {b : β}

/-- From every state that is `s` but for the records, `m` answers some `a` and leaves some `u` but for the records, with
`Q a u`: for computations that draw free values. -/
def Leads (m : M α) (s : State) (Q : α → State → Prop) : Prop :=
  ∀ t, Noted s t → ∃ a w u, m t = .ok a w ∧ Noted u w ∧ Q a u

theorem Gives.leads {m : M α} {Q : α → State → Prop} (h : Gives m s a u) (hq : Q a u) : Leads m s Q := by
  intro t ht
  obtain ⟨w, hm, hw⟩ := h t ht
  exact ⟨a, w, u, hm, hw, hq⟩

theorem Leads.bind {m : M α} {f : α → M β} {Q : α → State → Prop} {R : β → State → Prop} (h : Leads m s Q)
    (k : ∀ a u, Q a u → Leads (f a) u R) : Leads (m >>= f) s R := by
  intro t ht
  obtain ⟨a, w, u, hm, hw, hq⟩ := h t ht
  rw [M.bind_ok f hm]
  exact k a u hq w hw

theorem Gives.bind_leads {m : M α} {f : α → M β} {R : β → State → Prop} (h : Gives m s a u) (k : Leads (f a) u R) :
    Leads (m >>= f) s R := by
  intro t ht
  obtain ⟨w, hm, hw⟩ := h t ht
  rw [M.bind_ok f hm]
  exact k w hw

theorem Leads.mono {m : M α} {Q R : α → State → Prop} (h : Leads m s Q) (hqr : ∀ a u, Q a u → R a u) : Leads m s R := by
  intro t ht
  obtain ⟨a, w, u, hm, hw, hq⟩ := h t ht
  exact ⟨a, w, u, hm, hw, hqr a u hq⟩

theorem Leads.look_id {k : State → M β} {R : β → State → Prop} (hk : ∀ tr n, k { s with traps := tr, draws := n } = k s)
    (h : Leads (k s) s R) : Leads (Machine.look id >>= k) s R := by
  intro t ht
  have hkt : k t = k s := by
    obtain ⟨tr, n, rfl⟩ := ht
    exact hk tr n
  rw [M.look_bind, id, hkt]
  exact h t ht

theorem Leads.drawWord (s : State) : Leads drawWord s (fun _ u => u = s) :=
  fun _ ht => ⟨_, _, s, rfl, ht.draw _, rfl⟩

theorem lowHalf_zext16 (h : Half) : lowHalf (zext16 h) = h := BitVec.setWidth_setWidth_of_le h (by decide)

/-- A selector as an item: its lower half is the selector (I14). -/
theorem Leads.selItem (n : Width) (sel : Half) (s : State) : Leads (selItem n sel) s (fun w u => lowHalf w = sel ∧ u = s) := by
  by_cases hn : (n == .d) = true
  · rw [Machine.selItem, if_pos hn]
    refine (Leads.drawWord s).bind fun w u hu => ?_
    subst hu
    exact (Gives.pure _ u).leads ⟨lowHalf_withLow _ _, rfl⟩
  · rw [Machine.selItem, if_neg hn]
    exact (Gives.pure _ s).leads ⟨lowHalf_zext16 _, rfl⟩

end

section
variable {s u t w : State} {i : Instr} {l : Bool} {body : M Ending} {regs : List Gpr} {stored : Nat → Bool}

theorem Like.of_noted (h : Noted u t) : Like t u := by
  obtain ⟨tr, k, rfl⟩ := h
  exact ⟨fun _ => rfl, fun _ => rfl, rfl, rfl, rfl, rfl, rfl, rfl, rfl, rfl, rfl, rfl, rfl, ⟨rfl, rfl⟩,
    ⟨rfl, rfl, rfl, rfl, rfl⟩, rfl, rfl, rfl⟩

theorem Like.of_set_eip {x : Word} (h : Like t { u with eip := x }) : Like t u :=
  ⟨h.1, h.2, h.3, h.4, h.5, h.6, h.7, h.8, h.9, h.10, h.11, h.12, h.13, h.14, h.15, h.16, h.17, h.18⟩

theorem Frame.of_like (h : Frame s u regs stored) (hl : Like t u) : Frame s t regs stored :=
  ⟨fun r hr => (hl.regs r).trans (h.regs r hr), fun a ha => (hl.mem a).trans (h.mem a ha)⟩

/-- What an instruction leaves whose body completes. -/
theorem exec_of_run {e : Ending} (hi : exec i s = runInstr l body s) (hl : s.lockOk l = true) (he : e ≠ .hold)
    (hb : body s = .ok e w) (hn : Noted u w) :
    ∃ t, exec i s = .next t ∧ Like t u ∧ t.eip = (if e.advances then w.eipNext else u.eip) ∧
      t.eflags = if e.clearsRf then putBit u.eflags 16 false else u.eflags := by
  have heip : w.eip = u.eip := hn.look State.eip fun _ _ _ => rfl
  have hfl : w.eflags = u.eflags := hn.look State.eflags fun _ _ _ => rfl
  refine ⟨finish e s w, hi.trans (runInstr_ok (State.lockOk_lock hl) hb), finish_like he (.of_noted hn), ?_, ?_⟩
  · rw [finish_eip he, heip]
  · rw [finish_eflags he, hfl]

/-- From a body that sets EIP to `Goes`. -/
theorem goes_of_run {x : Word} (hi : exec i s = runInstr l body s) (hl : s.lockOk l = true)
    (hb : ∃ w, body s = .ok .jump w ∧ Noted { u with eip := x } w) (hf : u.eflags = s.eflags)
    (hfr : Frame s u regs stored) : Goes i s u x regs stored := by
  obtain ⟨w, hw, hn⟩ := hb
  obtain ⟨t, ht, hlike, heip, hfl⟩ := exec_of_run hi hl (by decide) hw hn
  refine ⟨t, ht, hlike.of_set_eip, heip, ?_, hfr.of_like hlike.of_set_eip⟩
  have hfl' : t.eflags = putBit s.eflags 16 false := hfl.trans (by rw [← hf]; rfl)
  rw [hfl']
  exact FlagsOut.same_allows s.eflags

theorem goes_of_gives {x : Word} (hi : exec i s = runInstr l body s) (hl : s.lockOk l = true)
    (hb : Gives body s .jump { u with eip := x }) (hf : u.eflags = s.eflags) (hfr : Frame s u regs stored) :
    Goes i s u x regs stored := goes_of_run hi hl hb.run hf hfr

theorem State.eipNext_still (hs : s.eipOpen = false) (h : Still s u) : u.eipNext = s.eipNext :=
  State.eipNext_congr hs h.eip h.ilen h.cr0 (by unfold State.vm; rw [h.eflags]) h.db

theorem Still.noted (h : Still s u) (hn : Noted u w) : Still s w := by
  obtain ⟨tr, k, rfl⟩ := hn
  exact ⟨h.eip, h.ilen, h.eflags, h.cr0, h.db⟩

/-- From a body that goes to the next instruction to `Goes`. -/
theorem goes_next_of_gives (hi : exec i s = runInstr l body s) (hl : s.lockOk l = true)
    (hb : Gives body s .next u) (hst : Still s u) (hfr : Frame s u regs stored) : Goes i s u s.eipNext regs stored := by
  obtain ⟨w, hw, hn⟩ := hb.run
  obtain ⟨t, ht, hlike, heip, hfl⟩ := exec_of_run hi hl (by decide) hw hn
  refine ⟨t, ht, hlike, heip.trans (State.eipNext_still (State.eipOpen_of_lockOk hl) (hst.noted hn)), ?_, hfr.of_like hlike⟩
  have hfl' : t.eflags = putBit s.eflags 16 false := hfl.trans (by rw [← hst.eflags]; rfl)
  rw [hfl']
  exact FlagsOut.same_allows s.eflags

/-- A fault of a body that undoes what was changed, without free values drawn. -/
theorem exec_fault_rollback {f : Exc} (hi : exec i s = runInstr l body s) (hl : s.lockOk l = true) (hf : f.committed = false)
    (hb : body s = .error (.exc f) u) (hr : rollback s u = s) : exec i s = takeEvent f s.eip s := by
  rw [hi, runInstr_fault (State.lockOk_lock hl) hf hb, hr]

end

variable {s u : State}

theorem Still.eipOpen (hs : s.eipOpen = false) (h : Still s u) : u.eipOpen = false := by
  have hvm : u.vm = s.vm := by unfold State.vm; rw [h.eflags]
  have he : u.eip16 = s.eip16 := by unfold State.eip16 State.mode State.pe; rw [h.cr0, hvm, h.db]
  rw [← hs, State.eipOpen, State.eipOpen, he, h.eip, h.ilen]

theorem nextEip_apply (hs : s.eipOpen = false) : nextEip s = .ok s.eipNext s := by
  simp [nextEip, hs]

theorem Gives.nextEip (hs : s.eipOpen = false) : Gives nextEip s s.eipNext s := by
  intro t ht
  have hst := (Still.refl s).noted ht
  have ho := hst.eipOpen hs
  exact ⟨t, by rw [nextEip_apply ho, State.eipNext_still hs hst], ht⟩

theorem Gives.checkTarget {x : Word} (h : s.inCode x = true) : Gives (checkTarget x) s () s :=
  .look_bind (fun _ _ _ => rfl) (.require h s)

theorem Gives.jumpNear {x : Word} (h : s.inCode x = true) : Gives (jumpNear x) s () { s with eip := x } :=
  (Gives.checkTarget h).bind (.upd (fun _ _ _ => rfl) s)

theorem Gives.thenJump {m : M Unit} (h : Gives m s () u) : Gives (thenJump m) s .jump u := h.bind (.pure _ u)

/-! Conditional transfers. -/

theorem jumpRel_gives {z : Sz} {r : Rel} (hs : s.eipOpen = false) (h : s.inCode (relTarget s.eipNext z r) = true) :
    Gives (jumpRel z r) s () { s with eip := relTarget s.eipNext z r } :=
  (Gives.nextEip hs).bind (.jumpNear h)

theorem jumpRel_refused {z : Sz} {r : Rel} (hs : s.eipOpen = false) (h : s.inCode (relTarget s.eipNext z r) = false) :
    jumpRel z r s = .error (.exc (faultOf 13 (some 0))) s := by
  unfold jumpRel jumpNear Machine.checkTarget
  rw [M.bind_ok _ (nextEip_apply hs)]
  refine M.bind_stop _ ?_
  rw [M.look_bind]
  exact M.require_fail h

/-- A conditional transfer whose body has left `u` when it comes to the condition. -/
theorem jumpIf_goes {i : Instr} {body : M Ending} {c : Bool} {z : Sz} {r : Rel} {regs : List Gpr}
    (hi : exec i s = runInstr false body s) (hs : s.plain = true) (hb : body s = jumpIf c z r u) (hst : Still s u)
    (hseg : u.seg = s.seg) (hfr : Frame s u regs noByte) (hr : rollback s u = s) :
    if c then
      (if s.inCode (relTarget s.eipNext z r) then Goes i s u (relTarget s.eipNext z r) regs noByte
       else exec i s = takeEvent (faultOf 13 (some 0)) s.eip s)
    else Goes i s u s.eipNext regs noByte := by
  have hl := State.lockOk_of_plain hs false
  have ho := State.eipOpen_of_plain hs
  have hu := hst.eipOpen ho
  have hnext := State.eipNext_still ho hst
  have hin : u.inCode (relTarget u.eipNext z r) = s.inCode (relTarget s.eipNext z r) := by
    unfold State.inCode
    rw [hseg, hnext]
  cases c with
  | false =>
    rw [if_neg (by decide)]
    refine ⟨_, hi.trans (runInstr_ok (State.lockOk_lock hl) hb), finish_like (by decide) (.of_noted (.refl u)), ?_, ?_, ?_⟩
    · rw [finish_eip (by decide)]
      exact hnext
    · rw [finish_eflags (by decide), hst.eflags]
      exact FlagsOut.same_allows s.eflags
    · exact hfr.of_like (finish_like (by decide) (.of_noted (.refl u)))
  | true =>
    rw [if_pos rfl]
    cases hcode : s.inCode (relTarget s.eipNext z r) with
    | true =>
      rw [if_pos rfl]
      have hj : Gives (jumpRel z r >>= fun _ => pure Ending.jump) u .jump _ :=
        (jumpRel_gives hu (hin.trans hcode)).bind (.pure _ _)
      obtain ⟨w, hw, hn⟩ := hj.run
      rw [hnext] at hn
      exact goes_of_run hi hl ⟨w, hb.trans hw, hn⟩ hst.eflags hfr
    | false =>
      rw [if_neg (by decide)]
      exact exec_fault_rollback hi hl rfl (hb.trans (M.bind_stop _ (jumpRel_refused hu (hin.trans hcode)))) hr

theorem Still.counted (a : Sz) (s : State) : Still s (s.counted a) := .setRegZ a .cx _ s

theorem counted_zf (a : Sz) (s : State) : (s.counted a).zf = s.zf := by cases a <;> rfl
theorem counted_seg (a : Sz) (s : State) : (s.counted a).seg = s.seg := by cases a <;> rfl
theorem rollback_counted (a : Sz) (s : State) : rollback s (s.counted a) = s := by cases a <;> rfl

theorem countAndJump_apply (agrees : Bool → Bool) (z a : Sz) (v : Byte) (s : State) :
    countAndJump agrees z a v s =
      jumpIf (truncZ a (s.regZ a .cx - 1) != 0 && agrees s.zf) z (.short v) (s.counted a) := by
  rw [← counted_zf a s]
  rfl

/-- Settles O24. -/
theorem conditionalJumps : Obligations.ConditionalJumps := by
  unfold Obligations.ConditionalJumps
  intro s hs go
  refine ⟨fun z c r => ?_, fun z a v => ?_, fun z a v => ?_⟩
  · exact jumpIf_goes rfl hs rfl (.refl s) rfl (.refl s) rfl
  · exact jumpIf_goes rfl hs rfl (.refl s) rfl (.refl s) rfl
  · have loop : ∀ (i : Instr) (agrees : Bool → Bool), exec i s = runInstr false (countAndJump agrees z a v) s →
        go i (truncZ a (s.regZ a .cx - 1) != 0 && agrees s.zf) z (.short v) (s.counted a) [.cx] := fun i agrees hi =>
      jumpIf_goes hi hs (countAndJump_apply agrees z a v s) (.counted a s) (counted_seg a s) (.setRegZ a .cx _ s)
        (rollback_counted a s)
    have hloop := loop (.loop z a v) (fun _ => true) rfl
    rw [Bool.and_true] at hloop
    exact ⟨hloop, loop (.loope z a v) (fun zf => zf) rfl, loop (.loopne z a v) (fun zf => !zf) rfl⟩

/-! Near JMP, CALL, RET. -/

theorem nearTarget_gives {f : NearForm} (h : nearOk f s = true) : Gives (nearTarget s.eipNext f) s (nearGoal f s) s := by
  cases f with
  | rel z r => exact .pure _ s
  | rm z o => exact .read h

theorem room_of_canPush {n : Width} {c : Nat} (h : s.canPush n c = true) : s.stack.room s.mode n.bytes c = true := by
  simp only [State.canPush, List.all_eq_true, List.mem_range] at h
  induction c with
  | zero => rfl
  | succ c ih =>
    have hc := h c (Nat.lt_succ_self c)
    rw [State.below, Spot.ok, Bool.and_eq_true] at hc
    rw [Stack.room, Bool.and_eq_true]
    exact ⟨ih fun j hj => h j (by omega), hc.1⟩

/-- Settles O25. -/
theorem nearTransfers : Obligations.NearTransfers := by
  unfold Obligations.NearTransfers
  constructor
  · intro f s hs hok hin
    have hl := State.lockOk_of_plain hs false
    have hn := Gives.nextEip (State.eipOpen_of_plain hs)
    constructor
    · cases f with
      | rel z r =>
        exact goes_of_gives rfl hl (.thenJump (hn.bind ((nearTarget_gives hok).bind (.jumpNear hin)))) rfl (.refl s)
      | rm z o =>
        exact goes_of_gives rfl hl
          (.thenJump ((Gives.pure 0 s).bind ((nearTarget_gives (f := .rm z o) hok).bind (.jumpNear hin)))) rfl (.refl s)
    · intro hpush
      refine goes_of_gives rfl hl (.thenJump (hn.bind ((nearTarget_gives hok).bind (.look_id (fun _ _ => rfl) ?_)))) rfl
        (State.pushed_frame s _ _)
      exact (Gives.require (room_of_canPush hpush) s).bind ((Gives.checkTarget hin).bind ((Gives.push _ hpush).bind
        (.upd (fun _ _ _ => rfl) _)))
  · intro z n s hs hok v hin
    have hjump : Gives (jumpNear v) (s.popped z.width.bytes) () { s.popped z.width.bytes with eip := v } := .jumpNear hin
    exact goes_of_gives rfl (State.lockOk_of_plain hs false)
      (.thenJump ((Gives.pop hok).bind (hjump.bind (.popBytes _ _)))) rfl
      ((State.popped_frame s _).trans (State.popped_frame _ _))

end Sys2Proof.Machine

/-!
Flags, addresses, the coprocessor (O38, O40, O41, O42).
-/
namespace Sys2Proof.Machine

section
variable {s u w : State} {i : Instr} {l : Bool} {body : M Ending} {e : Ending} {x fl : Word} {regs : List Gpr}
  {stored : Nat → Bool}

/-- `Like` looks at neither EIP nor EFLAGS. -/
theorem Like.of_sets {t : State} (h : Like t { u with eip := x, eflags := fl }) : Like t u :=
  ⟨h.1, h.2, h.3, h.4, h.5, h.6, h.7, h.8, h.9, h.10, h.11, h.12, h.13, h.14, h.15, h.16, h.17, h.18⟩

/-- From a body that sets EIP, and EFLAGS as a saved image has it. -/
theorem doneFlags_of_jump (hi : exec i s = runInstr l body s) (hl : s.lockOk l = true)
    (hb : ∃ w, body s = .ok .jumpKeepRf w ∧ Noted { u with eip := x, eflags := fl } w) (hfr : Frame s u regs stored) :
    DoneFlags i s u x fl regs stored := by
  obtain ⟨w, hw, hn⟩ := hb
  obtain ⟨t, ht, hlike, heip, hfl⟩ := exec_of_run hi hl (by decide) hw hn
  exact ⟨t, ht, hlike.of_sets, heip, hfl, hfr.of_like hlike.of_sets⟩

/-- From a body that goes to the next instruction and leaves another EFLAGS with the same VM. -/
theorem doneFlags_of_ends (hi : exec i s = runInstr l body s) (hl : s.lockOk l = true) (he : e.advances = true)
    (hb : ∃ w, body s = .ok e w ∧ Noted { u with eflags := fl } w) (hst : Still s u) (hvm : bit fl 17 = s.vm)
    (hfr : Frame s u regs stored) :
    DoneFlags i s u s.eipNext (if e.clearsRf then putBit fl 16 false else fl) regs stored := by
  obtain ⟨w, hw, hn⟩ := hb
  have hne : e ≠ .hold := by rintro rfl; exact absurd he (by decide)
  obtain ⟨t, ht, hlike, heip, hfl⟩ := exec_of_run hi hl hne hw hn
  have hlike' : Like t u := Like.of_sets (x := u.eip) hlike
  refine ⟨t, ht, hlike', ?_, hfl, hfr.of_like hlike'⟩
  rw [heip, if_pos he]
  obtain ⟨tr, k, rfl⟩ := hn
  exact State.eipNext_congr (State.eipOpen_of_lockOk hl) hst.eip hst.ilen hst.cr0 hvm hst.db

/-- What is held off after an instruction that completes (R525, R713). -/
theorem holds_off_of_ends (hi : exec i s = runInstr l body s) (hl : s.lockOk l = true) (he : e ≠ .hold)
    (hb : body s = .ok e w) {t : State} (ht : exec i s = .next t) :
    t.inhibit = (e == .inhibit) ∧ t.stiDelay = (e == .sti) := by
  have hfin : t = finish e s w := by
    rw [hi, runInstr_ok (State.lockOk_lock hl) hb] at ht
    exact (Host.Outcome.next.inj ht).symm
  have hh : (e == .hold) = false := by simpa using he
  subst hfin
  unfold finish
  rw [hh]
  exact ⟨rfl, rfl⟩

/-- From a body that goes to the next instruction, flags kept. -/
theorem done_of_ends (hi : exec i s = runInstr l body s) (hl : s.lockOk l = true)
    (he : e.advances = true) (hrf : e.clearsRf = true) (hb : ∃ w, body s = .ok e w ∧ Noted u w) (hst : Still s u)
    (hfr : Frame s u regs stored) : Done i s u .same regs stored := by
  have hvm : bit u.eflags 17 = s.vm := by rw [hst.eflags]; rfl
  obtain ⟨t, ht, hlike, heip, hfl, hft⟩ := doneFlags_of_ends hi hl he hb hst hvm hfr
  refine ⟨t, ht, hlike, heip, ?_, hft⟩
  rw [hfl, if_pos hrf, hst.eflags]
  exact FlagsOut.same_allows s.eflags

/-- From a body that draws free values. -/
theorem done_of_leads {body : M Unit} {Q : State → Prop} (hi : exec i s = runInstr l (thenNext body) s)
    (hl : s.lockOk l = true) (hb : Leads body s fun _ u => Q u) (hq : ∀ u, Q u → Still s u ∧ Frame s u regs stored) :
    ∃ u, Q u ∧ Done i s u .same regs stored := by
  obtain ⟨⟨⟩, w, u, hw, hn, hu⟩ := hb s (.refl s)
  exact ⟨u, hu, done_of_run hi hl ⟨w, 0, hw, by rwa [FlagsOut.same_image]⟩ (hq u hu).1 (hq u hu).2⟩

/-- A look at the state, and what the rest answers of it. -/
theorem M.look_then {α β : Type} {f : State → α} {k : α → M β} {r : EStateM.Result Stop State β} (h : k (f s) s = r) :
    (look f >>= k) s = r := h

end

variable {s : State}

/-! CLD, STD, CLI, STI (O38). -/

theorem requireIopl_eq (s : State) :
    requireIopl s = if s.pe && decide (s.iopl < s.cpl.toNat) then .error (.exc (faultOf 13 (some 0))) s else .ok () s := by
  show require (!(s.pe && decide (s.iopl < s.cpl.toNat))) 13 (some 0) s = _
  cases hc : s.pe && decide (s.iopl < s.cpl.toNat) with
  | true => exact M.require_fail rfl
  | false => exact M.require_pass rfl

/-- Settles O38. -/
theorem directionAndInterruptFlags : Obligations.DirectionAndInterruptFlags := by
  unfold Obligations.DirectionAndInterruptFlags
  intro s hs leaves gp
  have hl := State.lockOk_of_plain hs false
  have hvm : ∀ (k : Nat) (b : Bool), k ≠ 17 → bit (putBit s.eflags k b) 17 = s.vm := fun k b hk =>
    bit_putBit_ne _ _ (Ne.symm hk)
  refine ⟨doneFlags_of_body rfl hs rfl (hvm 10 _ (by decide)), doneFlags_of_body rfl hs rfl (hvm 10 _ (by decide)), ?_⟩
  split
  next h =>
    have hreq : requireIopl s = .error (.exc (faultOf 13 (some 0))) s := by
      rw [requireIopl_eq, if_pos (by simpa using h)]
    exact ⟨exec_fault rfl (State.lockOk_lock hl) rfl (M.bind_stop _ hreq),
      exec_fault_rollback rfl hl rfl (M.bind_stop _ hreq) rfl⟩
  next h =>
    have hreq : requireIopl s = .ok () s := by
      rw [requireIopl_eq, if_neg (by simpa using h)]
    have hcli : (requireIopl >>= fun _ => putFlag 9 false) s = .ok () { s with eflags := putBit s.eflags 9 false } :=
      M.bind_ok _ hreq
    have hsti : (requireIopl >>= fun _ => look (·.ifl) >>= fun was => putFlag 9 true >>= fun _ =>
        pure (if was then Ending.next else .sti)) s
          = .ok (if s.ifl then .next else .sti) { s with eflags := putBit s.eflags 9 true } := M.bind_ok _ hreq
    have hends : ∀ b, (if b then Ending.next else .sti).advances = true ∧ (if b then Ending.next else .sti).clearsRf = true ∧
        (if b then Ending.next else .sti) ≠ .hold ∧ ((if b then Ending.next else .sti) == .sti) = !b := by decide
    obtain ⟨hadv, hrf, hne, hdelay⟩ := hends s.ifl
    refine ⟨doneFlags_of_body rfl hs hcli (hvm 9 _ (by decide)), ?_, fun t ht => ?_⟩
    · have hd := doneFlags_of_ends (i := .sti) (u := s) (regs := []) (stored := noByte) rfl hl hadv ⟨_, hsti, .refl _⟩ (.refl s)
        (hvm 9 _ (by decide)) (.refl s)
      rwa [if_pos hrf] at hd
    · rw [← hdelay]
      exact (holds_off_of_ends rfl hl hne hsti ht).2

/-! PUSHF, POPF (O40). -/

theorem Gives.requireV86Iopl (h : s.vm = false ∨ s.iopl = 3) : Gives requireV86Iopl s () s :=
  .look_id (fun _ _ => rfl) (.require (by rcases h with h | h <;> simp [h]) s)

/-- Of a value stored in `n` bytes only the low bits count. -/
theorem writeLE_congr {n : Nat} : ∀ {m : List Host.Cell} {a : Nat} {v w : Word},
    (∀ i, i < 8 * n → v.getLsbD i = w.getLsbD i) → writeLE m a n v = writeLE m a n w := by
  induction n with
  | zero => exact fun _ => rfl
  | succ n ih =>
    intro m a v w h
    have hlow : (v.setWidth 8 : Byte) = w.setWidth 8 := by
      apply BitVec.eq_of_getLsbD_eq
      intro i hi
      simp only [BitVec.getLsbD_setWidth, hi, h i (by omega)]
    unfold writeLE
    rw [hlow]
    refine ih fun i hi => ?_
    simp only [BitVec.getLsbD_ushiftRight]
    exact h _ (by omega)

theorem State.pushed_truncW (s : State) (n : Width) (v : Word) : s.pushed n [truncW n v] = s.pushed n [v] := by
  have h : ∀ (m : List Host.Cell) (a : Nat), writeLE m a n.bytes (truncW n v) = writeLE m a n.bytes v := fun m a =>
    writeLE_congr fun i hi => by
      cases n with
      | d => rfl
      | b | w =>
        simp only [Width.bytes] at hi
        simp only [truncW, zext8, zext16, BitVec.getLsbD_setWidth]
        simp only [show i < 32 by omega, hi, decide_true, Bool.true_and]
  simp only [State.pushed, State.stacked, h]
  rfl

/-- The bits below 18 of an image of the flags (R19, I13). -/
theorem image_low (free v : Word) : mergeBits 0xFFFC0000 free v &&& 0x3FFFF = v &&& 0x3FFFF := by
  have hmask : ∀ i, i < 32 → (0xFFFC0000 : Word).getLsbD i = !(0x3FFFF : Word).getLsbD i := by decide
  apply BitVec.eq_of_getLsbD_eq
  intro i hi
  simp only [mergeBits, BitVec.getLsbD_and, BitVec.getLsbD_or, BitVec.getLsbD_not, hi, hmask i hi, decide_true,
    Bool.true_and]
  cases (0x3FFFF : Word).getLsbD i <;> simp

theorem Leads.flagImage (rf : Bool) (s : State) : Leads (flagImage rf) s fun w u => s.isImage rf w ∧ u = s :=
  (Gives.look s fun _ _ _ => rfl).bind_leads ((Leads.drawWord s).bind fun w u hu => by
    subst hu
    exact (Gives.pure _ u).leads ⟨image_low _ _, rfl⟩)

theorem flagMask_vm (s : State) : bit s.flagMask 17 = false := by
  unfold State.flagMask
  split <;> split <;> decide

/-- Settles O40. -/
theorem flagTransfers : Obligations.FlagTransfers := by
  unfold Obligations.FlagTransfers
  intro s hs
  have hl := State.lockOk_of_plain hs false
  refine ⟨fun hv hp => ?_, fun hv hp => ?_, fun z hv hp => ?_⟩
  · rw [← State.pushed_truncW]
    exact done_of_gives rfl hl ((Gives.requireV86Iopl hv).bind (.look_bind (fun _ _ _ => rfl) (.push _ hp)))
      (.pushed _ _ s) (State.pushed_frame s _ _)
  · have hb : Leads (requireV86Iopl >>= fun _ => flagImage false >>= fun w => push .d w) s fun _ u =>
        ∃ w, s.isImage false w ∧ u = s.pushed .d [w] :=
      (Gives.requireV86Iopl hv).bind_leads ((Leads.flagImage false s).bind fun w u hw => by
        obtain ⟨himage, rfl⟩ := hw
        exact (Gives.push w hp).leads ⟨w, himage, rfl⟩)
    obtain ⟨_, ⟨w, himage, rfl⟩, hdone⟩ := done_of_leads (i := .pushf .s32) (regs := [.sp])
      (stored := s.pushCovers .d 1) rfl hl hb fun u hu => by
      obtain ⟨w, -, rfl⟩ := hu
      exact ⟨.pushed _ _ s, State.pushed_frame s _ _⟩
    exact ⟨w, himage, hdone⟩
  · have hb : Gives (requireV86Iopl >>= fun _ => pop z.width >>= fun v => upd (fun t => t.loadFlags t.flagMask v) >>= fun _ =>
        pure Ending.nextKeepRf) s .nextKeepRf
        { s.popped z.width.bytes with eflags := mergeBits s.flagMask ((s.above z.width 0).value s) s.eflags } :=
      (Gives.requireV86Iopl hv).bind ((Gives.pop hp).bind ((Gives.upd (fun _ _ _ => rfl) _).bind (.pure _ _)))
    refine doneFlags_of_ends (e := .nextKeepRf) rfl hl rfl hb.run (.popped _ s) ?_ (State.popped_frame s _)
    have hbit := bit_mergeBits s.flagMask ((s.above z.width 0).value s) s.eflags 17
    rwa [flagMask_vm] at hbit

/-! SETcc, LEA, NOP, XLAT (O41). -/

/-- LEA: the offset, or some value. -/
theorem lea_leads (z : Sz) (r : Gpr) (m : Mem) (s : State) :
    Leads (effAddr m >>= fun ea => putRegZ z r ea) s fun _ u => ∃ w, (m.isOpen = false → w = m.sum s.gpr) ∧
      u = s.setRegZ z r w := by
  cases ho : m.isOpen with
  | false =>
    exact ((Gives.effAddr ho s).bind (.putRegZ z r _ s)).leads ⟨_, fun _ => by simp [State.offsetOf, ho], rfl⟩
  | true =>
    refine Leads.bind (Q := fun _ u => u = s) (fun t ht => ?_) fun w u hu => ?_
    · exact ⟨t.offsetOf m, { t with draws := t.draws + 1 }, s, by simp [effAddr, ho], ht.draw _, rfl⟩
    · subst hu
      exact (Gives.putRegZ z r w u).leads ⟨w, by simp, rfl⟩

/-- Settles O41. -/
theorem setAndTranslate : Obligations.SetAndTranslate := by
  unfold Obligations.SetAndTranslate
  intro s hs
  have hl := State.lockOk_of_plain hs false
  refine ⟨fun z r m => ?_, ?_, fun c o ho => ?_, ?_⟩
  · obtain ⟨_, ⟨w, hw, rfl⟩, hdone⟩ := done_of_leads (i := .lea z r m) (regs := [r]) (stored := noByte) rfl hl
      (lea_leads z r m s) fun u hu => by
        obtain ⟨w, -, rfl⟩ := hu
        exact ⟨.setRegZ z r w s, .setRegZ z r w s⟩
    exact ⟨fun ho => hw ho ▸ hdone, fun _ => ⟨w, hdone⟩⟩
  · exact done_of_gives rfl hl (.pure () s) (.refl s) (.refl s)
  · exact done_of_gives rfl hl (.look_bind (fun _ _ _ => rfl) (.write _ ho)) (.store _ s _) (Spot.store_frame _ s _)
  · intro a e he
    exact done_of_gives rfl hl (.look_bind (fun _ _ _ => rfl) ((Gives.getRegZ a .bx s).bind ((Gives.getReg8 .al s).bind
      ((Gives.memRead he).bind (.putReg8 .al _ s))))) (.setReg8 .al _ s) (.setReg8 .al _ s)

/-! WAIT, ESC, reserved opcodes (O42). -/

theorem escOperand_gives {o : Rm} (h : (match o with
    | .reg _ => true
    | .mem m => (Place.mem .b m).ok s .read) = true) : Gives (checkEscOperand o) s () s := by
  cases o with
  | reg g => exact .pure () s
  | mem m =>
    obtain ⟨l, hl, -⟩ := Gives.loc h
    exact hl.bind (.pure () s)

theorem runInstr_refused {l : Bool} {body : M Ending} {x : Refusal} {t : State} (hl : (s.pfx.lock && !l) = false)
    (h : body s = .error (.refusal x) t) : runInstr l body s = .refused x := by
  rw [runInstr, hl, if_neg (by decide), h]

/-- The body of WAIT. -/
def waitBody : M Ending := do
  let t ← look id
  require (!(t.mp && t.ts)) 7 none
  if t.busy then return .hold
  else do
    require (!t.error) 16 none
    return .next

theorem exec_wait (s : State) : exec .wait s = runInstr false waitBody s := rfl

/-- Settles O42. -/
theorem coprocessorAndReserved : Obligations.CoprocessorAndReserved := by
  unfold Obligations.CoprocessorAndReserved
  refine ⟨fun s hs => ?_, fun opc ext o s hlock => ?_, fun k s hlock => ?_⟩
  · have hl := State.lockOk_of_plain hs false
    refine ⟨fun hmp hts => ?_, fun hm hbusy => ?_, fun hm hbusy herr => ?_, fun hm hbusy herr => ?_⟩
    · exact exec_fault_rollback (exec_wait s) hl rfl (M.look_then (M.bind_stop _ (M.require_fail (by simp [hmp, hts])))) rfl
    · have hb : waitBody s = .ok .hold s :=
        (M.bind_ok _ (M.require_pass (by simp [hm]))).trans (congrFun (if_pos hbusy) s)
      exact runInstr_ok (State.lockOk_lock hl) hb
    · have hb : waitBody s = .error (.exc (faultOf 16 none)) s :=
        (M.bind_ok _ (M.require_pass (by simp [hm]))).trans ((congrFun (if_neg (by simp [hbusy])) s).trans
          (M.bind_stop _ (M.require_fail (by simp [herr]))))
      exact exec_fault_rollback (exec_wait s) hl rfl hb rfl
    · have hb : waitBody s = .ok .next s :=
        (M.bind_ok _ (M.require_pass (by simp [hm]))).trans ((congrFun (if_neg (by simp [hbusy])) s).trans
          (M.bind_ok _ (M.require_pass (by simp [herr]))))
      exact done_of_ends (e := .next) (exec_wait s) hl rfl rfl ⟨s, hb, .refl s⟩ (.refl s) (.refl s)
  · have hl : (s.pfx.lock && !false) = false := by rw [hlock]; rfl
    refine ⟨fun h => ?_, fun h herr => ?_, fun h herr hok => ?_⟩
    · exact exec_fault rfl hl rfl (M.look_then (M.bind_stop _ (M.require_fail (congrArg not h))))
    · exact exec_fault rfl hl rfl (M.look_then ((M.bind_ok _ (M.require_pass (congrArg not h))).trans
        (M.bind_stop _ (M.require_fail (b := !(s.error && true)) (by rw [herr]; rfl)))))
    · obtain ⟨w, hw, -⟩ := (escOperand_gives hok).run
      have hb : (checkEscOperand o >>= fun _ => (stop (.refusal .coprocessor) : M Unit)) s = .error (.refusal .coprocessor) w :=
        M.bind_ok _ hw
      exact runInstr_refused hl (M.bind_stop _ (M.look_then ((M.bind_ok _ (M.require_pass (congrArg not h))).trans
        ((M.bind_ok _ (M.require_pass (b := !(s.error && true)) (by rw [herr]; rfl))).trans hb))))
  · exact runInstr_refused (body := stop (.refusal .reservedOpcode)) (t := s) (by rw [hlock]; rfl) rfl

end Sys2Proof.Machine

/-!
Segment registers and far transfers outside protected mode (O15, O16, O26).
-/
namespace Sys2Proof.Machine

variable {s u : State} {i : Instr}

theorem Gives.thenPure {α : Type} {m : M Unit} (h : Gives m s () u) (e : α) : Gives (m >>= fun _ => Pure.pure e) s e u :=
  h.bind (.pure e u)

/-! Stores of selectors (O15). -/

/-- Settles O15. -/
theorem selectorStores : Obligations.SelectorStores := by
  unfold Obligations.SelectorStores
  refine ⟨fun z g r s hs => ?_, fun z m r s hs hok => ?_, fun z r s hs hp => ?_⟩
  · have hl := State.lockOk_of_plain hs false
    cases z with
    | s16 =>
      exact ⟨_, lowHalf_zext16 _, done_of_gives rfl hl (.look_bind (fun _ _ _ => rfl) (.putRegZ .s16 g _ s))
        (.setRegZ .s16 g _ s) (.setRegZ .s16 g _ s)⟩
    | s32 =>
      have hb : Leads (look (fun t => (t.sreg r).sel) >>= fun sel => drawWord >>= fun free => putReg g (withLow free sel)) s
          fun _ u => ∃ w, lowHalf w = (s.sreg r).sel ∧ u = s.setRegZ .s32 g w :=
        (Gives.look s fun _ _ _ => rfl).bind_leads ((Leads.drawWord s).bind fun w u hu => by
          subst hu
          exact (Gives.putRegZ .s32 g _ u).leads ⟨_, lowHalf_withLow _ _, rfl⟩)
      obtain ⟨_, ⟨w, hw, rfl⟩, hdone⟩ := done_of_leads (i := .movFromSreg .s32 (.reg g) r) (regs := [g]) (stored := noByte)
        rfl hl hb fun u hu => by
          obtain ⟨w, -, rfl⟩ := hu
          exact ⟨.setRegZ .s32 g w s, .setRegZ .s32 g w s⟩
      exact ⟨w, hw, hdone⟩
  · exact done_of_gives rfl (State.lockOk_of_plain hs false) (.look_bind (fun _ _ _ => rfl) (.write _ hok))
      (.store _ s _) (Spot.store_frame _ s _)
  · have hb : Leads (look (fun t => (t.sreg r).sel) >>= fun sel => selItem z.width sel >>= fun v => push z.width v) s
        fun _ u => ∃ w, lowHalf w = (s.sreg r).sel ∧ u = s.pushed z.width [w] :=
      (Gives.look s fun _ _ _ => rfl).bind_leads ((Leads.selItem _ _ s).bind fun w u hw => by
        obtain ⟨hw, rfl⟩ := hw
        exact (Gives.push w hp).leads ⟨w, hw, rfl⟩)
    obtain ⟨_, ⟨w, hw, rfl⟩, hdone⟩ := done_of_leads (i := .pushSreg z r) (regs := [.sp]) (stored := s.pushCovers z.width 1)
      rfl (State.lockOk_of_plain hs false) hb fun u hu => by
        obtain ⟨w, -, rfl⟩ := hu
        exact ⟨.pushed _ _ s, State.pushed_frame s _ _⟩
    exact ⟨w, hw, hdone⟩

/-! Loads without a descriptor (O16). -/

theorem loadFlat_records (s : State) (r : Sreg) (sel : Half) (tr : Traps) (k : Nat) :
    ({ s with traps := tr, draws := k } : State).loadFlat r sel = { s.loadFlat r sel with traps := tr, draws := k } := by
  have hm : ({ s with traps := tr, draws := k } : State).mode = s.mode := rfl
  unfold State.loadFlat
  rw [hm]
  cases s.mode <;> rfl

/-- What such a load leaves alone: all but the segment registers. -/
theorem loadFlat_keeps (s : State) (r : Sreg) (sel : Half) : s.loadFlat r sel = { s with seg := (s.loadFlat r sel).seg } := by
  unfold State.loadFlat
  cases s.mode <;> rfl

theorem loadFlat_cs (s : State) {r : Sreg} (sel : Half) (hr : r ≠ .cs) : (s.loadFlat r sel).seg.cs = s.seg.cs := by
  unfold State.loadFlat
  cases r with
  | cs => exact absurd rfl hr
  | es | ss | ds | fs | gs => cases s.mode <;> rfl

theorem Still.loadFlat (s : State) {r : Sreg} (sel : Half) (hr : r ≠ .cs) : Still s (s.loadFlat r sel) := by
  have hcs := loadFlat_cs s sel hr
  rw [loadFlat_keeps s r sel] at hcs ⊢
  exact ⟨rfl, rfl, rfl, rfl, congrArg SegReg.db hcs⟩

theorem Frame.loadFlat (s : State) (r : Sreg) (sel : Half) {regs : List Gpr} {stored : Nat → Bool} :
    Frame s (s.loadFlat r sel) regs stored := by
  rw [loadFlat_keeps]
  exact ⟨fun _ _ => rfl, fun _ _ => rfl⟩

theorem Gives.loadFlat (r : Sreg) (sel : Half) (s : State) : Gives (Machine.upd (·.loadFlat r sel)) s () (s.loadFlat r sel) :=
  .upd (fun s tr k => loadFlat_records s r sel tr k) s

theorem Gives.loadSreg_flat (r : Sreg) (sel : Half) (hm : s.mode ≠ .prot) :
    Gives (Machine.loadSreg r sel) s () (s.loadFlat r sel) := by
  refine .look_bind (f := State.mode) (fun _ _ _ => rfl) ?_
  cases h : s.mode with
  | prot => exact absurd h hm
  | real | v86 => exact .loadFlat r sel s

theorem farPointer_read {z : Sz} {m : Mem} (h : farOk z m s = true) :
    Gives (readPointer z m) s (farOff z m s, farSel z m s) s := by
  simp only [farOk, Bool.and_eq_true, Bool.not_eq_true'] at h
  obtain ⟨⟨ho, hoff⟩, hsel⟩ := h
  exact (Gives.effAddr ho s).bind ((Gives.segOf m s).bind ((Gives.memRead hoff).bind ((Gives.memRead hsel).bind (.pure _ s))))

theorem endOfLoad_inhibit (r : Sreg) : (endOfLoad r).advances = true ∧ (endOfLoad r).clearsRf = true ∧
    endOfLoad r ≠ .hold ∧ (endOfLoad r == .inhibit) = (r == .ss) := by
  cases r <;> decide

/-- A body that ends as the load of a segment register does. -/
theorem load_done {body : M Ending} {r : Sreg} {regs : List Gpr} {stored : Nat → Bool} (hs : s.plain = true)
    (hi : exec i s = runInstr false body s) (hb : Gives body s (endOfLoad r) u) (hst : Still s u)
    (hfr : Frame s u regs stored) :
    Done i s u .same regs stored ∧ ∀ t, exec i s = .next t → t.inhibit = (r == .ss) := by
  obtain ⟨hadv, hrf, hne, hin⟩ := endOfLoad_inhibit r
  have hl := State.lockOk_of_plain hs false
  obtain ⟨w, hw, hn⟩ := hb.run
  refine ⟨done_of_ends hi hl hadv hrf ⟨w, hw, hn⟩ hst hfr, fun t ht => ?_⟩
  rw [← hin]
  exact (holds_off_of_ends hi hl hne hw ht).1

theorem exec_movToSreg {r : Sreg} (hr : r ≠ .cs) (o : Rm) (s : State) : exec (.movToSreg r o) s =
    runInstr false (o.place16.read >>= fun v => loadSreg r (lowHalf v) >>= fun _ => pure (endOfLoad r)) s := by
  cases r with
  | cs => exact absurd rfl hr
  | es | ss | ds | fs | gs => rfl

theorem exec_popSreg {r : Sreg} (hr : r ≠ .cs) (z : Sz) (s : State) : exec (.popSreg z r) s =
    runInstr false (pop z.width >>= fun v => loadSreg r (lowHalf v) >>= fun _ => pure (endOfLoad r)) s := by
  cases r with
  | cs => exact absurd rfl hr
  | es | ss | ds | fs | gs => rfl

/-- Settles O16. -/
theorem selectorLoadsFlat : Obligations.SelectorLoadsFlat := by
  unfold Obligations.SelectorLoadsFlat
  refine ⟨fun r o s hs hm hr hok => ?_, fun z r s hs hm hr hok => ?_, fun z g m s hs hm hok => ?_⟩
  · exact load_done hs (exec_movToSreg hr o s) ((Gives.read hok).bind ((Gives.loadSreg_flat r _ hm).bind (.pure _ _))) (.loadFlat s _ hr)
      (.loadFlat s r _)
  · exact load_done hs (exec_popSreg hr z s) ((Gives.pop hok).bind ((Gives.loadSreg_flat (s := s.popped _) r _ hm).bind
      (.pure _ _)))
      ((Still.popped _ s).trans (.loadFlat _ _ hr)) ((State.popped_frame s _).trans (.loadFlat _ r _))
  · have pointer : ∀ r, r ≠ .cs → Gives (loadPointer r z g m) s () ((s.loadFlat r (farSel z m s)).setRegZ z g (farOff z m s)) :=
      fun r _ => (farPointer_read hok).bind ((Gives.loadSreg_flat r _ hm).bind (.putRegZ z g _ _))
    have loads : ∀ r i, r ≠ .cs → exec i s = runInstr false (thenNext (loadPointer r z g m)) s →
        Done i s ((s.loadFlat r (farSel z m s)).setRegZ z g (farOff z m s)) .same [g] noByte := fun r i hr hi =>
      done_of_gives hi (State.lockOk_of_plain hs false) (pointer r hr) ((Still.loadFlat s _ hr).trans (.setRegZ z g _ _))
        ((Frame.loadFlat s r _).trans (.setRegZ z g _ _))
    exact ⟨loads .ds _ (by decide) rfl, loads .es _ (by decide) rfl, loads .fs _ (by decide) rfl,
      loads .gs _ (by decide) rfl, loads .ss _ (by decide) rfl⟩

/-! Far transfers without a descriptor (O26). -/

theorem Gives.farPointer {f : FarForm} (h : farTargetOk f s = true) :
    Gives (Machine.farPointer f) s ((farTarget f s).1, (farTarget f s).2.2, (farTarget f s).2.1) s := by
  cases f with
  | ptr z sel off => exact .pure _ s
  | mem z m => exact (farPointer_read h).bind (.pure _ s)

theorem farTransfer_flat {kind : FarKind} {z : Sz} {sel : Half} {off : Word} (hm : s.mode ≠ .prot)
    {R : Ending → State → Prop} (h : Leads (thenJump (farFlat kind z sel off)) s R) :
    Leads (farTransfer kind z sel off) s R := by
  refine (Gives.look s (f := State.mode) fun _ _ _ => rfl).bind_leads ?_
  cases hmode : s.mode with
  | prot => exact absurd hmode hm
  | real | v86 => exact h

/-- The load of CS and EIP that ends a far transfer. -/
theorem Gives.setCS_flat (sel : Half) (off : Word) (s : State) :
    Gives (Machine.upd fun s => { s.loadFlat .cs sel with eip := off }) s () { s.flatCS sel with eip := off } :=
  .upd (fun s tr k => by rw [loadFlat_records]) s

theorem farFlat_jmp {z : Sz} {sel : Half} {off : Word} (h : s.inCode off = true) :
    Gives (farFlat .jmp z sel off) s () { s.flatCS sel with eip := off } :=
  .look_id (fun _ _ => rfl) ((Gives.checkTarget h).bind (.setCS_flat sel off s))

theorem farFlat_call {z : Sz} {sel : Half} {off : Word} (hs : s.plain = true) (h : s.inCode off = true)
    (hp : s.canPush z.width 2 = true) : Leads (farFlat .call z sel off) s fun _ u =>
      ∃ w, lowHalf w = s.seg.cs.sel ∧ u = { (s.pushed z.width [w, s.eipNext]).flatCS sel with eip := off } :=
  Leads.look_id (fun _ _ => rfl) ((Gives.require (room_of_canPush hp) s).bind_leads ((Gives.checkTarget h).bind_leads
    ((Leads.selItem _ _ s).bind fun w u hw => by
      obtain ⟨hw, rfl⟩ := hw
      exact ((Gives.nextEip (State.eipOpen_of_plain hs)).bind ((Gives.pushAll hp).bind (.setCS_flat sel off _))).leads
        ⟨w, hw, rfl⟩)))

theorem Frame.flatCS (s : State) (sel : Half) {regs : List Gpr} {stored : Nat → Bool} :
    Frame s (s.flatCS sel) regs stored := .loadFlat s .cs sel

theorem flatCS_eflags (s : State) (sel : Half) : (s.flatCS sel).eflags = s.eflags := by
  rw [State.flatCS, loadFlat_keeps]

theorem retFarFlat_gives {z : Sz} {imm : Nat} (h0 : (s.above z.width 0).ok s .read = true)
    (h1 : (s.above z.width z.width.bytes).ok s .read = true) (hin : s.inCode ((s.above z.width 0).value s) = true) :
    Gives (retFarFlat z imm) s () { (s.flatCS (lowHalf ((s.above z.width z.width.bytes).value s))).popped
      (2 * z.width.bytes + imm) with eip := (s.above z.width 0).value s } :=
  (Gives.peek h0).bind ((Gives.peek h1).bind ((Gives.checkTarget hin).bind ((Gives.setCS_flat _ _ s).bind
    (.popBytes _ _))))

/-- What IRET leaves of the state outside protected mode, before it ends the service of an NMI. -/
def iretFlatted (z : Sz) (s : State) : State :=
  { (s.flatCS (lowHalf ((s.above z.width z.width.bytes).value s))).popped (3 * z.width.bytes) with
    eip := (s.above z.width 0).value s
    eflags := mergeBits (returnMask s z) ((s.above z.width (2 * z.width.bytes)).value s) s.eflags }

theorem iretFlat_gives {z : Sz} (h0 : (s.above z.width 0).ok s .read = true)
    (h1 : (s.above z.width z.width.bytes).ok s .read = true) (h2 : (s.above z.width (2 * z.width.bytes)).ok s .read = true)
    (hin : s.inCode ((s.above z.width 0).value s) = true) : Gives (iretFlat z) s () (iretFlatted z s) := by
  unfold iretFlatted
  rw [← flatCS_eflags s (lowHalf ((s.above z.width z.width.bytes).value s))]
  exact .look_id (fun _ _ => rfl) ((Gives.peek h0).bind ((Gives.peek h1).bind ((Gives.peek h2).bind
    ((Gives.require hin s).bind ((Gives.setCS_flat _ _ s).bind ((Gives.upd (fun _ _ _ => rfl) _).bind
    (.popBytes _ _)))))))

theorem returnFromEvent_flat {z : Sz} (hm : s.mode ≠ .prot) (hv : s.mode = .v86 → s.iopl = 3)
    (h : Gives (iretFlat z) s () u) : Gives (returnFromEvent z) s () { u with nmiInService := false } := by
  have hend : Gives (upd fun s => { s with nmiInService := false }) u () { u with nmiInService := false } :=
    .upd (fun _ _ _ => rfl) u
  refine .look_bind (f := State.mode) (fun _ _ _ => rfl) ?_
  cases hmode : s.mode with
  | prot => exact absurd hmode hm
  | real => exact h.bind hend
  | v86 => exact .look_id (fun _ _ => rfl) ((Gives.require (by simp [hv hmode]) s).bind (h.bind hend))

/-- Settles O26. -/
theorem farTransfersFlat : Obligations.FarTransfersFlat := by
  unfold Obligations.FarTransfersFlat
  constructor
  · intro f s hs hm hok hin
    have hl := State.lockOk_of_plain hs false
    constructor
    · have hb : Leads (farPointer f >>= fun p => farTransfer .jmp p.1 p.2.2 p.2.1) s fun e u => e = .jump ∧ u = _ :=
        (Gives.farPointer hok).bind_leads (farTransfer_flat hm ((farFlat_jmp hin).thenJump.leads ⟨rfl, rfl⟩))
      obtain ⟨_, w, _, hw, hn, rfl, rfl⟩ := hb s (.refl s)
      exact goes_of_run rfl hl ⟨w, hw, hn⟩ (flatCS_eflags s _) (.flatCS s _)
    · intro hp
      have hb : Leads (farPointer f >>= fun p => farTransfer .call p.1 p.2.2 p.2.1) s fun e u => e = .jump ∧
          ∃ w, lowHalf w = s.seg.cs.sel ∧ u = { (s.pushed (farTarget f s).1.width [w, s.eipNext]).flatCS (farTarget f s).2.1
            with eip := (farTarget f s).2.2 } :=
        (Gives.farPointer hok).bind_leads (farTransfer_flat hm ((farFlat_call hs hin hp).bind fun _ u hu =>
          (Gives.pure _ u).leads ⟨rfl, hu⟩))
      obtain ⟨_, t, _, ht, hn, rfl, w, hw, rfl⟩ := hb s (.refl s)
      exact ⟨w, hw, goes_of_run rfl hl ⟨t, ht, hn⟩ (flatCS_eflags _ _)
        ((State.pushed_frame s _ _).trans (.flatCS _ _))⟩
  · intro z n s hs hm h0 h1 off sel hin
    have hl := State.lockOk_of_plain hs false
    have hfr : ∀ d, Frame s ((s.flatCS sel).popped d) [.sp] noByte := fun d =>
      (Frame.flatCS s sel).trans (State.popped_frame _ d)
    constructor
    · have hb : Gives (look (·.mode) >>= fun m => match m with
          | .prot => farReturn z false (n.getD 0).toNat
          | .real => retFarFlat z (n.getD 0).toNat
          | .v86 => retFarFlat z (n.getD 0).toNat) s () { (s.flatCS sel).popped (2 * z.width.bytes + (n.getD 0).toNat)
            with eip := off } := by
        refine .look_bind (f := State.mode) (fun _ _ _ => rfl) ?_
        cases hmode : s.mode with
        | prot => exact absurd hmode hm
        | real | v86 => exact retFarFlat_gives h0 h1 hin
      exact goes_of_gives rfl hl hb.thenJump (flatCS_eflags _ _) (hfr _)
    · intro hv h2
      have hb := (returnFromEvent_flat hm hv (iretFlat_gives h0 h1 h2 hin)).thenPure Ending.jumpKeepRf
      exact doneFlags_of_jump rfl hl hb.run ((hfr (3 * z.width.bytes)).trans ⟨fun _ _ => rfl, fun _ _ => rfl⟩)

end Sys2Proof.Machine

/-!
What LOCK, the level and the mode refuse (O50, O51).
-/
namespace Sys2Proof.Machine

variable {s : State}

/-- LOCK where it may not stand (R258). -/
theorem runInstr_locked {body : M Ending} (hl : s.pfx.lock = true) :
    runInstr false body s = takeEvent (faultOf 6 none) s.eip s := by
  unfold runInstr
  rw [hl]
  rfl

/-- Settles O50. -/
theorem lockRefused : Obligations.LockRefused := by
  unfold Obligations.LockRefused
  intro i s hlock hp hl
  obtain ⟨body, -, hi⟩ := exec_runs i hp
  rw [hi, hl]
  exact runInstr_locked hlock

theorem requireProtected_ok (h : s.mode = .prot) : requireProtected s = .ok () s := by
  unfold requireProtected
  rw [M.look_bind, h]
  rfl

theorem requireProtected_fail (h : s.mode ≠ .prot) : requireProtected s = .error (.exc (faultOf 6 none)) s := by
  unfold requireProtected
  rw [M.look_bind, beq_eq_false_iff_ne.2 h]
  rfl

/-- A privileged instruction above level 0 (R584). -/
theorem exec_unprivileged {i : Instr} (hl : s.pfx.lock = false) (hp : privileged i = true) (hc : s.cpl ≠ 0)
    (hm : s.mode = .prot ∨ protectedOnly i = false) : exec i s = takeEvent (faultOf 13 (some 0)) s.eip s := by
  have hlock : (s.pfx.lock && !false) = false := by rw [hl]; rfl
  have hcpl := requireCpl0_fail hc
  cases i with
  | lgdt z m | lidt z m | lmsw o | clts | hlt | movFromCr r c | movToCr c r | movFromDr r d | movToDr d r | movFromTr r t
  | movToTr t r => exact exec_fault rfl hlock rfl (M.bind_stop _ hcpl)
  | lldt o | ltr o =>
    have hprot := hm.resolve_right fun h => by cases h
    exact exec_fault rfl hlock rfl ((M.bind_ok _ (requireProtected_ok hprot)).trans (M.bind_stop _ hcpl))
  | _ => cases hp

/-- An instruction of protected mode in another mode (R257). -/
theorem exec_unprotected {i : Instr} (hl : s.pfx.lock = false) (hp : protectedOnly i = true) (hm : s.mode ≠ .prot) :
    exec i s = takeEvent (faultOf 6 none) s.eip s := by
  have hlock : (s.pfx.lock && !false) = false := by rw [hl]; rfl
  have hprot := requireProtected_fail hm
  cases i with
  | lldt o | sldt o | ltr o | str o | lar z r o | lsl z r o | verr o | verw o | arpl o r =>
    exact exec_fault rfl hlock rfl (M.bind_stop _ hprot)
  | _ => cases hp

theorem vm_of_v86 (h : s.mode = .v86) : s.vm = true := by
  unfold State.mode at h
  cases hpe : s.pe <;> cases hvm : s.vm <;> simp_all

theorem iopl_lt (h : s.iopl ≠ 3) : s.iopl < 3 := by
  have : s.iopl < 2 ^ 2 := (s.eflags.extractLsb' 12 2).isLt
  omega

/-- An instruction that needs IOPL 3 in V86 mode (R470, R476, R530, R531). -/
theorem exec_below_iopl3 {i : Instr} (hl : s.pfx.lock = false) (hp : iopl3 i = true) (hm : s.mode = .v86) (hio : s.iopl ≠ 3) :
    exec i s = takeEvent (faultOf 13 (some 0)) s.eip s := by
  have hlock : (s.pfx.lock && !false) = false := by rw [hl]; rfl
  have hne : (s.iopl == 3) = false := by simpa using hio
  have hreq : requireV86Iopl s = .error (.exc (faultOf 13 (some 0))) s :=
    M.require_fail (by simp [vm_of_v86 hm, iopl_lt hio])
  have fault : ∀ {body : M Ending}, body s = .error (.exc (faultOf 13 (some 0))) s →
      runInstr false body s = takeEvent (faultOf 13 (some 0)) s.eip s := fun hb => runInstr_fault hlock rfl hb
  cases i with
  | int v => exact fault (M.look_then (M.bind_stop _ (M.require_fail (by simp [hm, hio]))))
  | iret z =>
    have hret : returnFromEvent z s = .error (.exc (faultOf 13 (some 0))) s := by
      unfold returnFromEvent
      rw [M.look_bind, hm]
      exact M.look_then (M.bind_stop _ (M.require_fail hne))
    exact fault (M.bind_stop _ hret)
  | pushf z => exact fault (M.bind_stop _ (M.bind_stop _ hreq))
  | popf z => exact fault (M.bind_stop _ hreq)
  | _ => cases hp

/-- Settles O51. -/
theorem levelAndModeRefused : Obligations.LevelAndModeRefused := by
  unfold Obligations.LevelAndModeRefused
  exact fun i s hl => ⟨exec_unprivileged hl, exec_unprotected hl, exec_below_iopl3 hl⟩

end Sys2Proof.Machine

/-!
The layer of descriptors: what reading, checking and marking one answers (from `Sys2Proof/Laws/Descriptors.lean`), and the
loads of segment registers in protected mode (O17).
-/
namespace Sys2Proof.Machine

section
variable {s u : State} {sel : Half} {lin : Word} {n : Width}

theorem Gives.linRead (h : s.flat lin n.bytes = true) : Gives (linRead lin n) s (readLE s.mem lin.toNat n.bytes) s := by
  rintro t ⟨tr, k, rfl⟩
  exact ⟨_, linRead_flat (s := { s with traps := tr, draws := k }) h, tr, k, rfl⟩

theorem Gives.linWrite (v : Word) (h : s.flat lin n.bytes = true) :
    Gives (linWrite lin n v) s () { s with mem := writeLE s.mem lin.toNat n.bytes v } := by
  rintro t ⟨tr, k, rfl⟩
  exact ⟨_, linWrite_flat (s := { s with traps := tr, draws := k }) v h, tr, k, rfl⟩

theorem Gives.fetchDesc (hi : s.descIn sel = true) (hf : s.descFlat sel = true) :
    Gives (fetchDesc sel) s (some (s.desc sel)) s := by
  rintro t ⟨tr, k, rfl⟩
  exact ⟨_, fetchDesc_ok (s := { s with traps := tr, draws := k }) hi hf, tr, k, rfl⟩

theorem Gives.fetchDesc_beyond (hi : s.descIn sel = false) : Gives (Machine.fetchDesc sel) s none s := by
  rintro t ⟨tr, k, rfl⟩
  exact ⟨_, fetchDesc_none (s := { s with traps := tr, draws := k }) hi, tr, k, rfl⟩

theorem Gives.needDesc (v : Byte) (ext : Bool) (hi : s.descIn sel = true) (hf : s.descFlat sel = true) :
    Gives (needDesc sel v ext) s (s.desc sel) s := (Gives.fetchDesc hi hf).bind (.pure _ s)

theorem Raises.needDesc (v : Byte) (ext : Bool) (hi : s.descIn sel = false) :
    Raises (needDesc sel v ext) s (faultOf v (some (selCode sel ext))) s :=
  (Gives.fetchDesc_beyond hi).bind_raises (.raise _ _ s)

theorem Gives.writeRights (ar : Byte) (hf : s.descFlat sel = true) :
    Gives (writeRights (s.desc sel) ar) s () (s.setRights sel ar) := by
  rintro t ⟨tr, k, rfl⟩
  exact ⟨_, writeRights_ok (s := { s with traps := tr, draws := k }) ar hf, tr, k, rfl⟩

/-- A segment register is loaded from a descriptor of the state the instruction began in, which is marked accessed. -/
theorem Gives.loadSeg (r : Sreg) (hf : s.descFlat sel = true) :
    Gives (loadSeg r sel (s.desc sel)) s ()
      ((s.setRights sel ((s.desc sel).ar ||| 1)).setSreg r ((s.desc sel).toSeg sel)) :=
  (Gives.writeRights _ hf).bind (.upd (fun _ _ _ => rfl) _)

end

section
variable {α : Type} {s : State}

theorem Gives.requireCpl0 (h : s.cpl = 0) : Gives requireCpl0 s () s :=
  .look_bind (fun _ _ _ => rfl) (.require (beq_iff_eq.2 h) s)

theorem Gives.requireProtected (h : s.mode = .prot) : Gives requireProtected s () s := by
  refine .look_bind (f := State.mode) (fun _ _ _ => rfl) ?_
  rw [h]
  exact .pure () s

/-- The fault a selector is refused with. -/
def faultWith (e : Byte × Half) : Exc := faultOf e.1 (some e.2)

/-- What a chain of checks answers: `f` is the fault of the first that fails. -/
def Checks (m : M α) (s : State) (f : Option (Byte × Half)) (a : α) (u : State) : Prop :=
  match f with
  | none => Gives m s a u
  | some e => Raises m s (faultWith e) s

variable {a : α} {u : State} {f : Option (Byte × Half)} {sel : Half}

theorem Checks.of_gives {m : M α} (h : Gives m s a u) : Checks m s none a u := h

theorem Checks.gives {m : M α} (h : Checks m s f a u) (hf : f = none) : Gives m s a u := by
  subst hf
  exact h

theorem Checks.raises {m : M α} {e : Byte × Half} (h : Checks m s f a u) (hf : f = some e) : Raises m s (faultWith e) s := by
  subst hf
  exact h

theorem Checks.bind {β : Type} {m : M β} {k : β → M α} {b : β} (hm : Gives m s b s) (h : Checks (k b) s f a u) :
    Checks (m >>= k) s f a u := by
  cases f with
  | none => exact Gives.bind hm h
  | some e => exact hm.bind_raises h

theorem Checks.require {c : Bool} {x : Byte} {code : Half} {k : Unit → M α} (h : c = true → Checks (k ()) s f a u) :
    Checks (Machine.require c x (some code) >>= k) s (if c then f else some (x, code)) a u := by
  cases hc : c with
  | true => exact Checks.bind (.require rfl s) (h hc)
  | false => exact (Raises.require rfl s).bind

theorem Checks.needDesc {k : Desc → M α} {v : Byte} (hr : s.descIn sel = true → s.descFlat sel = true)
    (h : s.descFlat sel = true → Checks (k (s.desc sel)) s f a u) :
    Checks (Machine.needDesc sel v false >>= k) s (if s.descIn sel then f else some (v, selCode sel false)) a u := by
  cases hi : s.descIn sel with
  | true => exact Checks.bind (.needDesc v false hi (hr hi)) (h (hr hi))
  | false => exact (Raises.needDesc v false hi).bind

end

variable {s : State} {sel : Half}

theorem descFlat_of_readable (h : s.selReadable sel = true) (hn : selNull sel = false) (hi : s.descIn sel = true) :
    s.descFlat sel = true := by
  simpa [State.selReadable, hn, hi] using h

theorem loadedSreg_of_null (s u : State) (r : Sreg) (hn : selNull sel = true) :
    s.loadedSreg u r sel = u.setSreg r ((s.sreg r).null sel) := if_pos hn

theorem loadedSreg_of_desc (s u : State) (r : Sreg) (hn : selNull sel = false) :
    s.loadedSreg u r sel = (u.setRights sel ((s.desc sel).ar ||| 1)).setSreg r ((s.desc sel).toSeg sel) :=
  if_neg (by rw [hn]; decide)

/-- A chain of checks is written with the condition that passes, or with those that do not. -/
theorem refuse_unless {α : Type} (c : Bool) (x y : α) : (if (!c) = true then x else y) = if c = true then y else x := by
  cases c <;> rfl

theorem refuse_or {α : Type} (a b : Bool) (x y : α) :
    (if (a || b) = true then x else y) = if a = true then x else if b = true then x else y := by
  cases a <;> cases b <;> rfl

/-! SS (R131), DS, ES, FS, GS (R132). -/

theorem loadFault_ss (s : State) (sel : Half) : s.loadFault .ss sel =
    if !selNull sel then
      if s.descIn sel then
        if selRpl sel == s.cpl then
          if (s.desc sel).isStack then
            if (s.desc sel).dpl == s.cpl then
              if (s.desc sel).present then none else some (12, selCode sel false)
            else some (13, selCode sel false)
          else some (13, selCode sel false)
        else some (13, selCode sel false)
      else some (13, selCode sel false)
    else some (13, 0) := by
  unfold State.loadFault Desc.isStack bne
  simp only [refuse_or, refuse_unless]
  rfl

theorem loadFault_data (s : State) {r : Sreg} (sel : Half) (hr : r ≠ .ss) (hn : selNull sel = false) : s.loadFault r sel =
    if s.descIn sel then
      if arReadable (s.desc sel).ar then
        if arConforming (s.desc sel).ar || (selRpl sel ≤ (s.desc sel).dpl && s.cpl ≤ (s.desc sel).dpl) then
          if (s.desc sel).present then none else some (11, selCode sel false)
        else some (13, selCode sel false)
      else some (13, selCode sel false)
    else some (13, selCode sel false) := by
  have hss : (r == Sreg.ss) = false := beq_eq_false_iff_ne.2 hr
  unfold State.loadFault
  simp only [hn, hss, ← Bool.not_or, refuse_unless]
  rfl

theorem loadSS_checks (hr : s.selReadable sel = true) :
    Checks (loadSS sel) s (s.loadFault .ss sel) () (s.loadedSreg s .ss sel) := by
  rw [loadFault_ss]
  refine Checks.bind (.look s fun _ _ _ => rfl) (.require fun hn => ?_)
  have hn' : selNull sel = false := by simpa using hn
  refine .needDesc (descFlat_of_readable hr hn') fun hf => .require fun _ => .require fun _ => .require fun _ =>
    .require fun _ => ?_
  rw [loadedSreg_of_desc _ _ _ hn']
  exact Gives.loadSeg .ss hf

theorem loadDataSeg_checks {r : Sreg} (hrs : r ≠ .ss) (hr : s.selReadable sel = true) :
    Checks (loadDataSeg r sel) s (s.loadFault r sel) () (s.loadedSreg s r sel) := by
  refine Checks.bind (.look s fun _ _ _ => rfl) ?_
  cases hn : selNull sel with
  | true =>
    have hfault : s.loadFault r sel = none := by
      have hss : (r == Sreg.ss) = false := beq_eq_false_iff_ne.2 hrs
      unfold State.loadFault
      rw [hn, hss]
      rfl
    rw [hfault, loadedSreg_of_null _ _ _ hn]
    exact Checks.of_gives (.upd (fun _ _ _ => by cases r <;> rfl) s)
  | false =>
    rw [loadFault_data s sel hrs hn, loadedSreg_of_desc _ _ _ hn]
    exact .needDesc (descFlat_of_readable hr hn) fun hf => .require fun _ => .require fun _ => .require fun _ =>
      Gives.loadSeg r hf

theorem loadSreg_checks (r : Sreg) (hm : s.mode = .prot) (hr : s.selReadable sel = true) :
    Checks (loadSreg r sel) s (s.loadFault r sel) () (s.loadedSreg s r sel) := by
  refine Checks.bind (.look s (f := State.mode) fun _ _ _ => rfl) ?_
  rw [hm]
  cases r with
  | ss => exact loadSS_checks hr
  | es | cs | ds | fs | gs => exact loadDataSeg_checks (by decide) hr

/-! The instructions (O17). -/

/-- A fault of the body that restores the registers, free values drawn. -/
theorem raises_of_body {i : Instr} {l : Bool} {body : M Ending} {f : Exc} {u : State} (hi : exec i s = runInstr l body s)
    (hl : s.lockOk l = true) (hf : f.committed = false) (h : Raises body s f u)
    (hu : rollback s u = { s with draws := u.draws }) : ∃ k, exec i s = takeEvent f s.eip { s with draws := k } := by
  obtain ⟨w, hw, tr, k, rfl⟩ := h s (.refl s)
  have hr : rollback s { u with traps := tr, draws := k } = { s with draws := k } :=
    congrArg (fun t : State => { t with draws := k }) hu
  exact ⟨k, by rw [hi, runInstr_fault (State.lockOk_lock hl) hf hw, hr]⟩

theorem Still.loadedSreg {u : State} {r : Sreg} (h : Still s u) (hr : r ≠ .cs) : Still s (s.loadedSreg u r sel) := by
  have hcs : ∀ (v : State) (g : SegReg), (v.setSreg r g).seg.cs = v.seg.cs := fun v g => by
    cases r with
    | cs => exact absurd rfl hr
    | es | ss | ds | fs | gs => rfl
  cases hn : selNull sel with
  | true =>
    rw [loadedSreg_of_null _ _ _ hn]
    exact ⟨h.eip, h.ilen, h.eflags, h.cr0, (congrArg SegReg.db (hcs _ _)).trans h.db⟩
  | false =>
    rw [loadedSreg_of_desc _ _ _ hn]
    exact ⟨h.eip, h.ilen, h.eflags, h.cr0, (congrArg SegReg.db (hcs _ _)).trans h.db⟩

/-- Loading a segment register writes at most the rights byte of its descriptor. -/
theorem Frame.loadedSreg {u : State} {r : Sreg} {regs : List Gpr} (hg : u.gdtr = s.gdtr) (hl : u.ldtr = s.ldtr)
    (h : Frame s u regs noByte) : Frame s (s.loadedSreg u r sel) regs (s.loadByte sel) := by
  have hu : Frame s u regs (s.loadByte sel) := h.mono (fun _ h => h) fun _ _ => rfl
  cases hn : selNull sel with
  | true =>
    rw [loadedSreg_of_null _ _ _ hn]
    exact ⟨hu.regs, hu.mem⟩
  | false =>
    rw [loadedSreg_of_desc _ _ _ hn]
    have hb : u.rightsByte sel = s.rightsByte sel := by
      unfold State.rightsByte State.descAt
      rw [hg, hl]
    have hw := State.setRights_frame u sel ((s.desc sel).ar ||| 1)
    refine ⟨hu.regs, fun a ha => (hw.mem a ?_).trans (hu.mem a ha)⟩
    rw [State.loadByte, hn] at ha
    rw [hb]
    exact ha

/-- From what the body of a load answers, where its checks pass and where one fails. -/
theorem loads_of_body {i : Instr} {body : M Ending} {e : Ending} {u : State} {r : Sreg} {regs : List Gpr}
    (hs : s.plain = true) (hi : exec i s = runInstr false body s) (he : e.advances = true) (hrf : e.clearsRf = true)
    (hok : s.loadFault r sel = none → Gives body s e (s.loadedSreg u r sel))
    (hbad : ∀ x, s.loadFault r sel = some x → ∃ v, Raises body s (faultWith x) v ∧ rollback s v = { s with draws := v.draws })
    (hst : Still s (s.loadedSreg u r sel)) (hfr : Frame s (s.loadedSreg u r sel) regs (s.loadByte sel)) :
    Loads i s u r sel regs ∧
      (s.loadFault r sel = none → ∀ t, exec i s = .next t → t.inhibit = (e == .inhibit)) := by
  have hl := State.lockOk_of_plain hs false
  have hne : e ≠ .hold := by rintro rfl; exact absurd he (by decide)
  constructor
  · unfold Loads
    cases hf : s.loadFault r sel with
    | none => exact done_of_ends hi hl he hrf (hok hf).run hst hfr
    | some x =>
      obtain ⟨v, hv, hroll⟩ := hbad x hf
      exact raises_of_body hi hl rfl hv hroll
  · intro hf t ht
    obtain ⟨w, hw, -⟩ := (hok hf).run
    exact (holds_off_of_ends hi hl hne hw ht).1

/-- Settles O17. -/
theorem selectorLoadsProtected : Obligations.SelectorLoadsProtected := by
  unfold Obligations.SelectorLoadsProtected
  refine ⟨?_, ?_, ?_⟩
  · intro r o s hs hm hr hok sel hsel
    obtain ⟨hadv, hrf, -, hin⟩ := endOfLoad_inhibit r
    have hc := loadSreg_checks r hm hsel
    rw [← hin]
    exact loads_of_body hs (exec_movToSreg hr o s) hadv hrf
      (fun hf => (Gives.read hok).bind ((hc.gives hf).thenPure _))
      (fun x hf => ⟨s, (Gives.read hok).bind_raises (hc.raises hf).bind, rfl⟩)
      ((Still.refl s).loadedSreg hr) (.loadedSreg rfl rfl (.refl s))
  · intro z r s hs hm hr hok sel hsel
    obtain ⟨hadv, hrf, -, hin⟩ := endOfLoad_inhibit r
    have hc : Checks (loadSreg r sel) (s.popped z.width.bytes) (s.loadFault r sel) () (s.loadedSreg (s.popped z.width.bytes) r sel) :=
      loadSreg_checks (s := s.popped z.width.bytes) r hm hsel
    rw [← hin]
    exact loads_of_body hs (exec_popSreg hr z s) hadv hrf
      (fun hf => (Gives.pop hok).bind ((hc.gives hf).thenPure _))
      (fun x hf => ⟨_, (Gives.pop hok).bind_raises (hc.raises hf).bind, rfl⟩)
      ((Still.popped _ s).loadedSreg hr) (.loadedSreg rfl rfl (State.popped_frame s _))
  · intro z g m s hs hm hok sel u hsel
    have loads : ∀ r i, r ≠ .cs → exec i s = runInstr false (thenNext (loadPointer r z g m)) s → Loads i s u r sel [g] := by
      intro r i hr hi
      have hc := loadSreg_checks r hm hsel
      have hswap : (s.loadedSreg s r sel).setRegZ z g (farOff z m s) = s.loadedSreg u r sel := by
        cases hn : selNull sel with
        | true => rw [loadedSreg_of_null _ _ _ hn, loadedSreg_of_null _ _ _ hn]; cases z <;> rfl
        | false => rw [loadedSreg_of_desc _ _ _ hn, loadedSreg_of_desc _ _ _ hn]; cases z <;> rfl
      refine (loads_of_body (e := .next) hs hi rfl rfl (fun hf => ?_) (fun x hf => ?_) ((Still.setRegZ z g _ s).loadedSreg hr)
        (.loadedSreg ?_ ?_ (.setRegZ z g _ s))).1
      · rw [← hswap]
        exact ((farPointer_read hok).bind ((hc.gives hf).bind (.putRegZ z g _ _))).thenPure _
      · exact ⟨s, ((farPointer_read hok).bind_raises (hc.raises hf).bind).bind, rfl⟩
      all_goals cases z <;> rfl
    exact ⟨loads .ds _ (by decide) rfl, loads .es _ (by decide) rfl, loads .fs _ (by decide) rfl,
      loads .gs _ (by decide) rfl, loads .ss _ (by decide) rfl⟩

end Sys2Proof.Machine

/-!
System instructions: table registers, the status word, the local tables, special registers (O44 to O47).
-/
namespace Sys2Proof.Machine

variable {s u : State} {sel : Half}

/-! LGDT, LIDT, SGDT, SIDT (O44). -/

theorem tableOk_iff {m : Mem} {acc : Acc} : tableOk m s acc = true ↔
    m.isOpen = false ∧ (tableLimit m s).ok s acc = true ∧ (tableBase m s).ok s acc = true := by
  simp [tableOk, and_assoc]

theorem readTable_gives (z : Sz) {m : Mem} (h : tableOk m s .read = true) :
    Gives (readTable z m) s (tableValue z m s) s := by
  obtain ⟨ho, hl, hb⟩ := tableOk_iff.1 h
  exact (Gives.effAddr ho s).bind ((Gives.segOf m s).bind ((Gives.memRead hl).bind ((Gives.memRead hb).bind (.pure _ s))))

theorem writeTable_gives (z : Sz) {m : Mem} (t : TableReg) (h : tableOk m s .write = true) :
    Gives (writeTable z m t) s () (tableStored z m t s) := by
  obtain ⟨ho, hl, hb⟩ := tableOk_iff.1 h
  exact (Gives.effAddr ho s).bind ((Gives.segOf m s).bind ((Gives.memAddrs (n := .w) hl).bind ((Gives.memAddrs (n := .d) hb).bind
    ((Gives.writeAddrs _ (Spot.isRam_of_ok hl)).bind
      (Gives.writeAddrs (s := (tableLimit m s).store s (zext16 t.limit)) (storedBase z t.base) (Spot.isRam_of_ok hb))))))

/-- Settles O44. -/
theorem tableRegisters : Obligations.TableRegisters := by
  unfold Obligations.TableRegisters
  intro z m s hs
  have hl := State.lockOk_of_plain hs false
  constructor
  · intro hc hok
    exact ⟨done_of_gives rfl hl ((Gives.requireCpl0 hc).bind ((readTable_gives z hok).bind (.upd (fun _ _ _ => rfl) s)))
        ⟨rfl, rfl, rfl, rfl, rfl⟩ ⟨fun _ _ => rfl, fun _ _ => rfl⟩,
      done_of_gives rfl hl ((Gives.requireCpl0 hc).bind ((readTable_gives z hok).bind (.upd (fun _ _ _ => rfl) s)))
        ⟨rfl, rfl, rfl, rfl, rfl⟩ ⟨fun _ _ => rfl, fun _ _ => rfl⟩⟩
  · intro hok bytes
    have hframe : ∀ t : TableReg, Frame s (tableStored z m t s) [] bytes := fun t => by
      have h1 : Frame s ((tableLimit m s).store s (zext16 t.limit)) [] ((tableLimit m s).covers s) := Spot.store_frame _ s _
      have h2 : Frame ((tableLimit m s).store s (zext16 t.limit)) (tableStored z m t s) [] ((tableBase m s).covers s) :=
        Spot.store_frame (tableBase m s) ((tableLimit m s).store s (zext16 t.limit)) _
      exact (h1.mono (fun _ h => h) fun a ha => (Bool.or_eq_false_iff.1 ha).1).trans
        (h2.mono (fun _ h => h) fun a ha => (Bool.or_eq_false_iff.1 ha).2)
    exact ⟨done_of_gives rfl hl (.look_bind (fun _ _ _ => rfl) (writeTable_gives z _ hok)) ⟨rfl, rfl, rfl, rfl, rfl⟩ (hframe _),
      done_of_gives rfl hl (.look_bind (fun _ _ _ => rfl) (writeTable_gives z _ hok)) ⟨rfl, rfl, rfl, rfl, rfl⟩ (hframe _)⟩

/-! LLDT, LTR, SLDT, STR (O45). -/

theorem ldtFault_eq (s : State) (sel : Half) (hn : selNull sel = false) : s.ldtFault sel =
    if !selLdt sel then
      if s.descIn sel then
        if (s.desc sel).isSystem 2 then
          if (s.desc sel).present then none else some (11, selCode sel false)
        else some (13, selCode sel false)
      else some (13, selCode sel false)
    else some (13, selCode sel false) := by
  unfold State.ldtFault
  simp only [hn, refuse_or, refuse_unless]
  rfl

theorem tssFault_eq (s : State) (sel : Half) : s.tssFault sel =
    if !selNull sel then
      if !selLdt sel then
        if s.descIn sel then
          if (s.desc sel).isAvailTss then
            if (s.desc sel).present then none else some (11, selCode sel false)
          else some (13, selCode sel false)
        else some (13, selCode sel false)
      else some (13, selCode sel false)
    else some (13, 0) := by
  unfold State.tssFault
  simp only [refuse_or, refuse_unless]

theorem Checks.needGdt {α : Type} {k : Desc → M α} {f : Option (Byte × Half)} {a : α}
    (hr : s.descIn sel = true → s.descFlat sel = true)
    (h : s.descFlat sel = true → Checks (k (s.desc sel)) s f a u) :
    Checks (needGdt sel >>= k) s (if !selLdt sel then if s.descIn sel then f else some (13, selCode sel false)
      else some (13, selCode sel false)) a u := by
  unfold Machine.needGdt
  rw [bind_assoc]
  exact .require fun _ => .needDesc hr h

/-- The body of LLDT. -/
def lldtBody (o : Rm) : M Unit := do
  requireProtected
  requireCpl0
  let sel := lowHalf (← o.place16.read)
  if selNull sel then upd fun s => { s with ldtr := { s.ldtr with sel := sel, valid := false } }
  else do
    let d ← needGdt sel
    require (d.isSystem 2) 13 (some (selCode sel false))
    require d.present 11 (some (selCode sel false))
    upd fun s => { s with ldtr := { sel := sel, base := d.base, limit := d.limit, valid := true } }

theorem exec_lldt (o : Rm) (s : State) : exec (.lldt o) s = runInstr false (thenNext (lldtBody o)) s := rfl

/-- LDTR as LLDT loads it. -/
def State.withLdt (s : State) (sel : Half) : State :=
  if selNull sel then { s with ldtr := { s.ldtr with sel := sel, valid := false } }
  else { s with ldtr := { sel := sel, base := (s.desc sel).base, limit := (s.desc sel).limit, valid := true } }

theorem lldt_checks {o : Rm} (hm : s.mode = .prot) (hc : s.cpl = 0) (hok : o.place16.ok s .read = true)
    (hr : s.selReadable (selectorOf o s) = true) :
    Checks (lldtBody o) s (s.ldtFault (selectorOf o s)) () (s.withLdt (selectorOf o s)) := by
  refine .bind (.requireProtected hm) (.bind (.requireCpl0 hc) (.bind (.read hok) ?_))
  show Checks (if selNull (selectorOf o s) then _ else _) s _ () _
  cases hn : selNull (selectorOf o s) with
  | true =>
    rw [State.ldtFault, hn, State.withLdt, hn]
    exact Checks.of_gives (.upd (fun _ _ _ => rfl) s)
  | false =>
    rw [ldtFault_eq s _ hn, State.withLdt, hn]
    exact .needGdt (descFlat_of_readable hr hn) fun _ => .require fun _ => .require fun _ =>
      Checks.of_gives (.upd (fun _ _ _ => rfl) s)

/-- The body of LTR. -/
def ltrBody (o : Rm) : M Unit := do
  requireProtected
  requireCpl0
  let sel := lowHalf (← o.place16.read)
  require (!selNull sel) 13 (some 0)
  let d ← needGdt sel
  require d.isAvailTss 13 (some (selCode sel false))
  require d.present 11 (some (selCode sel false))
  writeRights d (d.ar ||| 2)
  upd fun s => { s with tr := { sel := sel, base := d.base, limit := d.limit, is386 := d.type == 9 } }

theorem exec_ltr (o : Rm) (s : State) : exec (.ltr o) s = runInstr false (thenNext (ltrBody o)) s := rfl

/-- The state LTR leaves. -/
def State.withTask (s : State) (sel : Half) : State :=
  { s.setRights sel ((s.desc sel).ar ||| 2) with
    tr := { sel := sel, base := (s.desc sel).base, limit := (s.desc sel).limit, is386 := (s.desc sel).type == 9 } }

theorem ltr_checks {o : Rm} (hm : s.mode = .prot) (hc : s.cpl = 0) (hok : o.place16.ok s .read = true)
    (hr : s.selReadable (selectorOf o s) = true) :
    Checks (ltrBody o) s (s.tssFault (selectorOf o s)) () (s.withTask (selectorOf o s)) := by
  rw [tssFault_eq]
  refine .bind (.requireProtected hm) (.bind (.requireCpl0 hc) (.bind (.read hok) (.require fun hn => ?_)))
  refine .needGdt (descFlat_of_readable hr (by simpa using hn)) fun hf => .require fun _ => .require fun _ => ?_
  exact Checks.of_gives ((Gives.writeRights _ hf).bind (.upd (fun _ _ _ => rfl) _))

/-- Settles O45. -/
theorem localTables : Obligations.LocalTables := by
  unfold Obligations.LocalTables
  constructor
  · intro o s hs hm hc hok sel d
    have hl := State.lockOk_of_plain hs false
    have readable : s.descFlat sel = true → s.selReadable sel = true := fun hf => by simp [State.selReadable, hf]
    refine ⟨fun hn => ?_, fun hn hldt hi hf hp => ⟨fun hsys => ?_, fun hav => ?_⟩, ?_⟩
    · have hfault : s.ldtFault sel = none := by rw [State.ldtFault, hn]; rfl
      have hb := (lldt_checks hm hc hok (by rw [State.selReadable, show selNull (selectorOf o s) = true from hn]; rfl)).gives hfault
      rw [State.withLdt, if_pos hn] at hb
      exact done_of_gives (exec_lldt o s) hl hb ⟨rfl, rfl, rfl, rfl, rfl⟩ ⟨fun _ _ => rfl, fun _ _ => rfl⟩
    · have hfault : s.ldtFault sel = none := by rw [ldtFault_eq s sel hn, hldt, hi, hsys, hp]; rfl
      have hb := (lldt_checks hm hc hok (readable hf)).gives hfault
      rw [State.withLdt, if_neg (by rw [hn]; decide)] at hb
      exact done_of_gives (exec_lldt o s) hl hb ⟨rfl, rfl, rfl, rfl, rfl⟩ ⟨fun _ _ => rfl, fun _ _ => rfl⟩
    · have hfault : s.tssFault sel = none := by rw [tssFault_eq s sel, hn, hldt, hi, hav, hp]; rfl
      have hb := (ltr_checks hm hc hok (readable hf)).gives hfault
      exact done_of_gives (exec_ltr o s) hl hb ⟨rfl, rfl, rfl, rfl, rfl⟩
        ⟨fun _ _ => rfl, (State.setRights_frame s sel _).mem⟩
    · intro raises hsel
      exact ⟨fun e he => exec_raises (exec_lldt o s) hl rfl ((lldt_checks hm hc hok hsel).raises he) rfl,
        fun e he => exec_raises (exec_ltr o s) hl rfl ((ltr_checks hm hc hok hsel).raises he) rfl⟩
  · intro o s hs hm hok e
    have hl := State.lockOk_of_plain hs false
    exact ⟨done_of_gives rfl hl ((Gives.requireProtected hm).bind (.look_bind (fun _ _ _ => rfl) (.write _ hok)))
        (.store _ s _) (Spot.store_frame _ s _),
      done_of_gives rfl hl ((Gives.requireProtected hm).bind (.look_bind (fun _ _ _ => rfl) (.write _ hok)))
        (.store _ s _) (Spot.store_frame _ s _)⟩

/-! LMSW, SMSW, CLTS, HLT (O46). -/

theorem Gives.putCr0 (v : Word) (s : State) : Gives (putCr0 v) s () (s.withCr0 v) := .upd (fun _ _ _ => rfl) s

theorem State.eipOpen_of_eip16 {s t : State} (heip : t.eip = s.eip) (hlen : t.ilen = s.ilen) (h : t.eip16 = s.eip16) :
    t.eipOpen = s.eipOpen := by
  rw [State.eipOpen, State.eipOpen, h, heip, hlen]

theorem State.eipNext_of_eip16 {s t : State} (hs : s.eipOpen = false) (heip : t.eip = s.eip) (hlen : t.ilen = s.ilen)
    (h : t.eip16 = s.eip16) : t.eipNext = s.eipNext := by
  have ho : t.eipOpen = false := (State.eipOpen_of_eip16 heip hlen h).trans hs
  simp only [State.eipNext, ho, hs, h, heip, hlen, Bool.false_eq_true, if_false]

/-- From a body that goes to the next instruction by what it has left of the mode. -/
theorem goes_after {i : Instr} {l : Bool} {body : M Ending} {regs : List Gpr} {stored : Nat → Bool} {f : FlagsOut} {fl : Word}
    (hi : exec i s = runInstr l body s) (hl : s.lockOk l = true)
    (hb : ∃ w, body s = .ok .next w ∧ Noted { u with eflags := fl } w) (hf : f.Allows s.eflags (putBit fl 16 false))
    (hvm : bit fl 17 = u.vm) (ho : u.eipOpen = false) (hfr : Frame s u regs stored) :
    ∃ t, exec i s = .next t ∧ Like t u ∧ t.eip = u.eipNext ∧ f.Allows s.eflags t.eflags ∧ Frame s t regs stored := by
  obtain ⟨w, hw, hn⟩ := hb
  obtain ⟨t, ht, hlike, heip, hfl⟩ := exec_of_run hi hl (by decide) hw hn
  have hlike' : Like t u := Like.of_sets (x := u.eip) hlike
  refine ⟨t, ht, hlike', ?_, by rw [hfl]; exact hf, hfr.of_like hlike'⟩
  rw [heip]
  obtain ⟨tr, k, rfl⟩ := hn
  exact State.eipNext_congr ho rfl rfl rfl hvm rfl

/-- Settles O46. -/
theorem statusWord : Obligations.StatusWord := by
  unfold Obligations.StatusWord
  intro s hs
  have hl := State.lockOk_of_plain hs false
  refine ⟨?_, ?_, fun hc => ?_, fun hc => ?_⟩
  · intro o hc hok v u ho
    have hb : Gives (requireCpl0 >>= fun _ => o.place16.read >>= fun v => look (·.cr.cr0) >>= fun cr0 =>
        putCr0 (mergeBits 0xE v cr0 ||| (v &&& 1))) s () u :=
      (Gives.requireCpl0 hc).bind ((Gives.read hok).bind ((Gives.look s fun _ _ _ => rfl).bind (.putCr0 _ s)))
    exact goes_after (u := u) (fl := s.eflags) rfl hl (hb.thenPure _).run (FlagsOut.same_allows _) rfl ho
      ⟨fun _ _ => rfl, fun _ _ => rfl⟩
  · intro o hok e
    exact done_of_gives rfl hl (.look_bind (fun _ _ _ => rfl) (.write _ hok)) (.store _ s _) (Spot.store_frame _ s _)
  · have hb : Gives (requireCpl0 >>= fun _ => look (·.cr.cr0) >>= fun cr0 => putCr0 (putBit cr0 3 false)) s ()
        (s.withCr0 (putBit s.cr.cr0 3 false)) :=
      (Gives.requireCpl0 hc).bind ((Gives.look s fun _ _ _ => rfl).bind (.putCr0 _ s))
    have hpe : (s.withCr0 (putBit s.cr.cr0 3 false)).pe = s.pe := bit_putBit_ne _ _ (by decide)
    generalize hu : s.withCr0 (putBit s.cr.cr0 3 false) = u at hb hpe
    have h16 : u.eip16 = s.eip16 := by
      unfold State.eip16 State.mode
      rw [hpe, ← hu]
      rfl
    have heip : u.eip = s.eip := by rw [← hu]; rfl
    have hlen : u.ilen = s.ilen := by rw [← hu]; rfl
    have ho := State.eipOpen_of_plain hs
    have hfl : u.eflags = s.eflags := by rw [← hu]; rfl
    have hfr : Frame s u [] noByte := by rw [← hu]; exact ⟨fun _ _ => rfl, fun _ _ => rfl⟩
    have hdone := goes_after (f := .same) (i := .clts) (fl := u.eflags) rfl hl (hb.thenPure _).run
      (by rw [hfl]; exact FlagsOut.same_allows _) rfl ((State.eipOpen_of_eip16 heip hlen h16).trans ho) hfr
    rwa [State.eipNext_of_eip16 ho heip hlen h16] at hdone
  · exact done_of_gives rfl hl ((Gives.requireCpl0 hc).bind (.upd (fun _ _ _ => rfl) s)) ⟨rfl, rfl, rfl, rfl, rfl⟩
      ⟨fun _ _ => rfl, fun _ _ => rfl⟩

end Sys2Proof.Machine

/-!
System instructions: special registers, the TLB test, pointer validation (O47 to O49).
-/
namespace Sys2Proof.Machine

variable {s u : State} {sel : Half}

section
variable {i : Instr} {l : Bool} {body : M Unit} {f : FlagsOut} {regs : List Gpr} {stored : Nat → Bool}

theorem thenNext_ok {t w : State} (h : body t = .ok () w) : thenNext body t = .ok .next w := M.bind_ok _ h

/-- A computation that draws free values, and the flags after it. -/
theorem Leads.run_flags {m : M Unit} {Q : State → Prop} (h : Leads m s fun _ u => Q u) (f : FlagsOut) :
    ∃ u, Q u ∧ ∃ t k, (m >>= fun _ => putFlags f) s = .ok () t ∧
      Noted { u with eflags := f.image u.eflags (Config.freeWord k) } t := by
  obtain ⟨⟨⟩, w, u, hw, hn, hq⟩ := h s (.refl s)
  obtain ⟨t, k, ht, hnt⟩ := GivesFlags.putFlags f u w hn
  exact ⟨u, hq, t, k, (M.bind_ok _ hw).trans ht, hnt⟩

end

/-! MOV to and from special registers (O47). -/

theorem Gives.requireDebugFree (h : s.iceActive = false) : Gives requireDebugFree s () s := by
  refine .look_bind (f := State.iceActive) (fun _ _ _ => rfl) ?_
  rw [h]
  exact .pure () s

/-- The state the general-detect fault leaves (R784). -/
def State.debugTaken (s : State) : State :=
  { s with dr := { s.dr with dr6 := putBit s.dr.dr6 13 true ||| s.traps.hits.setWidth 32 } }

theorem requireDebugFree_fault (h : s.iceActive = true) :
    requireDebugFree s = .error (.exc (faultOf 1 none)) s.debugTaken := by
  unfold requireDebugFree
  rw [M.look_bind, h]
  rfl

/-- Settles O47. -/
theorem specialRegisters : Obligations.SpecialRegisters := by
  unfold Obligations.SpecialRegisters
  intro r s hs hc v
  have hl := State.lockOk_of_plain hs false
  have hcpl := Gives.requireCpl0 hc
  refine ⟨fun c => ?_, fun d hice => ?_, fun t => ?_, fun hpg ho => ?_, fun hpg hpe => ?_, ?_, ?_, fun d hice => ?_, ?_,
    fun d hice => ?_⟩
  · exact done_of_givesFlags rfl hl (hcpl.bind_flags ((Gives.look s fun _ _ _ => rfl).bind_flags
      ((Gives.putReg r _ s).bind_flags (.putFlags _ _)))) (.setReg r _ s) (.setReg r _ s)
  · exact done_of_givesFlags rfl hl (hcpl.bind_flags ((Gives.requireDebugFree hice).bind_flags
      ((Gives.look s fun _ _ _ => rfl).bind_flags ((Gives.putReg r _ s).bind_flags (.putFlags _ _)))))
      (.setReg r _ s) (.setReg r _ s)
  · exact done_of_givesFlags rfl hl (hcpl.bind_flags ((Gives.look s fun _ _ _ => rfl).bind_flags
      ((Gives.putReg r _ s).bind_flags (.putFlags _ _)))) (.setReg r _ s) (.setReg r _ s)
  · have hput : Gives (putCreg .cr0 v) s () (s.withCr0 v) :=
      (Gives.require (by cases h31 : bit v 31 <;> simp_all) s).bind (.putCr0 v s)
    have hb : GivesFlags (requireCpl0 >>= fun _ => getReg r >>= fun v => putCreg .cr0 v >>= fun _ => putFlags .undefined) s
        (s.withCr0 v) .undefined := hcpl.bind_flags ((Gives.getReg r s).bind_flags (hput.bind_flags (.putFlags _ _)))
    obtain ⟨w, k, hw, hn⟩ := hb s (.refl s)
    obtain ⟨t, ht, hlike, heip, hfl, -⟩ := goes_after (i := .movToCr .cr0 r) (u := s.withCr0 v) (regs := []) (stored := noByte)
      (f := .undefined) rfl hl ⟨w, thenNext_ok hw, hn⟩ (FlagsOut.image_allows _ _ _) (FlagsOut.image_vm _ _ _) ho
      ⟨fun _ _ => rfl, fun _ _ => rfl⟩
    exact ⟨t, ht, hlike, heip, hfl⟩
  · have hput : putCreg .cr0 v s = .error (.exc (faultOf 13 (some 0))) s :=
      M.bind_stop _ (M.require_fail (by rw [hpg, hpe]; rfl))
    exact exec_fault rfl (State.lockOk_lock hl) rfl ((M.bind_ok _ (requireCpl0_ok hc)).trans
      (M.look_then (M.bind_stop _ hput)))
  · exact done_of_givesFlags rfl hl (hcpl.bind_flags ((Gives.getReg r s).bind_flags ((Gives.upd (fun _ _ _ => rfl) s).bind_flags
      (.putFlags _ _)))) ⟨rfl, rfl, rfl, rfl, rfl⟩ ⟨fun _ _ => rfl, fun _ _ => rfl⟩
  · have hput : Gives (putCreg .cr3 v) s () { s with cr := { s.cr with cr3 := v }, tlb := tlbClear s.tlb } :=
      (Gives.upd (g := fun s => { s with cr := { s.cr with cr3 := v } }) (fun _ _ _ => rfl) s).bind
        (Gives.upd (g := fun s => { s with tlb := tlbClear s.tlb }) (fun _ _ _ => rfl) _)
    exact done_of_givesFlags rfl hl (hcpl.bind_flags ((Gives.getReg r s).bind_flags (hput.bind_flags (.putFlags _ _))))
      ⟨rfl, rfl, rfl, rfl, rfl⟩ ⟨fun _ _ => rfl, fun _ _ => rfl⟩
  · exact done_of_givesFlags rfl hl (hcpl.bind_flags ((Gives.requireDebugFree hice).bind_flags ((Gives.getReg r s).bind_flags
      ((Gives.upd (fun _ _ _ => rfl) s).bind_flags (.putFlags _ _))))) ⟨rfl, rfl, rfl, rfl, rfl⟩ ⟨fun _ _ => rfl, fun _ _ => rfl⟩
  · exact done_of_givesFlags rfl hl (hcpl.bind_flags ((Gives.getReg r s).bind_flags ((Gives.upd (fun _ _ _ => rfl) s).bind_flags
      (.putFlags _ _)))) ⟨rfl, rfl, rfl, rfl, rfl⟩ ⟨fun _ _ => rfl, fun _ _ => rfl⟩
  · have fault : ∀ {i : Instr} {k : Unit → M Unit},
        exec i s = runInstr false (thenNext (requireCpl0 >>= fun _ => requireDebugFree >>= k)) s →
        exec i s = takeEvent (faultOf 1 none) s.eip s.debugTaken := fun {i k} hi => by
      have hb : (requireCpl0 >>= fun _ => requireDebugFree >>= k) s = .error (.exc (faultOf 1 none)) s.debugTaken :=
        (M.bind_ok _ (requireCpl0_ok hc)).trans (M.bind_stop _ (requireDebugFree_fault hice))
      exact hi.trans (runInstr_fault (State.lockOk_lock hl) rfl (M.bind_stop _ hb))
    exact ⟨fault rfl, fault rfl⟩

/-! MOV to TR6 (O48). -/

theorem M.bind_congr {α β : Type} {m m' : M α} {k : α → M β} {t : State} (h : m s = m' t) : (m >>= k) s = (m' >>= k) t := by
  simp only [bind, EStateM.bind, h]

/-- The body of MOV to TR6. -/
def testBody (r : Gpr) : M Unit := do
  requireCpl0
  let v ← getReg r
  putTreg .tr6 v
  putFlags .undefined

theorem exec_movToTr6 (r : Gpr) (s : State) : exec (.movToTr .tr6 r) s = runInstr false (thenNext (testBody r)) s := rfl

/-- The state with the command in TR6. -/
def State.commanded (s : State) (v : Word) : State := { s with tregs := { s.tregs with tr6 := v } }

/-- The command is in TR6, then it is performed. -/
theorem testBody_apply {r : Gpr} (hc : s.cpl = 0) : testBody r s =
    ((if bit (s.reg r) 0 then tlbTestLookup (s.reg r) else tlbTestWrite (s.reg r)) >>= fun _ => putFlags .undefined)
      (s.commanded (s.reg r)) :=
  (M.bind_ok _ (requireCpl0_ok hc)).trans (M.bind_congr rfl)

/-- Which block a TLB write uses (R855). -/
def State.testBlock (s : State) : BitVec 2 :=
  if bit s.tregs.tr7 4 then s.tregs.tr7.extractLsb' 2 2 else Config.tlbVictim (s.draws + 1)

theorem tlbTestWrite_apply (v : Word) (s : State) :
    let n := testEntry v s.tregs.tr7 (Config.freeWord s.draws)
    let i := tlbIndex s.testBlock n.page
    tlbTestWrite v s = if n.valid && tagElsewhere n i 0 s.tlb then .error (.refusal .tlbTest) { s with draws := s.draws + 1 }
      else .ok () { s with tlb := tlbPut s.tlb i n, draws := s.draws + 1 } := by
  intro n i
  have h : tlbTestWrite v s = (if n.valid && tagElsewhere n i 0 s.tlb then stop (.refusal .tlbTest)
    else upd fun s => { s with tlb := tlbPut s.tlb i n }) { s with draws := s.draws + 1 } := rfl
  rw [h]
  split <;> rfl

/-- Where no valid entry has the page, none has the tag. -/
theorem tagElsewhere_none {n : TlbEntry} {i : Nat} : ∀ {es : List TlbEntry} {k : Nat},
    (es.all fun e => !(e.valid && e.page == n.page)) = true → tagElsewhere n i k es = false
  | [], _, _ => rfl
  | e :: es, k, h => by
    rw [List.all_cons, Bool.and_eq_true] at h
    have htag : (e.valid && e.sameTag n) = false := by
      have he := h.1
      unfold TlbEntry.sameTag
      revert he
      cases e.valid <;> cases e.page == n.page <;> simp
    rw [tagElsewhere, tagElsewhere_none h.2, Bool.and_assoc, htag, Bool.and_false, Bool.or_false]

theorem Still.tested (s : State) (t : Tregs) (b : List TlbEntry) : Still s { s with tregs := t, tlb := b } :=
  ⟨rfl, rfl, rfl, rfl, rfl⟩

/-- What a TLB write leaves, or that it stops. -/
theorem testWrite_result {r : Gpr} (hs : s.plain = true) (hc : s.cpl = 0) (hw : bit (s.reg r) 0 = false) :
    let n := testEntry (s.reg r) s.tregs.tr7 (Config.freeWord s.draws)
    let i := tlbIndex s.testBlock n.page
    if n.valid && tagElsewhere n i 0 s.tlb then exec (.movToTr .tr6 r) s = .refused .tlbTest
    else Done (.movToTr .tr6 r) s { s.commanded (s.reg r) with tlb := tlbPut s.tlb i n } .undefined [] noByte := by
  intro n i
  have hl := State.lockOk_of_plain hs false
  have hbody : testBody r s = (tlbTestWrite (s.reg r) >>= fun _ => putFlags .undefined) (s.commanded (s.reg r)) := by
    rw [testBody_apply hc, hw]
    rfl
  have hwrite := tlbTestWrite_apply (s.reg r) (s.commanded (s.reg r))
  by_cases hstop : (n.valid && tagElsewhere n i 0 s.tlb) = true
  · rw [if_pos hstop]
    exact exec_refused (exec_movToTr6 r s) hl (hbody.trans (M.bind_stop _ (hwrite.trans (if_pos hstop))))
  · rw [if_neg hstop]
    have hok := hbody.trans (M.bind_ok _ (hwrite.trans (if_neg hstop)))
    obtain ⟨t, k, ht, hn⟩ := GivesFlags.putFlags .undefined { s.commanded (s.reg r) with tlb := tlbPut s.tlb i n } _
      ((Noted.refl _).draw (s.draws + 1))
    exact done_of_run (exec_movToTr6 r s) hl ⟨t, k, hok.trans ht, hn⟩ (.tested s _ _) ⟨fun _ _ => rfl, fun _ _ => rfl⟩

/-- What a lookup leaves of the test registers. -/
theorem testLookup_done {r : Gpr} {Q : Tregs → Prop} (hs : s.plain = true) (hc : s.cpl = 0) (hw : bit (s.reg r) 0 = true)
    (h : Leads (tlbTestLookup (s.reg r)) (s.commanded (s.reg r)) fun _ u => ∃ t, Q t ∧ u = { s with tregs := t }) :
    ∃ t, Q t ∧ Done (.movToTr .tr6 r) s { s with tregs := t } .undefined [] noByte := by
  have hbody : testBody r s = (tlbTestLookup (s.reg r) >>= fun _ => putFlags .undefined) (s.commanded (s.reg r)) := by
    rw [testBody_apply hc, hw]
    rfl
  obtain ⟨_, ⟨t, hq, rfl⟩, w, k, ht, hn⟩ := h.run_flags .undefined
  exact ⟨t, hq, done_of_run (exec_movToTr6 r s) (State.lockOk_of_plain hs false) ⟨w, k, hbody.trans ht, hn⟩ (.tested s _ _)
    ⟨fun _ _ => rfl, fun _ _ => rfl⟩⟩

theorem lookupAny_leads (s : State) : Leads lookupAny s fun _ u => ∃ x y, u = { s with tregs := lookupOpen s.tregs x y } :=
  (Leads.drawWord s).bind fun x u hu => by
    subst hu
    exact (Leads.drawWord u).bind fun y v hv => by
      subst hv
      exact (Gives.upd (fun _ _ _ => rfl) v).leads ⟨x, y, rfl⟩

theorem pairBit_of_ne {v : Word} {i : Nat} {free : Bool} (h : bit v i ≠ bit v (i - 1)) : pairBit v i free = bit v i :=
  if_neg (by simpa using h)

/-- Settles O48. -/
theorem tlbTest : Obligations.TlbTest := by
  unfold Obligations.TlbTest
  intro r s hs hc v w page named
  refine ⟨fun hw hpl h10 h8 h6 hall => ?_, fun hw => ?_, ?_⟩
  · have hres := testWrite_result hs hc hw
    have hentry : testEntry v s.tregs.tr7 (Config.freeWord s.draws) =
        { valid := bit v 11, page := page, dirty := bit v 10, user := bit v 8, writable := bit v 6,
          frame := s.tregs.tr7.extractLsb' 12 20, written := true } := by
      unfold testEntry
      rw [pairBit_of_ne h10, pairBit_of_ne h8, pairBit_of_ne h6]
    rw [show s.testBlock = named from if_pos hpl, hentry] at hres
    exact (if_neg (by rw [tagElsewhere_none hall, Bool.and_false]; decide)).mp hres
  · exact ⟨Config.freeWord s.draws, s.testBlock, fun hpl => if_pos hpl, testWrite_result hs hc hw⟩
  · intro hw any
    have done : ∀ {Q : Tregs → Prop}, (Leads (tlbTestLookup v) w fun _ u => ∃ t, Q t ∧ u = { s with tregs := t }) →
        ∃ t, Q t ∧ Done (.movToTr .tr6 r) s { s with tregs := t } .undefined [] noByte := testLookup_done hs hc hw
    have hopen : (Leads (tlbTestLookup v) w fun _ u => ∃ t, (∃ x y, t = lookupOpen w.tregs x y) ∧ u = { s with tregs := t }) →
        any := fun h => by
      obtain ⟨_, ⟨x, y, rfl⟩, hdone⟩ := done h
      exact ⟨x, y, hdone⟩
    have hany : Leads lookupAny w fun _ u => ∃ t, (∃ x y, t = lookupOpen w.tregs x y) ∧ u = { s with tregs := t } :=
      (lookupAny_leads w).mono fun _ u hu => by
        obtain ⟨x, y, rfl⟩ := hu
        exact ⟨_, ⟨x, y, rfl⟩, rfl⟩
    split
    next hun =>
      refine hopen (.look_id (fun _ _ => rfl) ?_)
      rw [if_pos (by simpa using hun)]
      exact hany
    next hun =>
      have hun' : ¬ (!bit v 11 && w.tlb.any fun e => !e.written) = true := by simpa using hun
      split
      next k e hm =>
        obtain ⟨_, rfl, hdone⟩ := done (Q := (· = lookupHit w.tregs k e)) (.look_id (fun _ _ => rfl) (by
          rw [if_neg hun', show tlbMatches v 0 w.tlb = [(k, e)] from hm]
          exact (Gives.upd (fun _ _ _ => rfl) w).leads ⟨_, rfl, rfl⟩))
        exact hdone
      next hm =>
        obtain ⟨_, ⟨free, rfl⟩, hdone⟩ := done (Q := fun t => ∃ free, t = lookupMiss w.tregs free) (.look_id (fun _ _ => rfl) (by
          rw [if_neg hun', show tlbMatches v 0 w.tlb = [] from hm]
          exact (Leads.drawWord w).bind fun free u hu => by
            subst hu
            exact (Gives.upd (fun _ _ _ => rfl) w).leads ⟨_, ⟨free, rfl⟩, rfl⟩))
        exact ⟨free, hdone⟩
      next x y rest hm =>
        refine hopen (.look_id (fun _ _ => rfl) ?_)
        rw [if_neg hun', show tlbMatches v 0 w.tlb = x :: y :: rest from hm]
        exact hany

end Sys2Proof.Machine

/-!
Pointer validation (O49).
-/
namespace Sys2Proof.Machine

variable {s u : State} {sel : Half}

theorem putBit_keep {w : Word} {i : Nat} {x : Bool} (hi : i < 32) (h : bit w i = x) : putBit w i x = w := by
  apply BitVec.eq_of_getLsbD_eq
  intro k hk
  show bit _ k = bit w k
  by_cases hki : k = i
  · rw [hki, bit_putBit_same _ _ hi, h]
  · rw [bit_putBit_ne _ _ hki]

/-- ZF alone changed. -/
theorem zfOnly_image (b : Bool) (v free : Word) : (zfOnly b).image v free = putBit v 6 b := by
  simp only [FlagsOut.image, zfOnly, FlagsOut.same, FlagVal.resolve]
  rw [putBit_keep (i := 11) (by decide) rfl, putBit_keep (i := 7) (by decide) rfl,
    putBit_keep (i := 4) (by decide) (bit_putBit_ne _ _ (by decide)),
    putBit_keep (i := 2) (by decide) (bit_putBit_ne _ _ (by decide)),
    putBit_keep (i := 0) (by decide) (bit_putBit_ne _ _ (by decide))]

theorem GivesFlags.putZf (b : Bool) (s : State) : GivesFlags (putFlag 6 b) s s (zfOnly b) := by
  intro t ht
  refine ⟨_, 0, rfl, ?_⟩
  rw [zfOnly_image]
  exact ht.map (fun s => s.setFlag 6 b) fun _ _ _ => rfl

theorem Gives.lookupDesc (h : s.lookupOk sel = true) : Gives (lookupDesc sel) s (s.lookup sel) s := by
  unfold Machine.lookupDesc State.lookup
  cases hn : selNull sel with
  | true => exact .pure none s
  | false =>
    cases hi : s.descIn sel with
    | false => exact .fetchDesc_beyond hi
    | true =>
      have hf : s.pg = false ∧ s.descFlat sel = true := by simpa [State.lookupOk, hn, hi] using h
      exact .fetchDesc hi hf.2

theorem Gives.visibleDesc (accepts : Desc → Bool) (h : s.lookupOk sel = true) :
    Gives (visibleDesc accepts sel) s ((s.lookup sel).filter fun d => accepts d && d.visible s.cpl sel) s := by
  refine .look_bind (fun _ _ _ => rfl) ((Gives.lookupDesc h).bind ?_)
  cases s.lookup sel with
  | none => exact .pure none s
  | some d => exact .pure _ s

/-- The bits of a descriptor that LAR answers (R620). -/
def rightsMask : Sz → Word
  | .s16 => 0xFF00
  | .s32 => 0xF0FF00

/-- The rights LAR answers, bits 19:16 of them any value (R620, I17). -/
theorem Leads.rightsOf (z : Sz) (d : Desc) (s : State) : Leads (rightsOf z d) s fun v u =>
    v &&& 0xFFF0FFFF = d.hi &&& rightsMask z ∧ u = s := by
  have hand : ∀ a b : Word, ((a &&& 0xF0FF00) ||| (b &&& 0xF0000)) &&& 0xFFF0FFFF = a &&& 0xF0FF00 := fun a b => by
    have hk : (0xF0FF00 : Word) &&& 0xFFF0FFFF = 0xF0FF00 := by decide
    have hz : (0xF0000 : Word) &&& 0xFFF0FFFF = 0#32 := by decide
    rw [BitVec.and_comm, BitVec.and_or_distrib_left, BitVec.and_comm _ (a &&& _), BitVec.and_comm _ (b &&& _),
      BitVec.and_assoc, BitVec.and_assoc, hk, hz, BitVec.and_zero, BitVec.or_zero]
  cases z with
  | s16 =>
    have hk : (0xFF00 : Word) &&& 0xFFF0FFFF = 0xFF00 := by decide
    exact (Gives.pure _ s).leads ⟨by rw [BitVec.and_assoc, hk]; rfl, rfl⟩
  | s32 =>
    exact (Leads.drawWord s).bind fun free u hu => by
      subst hu
      exact (Gives.pure _ u).leads ⟨hand _ _, rfl⟩

/-- What a computation leaves that draws free values and sets flags. -/
def LeadsFlags (m : M Unit) (s : State) (Q : State → FlagsOut → Prop) : Prop :=
  ∀ t, Noted s t → ∃ u f, Q u f ∧ ∃ w k, m t = .ok () w ∧ Noted { u with eflags := f.image u.eflags (Config.freeWord k) } w

section
variable {α : Type} {Q : State → FlagsOut → Prop}

theorem GivesFlags.leads {m : M Unit} {f : FlagsOut} (h : GivesFlags m s u f) (hq : Q u f) : LeadsFlags m s Q :=
  fun t ht => ⟨u, f, hq, h t ht⟩

theorem Gives.bind_leadsFlags {m : M α} {k : α → M Unit} {a : α} (h : Gives m s a u) (hk : LeadsFlags (k a) u Q) :
    LeadsFlags (m >>= k) s Q := by
  intro t ht
  obtain ⟨w, hm, hw⟩ := h t ht
  rw [M.bind_ok k hm]
  exact hk w hw

theorem Leads.bind_flags {m : M α} {k : α → M Unit} {P : α → State → Prop} (h : Leads m s P)
    (hk : ∀ a u, P a u → LeadsFlags (k a) u Q) : LeadsFlags (m >>= k) s Q := by
  intro t ht
  obtain ⟨a, w, u, hm, hw, hp⟩ := h t ht
  rw [M.bind_ok k hm]
  exact hk a u hp w hw

theorem done_of_leadsFlags {i : Instr} {l : Bool} {body : M Unit} {regs : List Gpr} {stored : Nat → Bool}
    (hi : exec i s = runInstr l (thenNext body) s) (hl : s.lockOk l = true) (hb : LeadsFlags body s Q)
    (hq : ∀ u f, Q u f → Still s u ∧ Frame s u regs stored) : ∃ u f, Q u f ∧ Done i s u f regs stored := by
  obtain ⟨u, f, hu, hrun⟩ := hb s (.refl s)
  exact ⟨u, f, hu, done_of_run hi hl hrun (hq u f hu).1 (hq u f hu).2⟩

end

/-! VERR, VERW. -/

theorem verify_gives {test : Desc → BitVec 2 → Half → Bool} {o : Rm} (hm : s.mode = .prot)
    (hok : o.place16.ok s .read = true) (h : s.lookupOk (selectorOf o s) = true) :
    GivesFlags (verify test o) s s
      (zfOnly ((s.lookup (selectorOf o s)).any fun d => test d s.cpl (selectorOf o s))) := by
  refine (Gives.requireProtected hm).bind_flags ((Gives.read hok).bind_flags ((Gives.look s fun _ _ _ => rfl).bind_flags
    ((Gives.lookupDesc h).bind_flags ?_)))
  cases s.lookup (selectorOf o s) with
  | none => exact .putZf false s
  | some d => exact .putZf _ s

/-! ARPL. -/

theorem and_mask_eq {v : Word} (h : v.toNat < 2 ^ 16) (r : Word) :
    (v &&& 0xFFFC) ||| (r &&& 3) = BitVec.ofNat 32 (v.toNat / 4 * 4 + r.toNat % 4) := by
  have hmask : (0xFFFC : Nat) = (2 ^ 14 - 1) <<< 2 := by decide
  have hshift : v.toNat / 4 * 4 = (v.toNat >>> 2) <<< 2 := by
    rw [Nat.shiftLeft_eq, Nat.shiftRight_eq_div_pow]
  have hhigh : v.toNat &&& 0xFFFC = 2 ^ 2 * (v.toNat / 4) := by
    rw [show 2 ^ 2 * (v.toNat / 4) = v.toNat / 4 * 4 by omega, hshift, hmask]
    apply Nat.eq_of_testBit_eq
    intro i
    rw [Nat.testBit_and, Nat.testBit_shiftLeft, Nat.testBit_shiftLeft, Nat.testBit_shiftRight, Nat.testBit_two_pow_sub_one]
    by_cases hi : 2 ≤ i
    · rw [Nat.add_sub_cancel' hi]
      by_cases h16 : i - 2 < 14
      · simp [hi, h16]
      · have hv : v.toNat.testBit i = false :=
          Nat.testBit_lt_two_pow (Nat.lt_of_lt_of_le h (Nat.pow_le_pow_right (by decide) (by omega)))
        simp [hv]
    · simp [hi]
  have hlow : r.toNat &&& 3 = r.toNat % 4 := Nat.and_two_pow_sub_one_eq_mod r.toNat 2
  apply BitVec.eq_of_toNat_eq
  rw [BitVec.toNat_or, BitVec.toNat_and, BitVec.toNat_and, show (0xFFFC : Word).toNat = 0xFFFC from rfl,
    show (3 : Word).toNat = 3 from rfl, hhigh, hlow, or_eq_add (by omega), BitVec.toNat_ofNat]
  omega

theorem low_lt (v r : Word) : (v &&& 3 < r &&& 3) ↔ v.toNat % 4 < r.toNat % 4 := by
  have hlow : ∀ x : Word, (x &&& 3).toNat = x.toNat % 4 := fun x => Nat.and_two_pow_sub_one_eq_mod x.toNat 2
  rw [BitVec.lt_def, hlow, hlow]

theorem regZ_s16 (s : State) (r : Gpr) : (s.regZ .s16 r).toNat % 4 = (s.reg r).toNat % 4 := by
  show (((s.reg r).setWidth 16).setWidth 32).toNat % 4 = _
  rw [BitVec.toNat_setWidth, BitVec.toNat_setWidth]
  omega

/-- Settles O49. -/
theorem pointerChecks : Obligations.PointerChecks := by
  unfold Obligations.PointerChecks
  refine ⟨?_, ?_, ?_⟩
  · intro z r o s hs hm hok sel hlook
    have hl := State.lockOk_of_plain hs false
    constructor
    · have hv := Gives.visibleDesc Desc.larType hlook
      cases hd : (s.lookup sel).filter fun d => d.larType && d.visible s.cpl sel with
      | none =>
        rw [hd] at hv
        exact done_of_givesFlags (i := .lar z r o) rfl hl ((Gives.requireProtected hm).bind_flags ((Gives.read hok).bind_flags
          (hv.bind_flags (.putZf false s)))) (.refl s) (.refl s)
      | some d =>
        rw [hd] at hv
        have hb : LeadsFlags (requireProtected >>= fun _ => (o.place z).read >>= fun v =>
            visibleDesc Desc.larType (lowHalf v) >>= fun x => match x with
              | none => putFlag 6 false
              | some d => rightsOf z d >>= fun v => putRegZ z r v >>= fun _ => putFlag 6 true) s fun u f =>
            f = zfOnly true ∧ ∃ v, v &&& 0xFFF0FFFF = d.hi &&& rightsMask z ∧
              u = s.setRegZ z r v :=
          (Gives.requireProtected hm).bind_leadsFlags ((Gives.read hok).bind_leadsFlags (hv.bind_leadsFlags
            ((Leads.rightsOf z d s).bind_flags fun v u hu => by
              obtain ⟨hrights, rfl⟩ := hu
              exact ((Gives.putRegZ z r v u).bind_flags (.putZf true _)).leads ⟨rfl, v, hrights, rfl⟩)))
        obtain ⟨_, _, ⟨rfl, v, hrights, rfl⟩, hdone⟩ := done_of_leadsFlags (i := .lar z r o) (regs := [r]) (stored := noByte)
          rfl hl hb fun u f hu => by
            obtain ⟨-, v, -, rfl⟩ := hu
            exact ⟨.setRegZ z r v s, .setRegZ z r v s⟩
        exact ⟨v, by cases z <;> exact hrights, hdone⟩
    · have hv := Gives.visibleDesc Desc.lslType hlook
      cases hd : (s.lookup sel).filter fun d => d.lslType && d.visible s.cpl sel with
      | none =>
        rw [hd] at hv
        exact done_of_givesFlags (i := .lsl z r o) rfl hl ((Gives.requireProtected hm).bind_flags ((Gives.read hok).bind_flags
          (hv.bind_flags (.putZf false s)))) (.refl s) (.refl s)
      | some d =>
        rw [hd] at hv
        exact done_of_givesFlags (i := .lsl z r o) rfl hl ((Gives.requireProtected hm).bind_flags ((Gives.read hok).bind_flags
          (hv.bind_flags ((Gives.putRegZ z r _ s).bind_flags (.putZf true _))))) (.setRegZ z r _ s) (.setRegZ z r _ s)
  · intro o s hs hm hok sel hlook
    have hl := State.lockOk_of_plain hs false
    exact ⟨done_of_givesFlags rfl hl (verify_gives hm hok hlook) (.refl s) (.refl s),
      done_of_givesFlags rfl hl (verify_gives hm hok hlook) (.refl s) (.refl s)⟩
  · intro o r s hs hm hok e v
    have hl := State.lockOk_of_plain hs false
    obtain ⟨l, hloc, hget, hput⟩ := Gives.loc hok
    have hv : v.toNat < 2 ^ 16 := Sys2Proof.Machine.Rm.value_lt o .s16 s
    have hb : ∀ {w f}, GivesFlags (if v &&& 3 < s.regZ .s16 r &&& 3 then
        (l.put ((v &&& 0xFFFC) ||| (s.regZ .s16 r &&& 3)) >>= fun _ => putFlag 6 true) else putFlag 6 false) s w f →
        GivesFlags (requireProtected >>= fun _ => getRegZ .s16 r >>= fun src => o.place16.loc .rmw >>= fun l => l.get >>= fun v =>
          if v &&& 3 < src &&& 3 then l.put ((v &&& 0xFFFC) ||| (src &&& 3)) >>= fun _ => putFlag 6 true
          else putFlag 6 false) s w f := fun h =>
      (Gives.requireProtected hm).bind_flags ((Gives.getRegZ .s16 r s).bind_flags (hloc.bind_flags (hget.bind_flags h)))
    have hcond := low_lt v (s.regZ .s16 r)
    rw [regZ_s16] at hcond
    split
    next hlt =>
      rw [← regZ_s16, ← and_mask_eq hv]
      rw [if_pos (hcond.2 hlt)] at hb
      exact done_of_givesFlags rfl hl (hb ((hput _).bind_flags (.putZf true _))) (.store e s _) (Spot.store_frame e s _)
    next hlt =>
      rw [if_neg (fun h => hlt (hcond.1 h))] at hb
      exact done_of_givesFlags rfl hl (hb (.putZf false s)) (.refl s) (.refl s)

end Sys2Proof.Machine

/-!
String instructions: one iteration, alone and repeated (O33, O34).
-/
namespace Sys2Proof.Machine

variable {s u : State}

/-! Flags that an image keeps. -/

theorem FlagsOut.image_other (f : FlagsOut) (v free : Word) {i : Nat} (hi : i ∉ [0, 2, 4, 6, 7, 11]) :
    bit (f.image v free) i = bit v i := by
  simp only [List.mem_cons, List.not_mem_nil, or_false, not_or] at hi
  obtain ⟨h0, h2, h4, h6, h7, h11⟩ := hi
  unfold FlagsOut.image
  rw [bit_putBit_ne _ _ h0, bit_putBit_ne _ _ h2, bit_putBit_ne _ _ h4, bit_putBit_ne _ _ h6, bit_putBit_ne _ _ h7,
    bit_putBit_ne _ _ h11]

theorem FlagsOut.image_zf (f : FlagsOut) (v free : Word) : bit (f.image v free) 6 = f.zf.resolve (bit v 6) (bit free 6) := by
  unfold FlagsOut.image
  rw [bit_putBit_ne _ _ (by decide), bit_putBit_ne _ _ (by decide), bit_putBit_ne _ _ (by decide),
    bit_putBit_same _ _ (by decide)]

/-- After the flags, what does not look at the status flags. -/
theorem GivesFlags.then {m : M Unit} {k : Unit → M Unit} {v : State} {f : FlagsOut} (h : GivesFlags m s u f)
    (hv : v.eflags = u.eflags)
    (hk : ∀ fl, bit fl 10 = bit u.eflags 10 → Gives (k ()) { u with eflags := fl } () { v with eflags := fl }) :
    GivesFlags (m >>= k) s v f := by
  intro t ht
  obtain ⟨w, n, hm, hw⟩ := h t ht
  obtain ⟨x, hx, hnx⟩ := hk _ (f.image_other u.eflags (Config.freeWord n) (by decide)) w hw
  refine ⟨x, n, (M.bind_ok _ hm).trans hx, ?_⟩
  rw [hv]
  exact hnx

/-! Elements. -/

theorem Gives.stepIndex (a : Sz) (r : Gpr) (n : Width) (s : State) : Gives (stepIndex a r n) s () (s.stepped a r n) :=
  (Gives.getRegZ a r s).bind ((Gives.look s fun _ _ _ => rfl).bind (.putRegZ a r _ s))

theorem stepped_eflags (a : Sz) (r : Gpr) (n : Width) (s : State) {fl : Word} (h : bit fl 10 = bit s.eflags 10) :
    ({ s with eflags := fl } : State).stepped a r n = { s.stepped a r n with eflags := fl } := by
  have hdf : ({ s with eflags := fl } : State).df = s.df := h
  unfold State.stepped
  rw [hdf]
  cases a <;> rfl

theorem Still.stepped (a : Sz) (r : Gpr) (n : Width) (s : State) : Still s (s.stepped a r n) := .setRegZ a r _ s
theorem Frame.stepped (a : Sz) (r : Gpr) (n : Width) (s : State) {stored : Nat → Bool} :
    Frame s (s.stepped a r n) [r] stored := .setRegZ a r _ s

theorem Gives.readSource {a : Sz} {n : Width} (h : (s.source a n).ok s .read = true) :
    Gives (readSource a n) s ((s.source a n).value s) s :=
  .look_bind (fun _ _ _ => rfl) ((Gives.getRegZ a .si s).bind (.memRead h))

theorem Gives.readDest {a : Sz} {n : Width} (h : (s.dest a n).ok s .read = true) :
    Gives (readDest a n) s ((s.dest a n).value s) s := (Gives.getRegZ a .di s).bind (.memRead h)

theorem Gives.writeDest {a : Sz} {n : Width} (v : Word) (h : (s.dest a n).ok s .write = true) :
    Gives (writeDest a n v) s () ((s.dest a n).store s v) := (Gives.getRegZ a .di s).bind (.memWrite v h)

/-! Repetition. -/

/-- What one element does, of a body that is run once. -/
def Element (once : M Unit) (ok : State → Bool) (next : State → State → Prop) (flags : State → FlagsOut) (regs : List Gpr)
    (stored : State → Nat → Bool) : Prop :=
  ∀ s, ok s = true → LeadsFlags once s fun u f => f = flags s ∧ next s u ∧ Still s u ∧ Frame s u regs (stored s)

section
variable {i : Instr} {a : Sz} {testsZf : Bool} {once : M Unit} {ok : State → Bool} {next : State → State → Prop}
  {flags : State → FlagsOut} {regs : List Gpr} {stored : State → Nat → Bool}

/-- The part of `repeated` after an element. -/
def afterElement (a : Sz) (testsZf : Bool) (k : RepKind) (c : Word) : M Ending := do
  let left := truncZ a (c - 1)
  putRegZ a .cx left
  let zf ← look (·.zf)
  let ends := match k with
    | .rep => testsZf && !zf
    | .repne => testsZf && zf
  return if left == 0 || ends then .next else .again

theorem repeated_none (h : s.pfx.rep = none) : repeated a testsZf once s = thenNext once s := by
  unfold repeated
  rw [M.look_bind, h]
  rfl

theorem repeated_zero {k : RepKind} (h : s.pfx.rep = some k) (hc : s.regZ a .cx = 0) :
    repeated a testsZf once s = .ok .next s := by
  unfold repeated
  rw [M.look_bind, h]
  show (if s.regZ a .cx == 0 then _ else _ : M Ending) s = _
  rw [hc]
  rfl

theorem repeated_some {k : RepKind} (h : s.pfx.rep = some k) (hc : s.regZ a .cx ≠ 0) :
    repeated a testsZf once s = (once >>= fun _ => afterElement a testsZf k (s.regZ a .cx)) s := by
  unfold repeated
  rw [M.look_bind, h]
  show (if s.regZ a .cx == 0 then _ else _ : M Ending) s = _
  rw [if_neg (by simpa using hc)]
  rfl

/-- How an element ends, with ZF as it leaves it. -/
def elementEnding (a : Sz) (testsZf : Bool) (k : RepKind) (s : State) (zf : Bool) : Ending :=
  if repEnds a testsZf k s zf then .next else .again

theorem afterElement_apply (k : RepKind) (t : State) : afterElement a testsZf k (s.regZ a .cx) t =
    .ok (elementEnding a testsZf k s t.zf) (t.setRegZ a .cx (truncZ a (s.regZ a .cx - 1))) := by
  have hzf : (t.setRegZ a .cx (truncZ a (s.regZ a .cx - 1))).zf = t.zf := by cases a <;> rfl
  rw [← hzf]
  rfl

/-- ZF is as the flags say where the repetition looks at it. -/
theorem elementEnding_zf {k : RepKind} {f : FlagsOut} {free : Word} (hzf : testsZf = true → f.zf ≠ .free) :
    elementEnding a testsZf k s (bit (f.image s.eflags free) 6) = elementEnding a testsZf k s (f.zfAfter s) := by
  rw [FlagsOut.image_zf]
  cases htest : testsZf with
  | false => cases k <;> rfl
  | true =>
    have hne := hzf htest
    unfold FlagsOut.zfAfter
    cases hf : f.zf with
    | free => exact absurd hf hne
    | keep | put b => rfl

theorem repeats_of_element (hi : ∀ s, exec i s = runInstr false (repeated a testsZf once) s)
    (hel : Element once ok next flags regs stored) (hzf : testsZf = true → ∀ s, (flags s).zf ≠ .free) :
    Repeats i a testsZf ok next flags regs stored := by
  intro s hs
  have hl := State.lockOk_of_plain hs false
  cases hrep : s.pfx.rep with
  | none =>
    intro hok
    have hi' : exec i s = runInstr false (thenNext once) s := by
      rw [hi, runInstr, runInstr, repeated_none hrep]
    obtain ⟨u, f, ⟨rfl, hnext, -⟩, hdone⟩ := done_of_leadsFlags (regs := regs) (stored := stored s) hi' hl (hel s hok)
      fun u f hu => hu.2.2
    exact ⟨u, hnext, hdone⟩
  | some k =>
    show if s.regZ a .cx = 0 then _ else _
    split
    next hc => exact done_of_ends (e := .next) (hi s) hl rfl rfl ⟨s, repeated_zero hrep hc, .refl s⟩ (.refl s) (.refl s)
    next hc =>
      intro hok
      obtain ⟨u, f, ⟨rfl, hnext, hst, hfr⟩, w, n, hw, hn⟩ := hel s hok s (.refl s)
      refine ⟨u, hnext, ?_⟩
      have hfl : w.eflags = (flags s).image s.eflags (Config.freeWord n) := by
        rw [← hst.eflags]
        exact hn.look State.eflags fun _ _ _ => rfl
      have hrun : repeated a testsZf once s = .ok (elementEnding a testsZf k s ((flags s).zfAfter s))
          (w.setRegZ a .cx (truncZ a (s.regZ a .cx - 1))) := by
        rw [repeated_some hrep hc, M.bind_ok _ hw, afterElement_apply, State.zf, hfl, elementEnding_zf fun h => hzf h s]
      have hnv : Noted { u.setRegZ a .cx (truncZ a (s.regZ a .cx - 1)) with
          eflags := (flags s).image u.eflags (Config.freeWord n) } (w.setRegZ a .cx (truncZ a (s.regZ a .cx - 1))) := by
        have hmap := hn.map (fun t => t.setRegZ a .cx (truncZ a (s.regZ a .cx - 1))) fun _ _ _ => by cases a <;> rfl
        cases a <;> exact hmap
      have hframe : Frame s (u.setRegZ a .cx (truncZ a (s.regZ a .cx - 1))) (.cx :: regs) (stored s) :=
        (hfr.mono (fun _ h => List.mem_cons_of_mem _ h) fun _ h => h).trans
          ((Frame.setRegZ a .cx _ u).mono (by simp) fun _ h => h)
      have hstill := hst.trans (.setRegZ a .cx (truncZ a (s.regZ a .cx - 1)) u)
      rw [hst.eflags] at hnv
      unfold elementEnding at hrun
      dsimp only
      split
      next hend =>
        rw [if_pos hend] at hrun
        obtain ⟨t, ht, hlike, heip, hflt, hft⟩ := doneFlags_of_ends (e := .next) (hi s) hl rfl ⟨_, hrun, hnv⟩ hstill
          (FlagsOut.image_vm _ _ _) hframe
        exact ⟨t, ht, hlike, heip, by rw [hflt]; exact FlagsOut.image_allows _ _ _, hft⟩
      next hend =>
        rw [if_neg hend] at hrun
        obtain ⟨t, ht, hlike, heip, hflt⟩ := exec_of_run (hi s) hl (by decide) hrun hnv
        have hlike' : Like t (u.setRegZ a .cx (truncZ a (s.regZ a .cx - 1))) :=
          Like.of_sets (x := (u.setRegZ a .cx (truncZ a (s.regZ a .cx - 1))).eip) hlike
        have hflt' : t.eflags = (flags s).image s.eflags (Config.freeWord n) := hflt
        refine ⟨t, ht, hlike', heip.trans hstill.eip, hframe.of_like hlike', ?_, ?_⟩
        · rw [hflt']
          exact FlagsOut.image_allows _ _ _
        · rw [hflt']
          exact FlagsOut.image_other _ _ _ (by decide)

end

/-! MOVS, LODS, STOS (O33). -/

theorem Element.of_gives {once : M Unit} {ok : State → Bool} {v : State → State} {regs : List Gpr}
    {stored : State → Nat → Bool}
    (h : ∀ s, ok s = true → Gives once s () (v s) ∧ Still s (v s) ∧ Frame s (v s) regs (stored s)) :
    Element once ok (fun s u => u = v s) (fun _ => .same) regs stored := by
  intro s hok
  obtain ⟨hg, hst, hfr⟩ := h s hok
  exact hg.flags.leads ⟨rfl, rfl, hst, hfr⟩

theorem Frame.steppedBoth (a : Sz) (n : Width) (s : State) {stored : Nat → Bool} :
    Frame s ((s.stepped a .si n).stepped a .di n) [.si, .di] stored :=
  ((Frame.stepped a .si n s).mono (by simp) fun _ h => h).trans ((Frame.stepped a .di n _).mono (by simp) fun _ h => h)

theorem dest_frame (a : Sz) (n : Width) (v : Word) (s : State) (regs : List Gpr) :
    Frame s ((s.dest a n).store s v) regs ((s.dest a n).covers s) :=
  (Spot.store_frame (s.dest a n) s v).mono (fun _ h => by cases h) fun _ h => h

theorem movs_element (a : Sz) (n : Width) :
    Element (movsOnce a n) (fun s => (s.source a n).ok s .read && (s.dest a n).ok s .write)
      (fun s u => u = ((((s.dest a n).store s ((s.source a n).value s)).stepped a .si n).stepped a .di n))
      (fun _ => .same) [.si, .di] (fun s => (s.dest a n).covers s) :=
  .of_gives fun s hok => by
    obtain ⟨hsrc, hdst⟩ := Bool.and_eq_true_iff.1 hok
    exact ⟨(Gives.readSource hsrc).bind ((Gives.writeDest _ hdst).bind ((Gives.stepIndex a .si n _).bind (.stepIndex a .di n _))),
      (Still.store _ s _).trans ((Still.stepped a .si n _).trans (.stepped a .di n _)),
      (dest_frame a n _ s _).trans (.steppedBoth a n _)⟩

theorem Still.setAcc (n : Width) (v : Word) (s : State) : Still s (s.setAcc n v) := by
  cases n <;> exact ⟨rfl, rfl, rfl, rfl, rfl⟩

theorem Frame.setAcc (n : Width) (v : Word) (s : State) {stored : Nat → Bool} : Frame s (s.setAcc n v) [.ax] stored := by
  cases n with
  | b => exact .setReg8 .al _ s
  | w => exact .setRegZ .s16 .ax _ s
  | d => exact .setRegZ .s32 .ax _ s

theorem lods_element (a : Sz) (n : Width) :
    Element (lodsOnce a n) (fun s => (s.source a n).ok s .read)
      (fun s u => u = (s.setAcc n ((s.source a n).value s)).stepped a .si n) (fun _ => .same) [.ax, .si] (fun _ => noByte) :=
  .of_gives fun s hok =>
    ⟨(Gives.readSource hok).bind ((putAccW_gives n _ s).bind (.stepIndex a .si n _)),
      (Still.setAcc n _ s).trans (.stepped a .si n _),
      ((Frame.setAcc n _ s).mono (by simp) fun _ h => h).trans ((Frame.stepped a .si n _).mono (by simp) fun _ h => h)⟩

theorem stos_element (a : Sz) (n : Width) :
    Element (stosOnce a n) (fun s => (s.dest a n).ok s .write)
      (fun s u => u = ((s.dest a n).store s (s.pairLow n)).stepped a .di n) (fun _ => .same) [.di]
      (fun s => (s.dest a n).covers s) :=
  .of_gives fun s hok =>
    ⟨(accW_gives n s).bind ((Gives.writeDest _ hok).bind (.stepIndex a .di n _)),
      (Still.store _ s _).trans (.stepped a .di n _), (dest_frame a n _ s _).trans (.stepped a .di n _)⟩

/-- Settles O33. -/
theorem stringMoves : Obligations.StringMoves := by
  unfold Obligations.StringMoves
  intro z a
  exact ⟨repeats_of_element (fun _ => rfl) (movs_element a .b) (by simp),
    repeats_of_element (fun _ => rfl) (movs_element a z.width) (by simp),
    repeats_of_element (fun _ => rfl) (lods_element a .b) (by simp),
    repeats_of_element (fun _ => rfl) (lods_element a z.width) (by simp),
    repeats_of_element (fun _ => rfl) (stos_element a .b) (by simp),
    repeats_of_element (fun _ => rfl) (stos_element a z.width) (by simp)⟩

/-! CMPS, SCAS (O34). -/

theorem cmps_element (a : Sz) (n : Width) :
    Element (cmpsOnce a n) (fun s => (s.source a n).ok s .read && (s.dest a n).ok s .read)
      (fun s u => u = (s.stepped a .si n).stepped a .di n)
      (fun s => (subRes n ((s.source a n).value s) ((s.dest a n).value s) false).flags) [.si, .di] (fun _ => noByte) := by
  intro s hok
  obtain ⟨hsrc, hdst⟩ := Bool.and_eq_true_iff.1 hok
  have hb : GivesFlags (cmpsOnce a n) s ((s.stepped a .si n).stepped a .di n)
      (subRes n ((s.source a n).value s) ((s.dest a n).value s) false).flags :=
    (Gives.readSource hsrc).bind_flags ((Gives.readDest hdst).bind_flags ((GivesFlags.putFlags _ s).then
      ((Still.stepped a .si n s).trans (.stepped a .di n _)).eflags fun fl hfl => by
        have hsi := stepped_eflags a .si n s hfl
        have hdi : ({ s.stepped a .si n with eflags := fl } : State).stepped a .di n = _ :=
          stepped_eflags a .di n (s.stepped a .si n) (by rw [(Still.stepped a .si n s).eflags]; exact hfl)
        rw [← hdi, ← hsi]
        exact (Gives.stepIndex a .si n _).bind (.stepIndex a .di n _)))
  exact hb.leads ⟨rfl, rfl, (Still.stepped a .si n s).trans (.stepped a .di n _), .steppedBoth a n s⟩

theorem scas_element (a : Sz) (n : Width) :
    Element (scasOnce a n) (fun s => (s.dest a n).ok s .read) (fun s u => u = s.stepped a .di n)
      (fun s => (subRes n (s.pairLow n) ((s.dest a n).value s) false).flags) [.di] (fun _ => noByte) := by
  intro s hok
  have hb : GivesFlags (scasOnce a n) s (s.stepped a .di n) (subRes n (s.pairLow n) ((s.dest a n).value s) false).flags :=
    (Gives.readDest hok).bind_flags ((accW_gives n s).bind_flags ((GivesFlags.putFlags _ s).then
      (Still.stepped a .di n s).eflags fun fl hfl => by
        rw [← stepped_eflags a .di n s hfl]
        exact .stepIndex a .di n _))
  exact hb.leads ⟨rfl, rfl, .stepped a .di n s, .stepped a .di n s⟩

/-- Settles O34. -/
theorem stringCompares : Obligations.StringCompares := by
  unfold Obligations.StringCompares
  intro z a
  have hzf : ∀ (n : Width) (x y : Word), (subRes n x y false).flags.zf ≠ .free := fun n x y => nofun
  exact ⟨repeats_of_element (fun _ => rfl) (cmps_element a .b) fun _ _ => hzf _ _ _,
    repeats_of_element (fun _ => rfl) (cmps_element a z.width) fun _ _ => hzf _ _ _,
    repeats_of_element (fun _ => rfl) (scas_element a .b) fun _ _ => hzf _ _ _,
    repeats_of_element (fun _ => rfl) (scas_element a z.width) fun _ _ => hzf _ _ _⟩

end Sys2Proof.Machine

/-!
Ports: IN and OUT, INS and OUTS, with the I/O permission map (O35, O43).
-/
namespace Sys2Proof.Machine

variable {s u : State} {port : Nat} {n : Width}

/-! The permission. -/

theorem Width.bytes_le (n : Width) : n.bytes ≤ 4 := by cases n <;> decide

theorem ioFree_iff (s : State) : (s.pe && (s.vm || decide (s.iopl < s.cpl.toNat))) = !s.ioFree := by
  rw [State.ioFree, Bool.not_not]

theorem checkIo_apply (port n : Nat) (s : State) : checkIo port n s =
    (if s.ioFree then pure () else ioPermission port n >>= fun ok => require ok 13 (some 0)) s := by
  show (if (s.pe && (s.vm || decide (s.iopl < s.cpl.toNat))) = true then _ else _ : M Unit) s = _
  rw [ioFree_iff]
  cases s.ioFree <;> rfl

theorem checkIo_ok (h : s.ioOk port n.bytes = true) : checkIo port n.bytes s = .ok () s := by
  rw [checkIo_apply]
  cases hf : s.ioFree with
  | true => rfl
  | false =>
    simp only [State.ioOk, hf, Bool.false_or, Bool.and_eq_true] at h
    exact (M.bind_ok _ (ioPermission_ok (Width.bytes_le n) h.1)).trans (M.require_pass h.2)

theorem checkIo_denied (h : s.ioDenied port n.bytes = true) :
    checkIo port n.bytes s = .error (.exc (faultOf 13 (some 0))) s := by
  simp only [State.ioDenied, Bool.and_eq_true, Bool.not_eq_true'] at h
  obtain ⟨⟨hf, hflat⟩, hgrants⟩ := h
  rw [checkIo_apply, hf]
  exact (M.bind_ok _ (ioPermission_ok (Width.bytes_le n) hflat)).trans (M.require_fail hgrants)

theorem Gives.checkIo (h : s.ioOk port n.bytes = true) : Gives (checkIo port n.bytes) s () s := by
  rintro t ⟨tr, k, rfl⟩
  exact ⟨_, checkIo_ok (s := { s with traps := tr, draws := k }) h, tr, k, rfl⟩

/-! The ports. -/

theorem Leads.portRead (port : Nat) (n : Width) (s : State) : Leads (portRead port n) s fun v u =>
    truncW n v = v ∧ u = s.told (.portRead port n v) := by
  intro t ht
  refine ⟨_, _, _, rfl, ?_, truncW_of_lt (truncW_lt n (Config.portIn t.draws)), rfl⟩
  obtain ⟨tr, k, rfl⟩ := ht
  exact ⟨tr, k + 1, rfl⟩

theorem Gives.portWrite (port : Nat) (n : Width) (v : Word) (s : State) :
    Gives (portWrite port n v) s () (s.told (.portWrite port n v)) := .upd (fun _ _ _ => rfl) s

theorem Gives.portDx (s : State) : Gives portDx s (s.regZ .s16 .dx).toNat s := (Gives.getRegZ .s16 .dx s).bind (.pure _ s)

theorem Gives.portOf (p : Port) (s : State) : Gives (portOf p) s (portNumber p s) s := by
  cases p with
  | imm b => exact .pure _ s
  | dx => exact .portDx s

theorem Still.told (e : Event) (s : State) : Still s (s.told e) := ⟨rfl, rfl, rfl, rfl, rfl⟩
theorem Frame.told (e : Event) (s : State) {regs : List Gpr} {stored : Nat → Bool} : Frame s (s.told e) regs stored :=
  ⟨fun _ _ => rfl, fun _ _ => rfl⟩

theorem portOf_apply (p : Port) (s : State) : portOf p s = .ok (portNumber p s) s := by cases p <;> rfl

/-- Settles O43. -/
theorem ports : Obligations.Ports := by
  unfold Obligations.Ports
  intro n p s hs port
  have hl := State.lockOk_of_plain hs false
  refine ⟨fun hok => ⟨?_, ?_⟩, fun hd => ?_⟩
  · have hb : Leads (portOf p >>= fun port => checkIo port n.bytes >>= fun _ => portRead port n >>= fun v => putAccW n v) s
        fun _ u => ∃ v, truncW n v = v ∧ u = (s.told (.portRead port n v)).setAcc n v :=
      (Gives.portOf p s).bind_leads ((Gives.checkIo hok).bind_leads ((Leads.portRead port n s).bind fun v u hu => by
        obtain ⟨hv, rfl⟩ := hu
        exact (putAccW_gives n v _).leads ⟨v, hv, rfl⟩))
    obtain ⟨_, ⟨v, hv, rfl⟩, hdone⟩ := done_of_leads (i := .inp n p) (regs := [.ax]) (stored := noByte) rfl hl hb fun u hu => by
      obtain ⟨v, -, rfl⟩ := hu
      exact ⟨(Still.told _ s).trans (.setAcc n v _), (Frame.told _ s).trans (.setAcc n v _)⟩
    exact ⟨v, hv, hdone⟩
  · exact done_of_gives rfl hl ((Gives.portOf p s).bind ((Gives.checkIo hok).bind ((accW_gives n s).bind
      (.portWrite _ n _ s)))) (.told _ s) (.told _ s)
  · have fault : ∀ {i : Instr} {k : Nat → Unit → M Unit},
        exec i s = runInstr false (thenNext (portOf p >>= fun port => checkIo port n.bytes >>= k port)) s →
        exec i s = takeEvent (faultOf 13 (some 0)) s.eip s := fun {i k} hi =>
      exec_fault hi (State.lockOk_lock hl) rfl ((M.bind_ok _ (portOf_apply p s)).trans (M.bind_stop _ (checkIo_denied hd)))
    exact ⟨fault (k := fun port _ => portRead port n >>= fun v => putAccW n v) rfl,
      fault (k := fun port _ => accW n >>= fun v => portWrite port n v) rfl⟩

/-! INS, OUTS (O35). -/

/-- What the host is told does not matter to the element. -/
theorem told_element (a : Sz) (n : Width) (v : Word) (e : Event) (s : State) :
    (((s.told e).dest a n).store (s.told e) v).stepped a .di n = (((s.dest a n).store s v).stepped a .di n).told e := by
  cases a <;> rfl

theorem ins_element (a : Sz) (n : Width) :
    Element (insOnce a n) (fun s => s.ioOk (s.regZ .s16 .dx).toNat n.bytes && (s.dest a n).ok s .write)
      (fun s u => ∃ v, truncW n v = v ∧
        u = (((s.dest a n).store s v).stepped a .di n).told (.portRead (s.regZ .s16 .dx).toNat n v))
      (fun _ => .same) [.di] (fun s => (s.dest a n).covers s) := by
  intro s hok
  obtain ⟨hio, hdst⟩ := Bool.and_eq_true_iff.1 hok
  have hdest : ∀ e, ((s.told e).dest a n).ok (s.told e) .write = true := fun e => by cases a <;> exact hdst
  refine (Gives.portDx s).bind_leadsFlags ((Gives.checkIo hio).bind_leadsFlags ((Leads.portRead _ n s).bind_flags ?_))
  rintro v _ ⟨hv, rfl⟩
  have hb : Gives (writeDest a n v >>= fun _ => stepIndex a .di n) (s.told (.portRead (s.regZ .s16 .dx).toNat n v)) () _ :=
    (Gives.writeDest v (hdest _)).bind (.stepIndex a .di n _)
  rw [told_element] at hb
  exact hb.flags.leads ⟨rfl, ⟨v, hv, rfl⟩, (Still.store _ s v).trans ((Still.stepped a .di n _).trans (.told _ _)),
    (dest_frame a n v s _).trans ((Frame.stepped a .di n _).trans (.told _ _))⟩

theorem told_stepped (a : Sz) (r : Gpr) (n : Width) (e : Event) (s : State) :
    (s.told e).stepped a r n = (s.stepped a r n).told e := by cases a <;> rfl

theorem outs_element (a : Sz) (n : Width) :
    Element (outsOnce a n) (fun s => s.ioOk (s.regZ .s16 .dx).toNat n.bytes && (s.source a n).ok s .read)
      (fun s u => u = (s.stepped a .si n).told (.portWrite (s.regZ .s16 .dx).toNat n ((s.source a n).value s)))
      (fun _ => .same) [.si] (fun _ => noByte) :=
  .of_gives fun s hok => by
    obtain ⟨hio, hsrc⟩ := Bool.and_eq_true_iff.1 hok
    refine ⟨?_, (Still.stepped a .si n s).trans (.told _ _), (Frame.stepped a .si n s).trans (.told _ _)⟩
    rw [← told_stepped]
    exact (Gives.portDx s).bind ((Gives.checkIo hio).bind ((Gives.readSource hsrc).bind ((Gives.portWrite _ n _ s).bind
      (.stepIndex a .si n _))))

/-- An element whose ports are denied. -/
theorem repeated_fault {i : Instr} {a : Sz} {testsZf : Bool} {once : M Unit} {f : Exc} (hs : s.plain = true)
    (hi : exec i s = runInstr false (repeated a testsZf once) s) (hf : f.committed = false)
    (hone : once s = .error (.exc f) s) (hc : s.pfx.rep = none ∨ s.regZ a .cx ≠ 0) : exec i s = takeEvent f s.eip s := by
  refine exec_fault_rollback hi (State.lockOk_of_plain hs false) hf (u := s) ?_ rfl
  cases hrep : s.pfx.rep with
  | none =>
    rw [repeated_none hrep]
    exact M.bind_stop _ hone
  | some k =>
    rw [repeated_some hrep (hc.resolve_left (by rw [hrep]; nofun))]
    exact M.bind_stop _ hone

theorem ins_denied (a : Sz) (h : s.ioDenied (s.regZ .s16 .dx).toNat n.bytes = true) :
    insOnce a n s = .error (.exc (faultOf 13 (some 0))) s :=
  (M.bind_ok _ (portOf_apply .dx s)).trans (M.bind_stop _ (checkIo_denied h))

theorem outs_denied (a : Sz) (h : s.ioDenied (s.regZ .s16 .dx).toNat n.bytes = true) :
    outsOnce a n s = .error (.exc (faultOf 13 (some 0))) s :=
  (M.bind_ok _ (portOf_apply .dx s)).trans (M.bind_stop _ (checkIo_denied h))

/-- Settles O35. -/
theorem stringPorts : Obligations.StringPorts := by
  unfold Obligations.StringPorts
  intro z a
  exact ⟨repeats_of_element (fun _ => rfl) (ins_element a .b) (by simp),
    repeats_of_element (fun _ => rfl) (ins_element a z.width) (by simp),
    repeats_of_element (fun _ => rfl) (outs_element a .b) (by simp),
    repeats_of_element (fun _ => rfl) (outs_element a z.width) (by simp),
    fun s hs hd hc => repeated_fault hs rfl rfl (ins_denied (n := .b) a hd) hc,
    fun s hs hd hc => repeated_fault hs rfl rfl (ins_denied (n := z.width) a hd) hc,
    fun s hs hd hc => repeated_fault hs rfl rfl (outs_denied (n := .b) a hd) hc,
    fun s hs hd hc => repeated_fault hs rfl rfl (outs_denied (n := z.width) a hd) hc⟩

end Sys2Proof.Machine

/-!
ENTER and LEAVE (O36).
-/
namespace Sys2Proof.Machine

variable {s t : State} {n : Width} {j : Nat}

/-- `t` has pushed `j` items of width `n` below the stack pointer of `s`, and changed nothing but them, EBP and ESP. -/
structure Descended (s t : State) (n : Width) (j : Nat) : Prop where
  seg : t.seg = s.seg
  below : ∀ d, t.stack.below d = s.stack.below (d + j * n.bytes)
  frame : Frame s t [.bp, .sp] (s.pushCovers n j)

theorem Descended.refl (s : State) (n : Width) : Descended s s n 0 :=
  ⟨rfl, fun d => by rw [Nat.zero_mul, Nat.add_zero], .refl s⟩

theorem Stack.below_pointer (k : Stack) (d e : Nat) :
    ({ k with esp := k.pointer (k.below d) } : Stack).below e = k.below (e + d) := by
  unfold Stack.below Stack.pointer
  cases hdb : k.seg.db with
  | true =>
    simp only [if_true]
    bv_omega
  | false =>
    simp only [Bool.false_eq_true, if_false, lowHalf_withLow, lowHalf_zext16]
    congr 1
    bv_omega

theorem pushed_below (t : State) (n : Width) (v : Word) (d : Nat) :
    (t.pushed n [v]).stack.below d = t.stack.below (d + n.bytes) :=
  (Stack.below_pointer t.stack (n.bytes * 1) d).trans (by rw [Nat.mul_one])

theorem Descended.push (h : Descended s t n j) (v : Word) : Descended s (t.pushed n [v]) n (j + 1) := by
  have hcovers : ∀ a, t.pushCovers n 1 a = (s.below n ((j + 1) * n.bytes)).covers s a := fun a => by
    have hb := h.below n.bytes
    rw [Nat.add_comm, ← Nat.succ_mul] at hb
    show ((t.below n (1 * n.bytes)).covers t a || false) = _
    rw [Bool.or_false, Nat.one_mul, State.below, State.below, hb]
    unfold Spot.covers State.physAt State.sreg
    rw [h.seg]
  refine ⟨h.seg, fun d => ?_, (h.frame.mono (fun _ h => h) fun a ha => ?_).trans
    ((State.pushed_frame t n [v]).mono (by simp) fun a ha => ?_)⟩
  · rw [pushed_below, h.below, Nat.succ_mul, Nat.add_assoc, Nat.add_comm n.bytes]
  · rw [State.pushCovers, List.range_succ, List.any_append, Bool.or_eq_false_iff] at ha
    exact ha.1
  · rw [State.pushCovers, List.range_succ, List.any_append, Bool.or_eq_false_iff] at ha
    have hlast : ((s.below n ((j + 1) * n.bytes)).covers s a || false) = false := ha.2
    rw [Bool.or_false] at hlast
    exact (hcovers a).trans hlast

theorem Descended.setBp (h : Descended s t n j) (z : Sz) (v : Word) : Descended s (t.setRegZ z .bp v) n j := by
  refine ⟨by cases z <;> exact h.seg, by cases z <;> exact h.below, h.frame.trans ((Frame.setRegZ z .bp v t).mono (by simp)
    fun _ h => h)⟩

/-! The display. -/

theorem copyDisplay_gives (z : Sz) : ∀ {k : Nat} {s : State}, canCopy z k s = true →
    Gives (copyDisplay z k) s () (copied z k s)
  | 0, s, _ => .pure () s
  | k + 1, s, h => by
    simp only [canCopy, Bool.and_eq_true] at h
    obtain ⟨⟨hread, hpush⟩, hrest⟩ := h
    exact (Gives.getRegZ z .bp s).bind ((Gives.putRegZ z .bp _ s).bind ((Gives.memRead hread).bind ((Gives.push _ hpush).bind
      (copyDisplay_gives z hrest))))

theorem copied_still (z : Sz) : ∀ (k : Nat) (s : State), Still s (copied z k s)
  | 0, s => .refl s
  | k + 1, _ => (Still.setRegZ z .bp _ _).trans ((Still.pushed _ _ _).trans (copied_still z k _))

theorem Descended.copied (z : Sz) : ∀ {k j : Nat} {s t : State}, Descended s t z.width j →
    Descended s (Machine.copied z k t) z.width (j + k)
  | 0, _, _, _, h => h
  | k + 1, j, s, t, h => by
    have hk : Descended s (Machine.copied z (k + 1) t) z.width (j + 1 + k) := Descended.copied z
      ((h.setBp z (truncZ z (t.regZ z .bp - BitVec.ofNat 32 z.width.bytes))).push _)
    rwa [Nat.add_right_comm] at hk

theorem pushDisplay_gives (z : Sz) {level : Nat} (h : canDisplay z level s = true) :
    Gives (pushDisplay z level s.gpr.esp) s () (displayed z level s) := by
  cases level with
  | zero => exact .pure () s
  | succ k =>
    obtain ⟨hcopy, hpush⟩ := Bool.and_eq_true_iff.1 h
    exact (copyDisplay_gives z hcopy).bind (.push _ hpush)

theorem displayed_still (z : Sz) (level : Nat) (s : State) : Still s (displayed z level s) := by
  cases level with
  | zero => exact .refl s
  | succ k => exact (copied_still z k s).trans (.pushed _ _ _)

theorem Descended.displayed (z : Sz) {level : Nat} (h : Descended s t z.width j) :
    Descended s (Machine.displayed z level t) z.width (j + level) := by
  cases level with
  | zero => exact h
  | succ k => exact (h.copied z).push _

/-- Settles O36. -/
theorem frames : Obligations.Frames := by
  unfold Obligations.Frames
  constructor
  · intro z size level s hs hpush hdisp
    have hl := State.lockOk_of_plain hs false
    have hd : Descended s (displayed z (level.toNat % 32) (s.pushed z.width [s.regZ z .bp])) z.width (level.toNat % 32 + 1) := by
      rw [Nat.add_comm]
      exact (((Descended.refl s z.width).push _)).displayed z
    refine done_of_gives rfl hl (u := entered z size (level.toNat % 32) s) ?_ ?_ ?_
    · exact (Gives.getRegZ z .bp s).bind ((Gives.push _ hpush).bind ((Gives.getReg .sp _).bind
        ((pushDisplay_gives z hdisp).bind ((Gives.putRegZ z .bp _ _).bind ((Gives.look _ fun _ _ _ => rfl).bind
          (.putReg .sp _ _))))))
    · exact (Still.pushed _ _ s).trans ((displayed_still z _ _).trans ((Still.setRegZ z .bp _ _).trans (.setReg .sp _ _)))
    · exact (hd.setBp z _).frame.trans ((Frame.setReg .sp _ _).mono (by simp) fun _ h => h)
  · intro z s hs hok
    refine done_of_gives rfl (State.lockOk_of_plain hs false) ?_
      ((Still.setReg .sp _ s).trans ((Still.popped _ s.atFrame).trans (.setRegZ z .bp _ _)))
      (((Frame.setReg .sp _ s).mono (by simp) fun _ h => h).trans (((State.popped_frame s.atFrame _).mono (by simp) fun _ h => h).trans
        ((Frame.setRegZ z .bp _ _).mono (by simp) fun _ h => h)))
    exact .look_id (fun _ _ => rfl) ((Gives.putReg .sp _ s).bind ((Gives.pop (s := s.atFrame) hok).bind (.putRegZ z .bp _ _)))

end Sys2Proof.Machine

/-!
Delivery of exceptions and interrupts: what an event that is taken leaves, delivery in real-address mode (O52), and an
interrupt table without entries (O55).
-/
namespace Sys2Proof.Machine

section
variable {s t u : State} {e f : Exc} {ret : Word}

theorem rollback_self (s : State) : rollback s s = s := rfl

theorem Noted.noTraps (s : State) : Noted s { s with traps := .none } := ⟨.none, s.draws, rfl⟩

/-- An event that is delivered (R730). -/
theorem deliverEvent_of_leads {Q : State → Prop} (n : Nat) (h : Leads (deliver e ret) s (fun _ u => Q u)) :
    ∃ t u, deliverEvent (n + 1) e ret { s with traps := .none } = .next t ∧ Q u ∧ Like t { u with activity := .running } ∧
      t.eip = u.eip ∧ t.eflags = u.eflags := by
  obtain ⟨b, w, u, hd, hn, hq⟩ := h _ (Noted.noTraps s)
  refine ⟨atBoundary w, u, ?_, hq, ?_, show w.eip = u.eip from hn.look State.eip fun _ _ _ => rfl,
    show w.eflags = u.eflags from hn.look State.eflags fun _ _ _ => rfl⟩
  · rw [deliverEvent, hd]
  · obtain ⟨tr, k, rfl⟩ := hn
    exact ⟨fun _ => rfl, fun _ => rfl, rfl, rfl, rfl, rfl, rfl, rfl, rfl, rfl, rfl, rfl, rfl, ⟨rfl, rfl⟩,
      ⟨rfl, rfl, rfl, rfl, rfl⟩, rfl, rfl, rfl⟩

/-- A delivery that fails with the state as before: the event the failure makes is taken (R735). -/
theorem deliverEvent_fault {n : Nat} (hd : deliver e ret s = .error (.exc f) s) (hf : f.committed = false)
    (he : e.kind ≠ .abort) :
    deliverEvent (n + 1) e ret s = deliverEvent n (if doubles e f then doubleFault else f) ret s := by
  have hk : (e.kind == EventKind.abort) = false := beq_false_of_ne he
  rw [deliverEvent, hd]
  simp only [hf, hk, Bool.false_eq_true, if_false, rollback_self]
  cases doubles e f <;> rfl

theorem deliverEvent_abort {n : Nat} (hd : deliver e ret s = .error (.exc f) s) (hf : f.committed = false)
    (he : e.kind = .abort) : deliverEvent (n + 1) e ret s = .next (enterShutdown s) := by
  rw [deliverEvent, hd]
  simp [hf, he, rollback_self]

/-! Real-address mode. -/

theorem Gives.pushItems {n : Width} (note : Bool) (code : Half) {vs : List Word} (h : s.canPush n vs.length = true) :
    Gives (pushItems s.stack n note code vs []) s () { s with mem := s.stacked n 0 vs s.mem } :=
  fun _ ht => pushItems_ok note code ht h

theorem deliver_real (hpe : s.pe = false) (h : Leads (deliverReal e ret) s (fun _ u => u = t)) :
    Leads (deliver e ret) s (fun _ u => u = t) :=
  (Gives.look (f := State.pe) s fun _ _ _ => rfl).bind_leads (by
    rw [hpe]
    exact h.bind fun _ u hu => (Gives.pure false u).leads hu)

theorem pe_of_realReady {v : Byte} (h : s.realReady v = true) : s.pe = false := by
  simp only [State.realReady, Bool.and_eq_true, Bool.not_eq_true'] at h
  obtain ⟨⟨⟨⟨hpe, -⟩, -⟩, -⟩, -⟩ := h
  exact hpe

theorem deliverReal_gives (h : s.realReady e.vec = true) : Gives (deliverReal e ret) s () (s.realEntered e.vec ret) := by
  simp only [State.realReady, Bool.and_eq_true, decide_eq_true_eq] at h
  obtain ⟨⟨⟨⟨-, htable⟩, hpush⟩, hoff⟩, hseg⟩ := h
  refine .look_id (fun _ _ => rfl) ?_
  rw [if_neg (Nat.not_lt.2 htable)]
  have hread : Gives (linRead (s.idtr.base + BitVec.ofNat 32 (4 * e.vec.toNat)) .w >>= fun off =>
      linRead (s.idtr.base + BitVec.ofNat 32 (4 * e.vec.toNat) + 2) .w >>= fun seg =>
      Machine.upd fun s => { s.setSreg .cs ((s.sreg .cs).loadRealCS (lowHalf seg)) with eip := off })
      (((s.pushed .w [fixReserved s.eflags, zext16 s.seg.cs.sel, ret]).setFlag 9 false).setFlag 8 false)
      () (s.realEntered e.vec ret) :=
    (Gives.linRead (s := ((s.pushed .w _).setFlag 9 false).setFlag 8 false) (n := .w) hoff).bind
      ((Gives.linRead (s := ((s.pushed .w _).setFlag 9 false).setFlag 8 false) (n := .w) hseg).bind (.upd (fun _ _ _ => rfl) _))
  exact (Gives.pushItems false 0 hpush).bind ((Gives.putReg .sp _ _).bind ((Gives.upd (fun _ _ _ => rfl) _).bind hread))

theorem deliver_beyond (hpe : s.pe = false) (h : s.idtr.limit.toNat < 4 * e.vec.toNat + 3) :
    deliver e ret s = .error (.exc doubleFault) s := by
  unfold deliver
  rw [M.look_bind, hpe]
  unfold deliverReal
  refine M.bind_stop _ ?_
  rw [M.look_bind]
  exact (congrFun (if_pos h) s).trans rfl

theorem realEntered_frame (s : State) (v : Byte) (ret : Word) :
    Frame s { s.realEntered v ret with activity := .running } [.sp] (s.pushCovers .w 3) :=
  have h := State.pushed_frame s .w [fixReserved s.eflags, zext16 s.seg.cs.sel, ret]
  ⟨h.regs, h.mem⟩

theorem enters_real (n : Nat) (h : s.realReady e.vec = true) :
    Enters (deliverEvent (n + 1) e ret { s with traps := .none }) s { s.realEntered e.vec ret with activity := .running } (s.realEntered e.vec ret).eflags := by
  have hpe : s.pe = false := pe_of_realReady h
  obtain ⟨t, u, ht, rfl, hl, heip, hfl⟩ :=
    deliverEvent_of_leads n (deliver_real hpe ((deliverReal_gives (ret := ret) h).leads rfl))
  exact ⟨t, ht, hl, heip, hfl, (realEntered_frame s e.vec ret).of_like hl⟩

/-- Settles O52. -/
theorem realDelivery : Obligations.RealDelivery := by
  unfold Obligations.RealDelivery
  refine ⟨fun e ret s h => enters_real 5 h, fun e ret s he hbeyond h => ?_⟩
  have hd := deliver_beyond (ret := ret) (s := { s with traps := .none }) (pe_of_realReady h) hbeyond
  rw [takeEvent, deliverEvent_fault hd rfl he, ite_self]
  exact enters_real 4 h

/-! An interrupt table without entries. -/

theorem deliver_empty (hpe : s.pe = true) (hl : s.idtr.limit.toNat < 7) :
    deliver e ret s = .error (.exc (faultOf 13 (some (idtCode e.vec e.kind.ext)))) s := by
  have hout : decide (8 * e.vec.toNat + 7 ≤ s.idtr.limit.toNat) = false := decide_eq_false (by omega)
  unfold deliver
  rw [M.look_bind, hpe]
  show deliverProtected e ret s = _
  unfold deliverProtected
  rw [M.look_bind]
  exact M.bind_stop _ (M.require_fail hout)

/-- With every delivery failing so, a fault is a #GP, then a double fault, then shutdown (R735, R749). -/
theorem deliverEvent_empty (hpe : s.pe = true) (hl : s.idtr.limit.toNat < 7) (n : Nat) :
    deliverEvent (n + 3) e ret s = .next (enterShutdown s) := by
  have hdouble (n : Nat) : deliverEvent (n + 1) doubleFault ret s = .next (enterShutdown s) :=
    deliverEvent_abort (deliver_empty hpe hl) rfl rfl
  by_cases he : e.kind = .abort
  · exact deliverEvent_abort (deliver_empty hpe hl) rfl he
  · rw [deliverEvent_fault (deliver_empty hpe hl) rfl he]
    split
    · exact hdouble (n + 1)
    · rw [deliverEvent_fault (deliver_empty hpe hl) rfl EventKind.noConfusion]
      exact hdouble n

/-- Settles O55. -/
theorem emptyTableShutsDown : Obligations.EmptyTableShutsDown := by
  unfold Obligations.EmptyTableShutsDown
  intro e ret s hpe hl
  exact deliverEvent_empty (s := { s with traps := .none }) hpe hl 3

end

end Sys2Proof.Machine

/-!
The order of events at an instruction boundary (O56).
-/
namespace Sys2Proof.Machine

section
variable {s : State}

theorem step_of_quiet (h : s.quiet = true) : step s = activeBoundary s := by
  simp only [State.quiet, Bool.and_eq_true, beq_iff_eq, Bool.not_eq_true'] at h
  obtain ⟨⟨⟨hp, hr⟩, hx⟩, ht⟩ := h
  simp [step, cycle, boundary, hp, hr, hx, ht]

theorem getLsbD_bits4 (f : Nat → Bool) {j : Nat} (hj : j < 4) : (bits4 f).getLsbD j = f j := by
  have flag (b : Bool) (c : BitVec 4) : (if b = true then c else 0).getLsbD j = (b && c.getLsbD j) := by cases b <;> simp
  unfold bits4
  simp only [BitVec.getLsbD_or, flag]
  interval_cases j <;> simp

/-! Breakpoints on instructions. -/

theorem instrMatch_defined {dr : Dregs} {lin free : Word} {j : Nat} (h : instrUndefined dr.dr7 j = false) :
    instrMatch dr lin free j = (dr7Rw dr.dr7 j == 0 && dr7Len dr.dr7 j == 0 && dr.addr j == lin) := by
  refine (if_neg (by rw [← instrUndefined, h]; decide)).trans ?_
  unfold instrUndefined at h
  cases hrw : dr7Rw dr.dr7 j == 0 with
  | false => rfl
  | true =>
    have hlen : dr7Len dr.dr7 j = 0 := (by simpa [hrw] using h : _ ∧ dr7Len dr.dr7 j = 0).2
    rw [hlen]
    rfl

theorem instrUndefined_of_breakpointAt {n : Nat} {lin : Word} (h : s.breakpointAt n lin = true) :
    instrUndefined s.dr.dr7 n = false := by
  simp only [State.breakpointAt, Bool.and_eq_true, beq_iff_eq] at h
  obtain ⟨⟨hrw, hlen⟩, -⟩ := h
  simp [instrUndefined, hrw, hlen]

theorem instrHits_bit {j : Nat} (hj : j < 4) (h : instrUndefined s.dr.dr7 j = false) :
    (instrHits s).getLsbD j = s.breakpointAt j (s.seg.cs.base + s.eip) :=
  (getLsbD_bits4 _ hj).trans (instrMatch_defined h)

theorem breaksHere_of_match {n : Nat} (hi : s.inhibit = false) (hm : s.midRep = false) (hrf : s.rf = false) (hn : n < 4)
    (hb : s.breakpointAt n (s.seg.cs.base + s.eip) = true) (he : dr7Enabled s.dr.dr7 n = true) : breaksHere s = true := by
  have hbit : (instrHits s &&& enabledMask s.dr.dr7).getLsbD n = true := by
    rw [BitVec.getLsbD_and, instrHits_bit hn (instrUndefined_of_breakpointAt hb), hb, enabledMask, getLsbD_bits4 _ hn, he]
    rfl
  have hne : instrHits s &&& enabledMask s.dr.dr7 ≠ 0 := fun h => by simp [h] at hbit
  rw [breaksHere, hi, hm, hrf, bne_iff_ne.2 hne]
  rfl

theorem activeBoundary_break (ha : s.activity = .running) (hb : breaksHere s = true) : activeBoundary s = reportBreak s := by
  simp only [activeBoundary, ha, runBoundary, hb, if_true]

/-! Interrupts. -/

theorem activeBoundary_nmi (hb : s.activity = .running → breaksHere s = false) (hn : nmiTaken s = true) :
    activeBoundary s = takeNmi s := by
  unfold activeBoundary
  cases ha : s.activity with
  | running => simp [runBoundary, hb ha, hn]
  | halted => simp [haltedBoundary, hn]
  | shutdown => simp [shutdownBoundary, hn]

theorem activeBoundary_intr {v : Byte} (hs : s.activity ≠ .shutdown) (hb : s.activity = .running → breaksHere s = false)
    (hn : nmiTaken s = false) (hi : intrTaken s = some v) : activeBoundary s = takeIntr v s := by
  unfold activeBoundary
  cases ha : s.activity with
  | running => simp [runBoundary, hb ha, hn, hi]
  | halted => simp [haltedBoundary, hn, hi]
  | shutdown => exact absurd ha hs

theorem activeBoundary_idle (hn : nmiTaken s = false)
    (h : s.activity = .shutdown ∨ (s.activity = .halted ∧ (s.ifl = false ∨ s.intr = none))) : activeBoundary s = .next s := by
  unfold activeBoundary
  obtain ha | ⟨ha, hi⟩ := h
  · simp [ha, shutdownBoundary, hn]
  · have hnone : intrTaken s = none := by
      obtain hi | hi := hi
      · simp [intrTaken, hi]
      · simp [intrTaken, hi]
    simp [ha, haltedBoundary, hn, hnone]

theorem reported_bs (t : Traps) : (if t.due then t else .none).bs = t.bs := by
  cases hbs : t.bs with
  | true => simp [Traps.due, hbs]
  | false => split <;> simp [hbs, Traps.none]

/-- TF makes a completed instruction due for a trap. -/
theorem debug_bs (tf exact : Bool) (s : State) : (Ending.next.debug tf exact s).traps.bs = tf := by
  unfold Ending.debug
  rw [if_neg (by decide)]
  exact reported_bs ⟨tf, _, _, _⟩

/-- Settles O56. -/
theorem boundaries : Obligations.Boundaries := by
  unfold Obligations.Boundaries
  refine ⟨fun s hp hr hx ht => ?_, fun s n hq ha hi hm hn hb he => ?_, fun s hq hb hp hs hi => ?_,
    fun s v hq ha hb hn hv hif hi hd => ?_, fun s hq hn h => ?_, fun s hs => ?_⟩
  · have hstep : step s = reportTraps s := by simp only [step, cycle, boundary, hp, hr, hx, ht, if_true]
    exact hstep
  · cases hrf : s.rf with
    | true => simp [breaksHere, hrf]
    | false =>
      rw [if_neg (by decide)]
      refine ⟨instrHits s, (afterMatch s).draws, fun j hj hu => instrHits_bit hj hu, ?_⟩
      rw [step_of_quiet hq, activeBoundary_break ha (breaksHere_of_match hi hm hrf hn hb he)]
      rfl
  · rw [step_of_quiet hq, activeBoundary_nmi hb (by simp [nmiTaken, hp, hs, hi])]
    rfl
  · rw [step_of_quiet hq, activeBoundary_intr (v := v) ha hb hn (by simp [intrTaken, hif, hi, hd, hv])]
    rfl
  · rw [step_of_quiet hq, activeBoundary_idle hn h]
  · exact ⟨_, runInstr_ok (State.lockOk_lock (State.lockOk_of_plain hs false)) (body := thenNext (pure ())) rfl, debug_bs _ _ _⟩

end

end Sys2Proof.Machine

/-!
The page walk (O57).
-/
namespace Sys2Proof.Machine

section
variable {s : State} {m k : List Host.Cell} {a b n : Nat} {v w : Word}

/-! Memory written byte by byte. -/

theorem memGet_writeLE_congr (h : ∀ x, memGet m x = memGet k x) (x : Nat) :
    memGet (writeLE m a n v) x = memGet (writeLE k a n v) x := by
  by_cases hx : a ≤ x ∧ x < a + n
  · obtain ⟨j, rfl⟩ := Nat.exists_eq_add_of_le hx.1
    rw [memGet_writeLE _ _ _ _ (by omega), memGet_writeLE _ _ _ _ (by omega)]
  · rw [memGet_writeLE_ne _ _ _ _ (by omega), memGet_writeLE_ne _ _ _ _ (by omega), h]

theorem extractLsb_readLE (m : List Host.Cell) (a : Nat) {j : Nat} (hj : j < 4) :
    (readLE m a 4).extractLsb' (8 * j) 8 = memGet m (a + j) := by
  apply BitVec.eq_of_getLsbD_eq
  intro i hi
  rw [BitVec.getLsbD_extractLsb', getLsbD_readLE, show (8 * j + i) / 8 = j by omega, show (8 * j + i) % 8 = i by omega]
  simp [hi, show 8 * j + i < 32 by omega]

/-- Writing what stands there changes no byte. -/
theorem memGet_writeLE_readLE (m : List Host.Cell) (a x : Nat) : memGet (writeLE m a 4 (readLE m a 4)) x = memGet m x := by
  by_cases hx : a ≤ x ∧ x < a + 4
  · obtain ⟨j, rfl⟩ := Nat.exists_eq_add_of_le hx.1
    rw [memGet_writeLE _ _ _ _ (by omega), extractLsb_readLE _ _ (by omega)]
  · rw [memGet_writeLE_ne _ _ _ _ (by omega)]

/-! The entries written. -/

/-- Memory with an entry written if it changed (log 48). -/
def entryPut (m : List Host.Cell) (a : Nat) (old new : Word) : List Host.Cell := if new == old then m else writeLE m a 4 new

theorem putEntry_apply (h : s.isRam a 4 = true) : putEntry a v w s = .ok () { s with mem := entryPut s.mem a v w } := by
  unfold putEntry entryPut
  split
  · rfl
  · exact writeAddrs_ram w h

theorem memGet_entryPut (w : Word) (h : readLE m a 4 = v) (x : Nat) : memGet (entryPut m a v w) x = memGet (writeLE m a 4 w) x := by
  unfold entryPut
  split
  next heq => rw [beq_iff_eq.1 heq, ← h, memGet_writeLE_readLE]
  next => rfl

/-- Both entries of a walk written: the second is as it was read, unless the two are one. -/
theorem memGet_entries {pde' pte' : Word} (hab : a = b ∨ a + 4 ≤ b ∨ b + 4 ≤ a)
    (hkeep : a = b → pte' = readLE m b 4 → pde' = readLE m a 4) (x : Nat) :
    memGet (entryPut (entryPut m a (readLE m a 4) pde') b (readLE m b 4) pte') x =
      memGet (writeLE (writeLE m a 4 pde') b 4 pte') x := by
  by_cases hp : pte' = readLE m b 4
  · have hb : readLE (entryPut m a (readLE m a 4) pde') b 4 = readLE m b 4 := by
      unfold entryPut
      split
      next => rfl
      next hne =>
        obtain hab | hab := hab
        · exact absurd (beq_iff_eq.2 (hkeep hab hp)) hne
        · exact readLE_writeLE_ne _ _ (by omega)
    exact (memGet_entryPut pte' hb x).trans (memGet_writeLE_congr (memGet_entryPut pde' rfl) x)
  · rw [entryPut, if_neg (by simpa using hp)]
    exact memGet_writeLE_congr (memGet_entryPut pde' rfl) x

/-! The walk. -/

/-- What the walk does with the entries it reads (R146, R147, R149). -/
def walkWith (lin : Word) (user : Bool) (acc : Acc) (pdeAddr : Nat) (pde : Word) (pteAddr : Nat) (pte : Word) : M (BitVec 20) := do
  pageAllows lin user acc (bit pde 2 && bit pte 2) (bit pde 1 && bit pte 1)
  putEntry pdeAddr pde (putBit pde 5 true)
  let pte' := if acc.writes then putBit (putBit pte 5 true) 6 true else putBit pte 5 true
  putEntry pteAddr pte pte'
  tlbLoad { valid := true, page := pageOf lin, dirty := bit pte' 6, user := bit pde 2 && bit pte 2,
            writable := bit pde 1 && bit pte 1, frame := pte.extractLsb' 12 20, written := true }
  return pte.extractLsb' 12 20

variable {lin : Word} {user : Bool} {acc : Acc}

theorem walk_apply (hpde : s.isRam (s.pdeAddr lin) 4 = true) (hpte : s.isRam (s.pteAddr lin) 4 = true) :
    walk lin user acc s =
      (if !bit (s.pde lin) 0 || !bit (s.pte lin) 0 then pageFault lin false user (acc == .write)
       else walkWith lin user acc (s.pdeAddr lin) (s.pde lin) (s.pteAddr lin) (s.pte lin)) s := by
  unfold walk
  rw [M.look_bind]
  refine (M.bind_ok _ (readAddrs_ram hpde)).trans ?_
  show (if !bit (s.pde lin) 0 then _ else _ : M (BitVec 20)) s = _
  cases bit (s.pde lin) 0 with
  | false => rfl
  | true =>
    refine (M.bind_ok _ (readAddrs_ram hpte)).trans ?_
    show (if !bit (s.pte lin) 0 then _ else _ : M (BitVec 20)) s = _
    cases bit (s.pte lin) 0 <;> rfl

theorem tlbFind_none {l : List TlbEntry} (h : l.all (fun e => !e.valid) = true) (mask : Word) (p : BitVec 20) :
    tlbFind (tlbMask l mask) p = none := by
  induction l generalizing mask with
  | nil => rfl
  | cons e rest ih =>
    simp only [List.all_cons, Bool.and_eq_true, Bool.not_eq_true'] at h
    rw [tlbMask, tlbFind, if_neg (by simp [h.1])]
    exact ih h.2 _

theorem translate_walk (h : s.walks lin = true) : ∃ t k,
    translate lin user acc s =
      (walk lin user acc >>= fun f => pure (f.toNat * 4096 + pageOffset lin)) { s with tlb := t, draws := k } := by
  simp only [State.walks, Bool.and_eq_true] at h
  obtain ⟨⟨⟨hpg, hempty⟩, -⟩, -⟩ := h
  refine ⟨tlbMask s.tlb (Config.tlbDrop s.draws), s.draws + 1, ?_⟩
  have hframe : pageFrame lin user acc s = walk lin user acc { s with tlb := tlbMask s.tlb (Config.tlbDrop s.draws), draws := s.draws + 1 } := by
    unfold pageFrame
    refine (M.bind_ok _ (m := tlbAge) rfl).trans ?_
    rw [M.look_bind]
    show (match tlbFind (tlbMask s.tlb _) (pageOf lin) with | some e => _ | none => _ : M (BitVec 20)) _ = _
    rw [tlbFind_none hempty]
  unfold translate
  rw [M.look_bind, hpg]
  exact M.bind_congr hframe

/-- A walk that faults (R754). -/
theorem translate_fault {t : List TlbEntry} {j : Nat} {present wr : Bool}
    (htr : translate lin user acc s =
      (walk lin user acc >>= fun f => pure (f.toNat * 4096 + pageOffset lin)) { s with tlb := t, draws := j })
    (hw : walk lin user acc { s with tlb := t, draws := j } = pageFault lin present user wr { s with tlb := t, draws := j }) :
    ∃ t, translate lin user acc s = .error (.exc (faultOf 14 (some (pageCode present wr user)))) t ∧
      t.cr.cr2 = lin ∧ t.mem = s.mem ∧ t.gpr = s.gpr :=
  ⟨_, htr.trans (M.bind_stop _ (hw.trans rfl)), rfl, rfl, rfl⟩

theorem pageAllows_user (present : Bool) (h : user = true) (hus : present = false) (rw' : Bool) :
    pageAllows lin user acc present rw' = pageFault lin true user (acc == .write) := by
  subst h hus
  rfl

theorem pageAllows_write (h : user = true) (hw : acc.writes = true) :
    pageAllows lin user acc true false = pageFault lin true user true := by
  subst h
  unfold pageAllows
  rw [hw]
  rfl

theorem pageAllows_granted {us rw' : Bool} (h : (!user || (us && (!acc.writes || rw'))) = true) :
    pageAllows lin user acc us rw' = pure () := by
  unfold pageAllows
  cases user with
  | false => rfl
  | true =>
    obtain ⟨rfl, hrw⟩ := Bool.and_eq_true_iff.1 h
    rw [Bool.not_true, Bool.and_false, if_neg Bool.false_ne_true, if_neg]
    cases hw : acc.writes with
    | false => exact Bool.false_ne_true
    | true => simpa [hw] using hrw

theorem pageOffset_eq (lin : Word) : pageOffset lin = lin.toNat % 4096 := by
  simp [pageOffset]

/-- Setting Accessed, and Dirty, in a page-table entry that has them changes nothing; Accessed is then set. -/
theorem accessed_of_kept {pte : Word} (h : (if acc.writes then putBit (putBit pte 5 true) 6 true else putBit pte 5 true) = pte) :
    putBit pte 5 true = pte := by
  refine putBit_keep (by decide) ?_
  rw [← h]
  split
  · rw [bit_putBit_ne _ _ (by decide), bit_putBit_same _ _ (by decide)]
  · rw [bit_putBit_same _ _ (by decide)]

theorem walkWith_granted {pdeAddr pteAddr : Nat} {pde pte : Word} (hpde : s.isRam pdeAddr 4 = true)
    (hpte : s.isRam pteAddr 4 = true)
    (h : (!user || (bit pde 2 && bit pte 2 && (!acc.writes || (bit pde 1 && bit pte 1)))) = true) :
    ∃ t, walkWith lin user acc pdeAddr pde pteAddr pte s = .ok (pte.extractLsb' 12 20) t ∧ t.gpr = s.gpr ∧
      t.mem = entryPut (entryPut s.mem pdeAddr pde (putBit pde 5 true)) pteAddr pte
        (if acc.writes then putBit (putBit pte 5 true) 6 true else putBit pte 5 true) := by
  unfold walkWith
  rw [pageAllows_granted h, pure_bind, M.bind_ok _ (putEntry_apply hpde)]
  refine ⟨_, (M.bind_ok _ (putEntry_apply (s := { s with mem := entryPut s.mem pdeAddr pde (putBit pde 5 true) }) hpte)).trans rfl, ?_, ?_⟩
  · rfl
  · rfl

/-- Settles O57. -/
theorem pageWalk : Obligations.PageWalk := by
  unfold Obligations.PageWalk
  intro lin user acc s h pde pte fault
  obtain ⟨tl, k, htr⟩ := translate_walk (lin := lin) (user := user) (acc := acc) h
  simp only [State.walks, Bool.and_eq_true] at h
  obtain ⟨⟨-, hpde⟩, hpte⟩ := h
  have hwalk : walk lin user acc { s with tlb := tl, draws := k } = (if !bit pde 0 || !bit pte 0 then _ else _ : M _) _ :=
    walk_apply (s := { s with tlb := tl, draws := k }) hpde hpte
  have present (hd : bit pde 0 = true) (ht : bit pte 0 = true) : walk lin user acc { s with tlb := tl, draws := k } =
      walkWith lin user acc (s.pdeAddr lin) pde (s.pteAddr lin) pte { s with tlb := tl, draws := k } :=
    hwalk.trans (congrFun (if_neg (by simp [hd, ht])) _)
  refine ⟨fun hg => ?_, fun habsent => ?_, fun hd ht hu hus => ?_, fun hd ht hu hus hw hrw => ?_⟩
  · simp only [pageGrants, Bool.and_eq_true] at hg
    obtain ⟨⟨hd, ht⟩, hallow⟩ := hg
    obtain ⟨t, hok, hgpr, hmem⟩ := walkWith_granted (s := { s with tlb := tl, draws := k }) (lin := lin) hpde hpte hallow
    refine ⟨t, ?_, fun a => ?_, hgpr⟩
    · rw [htr, M.bind_ok _ ((present hd ht).trans hok), pageOffset_eq]
      rfl
    · rw [hmem]
      refine memGet_entries ?_ (fun heq hkept => ?_) a
      · unfold State.pdeAddr State.pteAddr
        omega
      · have hsame : pde = pte := congrArg (fun x => readLE s.mem x 4) heq
        have hkeep := accessed_of_kept hkept
        rw [← hsame] at hkeep
        exact hkeep
  · exact translate_fault htr (hwalk.trans (congrFun (if_pos (by obtain h | h := habsent <;> simp [h])) _))
  · refine translate_fault htr ((present hd ht).trans ?_)
    unfold walkWith
    rw [pageAllows_user _ hu hus]
    rfl
  · refine translate_fault htr ((present hd ht).trans ?_)
    unfold walkWith
    rw [hus, hrw, pageAllows_write hu hw]
    rfl

end

end Sys2Proof.Machine

/-!
Pushing on a stack that is not the current one, and what the gates of protected mode read before they deliver.
-/
namespace Sys2Proof.Machine

section
variable {s r t : State} {n : Width} {vs : List Word} {own : List LinStore}

/-- `r` is `s` with another stack, general registers and level: accesses are checked and made in the same way. -/
structure SameAccess (s r : State) : Prop where
  mode : r.mode = s.mode
  pg : r.pg = s.pg
  memMap : r.memMap = s.memMap

theorem SameAccess.flat (h : SameAccess s r) (a : Word) (k : Nat) : r.flat a k = s.flat a k := by
  unfold State.flat State.isRam
  rw [h.pg, h.memMap]

theorem SameAccess.noted (h : SameAccess s r) (ht : Noted s t) : SameAccess t r := by
  obtain ⟨tr, k, rfl⟩ := ht
  exact ⟨h.mode, h.pg, h.memMap⟩

/-- Every item below the stack pointer of `r` can be accessed: its addresses are answered, at either level. -/
theorem pushAddrs_on (user note : Bool) (code : Half) {d : Nat} (h : SameAccess s r)
    (hok : ∀ j, j < vs.length → (r.below n (d + (j + 1) * n.bytes)).ok r .write = true) :
    Gives (pushAddrs { r.stack with user := user } n note code d vs) s (r.itemAddrs n d vs) s := by
  induction vs generalizing d with
  | nil => exact .pure _ s
  | cons v rest ih =>
    have hfirst := hok 0 (by simp)
    rw [Nat.zero_add, Nat.one_mul] at hfirst
    simp only [State.below, Spot.ok, Bool.and_eq_true] at hfirst
    obtain ⟨hallow, hflat⟩ := hfirst
    have hmode : r.stack.allows s.mode (r.stack.below (d + n.bytes)) n.bytes .write = true := by
      rw [← h.mode]
      exact hallow
    have haddrs : Gives (linAddrs (r.stack.seg.base + r.stack.below (d + n.bytes)) n.bytes user .write) s
        (addrsFrom (r.physAt .ss (r.stack.below (d + n.bytes))) n.bytes) s := fun t ht =>
      ⟨t, linAddrs_flat user .write (((h.noted ht).flat _ _).symm.trans hflat), ht⟩
    have hrest := ih (d := d + n.bytes) fun j hj => by
      have := hok (j + 1) (by simpa using hj)
      rwa [show d + (j + 1 + 1) * n.bytes = d + n.bytes + (j + 1) * n.bytes by rw [Nat.add_mul (j + 1)]; omega] at this
    refine (Gives.look s fun _ _ _ => rfl).bind ((Gives.require hmode s).bind ?_)
    have htail : Gives (linAddrs (r.stack.seg.base + r.stack.below (d + n.bytes)) n.bytes user .write >>= fun a =>
        pushAddrs { r.stack with user := user } n note code (d + n.bytes) rest >>= fun more => Pure.pure ((a, v) :: more)) s
        (r.itemAddrs n d (v :: rest)) s := haddrs.bind (hrest.bind (.pure _ s))
    cases note with
    | false => exact htail
    | true => exact Gives.bind (fun t ht => by
        obtain ⟨w, hw, hn⟩ := noteAccess_ok (r.stack.seg.base + r.stack.below (d + n.bytes)) n.bytes .write t
        exact ⟨w, hw, ht.trans hn⟩) htail

/-- Items go below the stack pointer of `r`, then the stores of the processor's own are made (R450, D8). -/
theorem Gives.pushOn (user note : Bool) (code : Half) (h : SameAccess s r) (hok : r.canPush n vs.length = true)
    (ho : ∀ w ∈ own, s.flat w.lin w.width.bytes = true) :
    Gives (Machine.pushItems { r.stack with user := user } n note code vs own) s ()
      { s with mem := ownStored own (r.stacked n 0 vs s.mem) } := by
  refine (pushAddrs_on user note code h fun j hj => State.canPush_item hok hj).bind fun t ht => ?_
  have hf : ∀ w ∈ own, t.flat w.lin w.width.bytes = true := fun w hw =>
    (ht.look (·.flat w.lin w.width.bytes) fun _ _ _ => rfl).trans (ho w hw)
  have hitems := performStores_items (h.noted ht).memMap.symm fun j hj => State.canPush_item hok hj
  refine ⟨_, (M.bind_ok _ (storeAddrs_flat hf)).trans ((performStores_append _ _ hitems).trans (performStores_flat fun w hw => hf w hw)), ?_⟩
  obtain ⟨tr, k, rfl⟩ := ht
  exact ⟨tr, k, rfl⟩

theorem room_user (user : Bool) (k : Stack) (mode : Mode) (b c : Nat) : ({ k with user := user } : Stack).room mode b c = k.room mode b c := by
  induction c with
  | zero => rfl
  | succ c ih =>
    rw [Stack.room, Stack.room, ih]
    rfl

theorem room_on (user : Bool) {c : Nat} (h : SameAccess s r) (hok : r.canPush n c = true) :
    ({ r.stack with user := user } : Stack).room s.mode n.bytes c = true := by
  rw [room_user, ← h.mode]
  exact room_of_canPush hok

end

section
variable {s : State} {e : Exc} {ret : Word}

theorem Gives.readDesc {a : Word} (h : s.flat a 4 = true) (h' : s.flat (a + 4) 4 = true) :
    Gives (Machine.readDesc a) s { at_ := a, lo := readLE s.mem a.toNat 4, hi := readLE s.mem (a + 4).toNat 4 } s := by
  rintro t ⟨tr, k, rfl⟩
  exact ⟨_, readDesc_flat (s := { s with traps := tr, draws := k }) h h', tr, k, rfl⟩

theorem Gives.innerStack {level : BitVec 2} (ext : Bool) (h : s.innerReadable level = true) :
    Gives (innerStack level ext) s (s.innerPointer level) s := by
  rintro t ⟨tr, k, rfl⟩
  exact ⟨_, innerStack_ok (s := { s with traps := tr, draws := k }) ext h, tr, k, rfl⟩

theorem Gives.checkInnerSS {sel : Half} {level : BitVec 2} (ext : Bool) (h : s.stackFor sel level = true) :
    Gives (checkInnerSS sel level ext) s (s.desc sel) s := by
  rintro t ⟨tr, k, rfl⟩
  exact ⟨_, checkInnerSS_ok (s := { s with traps := tr, draws := k }) ext h, tr, k, rfl⟩

theorem mergeBits_and (mask v free : Word) : mergeBits mask v free &&& mask = v &&& mask := by
  ext i hi
  simp only [mergeBits, BitVec.getElem_and, BitVec.getElem_or, BitVec.getElem_not]
  cases mask[i] <;> simp

/-- The error code as it is pushed (R730, R755, I18). -/
theorem Leads.codeItem (e : Exc) (s : State) : Leads (codeItem e) s fun err u => e.pushes err.toList ∧ u = s := by
  unfold Machine.codeItem Exc.pushes
  cases e.code with
  | none => exact (Gives.pure none s).leads ⟨trivial, rfl⟩
  | some c =>
    refine (Leads.drawWord s).bind fun free u hu => ?_
    subst hu
    refine (Gives.pure _ u).leads ⟨?_, rfl⟩
    by_cases hv : e.vec = 14
    · simp only [hv, beq_self_eq_true, if_true, Option.toList_some]
      exact mergeBits_and 7 _ free
    · simp only [hv, beq_iff_eq, if_false, Option.toList_some, lowHalf_withLow]

theorem Exc.pushes_length {items : List Word} (h : e.pushes items) : items.length = e.items := by
  unfold Exc.pushes at h
  unfold Exc.items
  split at h <;> simp_all

/-- Delivery through a gate that is open comes to the gate (R730 step 1). -/
theorem deliver_gate {Q : State → Prop} (h : s.gateOpen e = true) (hgate : (s.gate e.vec).isIdtGate = true)
    (htype : (s.gate e.vec).type ≠ 5)
    (hd : ∀ err : Option Word, e.pushes err.toList →
      Leads (deliverGate (s.gate e.vec) (imageRf s e.kind) e.kind.ext ret err) s fun _ u => Q u) :
    Leads (deliver e ret) s fun _ u => Q u := by
  simp only [State.gateOpen, Bool.and_eq_true, decide_eq_true_eq] at h
  obtain ⟨⟨⟨⟨⟨hpe, hlimit⟩, hlo⟩, hhi⟩, hpresent⟩, hlevel⟩ := h
  refine (Gives.look (f := State.pe) s fun _ _ _ => rfl).bind_leads ?_
  rw [if_pos hpe]
  refine .look_id (fun _ _ => rfl) ((Gives.require (decide_eq_true hlimit) s).bind_leads
    ((Gives.readDesc hlo hhi).bind_leads ((Gives.require hgate s).bind_leads ((Gives.require hlevel s).bind_leads
      ((Gives.require hpresent s).bind_leads ((Leads.codeItem e s).bind fun err u hu => ?_))))))
  obtain ⟨herr, rfl⟩ := hu
  have hne : ¬ ((u.gate e.vec).type == 5) = true := by simpa using htype
  refine cast (congrArg (Leads · u _) (if_neg hne).symm) ?_
  exact (hd err herr).bind fun _ w hw => (Gives.pure false w).leads hw

end

end Sys2Proof.Machine

/-!
Delivery through interrupt and trap gates: at the same level (O53), at a more privileged one (O54), and out of V86 mode.
-/
namespace Sys2Proof.Machine

section
variable {s u t : State} {e : Exc} {ret : Word} {err : Option Word}

/-- What the gate of an event asks for. -/
def State.gateCall (s : State) (e : Exc) : GateCall :=
  { width := (s.gate e.vec).gateWidth, isInt := (s.gate e.vec).clearsIf, sel := (s.gate e.vec).gateSel,
    off := (s.gate e.vec).gateOff, code := s.desc (s.gate e.vec).gateSel, ext := e.kind.ext }

/-- The end of a delivery through a gate, by the level it leads to (R730 step 3). -/
def deliverAt (g : GateCall) (rf : Bool) (ret : Word) (err : Option Word) : M Unit := do
  let s ← look id
  if s.vm then do
    require (!(arConforming g.code.ar || g.code.dpl != 0)) 13 (some (selCode g.sel g.ext))
    deliverFromV86 g rf ret err
  else if !arConforming g.code.ar && g.code.dpl < s.cpl then deliverInner g rf ret err
  else if arConforming g.code.ar || g.code.dpl == s.cpl then deliverSame g rf ret err
  else raise 13 (some (selCode g.sel g.ext))

theorem deliverGate_to {Q : State → Prop} {rf : Bool} (h : s.gateToCode e = true)
    (hd : Leads (deliverAt (s.gateCall e) rf ret err) s fun _ u => Q u) :
    Leads (deliverGate (s.gate e.vec) rf e.kind.ext ret err) s fun _ u => Q u := by
  simp only [State.gateToCode, State.codeSeg, Bool.and_eq_true, Bool.or_eq_true] at h
  obtain ⟨⟨⟨-, htype⟩, ⟨⟨⟨hnull, hin⟩, hflat⟩, hcode⟩, hpresent⟩, -⟩ := h
  have hcall : (⟨if (s.gate e.vec).type == 14 || (s.gate e.vec).type == 15 then .d else .w,
      (s.gate e.vec).type == 6 || (s.gate e.vec).type == 14, (s.gate e.vec).gateSel,
      if (s.gate e.vec).type == 14 || (s.gate e.vec).type == 15 then (s.gate e.vec).gateOffset32 else (s.gate e.vec).gateOffset16,
      s.desc (s.gate e.vec).gateSel, e.kind.ext⟩ : GateCall) = s.gateCall e := by
    unfold State.gateCall Desc.gateWidth Desc.gateOff Desc.clearsIf
    simp only [Desc.isSystem, Bool.and_eq_true, beq_iff_eq] at htype ⊢
    obtain ((⟨hdt, ht⟩ | ⟨hdt, ht⟩) | ⟨hdt, ht⟩) | ⟨hdt, ht⟩ := htype <;> simp [ht, hdt]
  refine (Gives.require hnull s).bind_leads ((Gives.needDesc 13 _ hin hflat).bind_leads ((Gives.require hcode s).bind_leads
    ((Gives.require hpresent s).bind_leads ?_)))
  rw [← hcall] at hd
  exact hd

theorem deliver_toCode {Q : State → Prop} (h : s.gateToCode e = true)
    (hd : ∀ err : Option Word, e.pushes err.toList →
      Leads (deliverAt (s.gateCall e) (imageRf s e.kind) ret err) s fun _ u => Q u) :
    Leads (deliver e ret) s fun _ u => Q u := by
  have hopen := h
  simp only [State.gateToCode, Bool.and_eq_true] at hopen
  obtain ⟨⟨⟨hopen, htype⟩, -⟩, -⟩ := hopen
  simp only [Desc.isSystem, Bool.or_eq_true, Bool.and_eq_true, beq_iff_eq, Bool.not_eq_true'] at htype
  refine deliver_gate hopen ?_ ?_ fun err herr => deliverGate_to h (hd err herr)
  · obtain ((⟨hdt, ht⟩ | ⟨hdt, ht⟩) | ⟨hdt, ht⟩) | ⟨hdt, ht⟩ := htype <;> simp [Desc.isIdtGate, Desc.isSystem, hdt, ht]
  · obtain ((⟨hdt, ht⟩ | ⟨hdt, ht⟩) | ⟨hdt, ht⟩) | ⟨hdt, ht⟩ := htype <;> omega

theorem mark_flat {sel : Half} (h : s.descFlat sel = true) : s.flat (s.desc sel).mark.lin (s.desc sel).mark.width.bytes = true := by
  simp only [State.descFlat, Bool.and_eq_true] at h
  exact h.2

theorem gateToCode_flat (h : s.gateToCode e = true) :
    s.descFlat (s.gate e.vec).gateSel = true ∧ (s.gateCall e).off.toNat ≤ (s.gateCall e).code.limit.toNat := by
  simp only [State.gateToCode, State.codeSeg, Bool.and_eq_true, decide_eq_true_eq] at h
  obtain ⟨⟨-, ⟨⟨-, hflat⟩, -⟩, -⟩, hoff⟩ := h
  exact ⟨hflat, hoff⟩

theorem items_count (c : Nat) (h : e.pushes err.toList) : (if err.isSome then c + 1 else c) = c + e.items := by
  rw [← Exc.pushes_length h]
  cases err <;> rfl

theorem gateFlags_eq (isInt : Bool) (s : State) : gateFlags isInt s = { s with eflags := gateEflags isInt s.eflags } := by
  cases isInt <;> rfl

theorem Gives.gateEnd {f : State → State} {isInt : Bool}
    (hf : ∀ (s : State) tr k, f { s with traps := tr, draws := k } = { f s with traps := tr, draws := k }) (s : State) :
    Gives (Machine.upd fun t => gateFlags isInt (f t)) s () { f s with eflags := gateEflags isInt (f s).eflags } := by
  have h := Gives.upd (g := fun t => gateFlags isInt (f t)) (fun s tr k => by rw [hf, gateFlags_eq, gateFlags_eq]) s
  rw [gateFlags_eq] at h
  exact h

theorem Frame.of_regs_mem {regs : List Gpr} {stored : Nat → Bool} (h : Frame s u regs stored) (hr : ∀ r, t.reg r = u.reg r)
    (hm : ∀ a, memGet t.mem a = memGet u.mem a) : Frame s t regs stored :=
  ⟨fun r h' => (hr r).trans (h.regs r h'), fun a h' => (hm a).trans (h.mem a h')⟩

/-- Marking a descriptor writes its rights byte alone. -/
theorem Frame.accessed {sel : Half} {regs : List Gpr} {stored : Nat → Bool} (h : Frame s u regs stored) (hg : u.gdtr = s.gdtr)
    (hl : u.ldtr = s.ldtr) : Frame s (s.accessed u sel) regs fun a => stored a || s.rightsByte sel a := by
  have hb : u.rightsByte sel = s.rightsByte sel := by
    unfold State.rightsByte State.descAt
    rw [hg, hl]
  refine ⟨h.regs, fun a ha => ?_⟩
  obtain ⟨hs, hr⟩ := Bool.or_eq_false_iff.1 ha
  exact ((State.setRights_frame u sel ((s.desc sel).ar ||| 1)).mem a (by rw [hb]; exact hr)).trans (h.mem a hs)

/-! The same level. -/

/-- What `EntersSame` says of the state an event leaves. -/
def EnteredSame (e : Exc) (ret : Word) (s u : State) : Prop :=
  ∃ (image csItem : Word) (code : List Word), s.isImage (imageRf s e.kind) image ∧ lowHalf csItem = s.seg.cs.sel ∧ e.pushes code ∧
    u = { s.enterCode (s.pushed (s.gate e.vec).gateWidth ([image, csItem, ret] ++ code)) (s.gate e.vec).gateSel s.cpl with
          eip := (s.gate e.vec).gateOff
          eflags := gateEflags (s.gate e.vec).clearsIf s.eflags }

theorem deliverSame_leads (hf : s.descFlat (s.gate e.vec).gateSel = true)
    (ho : (s.gateCall e).off.toNat ≤ (s.gateCall e).code.limit.toNat)
    (hpush : s.canPush (s.gate e.vec).gateWidth (3 + e.items) = true) (he : e.pushes err.toList) :
    Leads (deliverSame (s.gateCall e) (imageRf s e.kind) ret err) s fun _ u => EnteredSame e ret s u := by
  have hroom : s.stack.room s.mode (s.gateCall e).width.bytes (if err.isSome then 4 else 3) = true := by
    rw [items_count 3 he]
    exact room_of_canPush hpush
  refine .look_id (fun _ _ => rfl) ((Gives.require hroom s).bind_leads ((Gives.require (decide_eq_true ho) s).bind_leads
    ((Leads.flagImage _ s).bind fun image u hu => ?_)))
  obtain ⟨himage, rfl⟩ := hu
  refine (Leads.selItem _ _ u).bind fun csItem v hv => ?_
  obtain ⟨hcs, rfl⟩ := hv
  have hlen : ([image, csItem, ret] ++ err.toList).length = 3 + e.items := by
    rw [List.length_append, Exc.pushes_length he]
    rfl
  refine Gives.leads (u := _) ((Gives.pushOn (s := v) (r := v) v.user false _ ⟨rfl, rfl, rfl⟩ (by rw [hlen]; exact hpush)
    (List.forall_mem_singleton.2 (mark_flat hf))).bind ((Gives.putReg .sp _ _).bind (.gateEnd (fun _ _ _ => rfl) _)))
    ⟨image, csItem, err.toList, himage, hcs, he, rfl⟩

theorem deliver_same (h : s.sameReady e = true) : Leads (deliver e ret) s fun _ u => EnteredSame e ret s u := by
  simp only [State.sameReady, Bool.and_eq_true, Bool.not_eq_true'] at h
  obtain ⟨⟨⟨hvm, hcode⟩, hlevel⟩, hpush⟩ := h
  obtain ⟨hf, ho⟩ := gateToCode_flat hcode
  refine deliver_toCode hcode fun err he => .look_id (fun _ _ => rfl) ?_
  have hstay : ¬ (!arConforming (s.gateCall e).code.ar && decide ((s.gateCall e).code.dpl < s.cpl)) = true ∧
      (arConforming (s.gateCall e).code.ar || (s.gateCall e).code.dpl == s.cpl) = true := by
    change (if arConforming (s.gateCall e).code.ar then decide ((s.gateCall e).code.dpl ≤ s.cpl)
      else (s.gateCall e).code.dpl == s.cpl) = true at hlevel
    cases hc : arConforming (s.gateCall e).code.ar with
    | true => simp
    | false =>
      simp only [hc, Bool.false_eq_true, if_false, beq_iff_eq] at hlevel
      simp [hlevel]
  rw [if_neg (by rw [hvm]; decide), if_neg hstay.1, if_pos hstay.2]
  exact deliverSame_leads hf ho hpush he

theorem EnteredSame.enters {o : Host.Outcome State Fault Refusal} {act : Activity} {fl : Word} (h : EnteredSame e ret s u)
    (ho : o = .next t) (hl : Like t { u with activity := act }) (heip : t.eip = u.eip) (hfl : t.eflags = fl) :
    EntersSame o e ret s act fl := by
  obtain ⟨image, csItem, code, himage, hcs, hcode, rfl⟩ := h
  have hlike : Like t { s.enterCode (s.pushed (s.gate e.vec).gateWidth ([image, csItem, ret] ++ code)) (s.gate e.vec).gateSel
    s.cpl with activity := act } := hl.of_sets
  refine ⟨t, image, csItem, code, ho, himage, hcs, hcode, hlike, heip, hfl, ?_⟩
  have hp := State.pushed_frame s (s.gate e.vec).gateWidth ([image, csItem, ret] ++ code)
  rw [show ([image, csItem, ret] ++ code).length = 3 + e.items by rw [List.length_append, Exc.pushes_length hcode]; rfl] at hp
  have ha := hp.accessed (sel := (s.gate e.vec).gateSel) rfl rfl
  exact ha.of_regs_mem hlike.regs hlike.mem

/-- Settles O53. -/
theorem sameLevelDelivery : Obligations.SameLevelDelivery := by
  unfold Obligations.SameLevelDelivery
  intro e ret s h
  obtain ⟨t, u, ht, hu, hl, heip, hfl⟩ := deliverEvent_of_leads 5 (deliver_same (ret := ret) h)
  refine hu.enters ht hl heip (hfl.trans ?_)
  obtain ⟨_, _, _, -, -, -, rfl⟩ := hu
  rfl

end

end Sys2Proof.Machine

/-!
Delivery to a more privileged level (O54), and out of V86 mode.
-/
namespace Sys2Proof.Machine

section
variable {s u t : State} {e : Exc} {ret : Word} {err : Option Word}

theorem stackFor_flat {sel : Half} {level : BitVec 2} (h : s.stackFor sel level = true) : s.descFlat sel = true := by
  simp only [State.stackFor, Bool.and_eq_true] at h
  obtain ⟨⟨⟨⟨⟨⟨-, -⟩, hf⟩, -⟩, -⟩, -⟩, -⟩ := h
  exact hf

theorem marks_flat {x y : Half} (hx : s.descFlat x = true) (hy : s.descFlat y = true) :
    ∀ w ∈ [(s.desc x).mark, (s.desc y).mark], s.flat w.lin w.width.bytes = true :=
  List.forall_mem_cons.2 ⟨mark_flat hx, List.forall_mem_singleton.2 (mark_flat hy)⟩

/-- Two descriptors marked. -/
theorem Frame.accessed_two {x y : Half} {regs : List Gpr} {stored : Nat → Bool} (h : Frame s u regs stored)
    (hg : u.gdtr = s.gdtr) (hl : u.ldtr = s.ldtr) :
    Frame s (s.accessed (s.accessed u x) y) regs fun a => stored a || s.rightsBytes x y a :=
  ((h.accessed hg hl).accessed hg hl).mono (fun _ h => h) fun a ha => by
    rw [Bool.or_assoc]
    exact ha

theorem State.onStack_frame (s : State) (sel : Half) (esp : Word) {stored : Nat → Bool} : Frame s (s.onStack sel esp) [.sp] stored :=
  Frame.of_regs_mem (Frame.setReg .sp _ s) (fun _ => rfl) fun _ => rfl

theorem pushedOn_frame {r : State} (n : Width) {items : List Word} {c : Nat} (h : ∀ stored, Frame s r [.sp] stored)
    (hc : items.length = c) : Frame s (r.pushed n items) [.sp] (r.pushCovers n c) := by
  subst hc
  exact (h _).trans (State.pushed_frame r n items)

/-! A more privileged level. -/

/-- What `EntersInner` says of the state an event leaves. -/
def EnteredInner (e : Exc) (ret : Word) (s u : State) : Prop :=
  let level := (s.desc (s.gate e.vec).gateSel).dpl
  ∃ (image ssItem csItem : Word) (code : List Word), s.isImage (imageRf s e.kind) image ∧ lowHalf ssItem = s.seg.ss.sel ∧
    lowHalf csItem = s.seg.cs.sel ∧ e.pushes code ∧
    u = { s.enterCode (s.accessed ((s.onInner level).pushed (s.gate e.vec).gateWidth ([ssItem, s.gpr.esp, image, csItem, ret] ++ code))
            (s.innerPointer level).1) (s.gate e.vec).gateSel level with
          cpl := level
          eip := (s.gate e.vec).gateOff
          eflags := gateEflags (s.gate e.vec).clearsIf s.eflags }

theorem deliverInner_leads (hf : s.descFlat (s.gate e.vec).gateSel = true)
    (ho : (s.gateCall e).off.toNat ≤ (s.gateCall e).code.limit.toNat)
    (hr : s.innerReady (s.gateCall e).code.dpl (s.gateCall e).width (5 + e.items) = true) (he : e.pushes err.toList) :
    Leads (deliverInner (s.gateCall e) (imageRf s e.kind) ret err) s fun _ u => EnteredInner e ret s u := by
  simp only [State.innerReady, Bool.and_eq_true] at hr
  obtain ⟨⟨hread, hstack⟩, hpush⟩ := hr
  have hsame : SameAccess s (s.onInner (s.gateCall e).code.dpl) := ⟨rfl, rfl, rfl⟩
  have hroom := room_on false hsame hpush
  rw [← items_count 5 he] at hroom
  refine .look_id (fun _ _ => rfl) ((Gives.innerStack _ hread).bind_leads ((Gives.checkInnerSS _ hstack).bind_leads
    ((Gives.require hroom s).bind_leads ((Gives.require (decide_eq_true ho) s).bind_leads
      ((Leads.flagImage _ s).bind fun image u hu => ?_)))))
  obtain ⟨himage, rfl⟩ := hu
  refine (Leads.selItem _ _ u).bind fun ssItem v hv => ?_
  obtain ⟨hss, rfl⟩ := hv
  refine (Leads.selItem _ _ v).bind fun csItem w hw => ?_
  obtain ⟨hcs, rfl⟩ := hw
  have hlen : ([ssItem, w.gpr.esp, image, csItem, ret] ++ err.toList).length = 5 + e.items := by
    rw [List.length_append, Exc.pushes_length he]
    rfl
  exact Gives.leads (u := _) ((Gives.pushOn (s := w) false false _ hsame (by rw [hlen]; exact hpush)
    (marks_flat (stackFor_flat hstack) hf)).bind ((Gives.upd (fun _ _ _ => rfl) _).bind ((Gives.putReg .sp _ _).bind
      (.gateEnd (fun _ _ _ => rfl) _)))) ⟨image, ssItem, csItem, err.toList, himage, hss, hcs, he, rfl⟩

theorem deliver_inner (h : s.raiseReady e = true) : Leads (deliver e ret) s fun _ u => EnteredInner e ret s u := by
  simp only [State.raiseReady, Bool.and_eq_true, Bool.not_eq_true'] at h
  obtain ⟨⟨⟨hvm, hcode⟩, hlevel⟩, hready⟩ := h
  obtain ⟨hf, ho⟩ := gateToCode_flat hcode
  refine deliver_toCode hcode fun err he => .look_id (fun _ _ => rfl) ?_
  have hinner : (!arConforming (s.gateCall e).code.ar && decide ((s.gateCall e).code.dpl < s.cpl)) = true := hlevel
  rw [if_neg (by rw [hvm]; decide), if_pos hinner]
  exact deliverInner_leads hf ho hready he

theorem EnteredInner.enters {o : Host.Outcome State Fault Refusal} {act : Activity} {fl : Word} (h : EnteredInner e ret s u)
    (ho : o = .next t) (hl : Like t { u with activity := act }) (heip : t.eip = u.eip) (hfl : t.eflags = fl) :
    EntersInner o e ret s act fl := by
  obtain ⟨image, ssItem, csItem, code, himage, hss, hcs, hcode, rfl⟩ := h
  have hframe := pushedOn_frame (s := s) (s.gate e.vec).gateWidth
    (items := [ssItem, s.gpr.esp, image, csItem, ret] ++ code) (c := 5 + e.items)
    (fun _ => s.onStack_frame (s.innerPointer (s.desc (s.gate e.vec).gateSel).dpl).1
      (s.innerPointer (s.desc (s.gate e.vec).gateSel).dpl).2)
    (by rw [List.length_append, Exc.pushes_length hcode]; rfl)
  refine ⟨t, image, ssItem, csItem, code, ho, himage, hss, hcs, hcode, hl.of_sets, heip, hfl, ?_⟩
  exact (hframe.accessed_two rfl rfl).of_regs_mem hl.regs hl.mem

/-- Settles O54. -/
theorem innerLevelDelivery : Obligations.InnerLevelDelivery := by
  unfold Obligations.InnerLevelDelivery
  intro e ret s h
  obtain ⟨t, u, ht, hu, hl, heip, hfl⟩ := deliverEvent_of_leads 5 (deliver_inner (ret := ret) h)
  refine hu.enters ht hl heip (hfl.trans ?_)
  obtain ⟨_, _, _, _, -, -, -, -, rfl⟩ := hu
  rfl

/-! Out of V86 mode. -/

/-- An item of a selector each, for the six segment registers. -/
def sregItems (es cs ss ds fs gs : Word) : Sreg → Word
  | .es => es
  | .cs => cs
  | .ss => ss
  | .ds => ds
  | .fs => fs
  | .gs => gs

/-- What `EntersFromV86` says of the state an event leaves. -/
def EnteredFromV86 (e : Exc) (ret : Word) (s u : State) : Prop :=
  ∃ (image : Word) (item : Sreg → Word) (code : List Word), s.isImage (imageRf s e.kind) image ∧
    (∀ r, lowHalf (item r) = (s.sreg r).sel) ∧ e.pushes code ∧
    (let p := s.fromV86.pushed (s.gate e.vec).gateWidth
       ([item .gs, item .fs, item .ds, item .es, item .ss, s.gpr.esp, image, item .cs, ret] ++ code)
     let v := s.enterCode (s.accessed p (s.innerPointer 0).1) (s.gate e.vec).gateSel 0
     u = { v with
           seg := { v.seg with gs := s.seg.gs.null 0, fs := s.seg.fs.null 0, ds := s.seg.ds.null 0, es := s.seg.es.null 0 }
           eip := (s.gate e.vec).gateOff
           eflags := gateEflags (s.gate e.vec).clearsIf s.outOfV86.eflags })

theorem fromV86_frame (s : State) {stored : Nat → Bool} : Frame s s.fromV86 [.sp] stored :=
  have h := (s.outOfV86.onStack_frame (s.innerPointer 0).1 (s.innerPointer 0).2 (stored := stored)).trans
    (Frame.setReg .sp (s.innerPointer 0).2 _)
  ⟨h.regs, h.mem⟩

/-- Where the stack is a 16-bit one its items lie in the same places whatever the upper half of ESP. -/
theorem fromV86_canPush {n : Width} {c : Nat} (h : (s.outOfV86.onInner 0).canPush n c = true) : s.fromV86.canPush n c = true := by
  have hbelow (d : Nat) : s.fromV86.stack.below d = (s.outOfV86.onInner 0).stack.below d := by
    have hpop : s.fromV86.stack = { (s.outOfV86.onInner 0).stack with esp := (s.innerPointer 0).2 } := rfl
    have hon : (s.outOfV86.onInner 0).stack.esp = if (s.outOfV86.onInner 0).stack.seg.db then (s.innerPointer 0).2
      else withLow s.gpr.esp (lowHalf (s.innerPointer 0).2) := rfl
    rw [hpop, Stack.below, Stack.below, hon]
    cases (s.outOfV86.onInner 0).stack.seg.db with
    | true => rfl
    | false => simp [lowHalf_withLow]
  refine Eq.trans ?_ h
  refine congrArg (List.all (List.range c)) (funext fun j => ?_)
  show (Spot.mem n _ .ss (s.fromV86.stack.below _)).ok _ _ = _
  rw [hbelow]
  rfl

theorem outOfV86_mode (h : s.mode = .v86) : s.outOfV86.mode = .prot := by
  have hpe : s.outOfV86.pe = true := by
    unfold State.mode at h
    cases hp : s.pe with
    | true => exact hp
    | false => simp [hp] at h
  have hvm : s.outOfV86.vm = false := bit_putBit_same _ _ (by decide)
  simp [State.mode, hpe, hvm]

theorem deliverFromV86_leads (hm : s.mode = .v86) (hf : s.descFlat (s.gate e.vec).gateSel = true)
    (ho : (s.gateCall e).off.toNat ≤ (s.gateCall e).code.limit.toNat)
    (hr : s.outOfV86.innerReady 0 (s.gateCall e).width (9 + e.items) = true) (he : e.pushes err.toList) :
    Leads (deliverFromV86 (s.gateCall e) (imageRf s e.kind) ret err) s fun _ u => EnteredFromV86 e ret s u := by
  simp only [State.innerReady, Bool.and_eq_true] at hr
  obtain ⟨⟨hread, hstack⟩, hpush⟩ := hr
  have hread : s.innerReadable 0 = true := hread
  have hstack : s.stackFor (s.innerPointer 0).1 0 = true := hstack
  have hpush := fromV86_canPush hpush
  have hsame : SameAccess s.outOfV86 s.fromV86 := ⟨rfl, rfl, rfl⟩
  have hroom := room_on false hsame hpush
  rw [outOfV86_mode hm, ← items_count 9 he] at hroom
  refine .look_id (fun _ _ => rfl) ((Gives.innerStack _ hread).bind_leads ((Gives.checkInnerSS _ hstack).bind_leads
    ((Gives.require hroom s).bind_leads ((Gives.require (decide_eq_true ho) s).bind_leads
      ((Leads.flagImage _ s).bind fun image u hu => ?_)))))
  obtain ⟨himage, rfl⟩ := hu
  refine (Leads.selItem _ _ u).bind fun gs v hv => ?_
  obtain ⟨hgs, rfl⟩ := hv
  refine (Leads.selItem _ _ v).bind fun fs v' hv => ?_
  obtain ⟨hfs, rfl⟩ := hv
  refine (Leads.selItem _ _ v').bind fun ds v hv => ?_
  obtain ⟨hds, rfl⟩ := hv
  refine (Leads.selItem _ _ v).bind fun es v' hv => ?_
  obtain ⟨hes, rfl⟩ := hv
  refine (Leads.selItem _ _ v').bind fun ss v hv => ?_
  obtain ⟨hss, rfl⟩ := hv
  refine (Leads.selItem _ _ v).bind fun cs w hw => ?_
  obtain ⟨hcs, rfl⟩ := hw
  have hlen : ([gs, fs, ds, es, ss, w.gpr.esp, image, cs, ret] ++ err.toList).length = 9 + e.items := by
    rw [List.length_append, Exc.pushes_length he]
    rfl
  have hflat := marks_flat (stackFor_flat hstack) hf
  exact Gives.leads (u := _) ((Gives.upd (fun _ _ _ => rfl) w).bind ((Gives.pushOn (s := w.outOfV86) false false _ hsame
    (by rw [hlen]; exact hpush) hflat).bind ((Gives.upd (fun _ _ _ => rfl) _).bind ((Gives.putReg .sp _ _).bind
      ((Gives.upd (fun _ _ _ => rfl) _).bind ((Gives.upd (fun _ _ _ => rfl) _).bind ((Gives.upd (fun _ _ _ => rfl) _).bind
        ((Gives.upd (fun _ _ _ => rfl) _).bind (.gateEnd (fun _ _ _ => rfl) _)))))))))
    ⟨image, sregItems es cs ss ds fs gs, err.toList, himage, fun r => by cases r <;> assumption, he, rfl⟩

theorem deliver_fromV86 (h : s.leaveReady e = true) : Leads (deliver e ret) s fun _ u => EnteredFromV86 e ret s u := by
  simp only [State.leaveReady, Bool.and_eq_true, beq_iff_eq] at h
  obtain ⟨⟨⟨⟨hm, hcode⟩, hconf⟩, hdpl⟩, hready⟩ := h
  obtain ⟨hf, ho⟩ := gateToCode_flat hcode
  have hlevel : (!(arConforming (s.gateCall e).code.ar || (s.gateCall e).code.dpl != 0)) = true := by
    have hc : arConforming (s.gateCall e).code.ar = false := by rw [Bool.not_eq_true'] at hconf; exact hconf
    have hd : (s.gateCall e).code.dpl = 0 := hdpl
    rw [hc, hd]
    rfl
  refine deliver_toCode hcode fun err he => .look_id (fun _ _ => rfl) ?_
  rw [if_pos (vm_of_v86 hm)]
  exact (Gives.require hlevel s).bind_leads (deliverFromV86_leads hm hf ho hready he)

theorem EnteredFromV86.enters {o : Host.Outcome State Fault Refusal} {act : Activity} {fl : Word} (h : EnteredFromV86 e ret s u)
    (ho : o = .next t) (hl : Like t { u with activity := act }) (heip : t.eip = u.eip) (hfl : t.eflags = fl) :
    EntersFromV86 o e ret s act fl := by
  obtain ⟨image, item, code, himage, hitem, hcode, rfl⟩ := h
  have hframe := pushedOn_frame (s := s) (r := s.fromV86) (s.gate e.vec).gateWidth
    (items := [item .gs, item .fs, item .ds, item .es, item .ss, s.gpr.esp, image, item .cs, ret] ++ code) (c := 9 + e.items)
    (fun _ => fromV86_frame s)
    (by rw [List.length_append, Exc.pushes_length hcode]; rfl)
  refine ⟨t, image, item, code, ho, himage, hitem, hcode, hl.of_sets, heip, hfl, ?_⟩
  exact (hframe.accessed_two rfl rfl).of_regs_mem hl.regs hl.mem

end

end Sys2Proof.Machine

/-!
Far JMP and CALL in protected mode to a code segment at the same level (O27).
-/
namespace Sys2Proof.Machine

section
variable {s : State} {sel csel : Half} {off : Word} {n : Width} {kind : FarKind}

theorem arIsCode_of_system {d : Desc} {t : Nat} (h : d.isSystem t = true) : arIsCode d.ar = false := by
  simp only [Desc.isSystem, Bool.and_eq_true, Bool.not_eq_true'] at h
  have hdt : arDt d.ar = false := h.1
  rw [arIsCode, hdt, Bool.false_and]

/-! The commit. -/

theorem farCommit_jmp (hf : s.descFlat sel = true) (ho : off.toNat ≤ (s.desc sel).limit.toNat) :
    Gives (farCommit .jmp n sel (s.desc sel) off) s () { s.enterCode s sel s.cpl with eip := off } :=
  .look_id (fun _ _ => rfl) ((Gives.require (decide_eq_true ho) s).bind ((Gives.writeRights _ hf).bind
    (.upd (fun _ _ _ => rfl) _)))

/-- What a far CALL at the same level leaves. -/
def FarCalled (s : State) (n : Width) (sel : Half) (off : Word) (u : State) : Prop :=
  ∃ w, lowHalf w = s.seg.cs.sel ∧ u = { s.enterCode (s.pushed n [w, s.eipNext]) sel s.cpl with eip := off }

theorem farCommit_call (hs : s.plain = true) (hp : s.canPush n 2 = true) (hf : s.descFlat sel = true)
    (ho : off.toNat ≤ (s.desc sel).limit.toNat) :
    Leads (farCommit .call n sel (s.desc sel) off) s fun _ u => FarCalled s n sel off u :=
  .look_id (fun _ _ => rfl) ((Gives.require (room_of_canPush hp) s).bind_leads ((Gives.require (decide_eq_true ho) s).bind_leads
    ((Leads.selItem _ _ s).bind fun w u hu => by
      obtain ⟨hw, rfl⟩ := hu
      have hpush : Gives (pushWith n [w, u.eipNext] [(u.desc sel).mark]) u () (u.accessed (u.pushed n [w, u.eipNext]) sel) :=
        (Gives.look u fun _ _ _ => rfl).bind ((Gives.pushOn (s := u) (r := u) u.user true 0 ⟨rfl, rfl, rfl⟩ hp
          (List.forall_mem_singleton.2 (mark_flat hf))).bind (.putReg .sp _ _))
      exact ((Gives.nextEip (State.eipOpen_of_plain hs)).bind (hpush.bind
        (.upd (g := fun t => { t.enterCS sel (u.desc sel) u.cpl with eip := off }) (fun _ _ _ => rfl) _))).leads ⟨w, hw, rfl⟩)))

/-! What leads to it. -/

theorem farCode_to {z : Sz} {Q : State → Prop} (hp : (s.desc sel).present = true)
    (hl : if arConforming (s.desc sel).ar then (s.desc sel).dpl ≤ s.cpl else selRpl sel ≤ s.cpl ∧ (s.desc sel).dpl = s.cpl)
    (h : Leads (farCommit kind z.width sel (s.desc sel) off) s fun _ u => Q u) :
    Leads (farCode kind z sel (s.desc sel) off) s fun _ u => Q u := by
  refine (Gives.look (f := State.cpl) s fun _ _ _ => rfl).bind_leads ?_
  have hrest : Leads (require (s.desc sel).present 11 (some (selCode sel false)) >>= fun _ =>
      farCommit kind z.width sel (s.desc sel) off) s fun _ u => Q u := (Gives.require hp s).bind_leads h
  cases hc : arConforming (s.desc sel).ar with
  | true =>
    rw [hc, if_pos rfl] at hl
    exact (Gives.require (decide_eq_true hl) s).bind_leads hrest
  | false =>
    rw [hc, if_neg (by decide)] at hl
    exact (Gives.require (decide_eq_true hl.1) s).bind_leads ((Gives.require (beq_iff_eq.2 hl.2) s).bind_leads hrest)

theorem farGate_to {gsel : Half} {R : State → Prop} (hg : s.callGate gsel = true)
    (hl : kind = .jmp ∧ arConforming (s.desc (s.desc gsel).gateSel).ar = false → (s.desc (s.desc gsel).gateSel).dpl = s.cpl)
    (hle : (s.desc (s.desc gsel).gateSel).dpl ≤ s.cpl)
    (h : Leads (if kind == .call && !arConforming (s.desc (s.desc gsel).gateSel).ar && (s.desc (s.desc gsel).gateSel).dpl < s.cpl
      then callInner (s.desc gsel) (s.desc gsel).gateSel (s.desc (s.desc gsel).gateSel) (s.desc gsel).gateWidth (s.desc gsel).gateOff
      else farCommit kind (s.desc gsel).gateWidth (s.desc gsel).gateSel (s.desc (s.desc gsel).gateSel) (s.desc gsel).gateOff)
      s fun _ u => R u) :
    Leads (farGate kind gsel (s.desc gsel)) s fun _ u => R u := by
  simp only [State.callGate, State.codeSeg, Bool.and_eq_true, Bool.or_eq_true] at hg
  obtain ⟨⟨⟨⟨⟨-, htype⟩, hcpl⟩, hrpl⟩, hpresent⟩, ⟨⟨⟨hnull, hin⟩, hflat⟩, hcode⟩, hcpresent⟩ := hg
  have hwidth : (if (s.desc gsel).type == 12 then Width.d else Width.w) = (s.desc gsel).gateWidth ∧
      (if (s.desc gsel).type == 12 then (s.desc gsel).gateOffset32 else (s.desc gsel).gateOffset16) = (s.desc gsel).gateOff := by
    simp only [Desc.isSystem, Bool.and_eq_true, beq_iff_eq] at htype
    obtain ⟨-, ht⟩ | ⟨-, ht⟩ := htype <;> simp [Desc.gateWidth, Desc.gateOff, ht]
  refine (Gives.look (f := State.cpl) s fun _ _ _ => rfl).bind_leads ((Gives.require hcpl s).bind_leads
    ((Gives.require hrpl s).bind_leads ((Gives.require hpresent s).bind_leads ((Gives.require hnull s).bind_leads
      ((Gives.needDesc 13 _ hin hflat).bind_leads ((Gives.require hcode s).bind_leads ?_))))))
  rw [← hwidth.1, ← hwidth.2] at h
  show Leads (if (kind == .jmp && !arConforming (s.desc (s.desc gsel).gateSel).ar) = true then _ else _) s _
  split
  next hk =>
    obtain ⟨hj, hc⟩ := Bool.and_eq_true_iff.1 hk
    exact (Gives.require (beq_iff_eq.2 (hl ⟨beq_iff_eq.1 hj, by rwa [Bool.not_eq_true'] at hc⟩)) s).bind_leads
      ((Gives.require hcpresent s).bind_leads h)
  next => exact (Gives.require (decide_eq_true hle) s).bind_leads ((Gives.require hcpresent s).bind_leads h)

theorem farProtected_code {z : Sz} {Q : State → Prop} (hc : s.codeSeg sel = true)
    (h : Leads (farCode kind z sel (s.desc sel) off) s fun _ u => Q u) :
    Leads (farProtected kind z sel off) s fun e u => e = .jump ∧ Q u := by
  simp only [State.codeSeg, Bool.and_eq_true] at hc
  obtain ⟨⟨⟨⟨hnull, hin⟩, hflat⟩, hcode⟩, -⟩ := hc
  refine (Gives.require hnull s).bind_leads ((Gives.needDesc 13 _ hin hflat).bind_leads ?_)
  rw [if_pos hcode]
  exact h.bind fun _ u hu => (Gives.pure _ u).leads ⟨rfl, hu⟩

theorem farProtected_gate {z : Sz} {Q : State → Prop} (hg : s.callGate sel = true)
    (h : Leads (farGate kind sel (s.desc sel)) s fun _ u => Q u) :
    Leads (farProtected kind z sel off) s fun e u => e = .jump ∧ Q u := by
  simp only [State.callGate, Bool.and_eq_true] at hg
  obtain ⟨⟨⟨⟨⟨⟨⟨hnull, hin⟩, hflat⟩, htype⟩, -⟩, -⟩, -⟩, -⟩ := hg
  have hcode : arIsCode (s.desc sel).ar = false := by
    obtain ht | ht := Bool.or_eq_true_iff.1 htype
    · exact arIsCode_of_system ht
    · exact arIsCode_of_system ht
  refine (Gives.require hnull s).bind_leads ((Gives.needDesc 13 _ hin hflat).bind_leads ?_)
  rw [if_neg (by rw [hcode]; decide), if_pos htype]
  exact h.bind fun _ u hu => (Gives.pure _ u).leads ⟨rfl, hu⟩

theorem farTransfer_prot {z : Sz} {Q : Ending → State → Prop} (hm : s.mode = .prot) (h : Leads (farProtected kind z sel off) s Q) :
    Leads (farTransfer kind z sel off) s Q := by
  refine (Gives.look s (f := State.mode) fun _ _ _ => rfl).bind_leads ?_
  rw [hm]
  exact h

/-! The instructions. -/

theorem enterCode_frame (s : State) (sel : Half) {u : State} {level : BitVec 2} {regs : List Gpr} {stored : Nat → Bool}
    (h : Frame s u regs stored) (hg : u.gdtr = s.gdtr) (hl : u.ldtr = s.ldtr) :
    Frame s (s.enterCode u sel level) regs fun a => stored a || s.rightsByte sel a :=
  (h.accessed hg hl).of_regs_mem (fun _ => rfl) fun _ => rfl

theorem jmpFar_goes {f : FarForm} {x : Word} (hs : s.plain = true) (hm : s.mode = .prot) (hok : farTargetOk f s = true)
    (h : Leads (farProtected .jmp (farTarget f s).1 (farTarget f s).2.1 (farTarget f s).2.2) s fun e u =>
      e = .jump ∧ u = { s.enterCode s csel s.cpl with eip := x }) :
    Goes (.jmpFar f) s (s.enterCode s csel s.cpl) x [] (s.rightsByte csel) := by
  have hb : Leads (farPointer f >>= fun p => farTransfer .jmp p.1 p.2.2 p.2.1) s fun e u => e = .jump ∧ u = _ :=
    (Gives.farPointer hok).bind_leads (farTransfer_prot hm h)
  obtain ⟨_, w, _, hw, hn, rfl, rfl⟩ := hb s (.refl s)
  exact goes_of_run rfl (State.lockOk_of_plain hs false) ⟨w, hw, hn⟩ rfl
    ((enterCode_frame s csel (Frame.refl s (stored := noByte)) rfl rfl).mono (fun _ h => h) fun _ h => h)

theorem callFar_goes {f : FarForm} {x : Word} (hs : s.plain = true) (hm : s.mode = .prot) (hok : farTargetOk f s = true)
    (h : Leads (farProtected .call (farTarget f s).1 (farTarget f s).2.1 (farTarget f s).2.2) s fun e u =>
      e = .jump ∧ FarCalled s n csel x u) :
    ∃ w, lowHalf w = s.seg.cs.sel ∧ Goes (.callFar f) s (s.enterCode (s.pushed n [w, s.eipNext]) csel s.cpl) x [.sp]
      (fun a => s.pushCovers n 2 a || s.rightsByte csel a) := by
  have hb : Leads (farPointer f >>= fun p => farTransfer .call p.1 p.2.2 p.2.1) s fun e u => e = .jump ∧ FarCalled s n csel x u :=
    (Gives.farPointer hok).bind_leads (farTransfer_prot hm h)
  obtain ⟨_, t, _, ht, hn, rfl, w, hw, rfl⟩ := hb s (.refl s)
  exact ⟨w, hw, goes_of_run rfl (State.lockOk_of_plain hs false) ⟨t, ht, hn⟩ rfl
    (enterCode_frame s csel (State.pushed_frame s n [w, s.eipNext]) rfl rfl)⟩

theorem codeSeg_flat (h : s.codeSeg sel = true) : s.descFlat sel = true ∧ (s.desc sel).present = true := by
  simp only [State.codeSeg, Bool.and_eq_true] at h
  exact ⟨h.1.1.2, h.2⟩

theorem callGate_code (h : s.callGate sel = true) : s.codeSeg (s.desc sel).gateSel = true := by
  simp only [State.callGate, Bool.and_eq_true] at h
  exact h.2

theorem sameLevel_le {c : Desc} {level : BitVec 2} (h : c.sameLevel level = true) :
    c.dpl ≤ level ∧ (arConforming c.ar = false → c.dpl = level) := by
  unfold Desc.sameLevel at h
  split at h
  next hc => exact ⟨of_decide_eq_true h, fun hf => by simp [hf] at hc⟩
  next => exact ⟨by rw [beq_iff_eq.1 h]; exact BitVec.le_refl _, fun _ => beq_iff_eq.1 h⟩

/-- A gate to a code segment at the same level leads to the commit. -/
theorem farGate_same {Q : State → Prop} (hg : s.callGate sel = true)
    (hl : (s.desc (s.desc sel).gateSel).sameLevel s.cpl = true)
    (h : Leads (farCommit kind (s.desc sel).gateWidth (s.desc sel).gateSel (s.desc (s.desc sel).gateSel) (s.desc sel).gateOff) s
      fun _ u => Q u) : Leads (farGate kind sel (s.desc sel)) s fun _ u => Q u := by
  obtain ⟨hle, heq⟩ := sameLevel_le hl
  refine farGate_to hg (fun hk => heq hk.2) hle ?_
  rw [if_neg]
  · exact h
  · intro hinner
    simp only [Bool.and_eq_true, Bool.not_eq_true', decide_eq_true_eq] at hinner
    obtain ⟨⟨-, hc⟩, hlt⟩ := hinner
    exact absurd hlt (by rw [heq hc]; exact BitVec.lt_irrefl _)

/-- Settles O27. -/
theorem farTransfersProtected : Obligations.FarTransfersProtected := by
  unfold Obligations.FarTransfersProtected
  intro f s hs hm hok
  refine ⟨fun hc hl ho => ?_, fun hg hl ho => ?_⟩
  · obtain ⟨hf, hp⟩ := codeSeg_flat hc
    exact ⟨jmpFar_goes hs hm hok (farProtected_code hc (farCode_to hp hl ((farCommit_jmp hf ho).leads rfl))),
      fun hpush => callFar_goes hs hm hok (farProtected_code hc (farCode_to hp hl (farCommit_call hs hpush hf ho)))⟩
  · obtain ⟨hf, -⟩ := codeSeg_flat (callGate_code hg)
    exact ⟨jmpFar_goes hs hm hok (farProtected_gate hg (farGate_same hg hl ((farCommit_jmp hf ho).leads rfl))),
      fun hpush => callFar_goes hs hm hok (farProtected_gate hg (farGate_same hg hl (farCommit_call hs hpush hf ho)))⟩

end

end Sys2Proof.Machine

/-!
CALL through a call gate to a more privileged level (O28).
-/
namespace Sys2Proof.Machine

section
variable {s u : State} {n : Width} {sel : Half}

theorem Gives.noteAccess (lin : Word) (k : Nat) (acc : Acc) (s : State) : Gives (noteAccess lin k acc) s () s := fun t ht => by
  obtain ⟨w, hw, hn⟩ := noteAccess_ok lin k acc t
  exact ⟨w, hw, ht.trans hn⟩

/-- The parameters of a call gate, item 0 first (R454 step 6). -/
theorem readParams_gives {c : Nat} (h : ∀ j, j < c → (s.above n (j * n.bytes)).ok s .read = true) :
    Gives (readParams { s.stack with user := false } s.mode n c) s
      ((List.range c).map fun j => (s.above n (j * n.bytes)).value s) s := by
  induction c with
  | zero => exact .pure _ s
  | succ c ih =>
    have hlast := h c (Nat.lt_succ_self c)
    simp only [State.above, Spot.ok, Bool.and_eq_true] at hlast
    obtain ⟨hallow, hflat⟩ := hlast
    have haddrs : Gives (linAddrs (s.stack.seg.base + s.stack.above (c * n.bytes)) n.bytes false .read) s
        (addrsFrom (s.physAt .ss (s.stack.above (c * n.bytes))) n.bytes) s := fun t ht =>
      ⟨t, linAddrs_flat false .read ((ht.look (·.flat (s.stack.seg.base + s.stack.above (c * n.bytes)) n.bytes)
        fun _ _ _ => rfl).trans hflat), ht⟩
    rw [List.range_succ, List.map_append]
    exact (ih fun j hj => h j (Nat.lt_succ_of_lt hj)).bind ((Gives.require hallow s).bind ((Gives.noteAccess _ _ _ s).bind
      (haddrs.bind ((Gives.readAddrs (State.isRam_of_flat hflat)).bind (.pure _ s)))))

/-- What a CALL to a more privileged level leaves. -/
def CalledInner (s : State) (g : Desc) (u : State) : Prop :=
  let c := s.desc g.gateSel
  ∃ w, lowHalf w = s.seg.cs.sel ∧
    let p := (s.onInner c.dpl).pushed g.gateWidth ([zext16 s.seg.ss.sel, s.gpr.esp] ++
      ((List.range g.gateCount).map fun j => (s.above g.gateWidth (j * g.gateWidth.bytes)).value s).reverse ++ [w, s.eipNext])
    u = { s.enterCode (s.accessed p (s.innerPointer c.dpl).1) g.gateSel c.dpl with cpl := c.dpl, eip := g.gateOff }

theorem inner_items (x y v w : Word) (params : List Word) {c : Nat} (h : params.length = c) :
    ([x, y] ++ params.reverse ++ [v, w]).length = 4 + c := by
  simp only [List.length_append, List.length_reverse, List.length_cons, List.length_nil, h]
  omega

theorem callInner_leads {g : Desc} (hs : s.plain = true) (hc : s.descFlat g.gateSel = true)
    (ho : g.gateOff.toNat ≤ (s.desc g.gateSel).limit.toNat)
    (hr : s.innerReady (s.desc g.gateSel).dpl g.gateWidth (4 + g.gateCount) = true)
    (hp : ∀ j, j < g.gateCount → (s.above g.gateWidth (j * g.gateWidth.bytes)).ok s .read = true) :
    Leads (callInner g g.gateSel (s.desc g.gateSel) g.gateWidth g.gateOff) s fun _ u => CalledInner s g u := by
  simp only [State.innerReady, Bool.and_eq_true] at hr
  obtain ⟨⟨hread, hstack⟩, hpush⟩ := hr
  have hsame : SameAccess s (s.onInner (s.desc g.gateSel).dpl) := ⟨rfl, rfl, rfl⟩
  refine .look_id (fun _ _ => rfl) ((Gives.innerStack _ hread).bind_leads ((Gives.checkInnerSS _ hstack).bind_leads
    ((Gives.require (room_on false hsame hpush) s).bind_leads ((Gives.require (decide_eq_true ho) s).bind_leads
      ((readParams_gives hp).bind_leads ((Leads.selItem _ _ s).bind fun w u hu => ?_))))))
  obtain ⟨hw, rfl⟩ := hu
  refine Gives.leads (u := _) ((Gives.nextEip (State.eipOpen_of_plain hs)).bind ((Gives.pushOn (s := u) false true _ hsame
    (by rw [inner_items _ _ _ _ _ (c := g.gateCount) (by simp)]; exact hpush)
    (marks_flat (stackFor_flat hstack) hc)).bind ((Gives.upd (fun _ _ _ => rfl) _).bind ((Gives.putReg .sp _ _).bind
      (.upd (g := fun t => { t.enterCS g.gateSel (u.desc g.gateSel) (u.desc g.gateSel).dpl with
        eip := g.gateOff, cpl := (u.desc g.gateSel).dpl }) (fun _ _ _ => rfl) _))))) ⟨w, hw, rfl⟩

/-- Settles O28. -/
theorem gateCallsInner : Obligations.GateCallsInner := by
  unfold Obligations.GateCallsInner
  intro f s hs hm hok g c n stack hg hinner ho hr hparams params u
  obtain ⟨hf, -⟩ := codeSeg_flat (callGate_code hg)
  have hlevel := hinner
  simp only [Desc.innerLevel, Bool.and_eq_true, Bool.not_eq_true', decide_eq_true_eq] at hlevel
  obtain ⟨hconf, hlt⟩ := hlevel
  simp only [List.all_eq_true, List.mem_range] at hparams
  have hgate : Leads (farGate .call (farTarget f s).2.1 g) s fun _ u => CalledInner s g u := by
    refine farGate_to hg (fun hk => absurd hk.1 (by decide)) (BitVec.le_of_lt hlt) ?_
    rw [if_pos (show (FarKind.call == FarKind.call && !arConforming c.ar && decide (c.dpl < s.cpl)) = true by
      rw [hconf, decide_eq_true hlt]; rfl)]
    exact callInner_leads hs hf ho hr hparams
  have hb : Leads (farPointer f >>= fun p => farTransfer .call p.1 p.2.2 p.2.1) s fun e u => e = .jump ∧ CalledInner s g u :=
    (Gives.farPointer hok).bind_leads (farTransfer_prot hm (farProtected_gate hg hgate))
  obtain ⟨_, t, _, ht, hn, rfl, w, hw, rfl⟩ := hb s (.refl s)
  have hframe := pushedOn_frame (s := s) (r := u) n
    (items := [zext16 s.seg.ss.sel, s.gpr.esp] ++ params.reverse ++ [w, s.eipNext]) (c := 4 + g.gateCount)
    (fun _ => s.onStack_frame _ _) (inner_items _ _ _ _ _ (by simp [params]))
  exact ⟨w, hw, goes_of_run rfl (State.lockOk_of_plain hs false) ⟨t, ht, hn⟩ rfl
    ((hframe.accessed_two rfl rfl).of_regs_mem (fun _ => rfl) fun _ => rfl)⟩

end

end Sys2Proof.Machine

/-!
Far RET and IRET in protected mode to the same level (O29).
-/
namespace Sys2Proof.Machine

section
variable {s u : State} {sel : Half} {z : Sz} {n : Width} {d imm : Nat}

theorem selWithRpl_self (sel : Half) : selWithRpl sel (selRpl sel) = sel := by
  ext i hi
  simp only [selWithRpl, selRpl, BitVec.getElem_or, BitVec.getElem_and, BitVec.getElem_setWidth, BitVec.getLsbD_extractLsb']
  interval_cases i <;> simp

/-- The bytes of an item are within the stack. -/
theorem holds_of_ok {k : Width} (h : (s.above k 0).ok s .read = true) : s.stack.holds s.mode k.bytes = true := by
  simp only [State.above, Spot.ok, Bool.and_eq_true] at h
  exact h.1

theorem allows_of_ok {k : Width} (h : (s.above k d).ok s .read = true) :
    s.stack.allows s.mode (s.stack.above d) k.bytes .read = true := by
  simp only [State.above, Spot.ok, Bool.and_eq_true] at h
  exact h.1

theorem Gives.checkReturnCS {off : Word} (h : s.returnCode sel off = true) : Gives (checkReturnCS sel) s (s.desc sel) s := by
  rintro t ⟨tr, k, rfl⟩
  exact ⟨_, checkReturnCS_ok (s := { s with traps := tr, draws := k }) h, tr, k, rfl⟩

theorem returnCode_flat {off : Word} (h : s.returnCode sel off = true) :
    s.descFlat sel = true ∧ off.toNat ≤ (s.desc sel).limit.toNat := by
  simp only [State.returnCode, Bool.and_eq_true, decide_eq_true_eq] at h
  obtain ⟨⟨hcode, -⟩, ho⟩ := h
  exact ⟨(codeSeg_flat hcode).1, ho⟩

/-- The selector and the offset a far return finds on the stack. -/
def State.returnSel (s : State) (z : Sz) : Half := lowHalf ((s.above .w z.width.bytes).value s)
def State.returnOff (s : State) (z : Sz) : Word := (s.above z.width 0).value s

/-- CS loaded by a return to the same level. -/
theorem enterCode_same (h : selRpl sel = s.cpl) :
    s.enterCode s sel s.cpl = (s.setRights sel ((s.desc sel).ar ||| 1)).setSreg .cs ((s.desc sel).toSeg sel) := by
  rw [State.enterCode, ← h, selWithRpl_self]
  rfl

theorem farReturn_ret (hoff : (s.above z.width 0).ok s .read = true) (hcs : (s.above .w z.width.bytes).ok s .read = true)
    (hc : s.returnCode (s.returnSel z) (s.returnOff z) = true) (hl : selRpl (s.returnSel z) = s.cpl) :
    Gives (farReturn z false imm) s ()
      { (s.enterCode s (s.returnSel z) s.cpl).popped (2 * z.width.bytes + imm) with eip := s.returnOff z } := by
  obtain ⟨hf, ho⟩ := returnCode_flat hc
  have hle : decide (s.cpl ≤ selRpl (s.returnSel z)) = true := decide_eq_true (by rw [hl]; exact BitVec.le_refl _)
  refine .look_id (fun _ _ => rfl) ((Gives.require (allows_of_ok hcs) s).bind ((Gives.peek hcs).bind
    ((Gives.require hle s).bind ?_)))
  show Gives (if selRpl (s.returnSel z) == s.cpl then _ else _) s () _
  rw [if_pos (beq_iff_eq.2 hl), enterCode_same hl]
  exact (Gives.checkReturnCS hc).bind ((Gives.require (holds_of_ok hoff) s).bind ((Gives.peek hoff).bind
    ((Gives.require (decide_eq_true ho) s).bind ((Gives.pure 0 s).bind ((Gives.writeRights _ hf).bind
      ((Gives.upd (fun _ _ _ => rfl) _).bind (.popBytes _ _)))))))

theorem farReturn_iret (hoff : (s.above z.width 0).ok s .read = true) (hcs : (s.above .w z.width.bytes).ok s .read = true)
    (hc : s.returnCode (s.returnSel z) (s.returnOff z) = true) (hl : selRpl (s.returnSel z) = s.cpl)
    (hh : s.stack.holds s.mode (3 * z.width.bytes) = true) (hi : (s.above z.width (2 * z.width.bytes)).ok s .read = true) :
    Gives (farReturn z true 0) s ()
      { (s.enterCode s (s.returnSel z) s.cpl).popped (3 * z.width.bytes) with
        eip := s.returnOff z
        eflags := mergeBits (returnMask s z) ((s.above z.width (2 * z.width.bytes)).value s) s.eflags } := by
  obtain ⟨hf, ho⟩ := returnCode_flat hc
  have hle : decide (s.cpl ≤ selRpl (s.returnSel z)) = true := decide_eq_true (by rw [hl]; exact BitVec.le_refl _)
  refine .look_id (fun _ _ => rfl) ((Gives.require (allows_of_ok hcs) s).bind ((Gives.peek hcs).bind
    ((Gives.require hle s).bind ?_)))
  show Gives (if selRpl (s.returnSel z) == s.cpl then _ else _) s () _
  rw [if_pos (beq_iff_eq.2 hl), enterCode_same hl]
  exact (Gives.require hh s).bind ((Gives.checkReturnCS hc).bind ((Gives.require (holds_of_ok hoff) s).bind ((Gives.peek hoff).bind
    ((Gives.require (decide_eq_true ho) s).bind ((Gives.peek hi).bind ((Gives.writeRights _ hf).bind
      ((Gives.upd (fun _ _ _ => rfl) _).bind ((Gives.upd (fun _ _ _ => rfl) _).bind (.popBytes _ _)))))))))

/-! IRET. -/

/-- An image that does not return to V86 mode: the far return with flags (R476). -/
theorem iretProtected_far {Q : State → Prop} (hnt : s.nt = false) (hh : s.stack.holds s.mode (3 * z.width.bytes) = true)
    (hi : (s.above z.width (2 * z.width.bytes)).ok s .read = true)
    (hv : z = .s32 → s.cpl = 0 → bit ((s.above z.width (2 * z.width.bytes)).value s) 17 = false)
    (h : Leads (farReturn z true 0) s fun _ u => Q u) : Leads (iretProtected z) s fun _ u => Q u := by
  refine .look_id (fun _ _ => rfl) ?_
  rw [hnt, if_neg (by decide)]
  by_cases hz : (z == .s32 && s.cpl == 0) = true
  · rw [if_pos hz]
    simp only [Bool.and_eq_true, beq_iff_eq] at hz
    obtain ⟨rfl, hcpl⟩ := hz
    refine (Gives.require hh s).bind_leads ((Gives.peek (n := .d) (d := 8) hi).bind_leads ?_)
    rw [if_neg (by rw [show bit ((s.above .d 8).value s) 17 = false from hv rfl hcpl]; decide)]
    exact h
  · rw [if_neg hz]
    exact h

/-- IRET in protected mode ends the service of an NMI (R711). -/
theorem returnFromEvent_prot {Q : State → Prop} (hm : s.mode = .prot) (h : Leads (iretProtected z) s fun _ u => Q u) :
    Leads (returnFromEvent z) s fun _ u => ∃ v, Q v ∧ u = { v with nmiInService := false } := by
  refine (Gives.look s (f := State.mode) fun _ _ _ => rfl).bind_leads ?_
  rw [hm]
  exact h.bind fun _ v hv => (Gives.upd (fun _ _ _ => rfl) v).leads ⟨v, hv, rfl⟩

/-- The body of IRET. -/
theorem exec_iret_leads {Q : State → Prop} (h : Leads (returnFromEvent z) s fun _ u => Q u) :
    ∃ w u, (returnFromEvent z >>= fun _ => pure Ending.jumpKeepRf) s = .ok .jumpKeepRf w ∧ Noted u w ∧ Q u := by
  obtain ⟨⟨⟩, w, u, hw, hn, hq⟩ := h s (.refl s)
  exact ⟨w, u, by rw [M.bind_ok _ hw]; rfl, hn, hq⟩

/-- RET in protected mode. -/
theorem exec_retFar_leads {Q : State → Prop} {imm : Option Half} (hm : s.mode = .prot)
    (h : Leads (farReturn z false (imm.getD 0).toNat) s fun _ u => Q u) :
    ∃ body w u, exec (.retFar z imm) s = runInstr false body s ∧ body s = .ok .jump w ∧ Noted u w ∧ Q u := by
  obtain ⟨⟨⟩, w, u, hw, hn, hq⟩ := h s (.refl s)
  refine ⟨_, w, u, rfl, ?_, hn, hq⟩
  refine M.bind_ok (a := ()) _ ?_
  rw [M.look_bind, hm]
  exact hw

/-- Settles O29. -/
theorem farReturnsProtected : Obligations.FarReturnsProtected := by
  unfold Obligations.FarReturnsProtected
  intro z s hs hm n off sel hoff hcs hc hl
  have hlock := State.lockOk_of_plain hs false
  have hfr (d : Nat) : Frame s ((s.enterCode s sel s.cpl).popped d) [.sp] (s.rightsByte sel) :=
    ((enterCode_frame s sel (Frame.refl s (stored := noByte)) rfl rfl).mono (List.nil_subset _) fun _ h => h).trans
      ((State.popped_frame _ d).mono (fun _ h => h) fun _ _ => rfl)
  refine ⟨fun imm => ?_, fun hnt hh hi hv => ?_⟩
  · obtain ⟨body, w, _, hexec, hw, hn, rfl⟩ := exec_retFar_leads (imm := imm) hm ((farReturn_ret hoff hcs hc hl).leads rfl)
    exact goes_of_run hexec hlock ⟨w, hw, hn⟩ rfl (hfr _)
  · rw [← hm] at hh
    obtain ⟨w, _, hw, hn, _, rfl, rfl⟩ := exec_iret_leads (returnFromEvent_prot hm
      (iretProtected_far hnt hh hi hv ((farReturn_iret hoff hcs hc hl hh hi).leads rfl)))
    exact doneFlags_of_jump rfl hlock ⟨w, hw, hn⟩ ((hfr (3 * n.bytes)).of_regs_mem (fun _ => rfl) fun _ => rfl)

end

end Sys2Proof.Machine

/-!
Far RET and IRET in protected mode to a less privileged level (O30).
-/
namespace Sys2Proof.Machine

section
variable {s u : State} {sel : Half} {z : Sz} {n : Width} {d imm : Nat} {level : BitVec 2}

theorem setSreg_self (s : State) (r : Sreg) : s.setSreg r (s.sreg r) = s := by cases r <;> rfl

theorem Gives.dropInner (level : BitVec 2) (r : Sreg) (s : State) :
    Gives (dropInner level r) s () (s.setSreg r ((s.sreg r).forLevel level)) := by
  have hdrop : Machine.dropInner level r = Machine.upd fun s => s.setSreg r ((s.sreg r).forLevel level) := by
    refine congrArg Machine.upd (funext fun s => ?_)
    by_cases h : ((s.sreg r).valid && !arConforming (s.sreg r).ar && decide (arDpl (s.sreg r).ar < level)) = true
    · exact (if_pos h).trans (congrArg (s.setSreg r) (if_pos h).symm)
    · exact (if_neg h).trans ((setSreg_self s r).symm.trans (congrArg (s.setSreg r) (if_neg h).symm))
  rw [hdrop]
  exact .upd (fun _ _ _ => by cases r <;> rfl) s

theorem Leads.outerEsp (z : Sz) (ss : Desc) (old popped imm : Word) (s : State) :
    Leads (outerEsp z ss old popped imm) s fun esp u => outerPointer z ss.db old popped imm esp ∧ u = s := by
  unfold Machine.outerEsp outerPointer
  cases ss.db with
  | false => exact (Gives.pure _ s).leads ⟨rfl, rfl⟩
  | true =>
    cases z with
    | s32 => exact (Gives.pure _ s).leads ⟨rfl, rfl⟩
    | s16 =>
      refine (Leads.drawWord s).bind fun free u hu => ?_
      subst hu
      exact (Gives.pure _ u).leads ⟨⟨_, rfl⟩, rfl⟩

theorem Gives.checkReturnSS (h : s.stackFor sel level = true) : Gives (checkReturnSS sel level) s (s.desc sel) s := by
  rintro t ⟨tr, k, rfl⟩
  exact ⟨_, checkReturnSS_ok (s := { s with traps := tr, draws := k }) h, tr, k, rfl⟩

theorem Gives.linWriteAll {ws : List LinStore} (h : ∀ w ∈ ws, s.flat w.lin w.width.bytes = true) :
    Gives (linWriteAll ws) s () { s with mem := ownStored ws s.mem } := by
  rintro t ⟨tr, k, rfl⟩
  exact ⟨_, linWriteAll_flat (s := { s with traps := tr, draws := k }) h, tr, k, rfl⟩

/-- The selector of the stack a far return to an outer level finds above `top` bytes. -/
def State.returnStack (s : State) (z : Sz) (top : Nat) : Half := lowHalf ((s.above z.width (top + z.width.bytes)).value s)

/-- What a far return to an outer level leaves, with EFLAGS `fl`. -/
def ReturnedOuter (s : State) (z : Sz) (top imm : Nat) (fl : Word) (u : State) : Prop :=
  ∃ esp, outerPointer z (s.desc (s.returnStack z top)).db s.gpr.esp ((s.above z.width top).value s) (BitVec.ofNat 32 imm) esp ∧
    u = { s.returned (s.returnSel z) (s.returnStack z top) esp with eip := s.returnOff z, eflags := fl }

/-- What a far return to an outer level needs of the stack, whose items and operand are `top` bytes. -/
structure OuterReady (s : State) (z : Sz) (top : Nat) : Prop where
  holds : s.stack.holds s.mode (top + 2 * z.width.bytes) = true
  off : (s.above z.width 0).ok s .read = true
  cs : (s.above .w z.width.bytes).ok s .read = true
  esp : (s.above z.width top).ok s .read = true
  ss : (s.above z.width (top + z.width.bytes)).ok s .read = true
  code : s.returnCode (s.returnSel z) (s.returnOff z) = true
  level : s.cpl < selRpl (s.returnSel z)
  stack : s.stackFor (s.returnStack z top) (selRpl (s.returnSel z)) = true

/-- The end of a far return to an outer level, from where CS is loaded. -/
theorem returnTail_gives {k : M Unit} {csel ssel : Half} {off fl sp : Word} (hc : s.descFlat csel = true) (hs : s.descFlat ssel = true)
    (hk : ∀ t : State, t.eflags = s.eflags → Gives k t () { t with eflags := fl }) :
    Gives (linWriteAll [(s.desc csel).mark, (s.desc ssel).mark] >>= fun _ =>
      Machine.upd (fun t => { t.setSreg .cs ((s.desc csel).toSeg csel) with eip := off, cpl := selRpl csel }) >>= fun _ =>
      k >>= fun _ => Machine.upd (fun t => t.setSreg .ss ((s.desc ssel).toSeg ssel)) >>= fun _ =>
      putReg .sp sp >>= fun _ => dropInner (selRpl csel) .es >>= fun _ => dropInner (selRpl csel) .fs >>= fun _ =>
      dropInner (selRpl csel) .gs >>= fun _ => dropInner (selRpl csel) .ds) s ()
      { s.returned csel ssel sp with eip := off, eflags := fl } :=
  (Gives.linWriteAll (marks_flat hc hs)).bind ((Gives.upd (fun _ _ _ => rfl) _).bind ((hk _ (by rfl)).bind
    ((Gives.upd (fun _ _ _ => rfl) _).bind ((Gives.putReg .sp _ _).bind ((Gives.dropInner _ .es _).bind
      ((Gives.dropInner _ .fs _).bind ((Gives.dropInner _ .gs _).bind (.dropInner _ .ds _))))))))

theorem farReturn_outer (flags : Bool) (h : OuterReady s z ((if flags then 3 else 2) * z.width.bytes + imm))
    (hi : flags = true → (s.above z.width (2 * z.width.bytes)).ok s .read = true) :
    Leads (farReturn z flags imm) s fun _ u => ReturnedOuter s z ((if flags then 3 else 2) * z.width.bytes + imm) imm
      (if flags then mergeBits (returnMask s z) ((s.above z.width (2 * z.width.bytes)).value s) s.eflags else s.eflags) u := by
  obtain ⟨hf, ho⟩ := returnCode_flat h.code
  have hne : ¬ (selRpl (s.returnSel z) == s.cpl) = true := fun he =>
    absurd h.level (by rw [beq_iff_eq.1 he]; exact BitVec.lt_irrefl _)
  have htop (k : Nat) : (k + 2) * z.width.bytes + imm = k * z.width.bytes + imm + 2 * z.width.bytes := by
    rw [Nat.add_mul]; omega
  have hss (k : Nat) : (k + 1) * z.width.bytes + imm = k * z.width.bytes + imm + z.width.bytes := by
    rw [Nat.add_mul]; omega
  refine .look_id (fun _ _ => rfl) ((Gives.require (allows_of_ok h.cs) s).bind_leads ((Gives.peek h.cs).bind_leads
    ((Gives.require (decide_eq_true (BitVec.le_of_lt h.level)) s).bind_leads ?_)))
  show Leads (if selRpl (s.returnSel z) == s.cpl then _ else _) s _
  rw [if_neg hne]
  simp only [htop, hss]
  refine (Gives.require h.holds s).bind_leads ((Gives.checkReturnCS h.code).bind_leads ((Gives.peek h.esp).bind_leads
    ((Gives.peek h.ss).bind_leads ((Gives.checkReturnSS h.stack).bind_leads ((Gives.peek h.off).bind_leads
      ((Gives.require (decide_eq_true ho) s).bind_leads ?_))))))
  cases flags with
  | false =>
    refine (Gives.pure 0 s).bind_leads ((Leads.outerEsp _ _ _ _ _ s).bind fun sp u hu => ?_)
    obtain ⟨hp, rfl⟩ := hu
    exact (returnTail_gives (k := pure ()) hf (stackFor_flat h.stack) fun t ht => by
      rw [← ht]
      exact .pure () t).leads ⟨sp, hp, rfl⟩
  | true =>
    refine (Gives.peek (hi rfl)).bind_leads ((Leads.outerEsp _ _ _ _ _ s).bind fun sp u hu => ?_)
    obtain ⟨hp, rfl⟩ := hu
    exact (returnTail_gives hf (stackFor_flat h.stack) fun t ht => by
      rw [← ht]
      exact .upd (fun _ _ _ => rfl) t).leads ⟨sp, hp, rfl⟩

theorem inLimit_mono {g : SegReg} {off : Word} {a b : Nat} (hab : a ≤ b) (h : g.inLimit off b = true) : g.inLimit off a = true := by
  unfold SegReg.inLimit at *
  split at h
  next he =>
    rw [if_pos he]
    simp only [Bool.and_eq_true, decide_eq_true_eq] at h ⊢
    exact ⟨h.1, by omega⟩
  next he =>
    rw [if_neg he]
    simp only [decide_eq_true_eq] at h ⊢
    omega

theorem holds_mono {k : Stack} {mode : Mode} {a b : Nat} (hab : a ≤ b) (h : k.holds mode b = true) : k.holds mode a = true := by
  unfold Stack.holds Stack.allows SegReg.allows at *
  obtain ⟨htop, hseg⟩ := Bool.and_eq_true_iff.1 h
  refine Bool.and_eq_true_iff.2 ⟨decide_eq_true (by have := of_decide_eq_true htop; omega), ?_⟩
  cases mode with
  | prot =>
    obtain ⟨hrights, hlimit⟩ := Bool.and_eq_true_iff.1 hseg
    exact Bool.and_eq_true_iff.2 ⟨hrights, inLimit_mono hab hlimit⟩
  | real | v86 => exact decide_eq_true (by have := of_decide_eq_true hseg; omega)

theorem returned_frame (s : State) (csel ssel : Half) (esp : Word) :
    Frame s (s.returned csel ssel esp) [.sp] (s.rightsBytes csel ssel) := by
  have hmarks := ((Frame.refl s (regs := [.sp]) (stored := noByte)).accessed_two (x := csel) (y := ssel) rfl rfl).trans
    (Frame.setReg .sp esp _)
  exact ⟨hmarks.regs, hmarks.mem⟩

/-- Settles O30. -/
theorem farReturnsOuter : Obligations.FarReturnsOuter := by
  unfold Obligations.FarReturnsOuter
  intro z s imm withFlags hs hm hw n top off sel image stack hh hoff hcs hi hesp hss hc hl hst hv
  have hlock := State.lockOk_of_plain hs false
  rw [← hm] at hh
  have ready : OuterReady s z top := ⟨hh, hoff, hcs, hesp, hss, hc, hl, hst⟩
  have himm : BitVec.ofNat 32 (imm.getD 0).toNat = (imm.getD 0).setWidth 32 := by rw [BitVec.ofNat_toNat]
  have hret := farReturn_outer (imm := (imm.getD 0).toNat) withFlags ready hi
  cases withFlags with
  | false =>
    obtain ⟨body, w, _, hexec, hok, hn, esp, hp, rfl⟩ := exec_retFar_leads (imm := imm) hm hret
    rw [himm] at hp
    exact ⟨esp, hp, goes_of_run hexec hlock ⟨w, hok, hn⟩ rfl (returned_frame s sel stack esp)⟩
  | true =>
    obtain ⟨rfl, hnt⟩ := hw rfl
    have hholds : s.stack.holds s.mode (3 * n.bytes) = true := holds_mono (by
      show 3 * n.bytes ≤ 3 * n.bytes + (none.getD (0 : Half)).toNat + 2 * n.bytes
      omega) hh
    obtain ⟨w, _, hok, hn, _, ⟨esp, hp, rfl⟩, rfl⟩ := exec_iret_leads (returnFromEvent_prot hm
      (iretProtected_far hnt hholds (hi rfl) (hv rfl) hret))
    rw [himm] at hp
    exact ⟨esp, hp, doneFlags_of_jump rfl hlock ⟨w, hok, hn⟩ ((returned_frame s sel stack esp).of_regs_mem (fun _ => rfl) fun _ => rfl)⟩

end

end Sys2Proof.Machine

/-!
From V86 mode to a handler of level 0 and back (O31).
-/
namespace Sys2Proof.Machine

section
variable {s : State}

/-- An item of the nine doublewords IRETD finds on the stack (R480). -/
def State.iretItem (s : State) (j : Nat) : Word := (s.above .d (4 * j)).value s

/-- The state in V86 mode that IRETD leaves. -/
def State.toV86 (s : State) : State :=
  { s.setReg .sp (s.iretItem 3) with
    cpl := 3
    seg := { cs := .loadV86 (lowHalf (s.iretItem 1)), ss := .loadV86 (lowHalf (s.iretItem 4)),
             es := .loadV86 (lowHalf (s.iretItem 5)), ds := .loadV86 (lowHalf (s.iretItem 6)),
             fs := .loadV86 (lowHalf (s.iretItem 7)), gs := .loadV86 (lowHalf (s.iretItem 8)) } }

theorem iretToV86_gives (hh : s.stack.holds s.mode 36 = true) (hi : ∀ j, j < 9 → (s.above .d (4 * j)).ok s .read = true)
    (ho : (s.iretItem 0).toNat ≤ 0xFFFF) :
    Gives iretToV86 s () { s.toV86 with
      eip := s.iretItem 0
      eflags := mergeBits (s.flagMask ||| 0x30000) (s.iretItem 2) s.eflags } := by
  have item {j : Nat} (hj : j < 9) : Gives (peek .d (4 * j)) s (s.iretItem j) s := .peek (hi j hj)
  exact .look_id (fun _ _ => rfl) ((Gives.require hh s).bind ((item (j := 0) (by decide)).bind
    ((Gives.require (decide_eq_true ho) s).bind ((item (j := 1) (by decide)).bind ((item (j := 2) (by decide)).bind
      ((item (j := 3) (by decide)).bind ((item (j := 4) (by decide)).bind ((item (j := 5) (by decide)).bind
        ((item (j := 6) (by decide)).bind ((item (j := 7) (by decide)).bind ((item (j := 8) (by decide)).bind
          ((Gives.upd (fun _ _ _ => rfl) s).bind (.putReg .sp _ _)))))))))))))

theorem iretProtected_v86 (hc : s.cpl = 0) (hnt : s.nt = false) (hh : s.stack.holds s.mode 36 = true)
    (hi : ∀ j, j < 9 → (s.above .d (4 * j)).ok s .read = true) (ho : (s.iretItem 0).toNat ≤ 0xFFFF)
    (hv : bit (s.iretItem 2) 17 = true) :
    Gives (iretProtected .s32) s () { s.toV86 with
      eip := s.iretItem 0
      eflags := mergeBits (s.flagMask ||| 0x30000) (s.iretItem 2) s.eflags } := by
  refine .look_id (fun _ _ => rfl) ?_
  rw [hnt, if_neg (by decide), if_pos (show (Sz.s32 == Sz.s32 && s.cpl == 0) = true by rw [hc]; rfl)]
  refine (Gives.require (holds_mono (by decide) hh) s).bind ((Gives.peek (n := .d) (d := 8) (hi 2 (by decide))).bind ?_)
  rw [if_pos (show bit ((s.above .d 8).value s) 17 = true from hv)]
  exact iretToV86_gives hh hi ho

/-- Settles O31. -/
theorem v86Transitions : Obligations.V86Transitions := by
  unfold Obligations.V86Transitions
  constructor
  · intro e ret s h
    obtain ⟨t, u, ht, hu, hl, heip, hfl⟩ := deliverEvent_of_leads 5 (deliver_fromV86 (ret := ret) h)
    refine hu.enters ht hl heip (hfl.trans ?_)
    obtain ⟨_, _, _, -, -, -, rfl⟩ := hu
    rfl
  · intro s hs hm hc hnt hh hi item sel hv ho
    rw [← hm] at hh
    simp only [List.all_eq_true, List.mem_range] at hi
    obtain ⟨w, _, hok, hn, _, rfl, rfl⟩ := exec_iret_leads (returnFromEvent_prot hm
      ((iretProtected_v86 hc hnt hh hi ho hv).leads rfl))
    exact doneFlags_of_jump rfl (State.lockOk_of_plain hs false) ⟨w, hok, hn⟩
      ((Frame.setReg .sp (item 3) s).of_regs_mem (fun _ => rfl) fun _ => rfl)

end

end Sys2Proof.Machine

/-!
What a task switch saves and marks before it enters the new task (O59).
-/
namespace Sys2Proof.Machine

section
variable {s t : State} {base : Word} {n : Nat}

/-- A part of what is RAM. -/
theorem flat_part {off k : Nat} (h : s.flat base n = true) (ho : off + k ≤ n) (hk : 0 < k) :
    s.flat (base + BitVec.ofNat 32 off) k = true := by
  simp only [State.flat, State.isRam, Bool.and_eq_true, decide_eq_true_eq, List.all_eq_true, List.mem_range] at h ⊢
  obtain ⟨⟨hpg, hwrap⟩, hram⟩ := h
  have hbase := base.isLt
  have hoff : (base + BitVec.ofNat 32 off).toNat = base.toNat + off := by
    rw [BitVec.toNat_add, BitVec.toNat_ofNat]
    omega
  rw [hoff]
  exact ⟨⟨hpg, by omega⟩, fun j hj => by rw [Nat.add_assoc]; exact hram _ (by omega)⟩

/-! The stores of the old task. -/

theorem ownStored_tssStore (base : Word) (fs : List TssField) (m : List Host.Cell) :
    ownStored (fs.map fun f => tssStore base f.off f.width f.value) m = storeFields base fs m := by
  induction fs generalizing m with
  | nil => rfl
  | cons f rest ih => exact ih _

theorem saveStores_eq (s : State) (eip image : Word) :
    saveStores s eip image = (s.savedFields eip image).map fun f => tssStore s.tr.base f.off f.width f.value := by
  unfold saveStores State.savedFields
  cases s.tr.is386 <;> rfl

/-- Every field saved lies in the part of the TSS that its limit must hold. -/
theorem savedFields_within (s : State) (eip image : Word) :
    ∀ f ∈ s.savedFields eip image, f.off + f.width.bytes ≤ tssLeast s.tr.is386 + 1 := by
  have h : ((s.savedFields eip image).all fun f => decide (f.off + f.width.bytes ≤ tssLeast s.tr.is386 + 1)) = true := by
    unfold State.savedFields
    cases s.tr.is386 <;> rfl
  exact fun f hf => of_decide_eq_true (List.all_eq_true.1 h f hf)

theorem saveStores_flat (h : s.flat s.tr.base (tssLeast s.tr.is386 + 1) = true) (eip image : Word) :
    ∀ w ∈ saveStores s eip image, s.flat w.lin w.width.bytes = true := by
  rw [saveStores_eq]
  exact List.forall_mem_map.2 fun f hf => flat_part h (savedFields_within s eip image f hf) (Width.bytes_pos _)

theorem putBusy_apply {a : Nat} (b : Bool) (h : s.isRam a 1 = true) :
    putBusy (addrsFrom a 1) b s = .ok () { s with mem := writeLE s.mem a 1 (putBit (readLE s.mem a 1) 1 b) } := by
  unfold putBusy
  rw [M.bind_ok _ (readAddrs_ram h)]
  exact writeAddrs_ram _ h

/-! The image of EFLAGS. -/

theorem flagImage_apply (rf : Bool) (s : State) :
    ∃ image, s.isImage rf image ∧ flagImage rf s = .ok image { s with draws := s.draws + 1 } :=
  ⟨_, image_low _ _, rfl⟩

theorem bit_fixReserved (v : Word) {i : Nat} (hi : i < 32) :
    bit (fixReserved v) i = ((bit v i || bit 0x2 i) && !bit 0x8028 i) := by
  rw [bit, fixReserved, BitVec.getLsbD_and, BitVec.getLsbD_or, BitVec.getLsbD_not, decide_eq_true hi, Bool.true_and]
  rfl

theorem fixReserved_clearNt (v : Word) : fixReserved (putBit v 14 false) = putBit (fixReserved v) 14 false := by
  apply BitVec.eq_of_getLsbD_eq
  intro i hi
  show bit _ i = bit _ i
  by_cases h : i = 14
  · subst h
    rw [bit_fixReserved _ hi, bit_putBit_same _ _ hi, bit_putBit_same _ _ hi]
    decide
  · rw [bit_fixReserved _ hi, bit_putBit_ne _ _ h, bit_putBit_ne _ _ h, bit_fixReserved _ hi]

theorem putBit_comm (v : Word) {i j : Nat} (x y : Bool) (hij : i ≠ j) : putBit (putBit v i x) j y = putBit (putBit v j y) i x := by
  apply BitVec.eq_of_getLsbD_eq
  intro k hk
  show bit _ k = bit _ k
  by_cases hi : k = i
  · subst hi
    rw [bit_putBit_ne _ _ hij, bit_putBit_same _ _ hk, bit_putBit_same _ _ hk]
  · by_cases hj : k = j
    · subst hj
      rw [bit_putBit_same _ _ hk, bit_putBit_ne _ _ hi, bit_putBit_same _ _ hk]
    · rw [bit_putBit_ne _ _ hj, bit_putBit_ne _ _ hi, bit_putBit_ne _ _ hi, bit_putBit_ne _ _ hj]

/-- NT is clear in the image an IRET saves. -/
theorem isImage_clearNt {rf : Bool} {image : Word} (h : s.isImage rf image) :
    (s.setFlag 14 false).isImage rf (putBit image 14 false) := by
  have hclear {x y m : Word} (h : x &&& m = y &&& m) : putBit x 14 false &&& m = putBit y 14 false &&& m := by
    show x &&& _ &&& m = y &&& _ &&& m
    rw [BitVec.and_assoc, BitVec.and_comm _ m, ← BitVec.and_assoc, h, BitVec.and_assoc, BitVec.and_comm m, ← BitVec.and_assoc]
  show _ = putBit (fixReserved (putBit s.eflags 14 false)) 16 rf &&& 0x3FFFF
  rw [fixReserved_clearNt, putBit_comm _ _ _ (by decide)]
  exact hclear h

/-! The switch. -/

variable {tsel : Half} {d : Desc} {kind : SwitchKind} {eip : Word} {rf ext : Bool} {code : Option Word}

/-- The busy bit, the back link and the new busy bit, with what the kind of switch does not write left alone. -/
theorem switch_marks (h : s.switchable d kind = true) {image : Word} :
    (do
      let save ← storeAddrs (saveStores s eip image)
      let old ← if kind.nests then pure [] else linAddrs (gdtAddr s s.tr.sel + 5) 1 false .rmw
      let link ← storeAddrs (if kind.nests then [tssStore d.base 0 .w (zext16 s.tr.sel)] else [])
      let new ← if kind == SwitchKind.iret then pure [] else linAddrs (d.at_ + 5) 1 false .rmw
      performStores save
      if kind.nests then pure () else putBusy old false
      performStores link
      if kind == SwitchKind.iret then pure () else putBusy new true
      upd fun s => { s with
        tr := { sel := tsel, base := d.base, limit := d.limit, is386 := d.isTss386 }
        cr := { s.cr with cr0 := putBit s.cr.cr0 3 true } }
      asNewTask (enterTask d.isTss386 d.base kind ext code)) { s with draws := s.draws + 1 }
      = asNewTask (enterTask d.isTss386 d.base kind ext code)
          { s.switchedOut tsel d kind eip image with draws := s.draws + 1 } := by
  simp only [State.switchable, Bool.and_eq_true] at h
  obtain ⟨⟨⟨⟨hold, hmid⟩, hnew⟩, -⟩, -⟩ := h
  have hsave := saveStores_flat hold eip image
  have hmem : ownStored (saveStores s eip image) s.mem = storeFields s.tr.base (s.savedFields eip image) s.mem := by
    rw [saveStores_eq, ownStored_tssStore]
  have hperform : performStores ((saveStores s eip image).map fun w => (addrsFrom w.lin.toNat w.width.bytes, w.value))
      { s with draws := s.draws + 1 } =
      .ok () { s with mem := storeFields s.tr.base (s.savedFields eip image) s.mem, draws := s.draws + 1 } := by
    rw [← hmem]
    exact performStores_flat (s := { s with draws := s.draws + 1 }) hsave
  have hstore : tssStore d.base 0 .w (zext16 s.tr.sel) = ⟨d.base, .w, zext16 s.tr.sel⟩ := by simp [tssStore]
  rw [hstore]
  refine (M.bind_ok _ (storeAddrs_flat (s := { s with draws := s.draws + 1 }) hsave)).trans ?_
  cases kind with
  | jmp =>
    have hmid : s.flat s.taskRights 1 = true := hmid
    have hnew : s.flat (d.at_ + 5) 1 = true := hnew
    exact (M.bind_ok _ (linAddrs_flat false .rmw (by exact hmid))).trans
      ((M.bind_ok _ (linAddrs_flat false .rmw (by exact hnew))).trans ((M.bind_ok _ hperform).trans
        ((M.bind_ok _ (putBusy_apply false (by exact State.isRam_of_flat hmid))).trans
          (M.bind_ok _ (putBusy_apply true (by exact State.isRam_of_flat hnew))))))
  | iret =>
    have hmid : s.flat s.taskRights 1 = true := hmid
    exact (M.bind_ok _ (linAddrs_flat false .rmw (by exact hmid))).trans ((M.bind_ok _ hperform).trans
      (M.bind_ok _ (putBusy_apply false (by exact State.isRam_of_flat hmid))))
  | call | int =>
    have hlink : ∀ w ∈ [(⟨d.base, .w, zext16 s.tr.sel⟩ : LinStore)], s.flat w.lin w.width.bytes = true :=
      List.forall_mem_singleton.2 hmid
    have hnew : s.flat (d.at_ + 5) 1 = true := hnew
    exact (M.bind_ok _ (storeAddrs_flat (by exact hlink))).trans
      ((M.bind_ok _ (linAddrs_flat false .rmw (by exact hnew))).trans ((M.bind_ok _ hperform).trans
        ((M.bind_ok _ (performStores_flat (by exact hlink))).trans
          (M.bind_ok _ (putBusy_apply true (by exact State.isRam_of_flat hnew))))))

/-- Settles O59. -/
theorem taskSwitchSaves : Obligations.TaskSwitchSaves := by
  unfold Obligations.TaskSwitchSaves
  intro tsel d kind eip rf ext code s
  refine ⟨fun h => ?_, fun h => M.bind_stop _ (M.require_fail (decide_eq_false (Nat.not_le.2 h))), fun hl hf => ?_⟩
  · obtain ⟨image, himage, hflag⟩ := flagImage_apply rf s
    refine ⟨if kind == SwitchKind.iret then putBit image 14 false else image, ?_, ?_⟩
    · cases kind with
      | iret => exact isImage_clearNt himage
      | jmp | call | int => exact himage
    · have hfit := h
      simp only [State.switchable, Bool.and_eq_true, decide_eq_true_eq] at hfit
      obtain ⟨⟨-, hlimit⟩, hfit⟩ := hfit
      rw [saveFits_eq] at hfit
      refine (M.bind_ok _ (M.require_pass (decide_eq_true hlimit))).trans ?_
      rw [M.look_bind]
      exact (M.bind_ok _ (needTss_ok ext (of_decide_eq_true hfit))).trans ((M.bind_ok _ hflag).trans (switch_marks h))
  · rw [saveFits_eq] at hf
    refine (M.bind_ok _ (M.require_pass (decide_eq_true hl))).trans ?_
    rw [M.look_bind]
    exact M.bind_stop _ (needTss_beyond ext (Nat.not_le.1 (of_decide_eq_false hf)))

end

end Sys2Proof.Machine

/-!
What holds when a task switch completes (O60): the new task's registers are those of the image of its TSS.
-/
namespace Sys2Proof.Machine

variable {α β : Type}

/-- From states with `P`, a computation that completes ends in a state with `Q`. -/
def Ends (P : State → Prop) (m : M α) (Q : State → Prop) : Prop := ∀ s a t, P s → m s = .ok a t → Q t

section
variable {P Q R : State → Prop} {m k : M α}

theorem Ends.bind {f : α → M β} (h : Ends P m R) (hk : ∀ a, Ends R (f a) Q) : Ends P (m >>= f) Q := by
  intro s b t hs ht
  obtain ⟨a, u, hm, hf⟩ := M.bind_eq_ok.1 ht
  exact hk a u b t (h s a u hs hm) hf

theorem Ends.any (m : M α) : Ends P m fun _ => True := fun _ _ _ _ _ => trivial

/-- A first part of which nothing is asked. -/
theorem Ends.seq {f : α → M β} (hk : ∀ a, Ends (fun _ => True) (f a) Q) : Ends (fun _ => True) (m >>= f) Q :=
  .bind (.any m) hk

theorem Ends.ite {b : Prop} [Decidable b] (h : Ends P m Q) (h' : Ends P k Q) : Ends P (if b then m else k) Q := by
  split
  · exact h
  · exact h'

/-- A continuation that branches share: it may be judged once. -/
theorem Ends.shared {γ : Type} {f : γ → M α} {body : (γ → M α) → M β} (hf : ∀ a, Ends R (f a) Q)
    (hb : ∀ g : γ → M α, (∀ a, Ends R (g a) Q) → Ends P (body g) Q) : Ends P (have g := f; body g) Q := hb f hf

theorem Ends.upd {f : State → State} (h : ∀ s, P s → Q (f s)) : Ends P (Machine.upd f) Q := by
  intro s a t hs ht
  cases ht
  exact h s hs

theorem Ends.quiet (hm : Quiet m) (h : ∀ {s t}, Touches s t → P s → P t) : Ends P m P :=
  fun _ _ _ hs ht => h (hm.ok ht) hs

end

/-- What the new task was given and its entry leaves: everything but the hidden parts of the segment registers, and the
stack pointer where an error code is pushed. -/
structure TaskHeld (v : State) (code : Option Word) (t : State) : Prop where
  regs : ∀ r, code = none ∨ r ≠ .sp → t.reg r = v.reg r
  sels : ∀ r, (t.sreg r).sel = (v.sreg r).sel
  eip : t.eip = v.eip
  eflags : t.eflags = v.eflags
  ldtr : t.ldtr.sel = v.ldtr.sel
  cr0 : t.cr.cr0 = v.cr.cr0
  cr3 : t.cr.cr3 = v.cr.cr3
  cpl : t.cpl = v.cpl
  tr : t.tr = v.tr
  dr : t.dr = v.dr

section
variable {v : State} {code : Option Word} {t : State}

theorem TaskHeld.refl (v : State) (code : Option Word) : TaskHeld v code v :=
  ⟨fun _ _ => rfl, fun _ => rfl, rfl, rfl, rfl, rfl, rfl, rfl, rfl, rfl⟩

theorem TaskHeld.touched {u : State} (h : Touches t u) (k : TaskHeld v code t) : TaskHeld v code u := by
  obtain ⟨m, b, c, d, r, e, rfl, -, -⟩ := h
  exact ⟨k.regs, k.sels, k.eip, k.eflags, k.ldtr, k.cr0, k.cr3, k.cpl, k.tr, k.dr⟩

theorem Ends.held {m : M α} (hm : Quiet m) : Ends (TaskHeld v code) m (TaskHeld v code) := .quiet hm .touched

theorem Ends.held_require (c : Bool) (x : Byte) (e : Option Half) :
    Ends (TaskHeld v code) (Machine.require c x e) (TaskHeld v code) := .held (.require c x e)

/-- A segment register loaded keeps its selector. -/
theorem Ends.loadSeg {r : Sreg} {sel : Half} (h : sel = (v.sreg r).sel) (d : Desc) :
    Ends (TaskHeld v code) (Machine.loadSeg r sel d) (TaskHeld v code) := by
  refine .bind (.held (setAccessed_quiet d)) fun _ => .upd fun s k => ?_
  refine ⟨k.regs, fun q => ?_, k.eip, k.eflags, k.ldtr, k.cr0, k.cr3, k.cpl, k.tr, k.dr⟩
  by_cases hq : q = r
  · subst hq
    rw [State.sreg_setSreg_same, ← h]
    rfl
  · rw [State.sreg_setSreg_ne _ _ hq]
    exact k.sels q

theorem Ends.loadTaskLdt {sel : Half} (h : sel = v.ldtr.sel) (ext : Bool) :
    Ends (TaskHeld v code) (loadTaskLdt sel ext) (TaskHeld v code) :=
  .ite (.held (.pure ())) <| .bind (.held_require _ _ _) fun _ => .bind (.held (needDesc_quiet _ _ _)) fun _ =>
    .bind (.held_require _ _ _) fun _ => .bind (.held_require _ _ _) fun _ => .upd fun _ k =>
      ⟨k.regs, k.sels, k.eip, k.eflags, h, k.cr0, k.cr3, k.cpl, k.tr, k.dr⟩

theorem Ends.loadTaskCS {sel : Half} (h : sel = (v.sreg .cs).sel) (ext : Bool) :
    Ends (TaskHeld v code) (loadTaskCS sel ext) (TaskHeld v code) :=
  .bind (.held_require _ _ _) fun _ => .bind (.held (needDesc_quiet _ _ _)) fun _ => .bind (.held_require _ _ _) fun _ =>
    .bind (.held_require _ _ _) fun _ => .bind (.held_require _ _ _) fun _ => .loadSeg h _

theorem Ends.loadTaskSS {sel : Half} (h : sel = (v.sreg .ss).sel) (ext : Bool) :
    Ends (TaskHeld v code) (loadTaskSS sel ext) (TaskHeld v code) :=
  .bind (.held (.look _)) fun _ => .bind (.held_require _ _ _) fun _ => .bind (.held (needDesc_quiet _ _ _)) fun _ =>
    .bind (.held_require _ _ _) fun _ => .bind (.held_require _ _ _) fun _ => .bind (.held_require _ _ _) fun _ =>
      .bind (.held_require _ _ _) fun _ => .loadSeg h _

theorem Ends.loadTaskData {r : Sreg} {sel : Half} (h : sel = (v.sreg r).sel) (ext : Bool) :
    Ends (TaskHeld v code) (loadTaskData r sel ext) (TaskHeld v code) :=
  .ite (.held (.pure ())) <| .bind (.held (.look _)) fun _ => .bind (.held (needDesc_quiet _ _ _)) fun _ =>
    .bind (.held_require _ _ _) fun _ => .bind (.held_require _ _ _) fun _ => .bind (.held_require _ _ _) fun _ =>
      .loadSeg h _

/-- An error code is pushed: the stack pointer alone moves. -/
theorem Ends.pushTaskCode (is386 ext : Bool) :
    Ends (TaskHeld v code) (pushTaskCode is386 ext code) (TaskHeld v code) := by
  cases code with
  | none => exact .held (.pure ())
  | some c =>
    refine .bind (.held (.look _)) fun _ => .bind (.held (pushItems_quiet _ _ _ _ _ _)) fun _ => .upd fun s k => ?_
    refine ⟨fun r hr => ?_, k.sels, k.eip, k.eflags, k.ldtr, k.cr0, k.cr3, k.cpl, k.tr, k.dr⟩
    rw [State.reg_setReg_ne _ _ (hr.resolve_left (by simp))]
    exact k.regs r hr

theorem Ends.checkTaskEip (ext : Bool) : Ends (TaskHeld v code) (checkTaskEip ext) (TaskHeld v code) :=
  .bind (.held (.look _)) fun _ => .held_require _ _ _

/-- The debug trap of the new task becomes due, where its image asks for it. -/
theorem Ends.dueTrap (b : Bool) :
    Ends (TaskHeld v code) (if b then Machine.upd fun s => { s with traps := { s.traps with bt := true } } else pure ())
      fun t => TaskHeld v code t ∧ (b = true → t.traps.bt = true) := by
  cases b with
  | true => exact .upd fun _ k => ⟨⟨k.regs, k.sels, k.eip, k.eflags, k.ldtr, k.cr0, k.cr3, k.cpl, k.tr, k.dr⟩, fun _ => rfl⟩
  | false =>
    intro s _ t k ht
    cases ht
    exact ⟨k, nofun⟩

end

/-- The selector an image holds for a segment register. -/
def TaskImage.sel (ti : TaskImage) : Sreg → Half
  | .es => ti.es
  | .cs => ti.cs
  | .ss => ti.ss
  | .ds => ti.ds
  | .fs => ti.fs
  | .gs => ti.gs

/-- The registers of the new task: in V86 mode its level is 3. -/
def TaskImage.entered (ti : TaskImage) (kind : SwitchKind) (s : State) : State :=
  if (ti.load kind s).vm then { ti.load kind s with cpl := 3 } else ti.load kind s

section
variable (ti : TaskImage) (kind : SwitchKind) (s : State)

theorem TaskImage.entered_sel (r : Sreg) : ((ti.entered kind s).sreg r).sel = ti.sel r := by
  unfold TaskImage.entered
  split <;> cases r <;> rfl

/-- Entering in V86 mode differs in the level alone. -/
theorem TaskImage.entered_look {f : State → β} (hf : ∀ (u : State) c, f { u with cpl := c } = f u) :
    f (ti.entered kind s) = f (ti.load kind s) := by
  unfold TaskImage.entered
  split
  · exact hf _ _
  · rfl

/-- The segment registers of the new task loaded: the selectors stay. -/
theorem loadTaskSegs_held (code : Option Word) (ext : Bool) :
    Ends (· = ti.load kind s) (loadTaskSegs ti ext) (TaskHeld (ti.entered kind s) code) := by
  have hsel r : ti.sel r = ((ti.entered kind s).sreg r).sel := (ti.entered_sel kind s r).symm
  have hldt : ti.ldt = (ti.entered kind s).ldtr.sel := (ti.entered_look kind s (f := fun u => u.ldtr.sel) fun _ _ => rfl).symm
  rintro _ _ t rfl ht
  unfold loadTaskSegs at ht
  rw [M.look_bind] at ht
  cases hv : (ti.load kind s).vm with
  | true =>
    rw [hv] at ht
    have he : ti.entered kind s = { ti.load kind s with cpl := 3 } := if_pos hv
    have hstart : TaskHeld (ti.entered kind s) code (ti.loadV86 (ti.load kind s)) := by
      rw [he]
      exact ⟨fun _ _ => rfl, fun r => by cases r <;> rfl, rfl, rfl, rfl, rfl, rfl, rfl, rfl, rfl⟩
    exact Ends.loadTaskLdt hldt ext _ _ t hstart ht
  | false =>
    rw [hv] at ht
    have hstart : TaskHeld (ti.entered kind s) code (ti.load kind s) := by
      rw [show ti.entered kind s = ti.load kind s from if_neg (by simp [hv])]
      exact .refl _ _
    exact Ends.bind (.loadTaskLdt hldt ext) (fun _ => .bind (.loadTaskCS (hsel .cs) ext) fun _ =>
      .bind (.loadTaskSS (hsel .ss) ext) fun _ => .bind (.loadTaskData (hsel .ds) ext) fun _ =>
      .bind (.loadTaskData (hsel .es) ext) fun _ => .bind (.loadTaskData (hsel .fs) ext) fun _ =>
      .loadTaskData (hsel .gs) ext) _ _ t hstart ht

end

section
variable {is386 : Bool} {base : Word} {kind : SwitchKind} {ext : Bool} {code : Option Word} {s t : State}

theorem readTss_eq_ok {ti : TaskImage} {u : State} :
    readTss is386 base s = .ok ti u ↔ (if is386 then readTss386 base else readTss286 base) s = .ok ti u := by
  unfold readTss
  cases h : (if is386 then readTss386 base else readTss286 base) s with
  | ok a w => rfl
  | error x w =>
    refine iff_of_false (fun hc => ?_) nofun
    cases x with
    | exc e =>
      obtain ⟨_, _, _, hstop⟩ := M.bind_eq_ok.1 hc
      cases hstop
    | fault f => cases hc
    | refusal r => cases hc

theorem readTss_touches {ti : TaskImage} {u : State} (h : readTss is386 base s = .ok ti u) : Touches s u :=
  Quiet.ok (.ite (readTss386_quiet _) (readTss286_quiet _)) (readTss_eq_ok.1 h)

/-- A task entered holds the registers of its image, and its debug trap is due where the image says so (R785). -/
theorem enterTask_held (h : enterTask is386 base kind ext code s = .ok () t) :
    ∃ ti u, readTss is386 base s = .ok ti u ∧ TaskHeld (ti.entered kind u) code t ∧ (ti.trap = true → t.traps.bt = true) := by
  obtain ⟨ti, u, hread, hrest⟩ := M.bind_eq_ok.1 h
  exact ⟨ti, u, hread, Ends.bind (loadTaskSegs_held ti kind u code ext) (fun _ => .bind (.pushTaskCode is386 ext) fun _ =>
    .bind (.checkTaskEip ext) fun _ => .dueTrap ti.trap) _ () t rfl hrest⟩

/-! The task switch. -/

/-- TR names the new task, and TS is set. -/
def TaskSwitched (tsel : Half) (d : Desc) (s : State) : Prop :=
  s.tr.sel = tsel ∧ s.tr.base = d.base ∧ s.tr.limit = d.limit ∧ s.ts = true

/-- What a switch that completes did last: it entered the new task. -/
theorem taskSwitch_enters {tsel : Half} {d : Desc} {eip : Word} {rf : Bool}
    (h : taskSwitch tsel d kind eip rf ext code s = .ok () t) :
    ∃ is386 u, TaskSwitched tsel d u ∧ enterTask is386 d.base kind ext code u = .ok () t := by
  let Q (t : State) := ∃ is386 u, TaskSwitched tsel d u ∧ enterTask is386 d.base kind ext code u = .ok () t
  have last (is386 : Bool) : Ends (TaskSwitched tsel d) (asNewTask (enterTask is386 d.base kind ext code)) Q :=
    fun u _ t hu ht => ⟨is386, u, hu, M.asNewTask_eq_ok.1 ht⟩
  have hall : Ends (fun _ => True) (taskSwitch tsel d kind eip rf ext code) Q :=
    .seq fun _ => .seq fun s => .seq fun _ => .seq fun _ => .seq fun _ =>
      .shared (R := fun _ => True) (fun _ => .seq fun _ =>
      .shared (R := fun _ => True) (fun _ => .seq fun _ =>
      .shared (R := fun _ => True) (fun _ => .seq fun _ =>
      .shared (R := fun _ => True) (fun _ => .bind
        (.upd fun u _ => ⟨rfl, rfl, rfl, bit_putBit_same u.cr.cr0 true (by decide)⟩) fun _ => last _)
      fun _ hg => .ite (hg ()) (.seq hg))
      fun _ hg => .ite (hg ()) (.seq hg))
      fun _ hg => .ite (.seq hg) (.seq hg))
      fun _ hg => .ite (.seq hg) (.seq hg)
  exact hall s () t trivial h

/-- NT as the kind of switch leaves it (R775). -/
theorem TaskImage.load_nt (ti : TaskImage) (kind : SwitchKind) (s : State) :
    (kind = .jmp → (ti.load kind s).nt = false) ∧ (kind.nests = true → (ti.load kind s).nt = true) := by
  cases kind with
  | jmp => exact ⟨fun _ => bit_putBit_same (fixReserved ti.eflags) false (by decide), nofun⟩
  | iret => exact ⟨nofun, nofun⟩
  | call | int => exact ⟨nofun, fun _ => bit_putBit_same (fixReserved ti.eflags) true (by decide)⟩

theorem taskSwitch_loaded {tsel : Half} {d : Desc} {eip : Word} {rf : Bool}
    (h : taskSwitch tsel d kind eip rf ext code s = .ok () t) :
    t.tr.sel = tsel ∧ t.tr.base = d.base ∧ t.tr.limit = d.limit ∧ t.ts = true ∧ t.dr.dr7 &&& 0x155 = 0 ∧
      (kind = .jmp → t.nt = false) ∧ (kind.nests = true → t.nt = true) := by
  obtain ⟨is386, u, ⟨hsel, hbase, hlimit, hts⟩, henter⟩ := taskSwitch_enters h
  obtain ⟨ti, w, hread, held, -⟩ := enterTask_held henter
  have hkept : w.tr = u.tr ∧ w.cr.cr0 = u.cr.cr0 := by
    obtain ⟨m, b, c, d, r, e, rfl, -, -⟩ := readTss_touches hread
    exact ⟨rfl, rfl⟩
  have htr : t.tr = u.tr := held.tr.trans ((ti.entered_look kind w (f := State.tr) fun _ _ => rfl).trans hkept.1)
  have hcr0 : t.cr.cr0 = u.cr.cr0 :=
    held.cr0.trans ((ti.entered_look kind w (f := fun u => u.cr.cr0) fun _ _ => rfl).trans hkept.2)
  have hdr : t.dr = (ti.load kind w).dr := held.dr.trans (ti.entered_look kind w (f := State.dr) fun _ _ => rfl)
  have hfl : t.eflags = (ti.load kind w).eflags := held.eflags.trans (ti.entered_look kind w (f := State.eflags) fun _ _ => rfl)
  have hclear : (ti.load kind w).dr.dr7 &&& 0x155 = 0 := by
    show w.dr.dr7 &&& ~~~(0x155 : Word) &&& 0x155 = 0
    rw [BitVec.and_assoc]
    exact BitVec.and_zero
  have hnt : t.nt = (ti.load kind w).nt := congrArg (bit · 14) hfl
  exact ⟨htr ▸ hsel, htr ▸ hbase, htr ▸ hlimit, (congrArg (bit · 3) hcr0).trans hts, hdr ▸ hclear, hnt ▸ ti.load_nt kind w⟩

end

end Sys2Proof.Machine

/-!
What the image of a TSS in RAM holds, and a task that passes its checks entered (O60).
-/
namespace Sys2Proof.Machine

/-- The image is what the TSS in memory holds. -/
structure TaskImage.Holds (ti : TaskImage) (is386 : Bool) (base : Word) (s : State) : Prop where
  cr3 : ti.cr3 = if is386 then s.tssField base 0x1C 4 else s.cr.cr3
  eip : ti.eip = s.tssEip is386 base
  eflags : ti.eflags = if is386 then s.tssField base 0x24 4 else s.tssField base 0x10 2
  regs : ∀ r, s.tssRegs is386 base r (ti.gpr.get r)
  sels : ∀ r, ti.sel r = s.tssSelector is386 base r
  ldt : ti.ldt = s.tssLdt is386 base
  trap : is386 = true → ti.trap = bit (s.tssField base 0x64 2) 0

/-- The image a 386 DX TSS in RAM holds. -/
def State.image386 (s : State) (base : Word) : TaskImage :=
  let f := s.tssField base
  { cr3 := f 0x1C 4, eip := f 0x20 4, eflags := f 0x24 4,
    gpr := { eax := f 0x28 4, ecx := f 0x2C 4, edx := f 0x30 4, ebx := f 0x34 4,
             esp := f 0x38 4, ebp := f 0x3C 4, esi := f 0x40 4, edi := f 0x44 4 },
    es := lowHalf (f 0x48 2), cs := lowHalf (f 0x4C 2), ss := lowHalf (f 0x50 2), ds := lowHalf (f 0x54 2),
    fs := lowHalf (f 0x58 2), gs := lowHalf (f 0x5C 2), ldt := lowHalf (f 0x60 2), trap := bit (f 0x64 2) 0 }

section
variable {s t : State} {base : Word} {k : Nat}

theorem Gives.tssRead {off : Nat} {n : Width} (h : s.flat base k = true) (ho : off + n.bytes ≤ k) :
    Gives (tssRead base off n) s (s.tssField base off n.bytes) s :=
  Gives.linRead (flat_part h ho (Width.bytes_pos n))

theorem Gives.tssSel {off : Nat} (h : s.flat base k = true) (ho : off + 2 ≤ k) :
    Gives (tssSel base off) s (lowHalf (s.tssField base off 2)) s :=
  (Gives.tssRead (n := .w) h ho).bind (.pure _ s)

/-- A field of two bytes is below 2^16. -/
theorem zext16_lowHalf_field (s : State) (base : Word) (off : Nat) :
    zext16 (lowHalf (s.tssField base off 2)) = s.tssField base off 2 := by
  have h : (s.tssField base off 2).toNat < 2 ^ 16 := readLE_lt s.mem _ .w
  apply BitVec.eq_of_toNat_eq
  rw [zext16, lowHalf, BitVec.toNat_setWidth, BitVec.toNat_setWidth, Nat.mod_eq_of_lt h, Nat.mod_eq_of_lt (by omega)]

/-- A register of an 80286 TSS: its upper half is any value. -/
theorem Leads.tss286Reg {off : Nat} (h : s.flat base k = true) (ho : off + 2 ≤ k) :
    Leads (tss286Reg base off) s fun v u => zext16 (lowHalf v) = s.tssField base off 2 ∧ u = s := by
  refine (Gives.tssRead (n := .w) h ho).bind_leads ((Leads.drawWord s).bind fun free u hu => ?_)
  subst hu
  refine (Gives.pure _ u).leads ⟨?_, rfl⟩
  rw [lowHalf_withLow]
  exact zext16_lowHalf_field _ _ _

theorem Gives.readTss386 (h : s.flat base 0x68 = true) : Gives (readTss386 base) s (s.image386 base) s := by
  have rd {off : Nat} (n : Width) (ho : off + n.bytes ≤ 0x68) := Gives.tssRead h ho
  have rs {off : Nat} (ho : off + 2 ≤ 0x68) := Gives.tssSel h ho
  exact (rd .d (by decide)).bind <| (rd .d (by decide)).bind <| (rd .d (by decide)).bind <| (rd .d (by decide)).bind <|
    (rd .d (by decide)).bind <| (rd .d (by decide)).bind <| (rd .d (by decide)).bind <| (rd .d (by decide)).bind <|
    (rd .d (by decide)).bind <| (rd .d (by decide)).bind <| (rd .d (by decide)).bind <|
    (rs (by decide)).bind <| (rs (by decide)).bind <| (rs (by decide)).bind <| (rs (by decide)).bind <|
    (rs (by decide)).bind <| (rs (by decide)).bind <| (rs (by decide)).bind <|
    (rd .w (by decide)).bind (.pure _ s)

theorem image386_holds (s : State) (base : Word) : (s.image386 base).Holds true base s :=
  ⟨rfl, rfl, rfl, fun r => by cases r <;> rfl, fun r => by cases r <;> rfl, rfl, fun _ => rfl⟩

theorem Leads.readTss286 (h : s.flat base 0x2C = true) :
    Leads (readTss286 base) s fun ti u => ti.Holds false base s ∧ u = s := by
  have rs {off : Nat} (ho : off + 2 ≤ 0x2C) := Gives.tssSel h ho
  refine (Gives.look s (f := fun s => s.cr.cr3) fun _ _ _ => rfl).bind_leads ?_
  refine (Gives.tssRead (n := .w) h (by decide)).bind_leads ((Gives.tssRead (n := .w) h (by decide)).bind_leads ?_)
  refine (Leads.tss286Reg h (by decide)).bind ?_; rintro ax _ ⟨hax, rfl⟩
  refine (Leads.tss286Reg h (by decide)).bind ?_; rintro cx _ ⟨hcx, rfl⟩
  refine (Leads.tss286Reg h (by decide)).bind ?_; rintro dx _ ⟨hdx, rfl⟩
  refine (Leads.tss286Reg h (by decide)).bind ?_; rintro bx _ ⟨hbx, rfl⟩
  refine (Leads.tss286Reg h (by decide)).bind ?_; rintro sp _ ⟨hsp, rfl⟩
  refine (Leads.tss286Reg h (by decide)).bind ?_; rintro bp _ ⟨hbp, rfl⟩
  refine (Leads.tss286Reg h (by decide)).bind ?_; rintro si _ ⟨hsi, rfl⟩
  refine (Leads.tss286Reg h (by decide)).bind ?_; rintro di u ⟨hdi, rfl⟩
  refine (rs (by decide)).bind_leads <| (rs (by decide)).bind_leads <| (rs (by decide)).bind_leads <|
    (rs (by decide)).bind_leads <| (rs (by decide)).bind_leads <| (Gives.pure _ _).leads ?_
  refine ⟨⟨rfl, rfl, rfl, fun r => ?_, fun r => by cases r <;> rfl, rfl, nofun⟩, rfl⟩
  cases r with
  | ax => exact hax
  | cx => exact hcx
  | dx => exact hdx
  | bx => exact hbx
  | sp => exact hsp
  | bp => exact hbp
  | si => exact hsi
  | di => exact hdi

theorem readTss_holds {is386 : Bool} (h : s.flat base (tssLeast is386 + 1) = true) :
    ∃ ti u, readTss is386 base s = .ok ti u ∧ ti.Holds is386 base s ∧ Noted s u := by
  cases is386 with
  | true =>
    obtain ⟨w, hread, hn⟩ := (Gives.readTss386 h).run
    exact ⟨_, w, readTss_eq_ok.2 hread, image386_holds s base, hn⟩
  | false =>
    obtain ⟨ti, w, u, hread, hn, hti, rfl⟩ := Leads.readTss286 h s (.refl s)
    exact ⟨ti, w, readTss_eq_ok.2 hread, hti, hn⟩

/-! What is loaded. -/

variable {is386 : Bool} {kind : SwitchKind} {ext : Bool} {code : Option Word} {ti : TaskImage}

theorem TaskImage.Holds.load_eflags (h : ti.Holds is386 base s) (u : State) :
    (ti.load kind u).eflags = s.tssFlags is386 base kind := by
  unfold State.tssFlags
  rw [← h.eflags]
  cases kind <;> rfl

theorem enterTask_loaded (hf : s.flat base (tssLeast is386 + 1) = true)
    (h : enterTask is386 base kind ext code s = .ok () t) :
    (∀ r, (code = none ∨ r ≠ .sp) → s.tssRegs is386 base r (t.reg r)) ∧
    (∀ r, (t.sreg r).sel = s.tssSelector is386 base r) ∧
    t.eip = s.tssEip is386 base ∧ t.eflags = s.tssFlags is386 base kind ∧ t.ldtr.sel = s.tssLdt is386 base ∧
    t.cr.cr3 = (if is386 then s.tssField base 0x1C 4 else s.cr.cr3) ∧
    t.cpl = (if t.vm then 3 else selRpl (s.tssSelector is386 base .cs)) ∧
    (is386 = true → bit (s.tssField base 0x64 2) 0 = true → t.traps.bt = true) := by
  obtain ⟨ti, u, hread, held, htrap⟩ := enterTask_held h
  obtain ⟨ti', u', hread', hti, -⟩ := readTss_holds hf
  obtain ⟨rfl, rfl⟩ : ti' = ti ∧ u' = u := by
    rw [hread] at hread'
    cases hread'
    exact ⟨rfl, rfl⟩
  have hfl : (ti'.entered kind u').eflags = s.tssFlags is386 base kind :=
    (ti'.entered_look kind u' (f := State.eflags) fun _ _ => rfl).trans (hti.load_eflags u')
  refine ⟨fun r hr => ?_, fun r => ?_, ?_, held.eflags.trans hfl, ?_, ?_, ?_, fun h3 hb => htrap ((hti.trap h3).trans hb)⟩
  · rw [held.regs r hr, ti'.entered_look kind u' (f := fun u => u.reg r) fun _ _ => rfl]
    exact hti.regs r
  · rw [held.sels r, ti'.entered_sel]
    exact hti.sels r
  · exact (held.eip.trans (ti'.entered_look kind u' (f := State.eip) fun _ _ => rfl)).trans hti.eip
  · exact (held.ldtr.trans (ti'.entered_look kind u' (f := fun u => u.ldtr.sel) fun _ _ => rfl)).trans hti.ldt
  · exact (held.cr3.trans (ti'.entered_look kind u' (f := fun u => u.cr.cr3) fun _ _ => rfl)).trans hti.cr3
  · have hvm : t.vm = (ti'.load kind u').vm := congrArg (bit · 17)
      (held.eflags.trans (ti'.entered_look kind u' (f := State.eflags) fun _ _ => rfl))
    rw [held.cpl, hvm, ← hti.sels]
    unfold TaskImage.entered
    cases (ti'.load kind u').vm <;> rfl

end

end Sys2Proof.Machine

/-!
A task whose segments pass their checks is entered (O60).
-/
namespace Sys2Proof.Machine

section
variable {s : State}

/-! Two descriptors of the GDT do not overlap. -/

theorem selOffset_aligned (sel : Half) : selOffset sel % 8 = 0 ∧ selOffset sel < 2 ^ 16 := by
  refine ⟨?_, BitVec.isLt _⟩
  have h (i : Nat) (hi : i < 3) : (selOffset sel).testBit i = false := by
    have hm : (0xFFF8 : Half).getLsbD i = false := by revert hi; revert i; decide
    exact (BitVec.getLsbD_and (x := sel)).trans (by rw [hm, Bool.and_false])
  have h0 := h 0 (by decide)
  have h1 := h 1 (by decide)
  have h2 := h 2 (by decide)
  simp only [Nat.testBit_eq_decide_div_mod_eq, decide_eq_false_iff_not] at h0 h1 h2
  omega

theorem descAt_gdt {sel : Half} (h : selLdt sel = false) : (s.descAt sel).toNat = (s.gdtr.base.toNat + selOffset sel) % 2 ^ 32 := by
  rw [State.descAt, h, if_neg Bool.false_ne_true, BitVec.toNat_add, BitVec.toNat_ofNat, Nat.add_mod_mod]

/-- The rights of one descriptor written, another is as before. -/
theorem desc_setRights_other {a b : Half} (ha : selLdt a = false) (hb : selLdt b = false) (hf : s.descFlat b = true)
    (hne : s.descAt a ≠ s.descAt b) (ar : Byte) : (s.setRights a ar).desc b = s.desc b := by
  simp only [State.descFlat, State.flat, Bool.and_eq_true, decide_eq_true_eq] at hf
  obtain ⟨⟨⟨⟨-, hlo⟩, -⟩, ⟨-, hhi⟩, -⟩, -⟩ := hf
  have hplus (v : Word) (k : Nat) (hk : k < 8) : (v + BitVec.ofNat 32 k).toNat = (v.toNat + k) % 2 ^ 32 := by
    rw [BitVec.toNat_add, BitVec.toNat_ofNat, Nat.mod_eq_of_lt (show k < 2 ^ 32 by omega)]
  have hne' : (s.descAt a).toNat ≠ (s.descAt b).toNat := fun h => hne (BitVec.eq_of_toNat_eq h)
  have h4 := hplus (s.descAt b) 4 (by decide)
  have h5 := hplus (s.descAt a) 5 (by decide)
  have hx := selOffset_aligned a
  have hy := selOffset_aligned b
  have hda := descAt_gdt (s := s) ha
  have hdb := descAt_gdt (s := s) hb
  have hbase := s.gdtr.base.isLt
  have hdisj : ∀ p, p = s.descAt b ∨ p = s.descAt b + 4 →
      p.toNat + 4 ≤ (s.descAt a + 5).toNat ∨ (s.descAt a + 5).toNat + 1 ≤ p.toNat := by
    rintro p (rfl | rfl)
    · have h5 : (s.descAt a + 5).toNat = _ := h5
      omega
    · have h5 : (s.descAt a + 5).toNat = _ := h5
      have h4 : (s.descAt b + 4).toNat = _ := h4
      omega
  exact congrArg₂ (Desc.mk (s.descAt b)) (readLE_writeLE_ne _ _ (hdisj _ (.inl rfl))) (readLE_writeLE_ne _ _ (hdisj _ (.inr rfl)))

theorem desc_ne_of_kinds {a b : Half} (ha : arIsCode (s.desc a).ar = true) (hb : arWritable (s.desc b).ar = true) :
    s.descAt a ≠ s.descAt b := by
  intro h
  have hd : s.desc a = s.desc b := by rw [State.desc, State.desc, h]
  simp only [arWritable, arIsData, Bool.and_eq_true, Bool.not_eq_true'] at hb
  rw [hd, arIsCode, hb.1.2, Bool.and_false] at ha
  cases ha

/-! The loads. -/

variable {sel : Half} {ext : Bool}

theorem Gives.loadTaskLdt_null (h : selNull sel = true) : Gives (loadTaskLdt sel ext) s () s := by
  unfold Machine.loadTaskLdt
  rw [if_pos h]
  exact .pure () s

theorem Gives.loadTaskData_null {r : Sreg} (h : selNull sel = true) : Gives (loadTaskData r sel ext) s () s := by
  unfold Machine.loadTaskData
  rw [if_pos h]
  exact .pure () s

/-- A segment register loaded, its descriptor marked accessed. -/
def State.segLoaded (s : State) (r : Sreg) (sel : Half) : State :=
  (s.setRights sel ((s.desc sel).ar ||| 1)).setSreg r ((s.desc sel).toSeg sel)

theorem Gives.loadTaskCS (h : s.codeSeg sel = true) (hl : (s.desc sel).sameLevel (selRpl sel) = true) :
    Gives (loadTaskCS sel ext) s () (s.segLoaded .cs sel) := by
  simp only [State.codeSeg, Bool.and_eq_true, Bool.not_eq_true'] at h
  obtain ⟨⟨⟨⟨hnull, hin⟩, hflat⟩, hcode⟩, hpresent⟩ := h
  have hlevel : (if arConforming (s.desc sel).ar then decide ((s.desc sel).dpl ≤ selRpl sel) else (s.desc sel).dpl == selRpl sel)
      = true := hl
  exact (Gives.require (by rw [hnull]; rfl) s).bind <| (Gives.needDesc 10 ext hin hflat).bind <| (Gives.require hcode s).bind <|
    (Gives.require (by simpa using hlevel) s).bind <| (Gives.require hpresent s).bind (.loadSeg .cs hflat)

theorem Gives.loadTaskSS (h : s.stackFor sel s.cpl = true) : Gives (loadTaskSS sel ext) s () (s.segLoaded .ss sel) := by
  simp only [State.stackFor, Bool.and_eq_true, Bool.not_eq_true'] at h
  obtain ⟨⟨⟨⟨⟨⟨hnull, hin⟩, hflat⟩, hrpl⟩, hdpl⟩, hwrite⟩, hpresent⟩ := h
  exact (Gives.look s (f := State.cpl) fun _ _ _ => rfl).bind <| (Gives.require (by rw [hnull]; rfl) s).bind <|
    (Gives.needDesc 10 ext hin hflat).bind <| (Gives.require hwrite s).bind <| (Gives.require hdpl s).bind <|
    (Gives.require hrpl s).bind <| (Gives.require hpresent s).bind (.loadSeg .ss hflat)

theorem Gives.checkTaskEip (h : s.eip.toNat ≤ s.seg.cs.limit.toNat) : Gives (checkTaskEip ext) s () s :=
  (Gives.look s (f := fun s => decide (s.eip.toNat ≤ s.seg.cs.limit.toNat)) fun _ _ _ => rfl).bind
    (.require (decide_eq_true h) s)

/-- The debug trap is a record. -/
theorem Gives.dueTrap (b : Bool) :
    Gives (if b then Machine.upd fun s => { s with traps := { s.traps with bt := true } } else Pure.pure ()) s () s := by
  cases b with
  | true => exact fun t ht => ⟨_, rfl, ht.trans ⟨_, t.draws, rfl⟩⟩
  | false => exact .pure () s

/-- SS can be loaded after CS: the descriptors do not overlap. -/
theorem stackFor_segLoaded {cs ss : Half} {n : BitVec 2} (hc : s.codeSeg cs = true) (hcl : selLdt cs = false)
    (hs : s.stackFor ss n = true) (hsl : selLdt ss = false) : (s.segLoaded .cs cs).stackFor ss n = true := by
  have hparts := hs
  simp only [State.stackFor, Bool.and_eq_true] at hparts
  obtain ⟨⟨⟨⟨⟨⟨-, -⟩, hflat⟩, -⟩, -⟩, hwrite⟩, -⟩ := hparts
  simp only [State.codeSeg, Bool.and_eq_true] at hc
  have hd : (s.segLoaded .cs cs).desc ss = s.desc ss :=
    desc_setRights_other hcl hsl hflat (desc_ne_of_kinds hc.1.2 hwrite) _
  unfold State.stackFor at hs ⊢
  rw [hd]
  exact hs

/-! Entering. -/

variable {is386 : Bool} {base : Word} {kind : SwitchKind} {ti : TaskImage}

/-- A segment of the GDT is found whatever the LDT. -/
theorem descIn_gdt {u : State} (h : selLdt sel = false) (hg : u.gdtr = s.gdtr) (hi : s.descIn sel = true) : u.descIn sel = true := by
  rw [State.descIn, h, if_neg Bool.false_ne_true] at hi ⊢
  rw [hg]
  exact hi

theorem loadTaskSegs_enters (hti : ti.Holds is386 base s) (h : s.enterable is386 base kind = true) :
    Leads (loadTaskSegs ti ext) (ti.load kind s) fun _ u => u.eip.toNat ≤ u.seg.cs.limit.toNat := by
  simp only [State.enterable, Bool.and_eq_true] at h
  obtain ⟨⟨-, hldt⟩, hkind⟩ := h
  rw [← hti.ldt] at hldt
  rw [← hti.load_eflags s, ← hti.sels, ← hti.sels, ← hti.eip] at hkind
  simp only [← hti.sels] at hkind
  refine (Gives.look (ti.load kind s) (f := State.vm) fun _ _ _ => rfl).bind_leads ?_
  cases hv : (ti.load kind s).vm with
  | true =>
    rw [if_pos (show bit (ti.load kind s).eflags 17 = true from hv), decide_eq_true_eq] at hkind
    exact ((Gives.upd (g := ti.loadV86) (fun _ _ _ => rfl) _).bind (.loadTaskLdt_null hldt)).leads hkind
  | false =>
    rw [if_neg (by rw [show bit _ 17 = _ from hv]; decide)] at hkind
    simp only [Bool.and_eq_true, Bool.not_eq_true', decide_eq_true_eq, List.all_cons, List.all_nil] at hkind
    obtain ⟨⟨⟨⟨⟨⟨hcode, hcsl⟩, hlevel⟩, heip⟩, hstack⟩, hssl⟩, hds, hes, hfs, hgs, -⟩ := hkind
    have hcode' : (ti.load kind s).codeSeg ti.cs = true := by
      simp only [State.codeSeg, Bool.and_eq_true] at hcode ⊢
      obtain ⟨⟨⟨⟨hnull, hin⟩, hflat⟩, hcode⟩, hpresent⟩ := hcode
      exact ⟨⟨⟨⟨hnull, descIn_gdt (s := s) (sel := ti.cs) hcsl rfl hin⟩, hflat⟩, hcode⟩, hpresent⟩
    have hstack' : (ti.load kind s).stackFor ti.ss (selRpl ti.cs) = true := by
      simp only [State.stackFor, Bool.and_eq_true] at hstack ⊢
      obtain ⟨⟨⟨⟨⟨⟨hnull, hin⟩, hflat⟩, hrpl⟩, hdpl⟩, hwrite⟩, hpresent⟩ := hstack
      exact ⟨⟨⟨⟨⟨⟨hnull, descIn_gdt (s := s) (sel := ti.ss) hssl rfl hin⟩, hflat⟩, hrpl⟩, hdpl⟩, hwrite⟩, hpresent⟩
    exact ((Gives.loadTaskLdt_null hldt).bind <| (Gives.loadTaskCS hcode' hlevel).bind <|
      (Gives.loadTaskSS (stackFor_segLoaded hcode' hcsl hstack' hssl)).bind <| (Gives.loadTaskData_null hds).bind <|
      (Gives.loadTaskData_null hes).bind <| (Gives.loadTaskData_null hfs).bind (Gives.loadTaskData_null hgs)).leads heip

theorem enterTask_enterable (h : s.enterable is386 base kind = true) : ∃ t, enterTask is386 base kind ext none s = .ok () t := by
  have hflat := h
  simp only [State.enterable, Bool.and_eq_true] at hflat
  obtain ⟨ti, u, hread, hti, hn⟩ := readTss_holds hflat.1.1
  have hrest : Leads (do
      upd (ti.load kind)
      loadTaskSegs ti ext
      pushTaskCode is386 ext none
      checkTaskEip ext
      if ti.trap then upd fun s => { s with traps := { s.traps with bt := true } }) s fun _ _ => True :=
    (Gives.upd (g := ti.load kind) (fun _ _ _ => rfl) s).bind_leads <| (loadTaskSegs_enters hti h).bind fun _ v hv =>
      (Gives.pure () v).bind_leads <| (Gives.checkTaskEip hv).bind_leads <| (Gives.dueTrap ti.trap).leads trivial
  obtain ⟨⟨⟩, w, -, hw, -, -⟩ := hrest u hn
  exact ⟨w, (M.bind_ok _ hread).trans hw⟩

/-- Settles O60. -/
theorem taskSwitchCommits : Obligations.TaskSwitchCommits := by
  unfold Obligations.TaskSwitchCommits
  exact ⟨fun _ _ _ _ _ _ _ _ _ => taskSwitch_loaded, fun _ _ _ _ _ _ _ => enterTask_loaded, fun _ _ _ _ _ => enterTask_enterable⟩

end

end Sys2Proof.Machine

/-!
What performs a task switch: far transfers, IRET and events (O58).
-/
namespace Sys2Proof.Machine

section
variable {s t : State} {i : Instr} {l : Bool} {tsel : Half} {kind : SwitchKind} {after : State → State}

theorem Desc.isSystem_iff {d : Desc} {n : Nat} : d.isSystem n = true ↔ d.dt = false ∧ d.type = n := by
  rw [Desc.isSystem, Bool.and_eq_true, Bool.not_eq_true', beq_iff_eq]

/-- A system descriptor has one type. -/
theorem isSystem_ne {d : Desc} {n k : Nat} (h : d.isSystem n = true) (hne : n ≠ k) : d.isSystem k = false := by
  rw [Desc.isSystem_iff] at h
  rw [Desc.isSystem, h.2, beq_false_of_ne hne, Bool.and_false]

theorem arIsCode_availTss {d : Desc} (h : d.isAvailTss = true) :
    arIsCode d.ar = false ∧ d.isSystem 4 = false ∧ d.isSystem 12 = false ∧ d.isSystem 5 = false := by
  rcases Bool.or_eq_true_iff.1 h with h | h <;>
    exact ⟨arIsCode_of_system h, isSystem_ne h (by decide), isSystem_ne h (by decide), isSystem_ne h (by decide)⟩

/-- An instruction whose body comes to a task switch. -/
theorem switches_of_run {body : M Ending} {k : Unit → M Ending} {tr : Traps} {n : Nat} (hi : exec i s = runInstr l body s)
    (hl : s.lockOk l = true)
    (hb : body s = (taskSwitch tsel (s.desc tsel) kind s.eipNext s.rf false none >>= k) { s with draws := n, traps := tr })
    (hk : ∀ t, k () t = .ok .jumpKeepRf (after t)) : Switches i s tsel kind after := by
  refine ⟨n, tr, hi.trans ?_⟩
  unfold runInstr settled
  rw [if_neg (by rw [State.lockOk_lock hl]; decide), hb]
  cases hsw : taskSwitch tsel (s.desc tsel) kind s.eipNext s.rf false none { s with draws := n, traps := tr } with
  | ok a t =>
    rw [M.bind_ok _ hsw, hk]
  | error x t =>
    rw [M.bind_stop _ hsw]
    cases x <;> rfl

/-! Far transfers. -/

theorem tssReady_parts (h : s.tssReady tsel = true) : selLdt tsel = false ∧ s.descIn tsel = true ∧ s.descFlat tsel = true ∧
    (s.desc tsel).isAvailTss = true ∧ (s.desc tsel).present = true := by
  simp only [State.tssReady, Bool.and_eq_true, Bool.not_eq_true'] at h
  obtain ⟨⟨⟨⟨hldt, hin⟩, hflat⟩, havail⟩, hpresent⟩ := h
  exact ⟨hldt, hin, hflat, havail, hpresent⟩

/-- The kind of switch of a far transfer. -/
def FarKind.switch (kind : FarKind) : SwitchKind := if kind == .call then .call else .jmp

variable {far : FarKind} {sel : Half} {off : Word} {z : Sz}

theorem farTss_apply (he : s.eipOpen = false) (d : Desc) :
    farTss far tsel d s = taskSwitch tsel d far.switch s.eipNext s.rf false none s := by
  unfold farTss
  rw [M.look_bind, M.bind_ok _ (nextEip_apply he)]
  rfl

theorem farTaskGate_apply {gate : Desc} (he : s.eipOpen = false) (hc : s.cpl ≤ gate.dpl) (hr : selRpl sel ≤ gate.dpl)
    (hp : gate.present = true) (h : s.tssReady gate.gateSel = true) :
    farTaskGate far sel gate s =
      taskSwitch gate.gateSel (s.desc gate.gateSel) far.switch s.eipNext s.rf false none s := by
  obtain ⟨hldt, hin, hflat, havail, hpresent⟩ := tssReady_parts h
  unfold farTaskGate
  rw [M.look_bind]
  exact (M.bind_ok _ (M.require_pass (decide_eq_true hc))).trans <| (M.bind_ok _ (M.require_pass (decide_eq_true hr))).trans <|
    (M.bind_ok _ (M.require_pass hp)).trans <| (M.bind_ok _ (M.require_pass (by rw [hldt]; rfl))).trans <|
    (M.bind_ok _ (needDesc_ok 13 false hin hflat)).trans <| (M.bind_ok _ (M.require_pass havail)).trans <|
    (M.bind_ok _ (M.require_pass hpresent)).trans (farTss_apply he _)

theorem farTssDirect_apply (he : s.eipOpen = false) (hc : s.cpl ≤ (s.desc sel).dpl) (hr : selRpl sel ≤ (s.desc sel).dpl)
    (h : s.tssReady sel = true) :
    farTssDirect far sel (s.desc sel) s = taskSwitch sel (s.desc sel) far.switch s.eipNext s.rf false none s := by
  obtain ⟨hldt, -, -, -, hpresent⟩ := tssReady_parts h
  unfold farTssDirect
  rw [M.look_bind]
  exact (M.bind_ok _ (M.require_pass (by rw [hldt]; rfl))).trans <| (M.bind_ok _ (M.require_pass (decide_eq_true hc))).trans <|
    (M.bind_ok _ (M.require_pass (decide_eq_true hr))).trans <| (M.bind_ok _ (M.require_pass hpresent)).trans (farTss_apply he _)

/-- The selector names a TSS, or a task gate to one, and the caller may use it. -/
theorem taskTarget_eq_some (h : s.taskTarget sel = some tsel) :
    (selNull sel = false ∧ s.descIn sel = true ∧ s.descFlat sel = true) ∧
    (s.cpl ≤ (s.desc sel).dpl ∧ selRpl sel ≤ (s.desc sel).dpl ∧ (s.desc sel).present = true) ∧
    ((s.desc sel).isSystem 5 = true ∧ s.tssReady (s.desc sel).gateSel = true ∧ (s.desc sel).gateSel = tsel ∨
      s.tssReady sel = true ∧ sel = tsel) := by
  simp only [State.taskTarget, Option.ite_none_left_eq_some, Bool.or_eq_true, not_or, Bool.not_eq_true, Bool.not_eq_false',
    decide_eq_true_eq, BitVec.not_lt] at h
  obtain ⟨⟨⟨⟨⟨⟨hnull, hin⟩, hflat⟩, hc⟩, hr⟩, hp⟩, h⟩ := h
  refine ⟨⟨hnull, hin, hflat⟩, ⟨hc, hr, hp⟩, ?_⟩
  cases hg : (s.desc sel).isSystem 5 with
  | true =>
    rw [hg, if_pos rfl, Option.ite_none_right_eq_some, Option.some.injEq] at h
    exact .inl ⟨rfl, h⟩
  | false =>
    rw [hg, if_neg Bool.false_ne_true, Option.ite_none_right_eq_some, Option.some.injEq] at h
    exact .inr h

/-- A far transfer to a task. -/
theorem farProtected_task (he : s.eipOpen = false) (h : s.taskTarget sel = some tsel) :
    farProtected far z sel off s =
      (taskSwitch tsel (s.desc tsel) far.switch s.eipNext s.rf false none >>= fun _ => pure Ending.jumpKeepRf) s := by
  obtain ⟨⟨hnull, hin, hflat⟩, ⟨hc, hr, hp⟩, htarget⟩ := taskTarget_eq_some h
  unfold farProtected
  rw [M.bind_ok _ (M.require_pass (by rw [hnull]; rfl)), M.bind_ok _ (needDesc_ok 13 false hin hflat)]
  rcases htarget with ⟨hg, hready, rfl⟩ | ⟨hready, rfl⟩
  · rw [if_neg (by rw [arIsCode_of_system hg]; decide),
      if_neg (by rw [isSystem_ne hg (k := 4) (by decide), isSystem_ne hg (k := 12) (by decide)]; decide), if_pos hg]
    exact M.bind_congr (farTaskGate_apply he hc hr hp hready)
  · have havail := (tssReady_parts hready).2.2.2.1
    obtain ⟨hcode, h4, h12, h5⟩ := arIsCode_availTss havail
    rw [if_neg (by rw [hcode]; decide), if_neg (by rw [h4, h12]; decide), if_neg (by rw [h5]; decide), if_pos havail]
    exact M.bind_congr (farTssDirect_apply he hc hr hready)

theorem farTransfer_task (hm : s.mode = .prot) (he : s.eipOpen = false) (h : s.taskTarget sel = some tsel) :
    farTransfer far z sel off s =
      (taskSwitch tsel (s.desc tsel) far.switch s.eipNext s.rf false none >>= fun _ => pure Ending.jumpKeepRf) s := by
  unfold farTransfer
  rw [M.look_bind, hm]
  exact farProtected_task he h

/-- Far JMP and CALL to a task. -/
theorem farTransfer_switches {f : FarForm} (hi : exec i s = runInstr false (farPointer f >>= fun p => farTransfer far p.1 p.2.2 p.2.1) s)
    (hs : s.plain = true) (hm : s.mode = .prot) (hok : farTargetOk f s = true) (h : s.taskTarget (farTarget f s).2.1 = some tsel) :
    Switches i s tsel far.switch id := by
  have hlock := State.lockOk_of_plain hs false
  obtain ⟨w, hw, tr, n, rfl⟩ := (Gives.farPointer hok).run
  refine switches_of_run (k := fun _ => pure .jumpKeepRf) (tr := tr) (n := n) hi hlock ?_ fun _ => rfl
  rw [M.bind_ok _ hw]
  have htask := farTransfer_task (s := { s with traps := tr, draws := n }) (far := far) (z := (farTarget f s).1)
    (off := (farTarget f s).2.2) hm (State.eipOpen_of_lockOk hlock) h
  rw [State.eipNext_still (State.eipOpen_of_lockOk hlock) ((Still.refl s).noted ⟨tr, n, rfl⟩)] at htask
  exact htask

/-! IRET. -/

/-- IRET in a nested task. -/
theorem returnFromEvent_task (hm : s.mode = .prot) (hnt : s.nt = true) :
    returnFromEvent z s = (iretTask >>= fun _ => upd fun s => { s with nmiInService := false }) s := by
  have hp : iretProtected z s = iretTask s := by
    unfold iretProtected
    rw [M.look_bind]
    exact congrFun (if_pos hnt) s
  unfold returnFromEvent
  rw [M.look_bind, hm]
  exact M.bind_congr hp

theorem iretTask_apply (he : s.eipOpen = false) (h : s.backReady = true) :
    iretTask s = taskSwitch s.backLink (s.desc s.backLink) .iret s.eipNext s.rf false none s := by
  simp only [State.backReady, Bool.and_eq_true, Bool.not_eq_true', decide_eq_true_eq] at h
  obtain ⟨⟨⟨⟨⟨⟨hlimit, hlink⟩, hldt⟩, hin⟩, hflat⟩, hbusy⟩, hpresent⟩ := h
  have hread : tssSel s.tr.base 0 s = .ok s.backLink s := by
    have hsel := tssSel_flat (base := s.tr.base) (off := 0) (by rwa [BitVec.add_zero])
    rwa [State.tssField, BitVec.add_zero] at hsel
  unfold iretTask
  rw [M.look_bind]
  exact (M.bind_ok _ (needTss_ok false hlimit)).trans <| (M.bind_ok _ hread).trans <|
    (M.bind_ok _ (M.require_pass (by rw [hldt]; rfl))).trans <| (M.bind_ok _ (needDesc_ok 10 false hin hflat)).trans <|
    (M.bind_ok _ (M.require_pass hbusy)).trans <| (M.bind_ok _ (M.require_pass hpresent)).trans <|
    M.bind_ok _ (nextEip_apply he)

theorem iret_switches (hs : s.plain = true) (hm : s.mode = .prot) (hnt : s.nt = true) (h : s.backReady = true) :
    Switches (.iret z) s s.backLink .iret fun t => { t with nmiInService := false } := by
  have hlock := State.lockOk_of_plain hs false
  refine switches_of_run (body := returnFromEvent z >>= fun _ => pure .jumpKeepRf)
    (k := fun _ => (upd fun s => { s with nmiInService := false }) >>= fun _ => pure .jumpKeepRf) (tr := s.traps) (n := s.draws) rfl hlock ?_ fun _ => rfl
  calc (returnFromEvent z >>= fun _ => pure Ending.jumpKeepRf) s
    _ = ((iretTask >>= fun _ => upd fun s => { s with nmiInService := false }) >>= fun _ => pure Ending.jumpKeepRf) s :=
        M.bind_congr (returnFromEvent_task hm hnt)
    _ = (iretTask >>= fun _ => (upd fun s => { s with nmiInService := false }) >>= fun _ => pure Ending.jumpKeepRf) s := by
        rw [bind_assoc]
    _ = _ := M.bind_congr (iretTask_apply (State.eipOpen_of_lockOk hlock) h)

/-- The back link lies beyond the limit of TR (R145, D37). -/
theorem iret_noLink (hs : s.plain = true) (hm : s.mode = .prot) (hnt : s.nt = true) (h : s.tr.limit = 0) :
    exec (.iret z) s = takeEvent (faultOf 10 (some (selCode s.tr.sel false))) s.eip s := by
  have htask : iretTask s = .error (.exc (faultOf 10 (some (selCode s.tr.sel false)))) s := by
    unfold iretTask
    rw [M.look_bind]
    exact M.bind_stop _ (needTss_beyond false (by rw [h]; decide))
  have hbody : (returnFromEvent z >>= fun _ => pure Ending.jumpKeepRf) s = .error (.exc (faultOf 10 (some (selCode s.tr.sel false)))) s :=
    M.bind_stop _ ((returnFromEvent_task hm hnt).trans (M.bind_stop _ htask))
  exact exec_fault_rollback rfl (State.lockOk_of_plain hs false) rfl hbody rfl

/-! Events. -/

variable {e : Exc} {ret : Word}

theorem deliverTask_apply {gate : Desc} {rf ext : Bool} {err : Option Word} (h : s.tssReady gate.gateSel = true) :
    deliverTask gate rf ext ret err s = taskSwitch gate.gateSel (s.desc gate.gateSel) .int ret rf ext err s := by
  obtain ⟨hldt, hin, hflat, havail, hpresent⟩ := tssReady_parts h
  unfold deliverTask
  exact (M.bind_ok _ (M.require_pass (by rw [hldt]; rfl))).trans <| (M.bind_ok _ (needDesc_ok 13 ext hin hflat)).trans <|
    (M.bind_ok _ (M.require_pass havail)).trans <| M.bind_ok _ (M.require_pass hpresent)

/-- The error code as an item: only draws precede it. -/
theorem codeItem_apply (e : Exc) (s : State) :
    ∃ code k, codeItem e s = .ok code { s with draws := k } ∧ e.pushes code.toList := by
  have hdraws : ∃ code k, codeItem e s = .ok code { s with draws := k } := by
    unfold codeItem
    cases e.code with
    | none => exact ⟨_, s.draws, rfl⟩
    | some c => exact ⟨_, s.draws + 1, rfl⟩
  obtain ⟨code, k, hcode⟩ := hdraws
  obtain ⟨code', w, u, hcode', -, hpushes, -⟩ := Leads.codeItem e s s (.refl s)
  rw [hcode] at hcode'
  cases hcode'
  exact ⟨code, k, hcode, hpushes⟩

/-- An event through a gate of protected mode: the kind of the gate decides (R730). -/
theorem deliver_open (ho : s.gateOpen e = true) (hg : (s.gate e.vec).isIdtGate = true) :
    ∃ (k : Nat) (code : Option Word), e.pushes code.toList ∧ deliver e ret s =
      (if (s.gate e.vec).type == 5 then
        deliverTask (s.gate e.vec) (imageRf s e.kind) e.kind.ext ret code >>= fun _ => pure true
      else deliverGate (s.gate e.vec) (imageRf s e.kind) e.kind.ext ret code >>= fun _ => pure false) { s with draws := k } := by
  simp only [State.gateOpen, Bool.and_eq_true, decide_eq_true_eq] at ho
  obtain ⟨⟨⟨⟨⟨hpe, hlimit⟩, hlo⟩, hhi⟩, hpresent⟩, hlevel⟩ := ho
  obtain ⟨code, k, hcode, hpushes⟩ := codeItem_apply e s
  refine ⟨k, code, hpushes, ?_⟩
  unfold deliver
  rw [M.look_bind, hpe, if_pos rfl]
  unfold deliverProtected
  rw [M.look_bind]
  exact (M.bind_ok _ (M.require_pass (decide_eq_true hlimit))).trans <| (M.bind_ok _ (readDesc_flat hlo hhi)).trans <|
    (M.bind_ok _ (M.require_pass hg)).trans <| (M.bind_ok _ (M.require_pass hlevel)).trans <|
    (M.bind_ok _ (M.require_pass hpresent)).trans (M.bind_ok _ hcode)

/-- An event through a task gate (R737). -/
theorem deliver_task (ho : s.gateOpen e = true) (hg : (s.gate e.vec).isSystem 5 = true)
    (hr : s.tssReady (s.gate e.vec).gateSel = true) :
    ∃ (k : Nat) (code : Option Word), e.pushes code.toList ∧ deliver e ret s =
      (taskSwitch (s.gate e.vec).gateSel (s.desc (s.gate e.vec).gateSel) .int ret (imageRf s e.kind) e.kind.ext code >>=
        fun _ => pure true) { s with draws := k } := by
  obtain ⟨k, code, hpushes, hd⟩ := deliver_open (ret := ret) ho (by rw [Desc.isIdtGate, hg]; rfl)
  have htype : ((s.gate e.vec).type == 5) = true := beq_iff_eq.2 (Desc.isSystem_iff.1 hg).2
  refine ⟨k, code, hpushes, hd.trans ((congrFun (if_pos htype) _).trans ?_)⟩
  exact M.bind_congr (deliverTask_apply (s := { s with draws := k }) hr)

/-- What an event through a task gate leaves: a fault of the new task waits for the boundary (R774). -/
theorem takeEvent_task (ho : s.gateOpen e = true) (hg : (s.gate e.vec).isSystem 5 = true)
    (hr : s.tssReady (s.gate e.vec).gateSel = true) :
    ∃ (k : Nat) (code : Option Word), e.pushes code.toList ∧
      match taskSwitch (s.gate e.vec).gateSel (s.desc (s.gate e.vec).gateSel) .int ret (imageRf s e.kind) e.kind.ext code
          { s with draws := k, traps := .none } with
      | .ok () t => takeEvent e ret s = .next (atBoundary t)
      | .error (.exc x) t => x.committed = true →
        takeEvent e ret s = .next { atBoundary t with pendingExc := some { x with committed := false } }
      | .error (.fault x) _ => takeEvent e ret s = .fault x
      | .error (.refusal x) _ => takeEvent e ret s = .refused x := by
  obtain ⟨k, code, hpushes, hd⟩ := deliver_task (s := { s with traps := .none }) (ret := ret) ho hg hr
  refine ⟨k, code, hpushes, ?_⟩
  have hd : deliver e ret { s with traps := .none } =
    (taskSwitch (s.gate e.vec).gateSel (s.desc (s.gate e.vec).gateSel) .int ret (imageRf s e.kind) e.kind.ext code >>=
        fun _ => pure true) { s with draws := k, traps := .none } := hd
  unfold takeEvent deliverEvent
  rw [hd]
  cases hsw : taskSwitch (s.gate e.vec).gateSel (s.desc (s.gate e.vec).gateSel) .int ret (imageRf s e.kind) e.kind.ext code
      { s with draws := k, traps := .none } with
  | ok a t =>
    rw [M.bind_ok _ hsw]
    rfl
  | error x t =>
    rw [M.bind_stop _ hsw]
    cases x with
    | exc x => exact fun hc => if_pos hc
    | fault x => rfl
    | refusal x => rfl

/-- Settles O58. -/
theorem taskTransfers : Obligations.TaskTransfers := by
  unfold Obligations.TaskTransfers
  exact ⟨fun f s tsel hs hm hok h => ⟨farTransfer_switches (far := .jmp) rfl hs hm hok h, farTransfer_switches (far := .call) rfl hs hm hok h⟩,
    fun _ _ => iret_switches, fun _ _ => iret_noLink, fun _ _ _ => takeEvent_task⟩

end

end Sys2Proof.Machine

/-!
INT n, INT 3, INTO and BOUND (O32).
-/
namespace Sys2Proof.Machine

section
variable {s t u : State} {e : Exc} {ret : Word} {v : Byte} {i : Instr}

/-! Delivery says whether it switched tasks. -/

theorem deliver_real_false {b : Bool} (h : s.realReady e.vec = true) (hd : deliver e ret s = .ok b t) : b = false := by
  unfold deliver at hd
  rw [M.look_bind, pe_of_realReady h, if_neg Bool.false_ne_true] at hd
  obtain ⟨_, _, _, hb⟩ := M.bind_eq_ok.1 hd
  cases hb
  rfl

/-- A gate to code is one of the table, and not a task gate. -/
theorem codeGate_kind {g : Desc} (h : (g.isSystem 6 || g.isSystem 7 || g.isSystem 14 || g.isSystem 15) = true) :
    g.isIdtGate = true ∧ g.type ≠ 5 := by
  have htype : g.type ≠ 5 := by
    intro h5
    rw [Desc.isSystem, Desc.isSystem, Desc.isSystem, Desc.isSystem, h5] at h
    simp at h
  refine ⟨?_, htype⟩
  rw [Desc.isIdtGate]
  simp only [Bool.or_eq_true] at h ⊢
  rcases h with ((h | h) | h) | h
  · exact .inl (.inl (.inl (.inr h)))
  · exact .inl (.inl (.inr h))
  · exact .inl (.inr h)
  · exact .inr h

theorem deliver_code_false {b : Bool} (h : s.gateToCode e = true) (hd : deliver e ret s = .ok b t) : b = false := by
  have hopen := h
  simp only [State.gateToCode, Bool.and_eq_true] at hopen
  obtain ⟨⟨⟨hopen, htype⟩, -⟩, -⟩ := hopen
  obtain ⟨hgate, hne⟩ := codeGate_kind htype
  obtain ⟨k, code, -, hd'⟩ := deliver_open (ret := ret) hopen hgate
  rw [hd', if_neg (by rw [beq_false_of_ne hne]; decide)] at hd
  obtain ⟨_, _, _, hb⟩ := M.bind_eq_ok.1 hd
  cases hb
  rfl

/-! The instructions. -/

/-- The instruction is the software interrupt of a vector. -/
def IsSoft (i : Instr) (v : Byte) (s : State) : Prop :=
  ∃ body : M Ending, exec i s = runInstr false body s ∧ body s = softwareInterrupt v s

theorem isSoft_int3 (s : State) : IsSoft .int3 3 s := ⟨_, rfl, rfl⟩

theorem isSoft_int (h : s.mode = .v86 → s.iopl = 3) : IsSoft (.int v) v s := by
  refine ⟨_, rfl, ?_⟩
  rw [M.look_bind]
  refine M.bind_ok _ (M.require_pass ?_)
  by_cases hm : s.mode = .v86
  · exact Bool.or_eq_true_iff.2 (.inr (beq_iff_eq.2 (h hm)))
  · exact Bool.or_eq_true_iff.2 (.inl (bne_iff_ne.2 hm))

theorem isSoft_into (h : s.ofl = true) : IsSoft .into 4 s := by
  refine ⟨_, rfl, ?_⟩
  rw [M.look_bind]
  exact congrFun (if_pos h) s

theorem softwareInterrupt_apply (he : s.eipOpen = false) :
    softwareInterrupt v s =
      (deliver (softEvent v) s.eipNext >>= fun b => pure (if b then Ending.jumpKeepRf else Ending.jump)) s :=
  M.bind_ok _ (nextEip_apply he)

/-- A software interrupt that enters its handler within the task. -/
theorem soft_enters {Q : State → Prop} (hi : IsSoft i v s) (hs : s.plain = true)
    (h : Leads (deliver (softEvent v) s.eipNext) s fun _ u => Q u)
    (hf : ∀ {b t}, deliver (softEvent v) s.eipNext s = .ok b t → b = false) :
    ∃ t u, exec i s = .next t ∧ Q u ∧ Like t u ∧ t.eip = u.eip ∧ t.eflags = putBit u.eflags 16 false := by
  have hlock := State.lockOk_of_plain hs false
  obtain ⟨body, hexec, hbody⟩ := hi
  obtain ⟨b, w, u, hd, hn, hq⟩ := h s (.refl s)
  have hrun : body s = .ok .jump w := by
    rw [hbody, softwareInterrupt_apply (State.eipOpen_of_lockOk hlock), M.bind_ok _ hd, hf hd]
    rfl
  obtain ⟨t, ht, hl, heip, hfl⟩ := exec_of_run hexec hlock (by decide) hrun hn
  exact ⟨t, u, ht, hq, hl, heip, hfl⟩

/-- A software interrupt that switches tasks. -/
theorem soft_switches (hi : IsSoft i v s) (hs : s.plain = true) (ho : s.gateOpen (softEvent v) = true)
    (hg : (s.gate v).isSystem 5 = true) (hr : s.tssReady (s.gate v).gateSel = true) :
    Switches i s (s.gate v).gateSel .int id := by
  have hlock := State.lockOk_of_plain hs false
  obtain ⟨body, hexec, hbody⟩ := hi
  obtain ⟨k, code, hcode, hd⟩ := deliver_task (ret := s.eipNext) ho hg hr
  have hnone : code = none := by
    cases code with
    | none => rfl
    | some c => exact hcode.elim
  subst hnone
  refine switches_of_run (tr := s.traps) (n := k)
    (k := fun _ => pure true >>= fun b : Bool => pure (if b then Ending.jumpKeepRf else Ending.jump)) hexec hlock ?_ fun _ => rfl
  rw [hbody, softwareInterrupt_apply (State.eipOpen_of_lockOk hlock), M.bind_congr hd, bind_assoc]
  rfl

/-- A gate that is not open to the level of the instruction (R799). -/
theorem soft_refused (hi : IsSoft i v s) (hs : s.plain = true) (hpe : s.pe = true) (hl : 8 * v.toNat + 7 ≤ s.idtr.limit.toNat)
    (hlo : s.flat (s.idtr.base + BitVec.ofNat 32 (8 * v.toNat)) 4 = true)
    (hhi : s.flat (s.idtr.base + BitVec.ofNat 32 (8 * v.toNat) + 4) 4 = true) (hg : (s.gate v).isIdtGate = true)
    (hdpl : (s.gate v).dpl < s.cpl) :
    exec i s = takeEvent (faultOf 13 (some (BitVec.ofNat 16 (8 * v.toNat + 2)))) s.eip s := by
  have hlock := State.lockOk_of_plain hs false
  obtain ⟨body, hexec, hbody⟩ := hi
  have hd : deliver (softEvent v) s.eipNext s = .error (.exc (faultOf 13 (some (idtCode v false)))) s := by
    unfold deliver
    rw [M.look_bind, hpe, if_pos rfl]
    unfold deliverProtected
    rw [M.look_bind]
    have hshut : (!((softEvent v).kind == .software && decide ((s.gate v).dpl < s.cpl))) = false := by
      rw [decide_eq_true hdpl]
      rfl
    exact (M.bind_ok _ (M.require_pass (decide_eq_true hl))).trans <| (M.bind_ok _ (readDesc_flat hlo hhi)).trans <|
      (M.bind_ok _ (M.require_pass hg)).trans (M.bind_stop _ (M.require_fail hshut))
  have hcode : idtCode v false = BitVec.ofNat 16 (8 * v.toNat + 2) := BitVec.or_zero
  have hrun : body s = .error (.exc (faultOf 13 (some (BitVec.ofNat 16 (8 * v.toNat + 2))))) s := by
    rw [hbody, softwareInterrupt_apply (State.eipOpen_of_lockOk hlock), M.bind_stop _ hd, hcode]
  exact exec_fault_rollback hexec hlock rfl hrun rfl

/-- VM is not among the flags a gate clears. -/
theorem gateEflags_vm (isInt : Bool) (fl : Word) : gateEflags isInt (putBit fl 17 false) = putBit (gateEflags isInt fl) 17 false := by
  unfold gateEflags
  rw [putBit_comm fl (i := 17) (j := 8) _ _ (by decide), putBit_comm _ (i := 17) (j := 14) _ _ (by decide)]
  cases isInt with
  | true => exact putBit_comm (putBit (putBit fl 8 false) 14 false) (i := 17) (j := 9) false false (by decide)
  | false => rfl

theorem isSoft_interrupts (hi : IsSoft i v s) (hs : s.plain = true) : Interrupts i v s := by
  refine ⟨fun h => ?_, fun h => ?_, fun h => ?_, fun h => ?_, soft_switches hi hs, soft_refused hi hs⟩
  · obtain ⟨t, u, ht, rfl, hl, heip, hfl⟩ := soft_enters hi hs (deliver_real (pe_of_realReady h)
      ((deliverReal_gives (e := softEvent v) (ret := s.eipNext) h).leads rfl)) (deliver_real_false (e := softEvent v) h)
    have hframe : Frame s (s.realEntered v s.eipNext) [.sp] (s.pushCovers .w 3) :=
      (realEntered_frame s v s.eipNext).of_regs_mem (fun _ => rfl) fun _ => rfl
    exact ⟨t, ht, hl, heip, hfl, hframe.of_like hl⟩
  · have hcode : s.gateToCode (softEvent v) = true := by
      simp only [State.sameReady, Bool.and_eq_true] at h
      exact h.1.1.2
    obtain ⟨t, u, ht, hu, hl, heip, hfl⟩ := soft_enters hi hs (deliver_same h) (deliver_code_false hcode)
    have hact : u.activity = s.activity ∧ u.eflags = gateEflags (s.gate v).clearsIf s.eflags := by
      obtain ⟨_, _, _, -, -, -, rfl⟩ := hu
      exact ⟨rfl, rfl⟩
    exact hu.enters ht (by rw [← hact.1]; exact hl) heip (by rw [hfl, hact.2])
  · have hcode : s.gateToCode (softEvent v) = true := by
      simp only [State.raiseReady, Bool.and_eq_true] at h
      exact h.1.1.2
    obtain ⟨t, u, ht, hu, hl, heip, hfl⟩ := soft_enters hi hs (deliver_inner h) (deliver_code_false hcode)
    have hact : u.activity = s.activity ∧ u.eflags = gateEflags (s.gate v).clearsIf s.eflags := by
      obtain ⟨_, _, _, _, -, -, -, -, rfl⟩ := hu
      exact ⟨rfl, rfl⟩
    exact hu.enters ht (by rw [← hact.1]; exact hl) heip (by rw [hfl, hact.2])
  · have hcode : s.gateToCode (softEvent v) = true := by
      simp only [State.leaveReady, Bool.and_eq_true] at h
      exact h.1.1.1.2
    obtain ⟨t, u, ht, hu, hl, heip, hfl⟩ := soft_enters hi hs (deliver_fromV86 h) (deliver_code_false hcode)
    have hact : u.activity = s.activity ∧ u.eflags = gateEflags (s.gate v).clearsIf (putBit s.eflags 17 false) := by
      obtain ⟨_, _, _, -, -, -, rfl⟩ := hu
      exact ⟨rfl, rfl⟩
    refine hu.enters ht (by rw [← hact.1]; exact hl) heip ?_
    rw [hfl, hact.2, gateEflags_vm, putBit_comm _ _ _ (by decide)]

/-- INTO with OF clear does nothing. -/
theorem into_done (hs : s.plain = true) (h : s.ofl = false) : Done .into s s .same [] noByte := by
  have hbody : Gives (Machine.look (·.ofl) >>= fun b : Bool => if b then softwareInterrupt 4 else pure .next) s .next s := by
    refine (Gives.look s (f := State.ofl) fun _ _ _ => rfl).bind ?_
    rw [h]
    exact .pure _ s
  exact goes_next_of_gives rfl (State.lockOk_of_plain hs false) hbody (.refl s) (.refl s)

/-! BOUND. -/

variable {z : Sz} {r : Gpr} {m : Mem}

theorem truncZ_small {x : Word} (h : x.toNat ≤ z.top) : truncZ z x = x := by
  cases z with
  | s32 => rfl
  | s16 =>
    apply BitVec.eq_of_toNat_eq
    have hx : x.toNat < 2 ^ 16 := Nat.lt_succ_of_le h
    show (zext16 (lowHalf x)).toNat = _
    rw [zext16, lowHalf, BitVec.toNat_setWidth, BitVec.toNat_setWidth, Nat.mod_eq_of_lt hx, Nat.mod_eq_of_lt (by omega)]

/-- The upper bound stands after the lower one, where its address size holds both. -/
theorem at_bound {ea : Word} (h : ea.toNat + z.width.bytes ≤ m.size.top) :
    Mem.at_ m ea z.width.bytes = ea + BitVec.ofNat 32 z.width.bytes := by
  have hk : z.width.bytes ≤ 4 := by cases z <;> decide
  have htop : m.size.top < 2 ^ 32 := by cases m.size <;> decide
  refine truncZ_small ?_
  rw [BitVec.toNat_add, BitVec.toNat_ofNat, Nat.mod_eq_of_lt (show z.width.bytes < 2 ^ 32 by omega), Nat.mod_eq_of_lt (by omega)]
  exact h

theorem bound_outcomes (hs : s.plain = true) (ho : m.isOpen = false) :
    let ea := s.offsetOf m
    let lo := Spot.mem z.width m.size (s.segOf m) ea
    let hi := Spot.mem z.width m.size (s.segOf m) (ea + BitVec.ofNat 32 z.width.bytes)
    let raises := fun e => ∃ k, exec (.bound z r m) s = takeEvent e s.eip { s with draws := k }
    lo.ok s .read = true →
    if m.size.top < ea.toNat + z.width.bytes then raises (faultOf (Sreg.violation (s.segOf m)) (some 0))
    else hi.ok s .read = true →
      if signedW z.width (lo.value s) ≤ signedW z.width (s.regZ z r) ∧
         signedW z.width (s.regZ z r) ≤ signedW z.width (hi.value s)
      then Done (.bound z r m) s s .same [] noByte
      else raises (faultOf 5 none) := by
  intro ea lo hi raises hlo
  have hlock := State.lockOk_of_plain hs false
  split
  next htop =>
    exact exec_raises rfl hlock rfl ((Gives.effAddr ho s).bind_raises <| (Gives.segOf m s).bind_raises <|
      (Gives.memRead hlo).bind_raises <| (Raises.require (decide_eq_false (Nat.not_le.2 htop)) s).bind) rfl
  next htop =>
    intro hhi
    have htop : ea.toNat + z.width.bytes ≤ m.size.top := Nat.not_lt.1 htop
    have hupper : Gives (memRead m.size (s.segOf m) (Mem.at_ m ea z.width.bytes) z.width) s (hi.value s) s := by
      rw [at_bound htop]
      exact .memRead hhi
    split
    next hin =>
      refine done_of_gives rfl hlock ((Gives.effAddr ho s).bind <| (Gives.segOf m s).bind <| (Gives.memRead hlo).bind <|
        (Gives.require (decide_eq_true htop) s).bind <| hupper.bind <| (Gives.getRegZ z r s).bind <| .require ?_ s) (.refl s) (.refl s)
      rw [decide_eq_true hin.1, decide_eq_true hin.2]
      rfl
    next hout =>
      refine exec_raises rfl hlock rfl ((Gives.effAddr ho s).bind_raises <| (Gives.segOf m s).bind_raises <|
        (Gives.memRead hlo).bind_raises <| (Gives.require (decide_eq_true htop) s).bind_raises <| hupper.bind_raises <|
        (Gives.getRegZ z r s).bind_raises <| .require ?_ s) rfl
      rw [← Bool.decide_and]
      exact decide_eq_false hout

/-- Settles O32. -/
theorem softwareInterrupts : Obligations.SoftwareInterrupts := by
  unfold Obligations.SoftwareInterrupts
  exact ⟨fun v s hs => ⟨fun h => isSoft_interrupts (isSoft_int h) hs, isSoft_interrupts (isSoft_int3 s) hs,
    fun h => isSoft_interrupts (isSoft_into h) hs⟩, fun _ => into_done, fun _ _ _ _ => bound_outcomes⟩

end

end Sys2Proof.Machine
